-- ==== Sys2Proof/Word.lean ====
section
/-! DEFINITION. The word types of the machine, the finite maps that hold sparse state, and the vocabulary of
operands: the codes that an instruction word's fields stand for (R137 to R146, chapter 05) and the plain
records that an event row of the opcode table carries. -/

namespace Sys2Proof

abbrev Byte := BitVec 8
abbrev W32 := BitVec 32
abbrev W64 := BitVec 64
/-- A lane mask of a flock: bit i is the lane whose `SR.LANEID` is i (R15). -/
abbrev Mask := BitVec 64
/-- A program counter in instruction units (R136). -/
abbrev Pc := BitVec 55
/-- A 96-bit instruction word (R137). -/
abbrev IWord := BitVec 96
/-- A 64-byte fetch line (R131). -/
abbrev Line := BitVec 512

/-! ### Sparse maps

A register file, a memory or a table that is mostly at one value is held as a list of pairs with strictly
rising keys that never lists the value an unlisted key reads as, so that equal contents are equal lists. -/

abbrev Map (α : Type) := List (Nat × α)

/-- The value at key `k`; `d` is what an unlisted key reads as. -/
def Map.get {α : Type} (d : α) : Map α → Nat → α
  | [], _ => d
  | (i, v) :: r, k => if k < i then d else if k = i then v else Map.get d r k

/-- `m` with value `v` at key `k`, in canonical form again. -/
def Map.set {α : Type} [DecidableEq α] (d : α) : Map α → Nat → α → Map α
  | [], k, v => if v = d then [] else [(k, v)]
  | (i, w) :: r, k, v =>
    if k < i then (if v = d then (i, w) :: r else (k, v) :: (i, w) :: r)
    else if k = i then (if v = d then r else (k, v) :: r)
    else (i, w) :: Map.set d r k v

/-- Every key of `m` is above `lo` (where a bound is given), keys rise strictly, and no entry is the default. -/
def Map.wfFrom {α : Type} [DecidableEq α] (d : α) : Option Nat → Map α → Bool
  | _, [] => true
  | lo, (i, v) :: r => (match lo with | none => true | some l => decide (l < i)) && decide (v ≠ d) && Map.wfFrom d (some i) r

/-- The canonical form of a map. -/
def Map.wf {α : Type} [DecidableEq α] (d : α) (m : Map α) : Bool := Map.wfFrom d none m

/-! ### Codes of an instruction word -/

/-- The element types, in the order of their 5-bit codes 0 to 18 (R145). -/
inductive Ty where
  | b32 | s32 | n32 | s16 | n16 | s8 | n8 | s64 | n64 | f32 | f16 | bf16 | e4m3 | e5m2 | mxf4 | s4 | e3m2 | e2m3 | b64
  deriving DecidableEq, Repr

/-- The rounding codes 0 to 6 (Table 4.5); code 7 is reserved. -/
inductive Rm where
  | rne | rz | ru | rd | rna | sr | dyn
  deriving DecidableEq, Repr

/-- The address spaces 0 to 5 (Table 3.5); codes 6 and 7 are reserved. -/
inductive Space where
  | global | fold | paddock | window | priv | const
  deriving DecidableEq, Repr

/-- The scopes 0 to 5 (Table 5.7); codes 6 and 7 are reserved. -/
inductive Scope where
  | flock | fold | paddock | die | device | domain
  deriving DecidableEq, Repr

/-- The orders 0 to 3 (Table 5.7). -/
inductive Ord4 where
  | plain | acq | rel | acqrel
  deriving DecidableEq, Repr

/-- The cache policies 0 to 3 (Table 3.9); codes 4 to 7 are reserved. -/
inductive Cpol where
  | deflt | nol1 | stream | last
  deriving DecidableEq, Repr

/-- The types of `ATM` words, codes 0 to 6 (Table 9.5). -/
inductive AtmTy where
  | s32 | n32 | s64 | n64 | f32 | f16 | bf16
  deriving DecidableEq, Repr

/-- The types of a pair-word half, codes 0 to 7 (Table 5.7). -/
inductive PairTy where
  | b32 | s32 | n32 | f32 | f16 | bf16 | s16 | n16
  deriving DecidableEq, Repr

/-- The operations of a pair-word half: the class-A opcodes of Table 6.2 (R161). -/
inductive PairOp where
  | add | sub | mul | mad | min | max | abs | and | or | xor | not | shl | shr | sra | sel | mov
  | fadd | fsub | fmul | fma
  deriving DecidableEq, Repr

/-- A 9-bit source field (Table 5.4): a vector register, a latch, a scalar or an inline constant.
A source field that an instruction does not read is zero, which is `v 0`. -/
inductive Src where
  | v (n : BitVec 8)
  | lat (n : BitVec 2)
  | s (n : BitVec 7)
  | c (n : BitVec 6)
  deriving DecidableEq, Repr

/-- The common header below `FMT` and `OPC` (Table 5.2). -/
structure Hdr where
  grd : BitVec 4
  gneg : Bool
  wait : BitVec 8
  nwb : Bool
  len : Bool
  lat : BitVec 2
  deriving DecidableEq, Repr

/-! ### The bodies of the formats (Table 5.6) -/

structure SysOp where
  sd : BitVec 7
  sa : Src
  srid : BitVec 12
  sop : BitVec 8
  imm : BitVec 30
  deriving DecidableEq, Repr

structure VrOp where
  dst : BitVec 8
  sa : Src
  sb : Src
  sc : Src
  ty : Ty
  rm : Rm
  md : BitVec 8
  deriving DecidableEq, Repr

structure ViOp where
  dst : BitVec 8
  sa : Src
  ty : Ty
  rm : Rm
  md : BitVec 8
  imm : BitVec 32
  deriving DecidableEq, Repr

structure ScOp where
  sd : BitVec 7
  sa : Src
  sb : Src
  ty : Ty
  imm : BitVec 32
  immsel : Bool
  deriving DecidableEq, Repr

structure BrOp where
  bc : BitVec 4
  ss : BitVec 7
  mb : BitVec 4
  off : BitVec 32
  joff : BitVec 19
  deriving DecidableEq, Repr

structure MemOp where
  data : BitVec 8
  addr : Src
  disp : BitVec 24
  space : Space
  size : BitVec 3
  scope : Scope
  ord : Ord4
  cpol : Cpol
  tokn : BitVec 3
  toke : Bool
  sext : Bool
  vec : Bool
  deriving DecidableEq, Repr

structure AtmOp where
  data : BitVec 8
  addr : Src
  opa : Src
  opb : Src
  aop : BitVec 5
  ty : AtmTy
  scope : Scope
  ord : Ord4
  ret : Bool
  disp : BitVec 17
  deriving DecidableEq, Repr

structure XlOp where
  dst : BitVec 8
  sa : Src
  sb : Src
  mmem : BitVec 4
  xop : BitVec 5
  ty : Ty
  md : BitVec 8
  deriving DecidableEq, Repr

structure CvOp where
  dst : BitVec 8
  sa : Src
  scl : Src
  frm : Ty
  dty : Ty
  rm : Rm
  amx : Bool
  sat : Bool
  md : BitVec 8
  deriving DecidableEq, Repr

structure MskOp where
  md : BitVec 4
  ma : BitVec 4
  mb : BitVec 4
  opnd : Src
  mop : BitVec 5
  deriving DecidableEq, Repr

structure SynOp where
  bar : BitVec 4
  lvl : BitVec 2
  scope : Scope
  fk : BitVec 4
  sd : BitVec 7
  sa : Src
  tmo : BitVec 32
  deriving DecidableEq, Repr

structure EngOp where
  tid : BitVec 12
  cb : BitVec 7
  tag : BitVec 6
  tokn : BitVec 3
  toke : Bool
  kind : BitVec 5
  dst : BitVec 22
  mcg : BitVec 8
  deriving DecidableEq, Repr

structure MtxOp where
  tida : BitVec 12
  tidb : BitVec 12
  bank : BitVec 2
  cb : BitVec 7
  plog : BitVec 3
  k : BitVec 13
  mbar : BitVec 4
  md : BitVec 8
  deriving DecidableEq, Repr

/-- One half of a pair word (Table 5.8). -/
structure PairHalf where
  op : PairOp
  grd : BitVec 4
  nwb : Bool
  len : Bool
  lat : BitVec 2
  dst : BitVec 8
  sa : Src
  sb : Src
  ty : PairTy
  deriving DecidableEq, Repr

/-! ### What an event row carries

An event row of the opcode table has no instruction word; its constructor carries what the world outside the
package supplies when the event comes about. -/

/-- A request of the host (R406) or of a peer of the load-store domain (R407, R408). -/
inductive ReqKind where
  | read | write | atomic (aop : Nat) (ret : Bool) | waita (cond : Nat)
  deriving DecidableEq, Repr

/-- `cls` is where the address lies: 0 class-0 memory of this package, 2 host memory, 3 the registers of BAR0, 4 the recovery window
of BAR2; `peer` is the domain number of the requester (unused for the host). A read is of `size` bytes, a write of the bytes `data`, an atomic of
the type `ty` with the operands `opa` and `opb`; a lane of `WAITA` waits for its condition against `opa` (R250, R408). -/
structure Request where
  peer : Nat
  cls : Nat
  addr : Nat
  size : Nat
  kind : ReqKind
  ty : AtmTy
  opa : W64
  opb : W64
  data : List Byte
  deriving DecidableEq, Repr

/-- A unit starts (R21): one of its folds, and for each fold of it the step at which a rollback starts it, if one does, and whether
it was complete on the device that the rollback comes from (R314). -/
structure UnitStart where
  fold : Nat
  rolls : List (Option W64)
  done : List Bool := []
  deriving DecidableEq, Repr

/-- A request for measurements (R400): the block, 255 for all of them, and whether the response is to be signed. -/
structure MeasureAsk where
  block : Nat
  signed : Bool
  deriving DecidableEq, Repr

/-- An entry of the peer-access table by domain number, and the device's own number where firmware writes it first (R407). -/
structure PeerRow where
  domain : Nat
  own : Option Nat
  deriving DecidableEq, Repr

/-- Where an error of a memory array is found (Table 21.4): the unit (0 DRAM, 1 to 8 the SRAM arrays), the physical address or array
row, the physical core of a core's array (255 where the array is no core's), and the fold whose state the row holds, if any. -/
structure ArraySpot where
  unit : Nat
  addr : Nat
  core : Nat
  fold : Option Nat
  deriving DecidableEq, Repr

/-- The context descriptor as mailbox command 2 loads it (R79, R71, R91, Table 16.3). The spec names what the
descriptor holds and lays out only its fault block; the record holds the host address at which it stands, and the fields themselves. -/
structure CtxDesc where
  addr : Nat
  root : Nat
  privBase : Nat
  tidBase : Nat
  fblk : BitVec 512
  deriving DecidableEq, Repr

/-- What the units outside the model supply to one chunk of an engine job: the elements that the other ranks of
a collective hold (by rank, then element), whether the members disagree (R261), whether the chunk met an
uncorrectable error or an error response (R262), and the access of the
job, by its number, that takes effect alone, ahead of the rest of its chunk, where one does (R316). -/
structure ChunkIn where
  peers : List (List Nat)
  disagree : Bool
  error : Bool
  only : Option Nat := none
  deriving DecidableEq, Repr

/-- Readings that reach firmware at a sensor test (R422, R423): temperatures in m°C, currents in mA. -/
structure SensorObs where
  core : List (Nat × Int)
  vault : List (Nat × Int)
  current : List (Nat × Int)
  rail : List (Nat × Int)
  deriving DecidableEq, Repr

/-- A slot of the flash (R398): the header without its signature, the signature, the image, and whether the
slot could be read. -/
structure FlashSlot where
  readable : Bool
  header : List Byte
  sig : List Byte
  image : List Byte
  deriving DecidableEq, Repr, Inhabited

end Sys2Proof
end

