-- ==== Sys2Proof/Machine/Bits.lean ====
section
/-! DEFINITION. Bit fields, byte order, counting and lists: the plain arithmetic that the meanings share. -/

namespace Sys2Proof.Machine

/-- Bits `hi` down to `lo` of `x` (R7). -/
def bits (x hi lo : Nat) : Nat := x / 2 ^ lo % 2 ^ (hi + 1 - lo)

def bit (x i : Nat) : Bool := x / 2 ^ i % 2 == 1

/-- The two's complement value of the low `w` bits of `x`. -/
def sval (w x : Nat) : Int :=
  let y := x % 2 ^ w
  if y < 2 ^ (w - 1) then (y : Int) else (y : Int) - (2 ^ w : Nat)

/-- The low `w` bits of an integer. -/
def wrap (w : Nat) (x : Int) : Nat := (x % (2 ^ w : Nat)).toNat

/-- The value of the low `w` bits of `x`, signed or unsigned. -/
def ival (sg : Bool) (w x : Nat) : Int := if sg then sval w x else (x % 2 ^ w : Nat)

/-- Ones in the low `w` bits. -/
def popc : Nat → Nat → Nat
  | 0, _ => 0
  | w + 1, x => x % 2 + popc w (x / 2)

/-- The number of bits of `x`, for `x` below 2^`w`: 0 for 0. -/
def bitLenTo : Nat → Nat → Nat
  | 0, _ => 0
  | w + 1, x => if x = 0 then 0 else 1 + bitLenTo w (x / 2)

/-- The number of bits of `x`: 0 for 0. -/
def bitLen (x : Nat) : Nat := if x = 0 then 0 else Nat.log2 x + 1

/-- Leading zeros of the low `w` bits, 0 to `w`. -/
def clz (w x : Nat) : Nat := w - bitLenTo w (x % 2 ^ w)

/-- `k` bytes of `x`, lowest first (R112). -/
def leBytes : Nat → Nat → List Byte
  | 0, _ => []
  | k + 1, x => BitVec.ofNat 8 x :: leBytes k (x / 256)

/-- The number whose bytes, lowest first, are given. -/
def ofLe : List Byte → Nat
  | [] => 0
  | b :: r => b.toNat + 256 * ofLe r

/-- The lanes of a mask in rising order (R163). -/
def lanes (m : Mask) : List Nat := (List.range 64).filter m.getLsbD

/-- The lowest set bit (R174: 64 when there is none). -/
def ffs (m : Mask) : Nat := (lanes m).headD 64

/-- The mask of the lanes below `w` (R15). -/
def lowMask (w : Nat) : Mask := BitVec.ofNat 64 (2 ^ w - 1)

/-- The mask with only bit `i` set. -/
def bitMask (i : Nat) : Mask := BitVec.ofNat 64 (2 ^ i)

/-- `x` rounded up to a multiple of `a`. -/
def roundUp (a x : Nat) : Nat := (x + a - 1) / a * a

/-- The number of steps that surely suffices for a walk over numbers below 2^64. -/
def isqrtFuel : Nat → Nat → Nat → Nat → Nat
  | 0, lo, _, _ => lo
  | f + 1, lo, hi, x =>
    if hi ≤ lo + 1 then lo
    else
      let mid := (lo + hi) / 2
      if mid * mid ≤ x then isqrtFuel f mid hi x else isqrtFuel f lo mid x

/-- The integer square root, by bisection. -/
def isqrt (x : Nat) : Nat := isqrtFuel (bitLen x + 2) 0 (2 ^ (bitLen x / 2 + 1)) x

/-- Insertion of `a` before the first element that it is not above. -/
def insertBy {α : Type} (le : α → α → Bool) (a : α) : List α → List α
  | [] => [a]
  | b :: r => if le a b then a :: b :: r else b :: insertBy le a r

/-- `l` in the order of `le`. -/
def sortBy {α : Type} (le : α → α → Bool) : List α → List α
  | [] => []
  | a :: r => insertBy le a (sortBy le r)

/-- The least element by `key`, the first of equals. -/
def minBy {α : Type} (key : α → Nat) : List α → Option α
  | [] => none
  | a :: r =>
    match minBy key r with
    | none => some a
    | some b => if key a ≤ key b then some a else some b

/-- `l` with its element at `i` replaced by `f` of it. -/
def modNth {α : Type} (f : α → α) : Nat → List α → List α
  | _, [] => []
  | 0, a :: r => f a :: r
  | i + 1, a :: r => a :: modNth f i r

/-- `l` without repeats, first occurrences kept. -/
def nubNat : List Nat → List Nat
  | [] => []
  | a :: r => a :: (nubNat r).filter (· ≠ a)

def sumNat (l : List Nat) : Nat := l.foldl (· + ·) 0

end Sys2Proof.Machine
end

