-- ==== Sys2Proof/Syntax.lean ====
section
/-! DEFINITION. The instructions and events of the opcode table, one constructor for each of its 234 rows.
The first part are the instruction words of chapters 07 to 10, with the fields of their format (Table 5.6); a
field that an instruction does not use is present and has to be zero (WellFormed.lean). The second part are the
event rows, which have no word; they carry what the world supplies (Word.lean). In them a fold is named by its
identity in State, a flock and a fragment by their place in it, a core, cluster or die by its physical number. -/

namespace Sys2Proof

inductive Instr where
  | nop  -- NOP, R158
  | trap (h : Hdr) (o : SysOp)  -- TRAP, R195
  | dcall (h : Hdr) (o : SysOp)  -- DCALL, R196
  | rdsr (h : Hdr) (o : SysOp)  -- RDSR, R197
  | wrsr (h : Hdr) (o : SysOp)  -- WRSR, R197
  | launch (h : Hdr) (o : SysOp)  -- LAUNCH, R198
  | leaseReq (h : Hdr) (o : SysOp)  -- LEASE_REQ, R199
  | leaseRet (h : Hdr) (o : SysOp)  -- LEASE_RET, R199
  | mark (h : Hdr) (o : SysOp)  -- MARK, R200
  | curve (h : Hdr) (o : SysOp)  -- CURVE, R53
  | ckpt (h : Hdr) (o : SysOp)  -- CKPT, R202
  | sadd (h : Hdr) (o : ScOp)  -- SADD, R167
  | ssub (h : Hdr) (o : ScOp)  -- SSUB, R167
  | smul (h : Hdr) (o : ScOp)  -- SMUL, R167
  | smulh (h : Hdr) (o : ScOp)  -- SMULH, R167
  | sdiv (h : Hdr) (o : ScOp)  -- SDIV, R167
  | srem (h : Hdr) (o : ScOp)  -- SREM, R167
  | sand (h : Hdr) (o : ScOp)  -- SAND, R167
  | sor (h : Hdr) (o : ScOp)  -- SOR, R167
  | sxor (h : Hdr) (o : ScOp)  -- SXOR, R167
  | sshl (h : Hdr) (o : ScOp)  -- SSHL, R167
  | sshr (h : Hdr) (o : ScOp)  -- SSHR, R167
  | ssra (h : Hdr) (o : ScOp)  -- SSRA, R167
  | smin (h : Hdr) (o : ScOp)  -- SMIN, R167
  | smax (h : Hdr) (o : ScOp)  -- SMAX, R167
  | sclz (h : Hdr) (o : ScOp)  -- SCLZ, R167
  | spop (h : Hdr) (o : ScOp)  -- SPOP, R167
  | scmp (h : Hdr) (o : ScOp)  -- SCMP, R168
  | ssel (h : Hdr) (o : ScOp)  -- SSEL, R169
  | smov (h : Hdr) (o : ScOp)  -- SMOV, R170
  | smovi (h : Hdr) (o : ScOp)  -- SMOVI, R170
  | smovh (h : Hdr) (o : ScOp)  -- SMOVH, R170
  | slea (h : Hdr) (o : ScOp)  -- SLEA, R171
  | mwin (h : Hdr) (o : ScOp)  -- MWIN, R297
  | mand (h : Hdr) (o : MskOp)  -- MAND, R173
  | mor (h : Hdr) (o : MskOp)  -- MOR, R173
  | mxor (h : Hdr) (o : MskOp)  -- MXOR, R173
  | mandn (h : Hdr) (o : MskOp)  -- MANDN, R173
  | mnot (h : Hdr) (o : MskOp)  -- MNOT, R173
  | mmov (h : Hdr) (o : MskOp)  -- MMOV, R174
  | mpop (h : Hdr) (o : MskOp)  -- MPOP, R174
  | mffs (h : Hdr) (o : MskOp)  -- MFFS, R174
  | mfroms (h : Hdr) (o : MskOp)  -- MFROMS, R174
  | mtos (h : Hdr) (o : MskOp)  -- MTOS, R174
  | bra (h : Hdr) (o : BrOp)  -- BRA, R176
  | brm (h : Hdr) (o : BrOp)  -- BRM, R177
  | split (h : Hdr) (o : BrOp)  -- SPLIT, R178
  | join (h : Hdr) (o : BrOp)  -- JOIN, R179
  | brx (h : Hdr) (o : BrOp)  -- BRX, R181
  | call (h : Hdr) (o : BrOp)  -- CALL, R182
  | callx (h : Hdr) (o : BrOp)  -- CALLX, R182
  | exit (h : Hdr) (o : BrOp)  -- EXIT, R183
  | ret (h : Hdr) (o : BrOp)  -- RET, R182
  | loopd (h : Hdr) (o : BrOp)  -- LOOPD, R184
  | bara (h : Hdr) (o : SynOp)  -- BARA, R188
  | barw (h : Hdr) (o : SynOp)  -- BARW, R189
  | bars (h : Hdr) (o : SynOp)  -- BARS, R190
  | bart (h : Hdr) (o : SynOp)  -- BART, R190
  | fsync (h : Hdr) (o : SynOp)  -- FSYNC, R192
  | yield (h : Hdr) (o : SynOp)  -- YIELD, R193
  | fence (h : Hdr) (o : SynOp)  -- FENCE, R252
  | fenceSc (h : Hdr) (o : SynOp)  -- FENCE_SC, R253
  | tagw (h : Hdr) (o : SynOp)  -- TAGW, R267
  | tagff (h : Hdr) (o : SynOp)  -- TAGFF, R268
  | tagrel (h : Hdr) (o : SynOp)  -- TAGREL, R269
  | tokw (h : Hdr) (o : SynOp)  -- TOKW, R270
  | vadd (h : Hdr) (o : VrOp)  -- VADD, R209
  | vsub (h : Hdr) (o : VrOp)  -- VSUB, R209
  | vmul (h : Hdr) (o : VrOp)  -- VMUL, R209
  | vmulh (h : Hdr) (o : VrOp)  -- VMULH, R209
  | vmad (h : Hdr) (o : VrOp)  -- VMAD, R209
  | vmin (h : Hdr) (o : VrOp)  -- VMIN, R209
  | vmax (h : Hdr) (o : VrOp)  -- VMAX, R209
  | vabs (h : Hdr) (o : VrOp)  -- VABS, R209
  | vand (h : Hdr) (o : VrOp)  -- VAND, R209
  | vor (h : Hdr) (o : VrOp)  -- VOR, R209
  | vxor (h : Hdr) (o : VrOp)  -- VXOR, R209
  | vnot (h : Hdr) (o : VrOp)  -- VNOT, R209
  | vshl (h : Hdr) (o : VrOp)  -- VSHL, R209
  | vshr (h : Hdr) (o : VrOp)  -- VSHR, R209
  | vsra (h : Hdr) (o : VrOp)  -- VSRA, R209
  | vclz (h : Hdr) (o : VrOp)  -- VCLZ, R209
  | vpop (h : Hdr) (o : VrOp)  -- VPOP, R209
  | vdiv (h : Hdr) (o : VrOp)  -- VDIV, R210
  | vrem (h : Hdr) (o : VrOp)  -- VREM, R210
  | vcmp (h : Hdr) (o : VrOp)  -- VCMP, R213
  | vsel (h : Hdr) (o : VrOp)  -- VSEL, R214
  | vmov (h : Hdr) (o : VrOp)  -- VMOV, R215
  | vfadd (h : Hdr) (o : VrOp)  -- VFADD, R216
  | vfsub (h : Hdr) (o : VrOp)  -- VFSUB, R216
  | vfmul (h : Hdr) (o : VrOp)  -- VFMUL, R216
  | vfmin (h : Hdr) (o : VrOp)  -- VFMIN, R217
  | vfmax (h : Hdr) (o : VrOp)  -- VFMAX, R217
  | vfma (h : Hdr) (o : VrOp)  -- VFMA, R218
  | vfcmp (h : Hdr) (o : VrOp)  -- VFCMP, R213
  | vfclass (h : Hdr) (o : VrOp)  -- VFCLASS, R219
  | vrcp (h : Hdr) (o : VrOp)  -- VRCP, R220
  | vrsq (h : Hdr) (o : VrOp)  -- VRSQ, R220
  | vsqrt (h : Hdr) (o : VrOp)  -- VSQRT, R220
  | vexp2 (h : Hdr) (o : VrOp)  -- VEXP2, R220
  | vlog2 (h : Hdr) (o : VrOp)  -- VLOG2, R220
  | vsin (h : Hdr) (o : VrOp)  -- VSIN, R220
  | vcos (h : Hdr) (o : VrOp)  -- VCOS, R220
  | vtanh (h : Hdr) (o : VrOp)  -- VTANH, R220
  | mrd (h : Hdr) (o : VrOp)  -- MRD, R298
  | mwr (h : Hdr) (o : VrOp)  -- MWR, R298
  | vmovi (h : Hdr) (o : ViOp)  -- VMOVI, R211
  | viota (h : Hdr) (o : ViOp)  -- VIOTA, R212
  | vcvt (h : Hdr) (o : CvOp)  -- VCVT, R223
  | vqnt (h : Hdr) (o : CvOp)  -- VQNT, R224
  | vexpd (h : Hdr) (o : CvOp)  -- VEXPD, R225
  | vbpk (h : Hdr) (o : CvOp)  -- VBPK, R226
  | vbunpk (h : Hdr) (o : CvOp)  -- VBUNPK, R226
  | amaxrd (h : Hdr) (o : CvOp)  -- AMAXRD, R227
  | vshuf (h : Hdr) (o : XlOp)  -- VSHUF, R229
  | vrot (h : Hdr) (o : XlOp)  -- VROT, R229
  | vbcst (h : Hdr) (o : XlOp)  -- VBCST, R229
  | vvote (h : Hdr) (o : XlOp)  -- VVOTE, R229
  | vred (h : Hdr) (o : XlOp)  -- VRED, R230
  | vscan (h : Hdr) (o : XlOp)  -- VSCAN, R230
  | vld (h : Hdr) (o : MemOp)  -- VLD, R235
  | vst (h : Hdr) (o : MemOp)  -- VST, R235
  | sld (h : Hdr) (o : MemOp)  -- SLD, R239
  | sst (h : Hdr) (o : MemOp)  -- SST, R239
  | vldw (h : Hdr) (o : MemOp)  -- VLDW, R240
  | vstw (h : Hdr) (o : MemOp)  -- VSTW, R240
  | pref (h : Hdr) (o : MemOp)  -- PREF, R241
  | atom (h : Hdr) (o : AtmOp)  -- ATOM, R245
  | red (h : Hdr) (o : AtmOp)  -- RED, R248
  | waita (h : Hdr) (o : AtmOp)  -- WAITA, R250
  | cpy (h : Hdr) (o : EngOp)  -- CPY, R257
  | cpym (h : Hdr) (o : EngOp)  -- CPYM, R259
  | gath (h : Hdr) (o : EngOp)  -- GATH, R260
  | coll (h : Hdr) (o : EngOp)  -- COLL, R261
  | tidw (h : Hdr) (o : EngOp)  -- TIDW, R271
  | tidr (h : Hdr) (o : EngOp)  -- TIDR, R272
  | pairWord (a : PairHalf) (b : PairHalf)  -- PAIR_WORD, R151
  | mzero (o : MtxOp)  -- MZERO, R286
  | mma (o : MtxOp)  -- MMA, R287
  | mmax (o : MtxOp)  -- MMAX, R287
  | mst (o : MtxOp)  -- MST, R294
  | mscale (o : MtxOp)  -- MSCALE, R293
  | mbias (o : MtxOp)  -- MBIAS, R293
  | marr (o : MtxOp)  -- MARR, R283
  | mwaitb (o : MtxOp)  -- MWAITB, R284
  | mloop (o : MtxOp)  -- MLOOP, R282
  | mprog (o : MtxOp)  -- MPROG, R281
  | mend (o : MtxOp)  -- MEND, R277
  | curveMoveEnd (fold : Nat)  -- CURVE_MOVE_END, R55
  | curveTimeout (cl : Nat)  -- CURVE_TIMEOUT, R54
  | barrierTimeout (fold : Nat) (fl : Nat) (fr : Nat)  -- BARRIER_TIMEOUT, R189
  | heartbeatTick (dom : Bool)  -- HEARTBEAT_TICK, R253
  | tagwTimeout (fold : Nat) (fl : Nat) (fr : Nat)  -- TAGW_TIMEOUT, R267
  | loadLands (fold : Nat) (item : Nat) (thread : Nat)  -- LOAD_LANDS, R238
  | storePerformed (i : Nat)  -- STORE_PERFORMED, R238
  | waitaWake (fold : Nat) (fl : Nat) (fr : Nat)  -- WAITA_WAKE, R97
  | watchPoll (fold : Nat) (fl : Nat) (fr : Nat)  -- WATCH_POLL, R97
  | waitaTimeout (fold : Nat) (fl : Nat) (fr : Nat)  -- WAITA_TIMEOUT, R250
  | cpymHoldRelease (fold : Nat) (fl : Nat) (fr : Nat)  -- CPYM_HOLD_RELEASE, R259
  | jobChunk (card : Nat) (inp : ChunkIn)  -- JOB_CHUNK, R262
  | jobComplete (card : Nat)  -- JOB_COMPLETE, R262
  | arrayOpComplete (fold : Nat)  -- ARRAY_OP_COMPLETE, R275
  | foldStart (start : UnitStart)  -- FOLD_START, R21
  | foldEnd (fold : Nat)  -- FOLD_END, R22
  | dispatcherCycle  -- DISPATCHER_CYCLE, R358
  | agePoint (grid : Nat)  -- AGE_POINT, R359
  | clusterMapRotation (die : Nat)  -- CLUSTER_MAP_ROTATION, R361
  | writeIndexWake (q : Nat)  -- WRITE_INDEX_WAKE, R346
  | packetNop (q : Nat)  -- PACKET_NOP, R348
  | packetLaunch (q : Nat)  -- PACKET_LAUNCH, R349
  | launchc (q : Nat)  -- LAUNCHC, R348
  | fetchfence (q : Nat)  -- FETCHFENCE, R348
  | waitmem (q : Nat)  -- WAITMEM, R351
  | waitmemTimeout (q : Nat)  -- WAITMEM_TIMEOUT, R351
  | signal (q : Nat)  -- SIGNAL, R351
  | stamp (q : Nat)  -- STAMP, R351
  | contextTeardown (ctx : Nat × Bool)  -- CONTEXT_TEARDOWN, R363, R314: of a context, which the runtime has moved or not
  | preqPreempt (core : Nat) (slot : Nat)  -- PREQ_PREEMPT, R372
  | preqKill (core : Nat) (slot : Nat)  -- PREQ_KILL, R372
  | preqCtxall (core : Nat) (ctx : Nat) (kill : Bool)  -- PREQ_CTXALL, R372
  | foldStopped (fold : Nat)  -- FOLD_STOPPED, R373
  | saveComplete (fold : Nat)  -- SAVE_COMPLETE, R375
  | fltackResume (core : Nat) (sq : Nat)  -- FLTACK_RESUME, R370
  | fltackKill (core : Nat) (sq : Nat)  -- FLTACK_KILL, R370
  | faultRecordService (ctx : Nat)  -- FAULT_RECORD_SERVICE, R369
  | migreq (core : Nat) (v : W32)  -- MIGREQ, R382
  | migrationTransferDone (fold : Nat)  -- MIGRATION_TRANSFER_DONE, R384
  | migrationSample (die : Nat × List (Nat × Int))  -- MIGRATION_SAMPLE, R410: of a die, with the readings of its core sensors
  | tileclr (core : Nat) (hi : W32)  -- TILECLR, R105
  | writeQueueDescriptor (q : Nat) (addr : Nat)  -- WRITE_QUEUE_DESCRIPTOR, R344
  | writeContextDescriptor (ctx : Nat) (d : CtxDesc)  -- WRITE_CONTEXT_DESCRIPTOR, R405
  | shootdown (ctx : Nat) (va : Nat) (len : Nat)  -- SHOOTDOWN, R380
  | preEmptOrKill (core : Nat) (v : W32)  -- PRE_EMPT_OR_KILL, R405
  | resumeSavedFold (ctx : Nat) (pidx : Nat)  -- RESUME_SAVED_FOLD, R378
  | writeCoreControl (core : Nat) (off : Nat) (v : W32)  -- WRITE_CORE_CONTROL, R405
  | readCoreControl (core : Nat) (off : Nat)  -- READ_CORE_CONTROL, R405
  | readViolationLog (die : Nat) (i : Nat)  -- READ_VIOLATION_LOG, R404
  | pstateTargetWrite (bmc : Bool) (die : Nat) (v : W32)  -- PSTATE_TARGET_WRITE, R419
  | pstateTransitionDone (die : Nat)  -- PSTATE_TRANSITION_DONE, R419
  | sensorRetest (v : W32)  -- SENSOR_RETEST, R422
  | registerWrite (bmc : Bool) (off : Nat) (v : W32)  -- REGISTER_WRITE, R415
  | arbiterPeriod (demand : List Nat) (pavg : Nat)  -- ARBITER_PERIOD, R416
  | leaseExpiry (fold : Nat)  -- LEASE_EXPIRY, R388
  | leaderLeaseRenew (die : Nat)  -- LEADER_LEASE_RENEW, R396
  | leaderLeaseLapse  -- LEADER_LEASE_LAPSE, R396
  | leaderClaim (die : Nat)  -- LEADER_CLAIM, R397
  | failsafeEntry (die : Nat)  -- FAILSAFE_ENTRY, R418
  | vaultHot (cl : Nat)  -- VAULT_HOT, R421
  | vaultCool (die : Nat)  -- VAULT_COOL, R421
  | sensorTest (obs : SensorObs)  -- SENSOR_TEST, R422
  | replicaLockTimeout (fold : Nat) (fl : Nat) (fr : Nat)  -- REPLICA_LOCK_TIMEOUT, R107
  | remoteTimeout (fold : Nat) (fl : Nat) (fr : Nat)  -- REMOTE_TIMEOUT, R408
  | peerRequest (r : Request)  -- PEER_REQUEST, R408
  | hostAccess (r : Request)  -- HOST_ACCESS, R406
  | patrolScrub (spot : ArraySpot) (err : Option Bool)  -- PATROL_SCRUB, R425
  | reset (pass : List Bool)  -- RESET, R398
  | rcvgo (v : W32)  -- RCVGO, R399
  | getVersion  -- GET_VERSION, R399
  | getCapabilities  -- GET_CAPABILITIES, R399
  | negotiateAlgorithms  -- NEGOTIATE_ALGORITHMS, R399
  | getCertificate  -- GET_CERTIFICATE, R400
  | getMeasurements (ask : MeasureAsk)  -- GET_MEASUREMENTS, R400
  | keySlotLoad (slot : Nat) (key : BitVec 512)  -- KEY_SLOT_LOAD, R402
  | keySlotClear (slot : Nat)  -- KEY_SLOT_CLEAR, R402
  | backgroundSweepDone  -- BACKGROUND_SWEEP_DONE, R110
  | firmwareCoreAnswer (fold : Nat) (fl : Nat) (fr : Nat)  -- FIRMWARE_CORE_ANSWER, R196
  | commandProcessorCopyHeld (fold : Nat) (fl : Nat) (fr : Nat)  -- COMMAND_PROCESSOR_COPY_HELD, R198
  | settlingAndRelockEnd (cl : Nat)  -- SETTLING_AND_RELOCK_END, R49
  | domainFenceScDelay (fold : Nat) (fl : Nat) (fr : Nat)  -- DOMAIN_FENCE_SC_DELAY, R330
  | spdmSessionOpen  -- SPDM_SESSION_OPEN, R402
  | spdmSessionEnd  -- SPDM_SESSION_END, R409
  | recoveryWindowWrite (off : Nat) (b : Byte)  -- RECOVERY_WINDOW_WRITE, R399
  | linkError (unit : Nat) (die : Nat) (addr : Nat) (port : Nat) (corrected : Bool)  -- LINK_ERROR, R425
  | peerAccessTableWrite (row : PeerRow) (en : Bool) (key : Nat)  -- PEER_ACCESS_TABLE_WRITE, R407
  deriving DecidableEq, Repr

end Sys2Proof
end

