-- ==== Sys2Proof/WellFormed.lean ====
section
/-! DEFINITION. Which instructions exist: every rule that makes a word fault at decode with `DECODE_FIELD`
(R139 to R146, R150, R161 and the field tables of chapters 07 to 10), as one Boolean check per shape. The checks
that need the state (register numbers beyond R64, latches, tokens) are made at issue, in Machine/Fetch.lean. -/

namespace Sys2Proof

/-! ### Types and sources -/

/-- The width of a type in bits (Tables 4.1, 4.2). -/
def Ty.bits : Ty → Nat
  | .b32 | .s32 | .n32 | .f32 => 32
  | .s16 | .n16 | .f16 | .bf16 => 16
  | .s8 | .n8 | .e4m3 | .e5m2 => 8
  | .s64 | .n64 | .b64 => 64
  | .mxf4 | .s4 => 4
  | .e3m2 | .e2m3 => 6

/-- A signed integer type. -/
def Ty.signed : Ty → Bool
  | .s8 | .s16 | .s32 | .s64 | .s4 => true
  | _ => false

/-- `F32`, `F16` or `BF16`. -/
def Ty.isFp : Ty → Bool
  | .f32 | .f16 | .bf16 => true
  | _ => false

/-- Type set I of chapter 08: the eight integer types of 8 to 64 bits. -/
def Ty.isInt : Ty → Bool
  | .s8 | .n8 | .s16 | .n16 | .s32 | .n32 | .s64 | .n64 => true
  | _ => false

/-- Type set IB of chapter 08: I with `B32` and `B64`. -/
def Ty.isIntB (t : Ty) : Bool := t.isInt || t == .b32 || t == .b64

/-- Type set I of chapter 07 (R167): the integer types of 32 and 64 bits. -/
def Ty.isScalarInt : Ty → Bool
  | .s32 | .n32 | .s64 | .n64 => true
  | _ => false

/-- Type set IB of chapter 07 (R167). -/
def Ty.isScalarIntB (t : Ty) : Bool := t.isScalarInt || t == .b32 || t == .b64

/-- The types of `VSEL` and `VMOV` (R214, R215). -/
def Ty.isSel : Ty → Bool
  | .b32 | .b64 | .s32 | .n32 | .f32 | .s16 | .n16 | .f16 | .bf16 | .s8 | .n8 => true
  | _ => false

/-- The operand is a scalar or an inline constant: codes 260 to 451 (R140). -/
def Src.uni : Src → Bool
  | .s _ | .c _ => true
  | _ => false

/-- The field of a source that the instruction does not read (R140). -/
def Src.unread (x : Src) : Bool := x == .v 0

/-- An inline constant with a floating-point value (Table 5.5). -/
def Src.floatConst : Src → Bool
  | .c n => decide (49 ≤ n.toNat)
  | _ => false

/-- A vector register of a 64-bit operand is even (R64). -/
def Src.evenV : Src → Bool
  | .v n => n.toNat % 2 == 0
  | _ => true

/-- A 64-bit destination is an even register (R64). -/
def dstOk (t : Ty) (d : BitVec 8) : Bool := !(t.bits == 64) || d.toNat % 2 == 0

/-- A source that is read under type `t`: an even register for 64 bits (R64), and no floating-point constant in an
8-bit or 16-bit integer operand (R141). -/
def srcOk (t : Ty) (x : Src) : Bool :=
  (!(t.bits == 64) || x.evenV) && !(t.isInt && decide (t.bits ≤ 16) && x.floatConst)

/-! ### Headers (R138, R139, Table 5.3) -/

def Hdr.guardOk (h : Hdr) : Bool := !(h.grd == 15 && h.gneg)

/-- `VR`, `VI`, `XL` and `CV` words. -/
def Hdr.okV (h : Hdr) (dst : BitVec 8) : Bool :=
  h.guardOk && (h.len || h.lat == 0) && (!h.nwb || dst == 0)

/-- `SC` words: `LEN` and `LAT` are zero. -/
def Hdr.okS (h : Hdr) (sd : BitVec 7) : Bool :=
  h.guardOk && !h.len && h.lat == 0 && (!h.nwb || sd == 0)

/-- Words whose `NWB`, `LEN` and `LAT` are zero. -/
def Hdr.ok0 (h : Hdr) : Bool := h.guardOk && !h.nwb && !h.len && h.lat == 0

/-! ### `SC` (R166 to R171, R297) -/

/-- `IMMSEL` takes either `SB` or `IMM` (R144). -/
def ScOp.second (o : ScOp) : Bool :=
  if o.immsel then o.sb.unread else o.sb.uni && o.imm == 0

def ScOp.noSecond (o : ScOp) : Bool := !o.immsel && o.sb.unread && o.imm == 0

def wfScBin (tys : Ty → Bool) (h : Hdr) (o : ScOp) : Bool :=
  h.okS o.sd && tys o.ty && o.sa.uni && o.second

def wfScUn (tys : Ty → Bool) (h : Hdr) (o : ScOp) : Bool :=
  h.okS o.sd && tys o.ty && o.sa.uni && o.noSecond

def wfScImm (tys : Ty → Bool) (h : Hdr) (o : ScOp) : Bool :=
  h.okS o.sd && tys o.ty && o.sa.unread && o.sb.unread && o.immsel

/-- The element types of `SLEA`: codes 0 to 13 and 18 (R171). -/
def Ty.isAddr : Ty → Bool
  | .mxf4 | .s4 | .e3m2 | .e2m3 => false
  | _ => true

/-! ### `MSK` (R172 to R174) -/

def wfMsk2 (h : Hdr) (o : MskOp) : Bool := h.ok0 && o.opnd.unread && o.mop == 0

def wfMsk1 (h : Hdr) (o : MskOp) : Bool := wfMsk2 h o && o.mb == 0

/-- The destination scalar of `MPOP`, `MFFS` and `MTOS` stands in `OPND`. -/
def wfMskS (h : Hdr) (o : MskOp) : Bool :=
  h.ok0 && (match o.opnd with | .s _ => true | _ => false) && o.md == 0 && o.mb == 0 && o.mop == 0

/-! ### `BR` (Tables 7.4 to 7.6) -/

def wfBr (h : Hdr) (o : BrOp) (bc ss mb off joff : Bool) : Bool :=
  h.ok0 && (bc || o.bc == 0) && (ss || o.ss == 0) && (mb || o.mb == 0) && (off || o.off == 0) && (joff || o.joff == 0)

/-! ### `SYN` (Tables 7.7, 9.9) -/

/-- The code of a scope (Table 5.7). -/
def Scope.code : Scope → Nat
  | .flock => 0 | .fold => 1 | .paddock => 2 | .die => 3 | .device => 4 | .domain => 5

/-- A barrier named by level and number, with a scope not below the level's own (R185). -/
def wfBar (h : Hdr) (o : SynOp) : Bool :=
  h.ok0 && o.fk == 0 && decide (o.lvl.toNat ≤ 1) && (o.lvl == 0 || decide (o.bar.toNat < 8))
    && decide (o.lvl.toNat + 1 ≤ o.scope.code)

def wfTag (h : Hdr) (o : SynOp) : Bool :=
  h.ok0 && o.fk == 0 && o.lvl == 0 && decide (1 ≤ o.scope.code) && o.sa.uni

/-! ### `SYS` (Table 7.9) and the special registers (Table 3.2) -/

/-- The special registers of Table 3.2. -/
inductive Sr where
  | laneid | thread | flock | foldx | foldy | foldz | paddock | core | cluster | die | width | curve | fmember
  | tagmap | amax | srstate | flags | fpctl | accbase | acclim | rowprog | replay | privhwm | heart | cycle | lease
  deriving DecidableEq, Repr

/-- The register that an `SRID` names. -/
def Sr.ofId (n : BitVec 12) : Option Sr :=
  match n.toNat with
  | 0x000 => some .laneid | 0x001 => some .thread | 0x002 => some .flock | 0x003 => some .foldx
  | 0x004 => some .foldy | 0x005 => some .foldz | 0x006 => some .paddock | 0x007 => some .core
  | 0x008 => some .cluster | 0x009 => some .die | 0x00A => some .width | 0x00B => some .curve
  | 0x00C => some .fmember | 0x00D => some .tagmap | 0x010 => some .amax | 0x011 => some .srstate
  | 0x012 => some .flags | 0x013 => some .fpctl | 0x014 => some .accbase | 0x015 => some .acclim
  | 0x016 => some .rowprog | 0x017 => some .replay | 0x018 => some .privhwm | 0x019 => some .heart
  | 0x01A => some .cycle | 0x01B => some .lease
  | _ => none

/-- Registers of lane scope (Table 3.2). -/
def Sr.lane : Sr → Bool
  | .laneid | .thread | .amax | .srstate | .flags => true
  | _ => false

/-- The form of `RDSR` and `WRSR` matches the register's scope (R197). -/
def wfRdsr (h : Hdr) (o : SysOp) : Bool :=
  h.ok0 && o.sa.unread && o.sop == 0 &&
    match Sr.ofId o.srid with
    | none => false
    | some r => if r.lane then o.sd == 0 && decide (o.imm.toNat < 256) else o.imm == 0

def wfWrsr (h : Hdr) (o : SysOp) : Bool :=
  h.ok0 && o.sd == 0 && o.sop == 0 &&
    match Sr.ofId o.srid with
    | none => false
    | some r => if r.lane then o.sa.unread && decide (o.imm.toNat < 256) else o.sa.uni && o.imm == 0

def wfSys (h : Hdr) (o : SysOp) (sd sa : Bool) (sop immLim : Nat) : Bool :=
  h.ok0 && (sd || o.sd == 0) && (if sa then o.sa.uni else o.sa.unread) && o.srid == 0
    && o.sop.toNat == sop && decide (o.imm.toNat < immLim)

/-! ### `VR` and `VI` (R205, R208 to R220, R298) -/

def wfVrBase (h : Hdr) (o : VrOp) (tys : Ty → Bool) : Bool :=
  h.okV o.dst && tys o.ty && dstOk o.ty o.dst && srcOk o.ty o.sa

def VrOp.plain (o : VrOp) : Bool := o.rm == .rne && o.md == 0

def wfVr1 (tys : Ty → Bool) (h : Hdr) (o : VrOp) : Bool :=
  wfVrBase h o tys && o.sb.unread && o.sc.unread && o.plain

def wfVr2 (tys : Ty → Bool) (h : Hdr) (o : VrOp) : Bool :=
  wfVrBase h o tys && srcOk o.ty o.sb && o.sc.unread && o.plain

def wfVr3 (tys : Ty → Bool) (h : Hdr) (o : VrOp) : Bool :=
  wfVrBase h o tys && srcOk o.ty o.sb && srcOk o.ty o.sc && o.plain

/-- A shift reads its amount as a 32-bit operand in every type (R209). -/
def wfVrShift (h : Hdr) (o : VrOp) : Bool :=
  wfVrBase h o Ty.isIntB && o.sc.unread && o.plain

/-- A comparison writes a mask: `NWB`, `LEN`, `LAT` zero and a 4-bit mask code (R208, R213). -/
def wfVrMask (tys : Ty → Bool) (codes : Nat) (h : Hdr) (o : VrOp) : Bool :=
  h.ok0 && decide (o.dst.toNat < 16) && tys o.ty && srcOk o.ty o.sa && srcOk o.ty o.sb && o.sc.unread
    && o.rm == .rne && decide (o.md.toNat < codes)

/-- Floating-point arithmetic accepts every rounding code but SR (R121, R216). -/
def wfVrFp2 (h : Hdr) (o : VrOp) : Bool :=
  wfVrBase h o Ty.isFp && srcOk o.ty o.sb && o.sc.unread && !(o.rm == .sr) && o.md == 0

def wfVrFp3 (h : Hdr) (o : VrOp) : Bool :=
  wfVrBase h o Ty.isFp && srcOk o.ty o.sb && srcOk o.ty o.sc && !(o.rm == .sr) && o.md == 0

def wfVsel (h : Hdr) (o : VrOp) : Bool :=
  wfVrBase h o Ty.isSel && srcOk o.ty o.sb && o.rm == .rne && decide (o.md.toNat < 16)
    && (if o.md == 15 then srcOk o.ty o.sc else o.sc.unread)

def wfMrd (h : Hdr) (o : VrOp) : Bool :=
  h.ok0 && (o.ty == .f32 || o.ty == .b32) && o.plain && o.sc.unread

def wfMwr (h : Hdr) (o : VrOp) : Bool :=
  h.ok0 && (o.ty == .f32 || o.ty == .b32) && o.plain && o.dst == 0

/-- The types of `VMOVI` (R211). -/
def Ty.isMovi (t : Ty) : Bool := t.isSel || t == .s64 || t == .n64

def wfVi (tys : Ty → Bool) (mdLim : Nat) (h : Hdr) (o : ViOp) : Bool :=
  h.okV o.dst && tys o.ty && dstOk o.ty o.dst && o.sa.unread && o.rm == .rne && decide (o.md.toNat < mdLim)

/-! ### `XL` (R228 to R230) -/

def Ty.isB : Ty → Bool
  | .b32 | .b64 => true
  | _ => false

/-- The types that Table 8.12 gives for an operation. -/
def xopTy (xop : Nat) (t : Ty) : Bool :=
  if xop ≤ 2 then t.isScalarInt else if xop ≤ 5 then t.isB else if xop ≤ 8 then t.isFp else false

def wfXl (h : Hdr) (o : XlOp) : Bool :=
  h.okV o.dst && o.ty.isB && dstOk o.ty o.dst && srcOk o.ty o.sa && o.xop == 0 && o.md == 0

def wfVvote (h : Hdr) (o : XlOp) : Bool :=
  h.ok0 && decide (o.dst.toNat < 16) && o.ty.isB && srcOk o.ty o.sa && o.sb.unread && o.xop == 0 && o.md == 0

def wfXlRed (mdLim : Nat) (h : Hdr) (o : XlOp) : Bool :=
  h.okV o.dst && xopTy o.xop.toNat o.ty && dstOk o.ty o.dst && srcOk o.ty o.sa && o.sb.unread
    && decide (o.md.toNat < mdLim)

/-! ### `CV` (R221 to R227) -/

def CvOp.dpos (o : CvOp) : Nat := o.md.toNat % 8
def CvOp.spos (o : CvOp) : Nat := o.md.toNat / 8 % 8
def CvOp.scen (o : CvOp) : Bool := o.md.toNat / 64 % 2 == 1
def CvOp.ins (o : CvOp) : Bool := o.md.toNat / 128 == 1

/-- `SPOS` is in range for its source type (R222). -/
def CvOp.srcPos (o : CvOp) : Bool :=
  if o.frm.bits == 6 then decide (o.spos ≤ 4)
  else if o.frm.bits ≤ 16 then decide (o.spos < 32 / o.frm.bits) else o.spos == 0

/-- `INS` and `DPOS` are in range for the result type (R222). -/
def CvOp.dstPos (o : CvOp) : Bool :=
  if o.ins then decide (o.dty.bits ≤ 16) && decide (o.dpos < 32 / o.dty.bits) else o.dpos == 0

def Ty.isQ : Ty → Bool
  | .e4m3 | .e5m2 | .mxf4 => true
  | _ => false

/-- The pairs and rounding codes of Table 8.9. -/
def cvtPair (f t : Ty) (rm : Rm) : Bool :=
  if f.isInt && t.isInt then rm == .rne
  else if f.isInt && t.isFp then !(rm == .sr && t == .f32)
  else if f.isFp && t.isInt then !(rm == .sr)
  else if (f.isFp || f.isQ) && t.isFp then !(rm == .sr && t == .f32)
  else false

def wfVcvt (h : Hdr) (o : CvOp) : Bool :=
  h.okV o.dst && cvtPair o.frm o.dty o.rm && !o.amx && dstOk o.dty o.dst && srcOk o.frm o.sa
    && o.srcPos && o.dstPos && (if o.scen then o.frm.isQ else o.scl.unread)

def wfVqnt (h : Hdr) (o : CvOp) : Bool :=
  h.okV o.dst && o.frm.isFp && o.dty.isQ && o.srcPos && o.dstPos && !o.scen

/-- The one target of each expand-only format (Table 4.4). -/
def expandTo : Ty → Option Ty
  | .s4 => some .e4m3
  | .e2m3 => some .e4m3
  | .e3m2 => some .e5m2
  | _ => none

def wfVexpd (h : Hdr) (o : CvOp) : Bool :=
  h.okV o.dst && expandTo o.frm == some o.dty && o.rm == .rne && !o.amx && !o.sat && !o.scen && o.scl.unread
    && o.srcPos && o.dstPos

/-- The types of `VBPK` and `VBUNPK` (R226). -/
def Ty.isPlane : Ty → Bool
  | .s8 | .n8 | .e4m3 | .e5m2 | .mxf4 => true
  | _ => false

def CvOp.noRound (o : CvOp) : Bool := o.rm == .rne && !o.amx && !o.sat && !o.scen && o.scl.unread

def wfVbpk (h : Hdr) (o : CvOp) : Bool :=
  h.okV o.dst && o.frm.isPlane && o.dty == .b32 && o.noRound && !o.ins && o.dpos == 0 && o.srcPos && srcOk o.frm o.sa

def wfVbunpk (h : Hdr) (o : CvOp) : Bool :=
  h.okV o.dst && o.frm == .b32 && o.dty.isPlane && o.noRound && o.spos == 0 && o.dstPos

def wfAmaxrd (h : Hdr) (o : CvOp) : Bool :=
  h.okV o.dst && o.frm == .b32 && o.dty == .f32 && o.sa.unread && o.scl.unread && o.rm == .rne && !o.amx && !o.sat
    && decide (o.md.toNat < 2)

/-! ### `MEM` (R231 to R241) -/

/-- The registers of a group at `DATA` (Table 9.2). -/
def groupRegs (size : Nat) : Nat := if size ≤ 2 then 1 else 2 ^ (size - 2)

/-- `SIZE`, `VEC` and the start of the register group (R232). -/
def MemOp.sizeOk (o : MemOp) : Bool :=
  decide (o.size.toNat ≤ 5) && o.vec == decide (4 ≤ o.size.toNat) && o.data.toNat % groupRegs o.size.toNat == 0

def MemOp.ordOk (o : MemOp) (load : Bool) : Bool :=
  (if load then o.ord == .plain || o.ord == .acq else o.ord == .plain || o.ord == .rel)
    && (!(o.ord == .plain) || o.scope == .flock)

def MemOp.tokOk (o : MemOp) : Bool := o.toke || o.tokn == 0

def MemOp.sextOk (o : MemOp) (load : Bool) : Bool := !o.sext || (load && decide (o.size.toNat ≤ 1))

/-- A global address in vector registers is a pair (R233). -/
def MemOp.addrOk (o : MemOp) : Bool := !(o.space == .global) || o.addr.evenV

def wfVldVst (load : Bool) (h : Hdr) (o : MemOp) : Bool :=
  h.ok0 && o.sizeOk && o.ordOk load && o.tokOk && o.sextOk load && o.addrOk && !(o.space == .window)

def wfSldSst (load : Bool) (h : Hdr) (o : MemOp) : Bool :=
  h.ok0 && decide (o.size.toNat ≤ 3) && !o.vec && decide (o.data.toNat < 128) && o.ordOk load && o.tokOk
    && o.sextOk load && o.addr.uni && !(o.space == .window) && !(o.space == .priv)

def wfWin (load : Bool) (h : Hdr) (o : MemOp) : Bool :=
  h.ok0 && o.sizeOk && decide (2 ≤ o.size.toNat) && o.ordOk load && o.tokOk && !o.sext && o.space == .window
    && o.cpol == .deflt && (match o.addr with | .s _ => true | _ => false)

def wfPref (h : Hdr) (o : MemOp) : Bool :=
  h.ok0 && o.space == .global && o.data == 0 && o.size == 0 && o.scope == .flock && o.ord == .plain && !o.toke
    && o.tokn == 0 && !o.sext && !o.vec && (o.cpol == .deflt || o.cpol == .nol1) && o.addr.evenV

/-! ### `ATM` (R243 to R250) -/

def AtmTy.ty : AtmTy → Ty
  | .s32 => .s32 | .n32 => .n32 | .s64 => .s64 | .n64 => .n64 | .f32 => .f32 | .f16 => .f16 | .bf16 => .bf16

def AtmTy.bytes : AtmTy → Nat
  | .s32 | .n32 | .f32 => 4
  | .s64 | .n64 => 8
  | .f16 | .bf16 => 2

/-- The types that Table 9.6 gives for an operation. -/
def aopTy (aop : Nat) (t : AtmTy) : Bool :=
  if aop ≤ 8 then t.ty.isInt
  else if aop ≤ 11 then t == .n32 || t == .n64
  else aop == 12 && t.ty.isFp

/-- Operations that read `OPB`: `CAS` and `ADDB`. -/
def aopTwo (aop : Nat) : Bool := aop == 8 || aop == 11

/-- `DATA` of a returning atomic: a pair for 64-bit types; `ADDB` returns its failure flag as well (R245, R246). -/
def AtmOp.dataOk (o : AtmOp) : Bool :=
  if o.ret then
    (if o.aop == 11 then (if o.ty == .n64 then o.data.toNat % 4 == 0 else o.data.toNat % 2 == 0)
     else dstOk o.ty.ty o.data)
  else o.data == 0

def AtmOp.scopeOk (o : AtmOp) : Bool := !(o.ord == .plain) || o.scope == .flock

def wfAtom (h : Hdr) (o : AtmOp) : Bool :=
  h.ok0 && aopTy o.aop.toNat o.ty && o.addr.evenV && srcOk o.ty.ty o.opa
    && (if aopTwo o.aop.toNat then srcOk o.ty.ty o.opb else o.opb.unread) && o.dataOk && o.scopeOk
    && (o.ret || o.ord == .plain || o.ord == .rel)

/-- The operations of the `RED` column of Table 6.4. -/
def aopRed (aop : Nat) : Bool := decide (aop ≤ 6) || aop == 12

def wfRed (h : Hdr) (o : AtmOp) : Bool :=
  h.ok0 && aopRed o.aop.toNat && aopTy o.aop.toNat o.ty && o.addr.evenV && srcOk o.ty.ty o.opa && o.opb.unread
    && !o.ret && o.data == 0 && o.scopeOk && (o.ord == .plain || o.ord == .rel)

def wfWaita (h : Hdr) (o : AtmOp) : Bool :=
  h.ok0 && decide (o.aop.toNat < 8) && o.ty.ty.isInt && o.addr.evenV && srcOk o.ty.ty o.opa && o.opb.uni
    && o.dataOk && o.ord == .acq

/-! ### `ENG` (R255 to R261, R271, R272) -/

/-- A token number with `TOKE` 0 faults with `DECODE_FIELD` (log 112, DESIGN CHOICE: Table 9.10 says only that it is a token number). -/
def EngOp.tokOk (o : EngOp) : Bool := o.toke || o.tokn == 0

/-- `DST` of a scratchpad kind and of a window kind (Table 9.11). -/
def EngOp.dstScr (o : EngOp) : Bool := decide (o.dst.toNat < 2 ^ 20)
def EngOp.dstSc (o : EngOp) : Bool := decide (o.dst.toNat < 128)

def wfCpy (h : Hdr) (o : EngOp) : Bool :=
  h.ok0 && o.tokOk && o.mcg == 0 &&
    match o.kind.toNat with
    | 0 | 1 => o.dstScr
    | 2 => decide (o.dst.toNat < 4096)
    | 3 => o.dstSc
    | 4 => o.dstSc && o.tid == 0
    | _ => false

def wfCpym (h : Hdr) (o : EngOp) : Bool :=
  h.ok0 && o.tokOk && o.kind == 0 && o.dstScr && !(o.mcg == 0)

/-- `GATH` of a kind other than 0 and 3 faults at issue, not at decode (R260). -/
def wfGath (h : Hdr) (o : EngOp) : Bool :=
  h.ok0 && o.tokOk && o.mcg == 0 &&
    match o.kind.toNat with
    | 0 => o.dstScr
    | 3 => o.dstSc
    | _ => true

def wfColl (h : Hdr) (o : EngOp) : Bool :=
  h.ok0 && o.tokOk && o.mcg == 0 && decide (o.kind.toNat ≤ 2) && decide (o.dst.toNat < 2 ^ 14)
    && decide (o.dst.toNat / 2 ^ 12 ≤ 2)

def wfTid (h : Hdr) (o : EngOp) : Bool :=
  h.ok0 && decide (o.cb.toNat ≤ 120) && o.tag == 0 && o.tokn == 0 && !o.toke && o.kind == 0 && o.dst == 0 && o.mcg == 0

/-! ### `MTX` (Table 10.3) -/

def wfMtx (o : MtxOp) (tida tidb bank cb plog k mbar : Bool) (mdLim : Nat) : Bool :=
  decide (o.cb.toNat < 64) && (tida || o.tida == 0) && (tidb || o.tidb == 0) && (bank || o.bank == 0) && (cb || o.cb == 0)
    && (plog || o.plog == 0) && decide (o.plog.toNat ≤ 6) && (k || o.k == 0) && (mbar || o.mbar == 0)
    && decide (o.md.toNat < mdLim)

def wfMma (o : MtxOp) : Bool := wfMtx o true true true true true true false 64 && !(o.k == 0)

def wfMst (o : MtxOp) : Bool :=
  wfMtx o true true true true false false false 64 && decide (o.tidb.toNat < 64) && decide (o.md.toNat % 8 ≤ 6)

def MtxOp.progOp (o : MtxOp) : Nat := o.md.toNat % 8
def MtxOp.progCount (o : MtxOp) : Nat := o.md.toNat / 8 % 16 + 1

def wfMprog (o : MtxOp) : Bool :=
  wfMtx o true false false true false true false 128 && decide (o.progOp ≤ 5)
    && (if o.progOp ≤ 1 then decide (o.cb.toNat + o.progCount - 1 ≤ 63) else o.progCount == 1)
    && (if o.progOp == 2 then decide (o.tida.toNat < 64) else o.tida == 0)
    && (o.progOp == 0 || o.progOp == 1 || o.progOp == 3 || o.k == 0)

/-! ### Pair words (R150, R161) -/

def PairTy.ty : PairTy → Ty
  | .b32 => .b32 | .s32 => .s32 | .n32 => .n32 | .f32 => .f32 | .f16 => .f16 | .bf16 => .bf16 | .s16 => .s16 | .n16 => .n16

/-- The types that the `VR` form of a half's operation accepts. -/
def PairOp.tys : PairOp → Ty → Bool
  | .add | .sub | .mul | .mad | .min | .max => Ty.isInt
  | .abs => fun t => t.isInt && t.signed
  | .and | .or | .xor | .not | .shl | .shr | .sra => Ty.isIntB
  | .sel | .mov => Ty.isSel
  | .fadd | .fsub | .fmul | .fma => Ty.isFp

def PairOp.unary : PairOp → Bool
  | .abs | .not | .mov => true
  | _ => false

/-- The half reads its `DST` as third source (R146, R161). -/
def PairOp.accumulates : PairOp → Bool
  | .mad | .fma | .sel => true
  | _ => false

def PairOp.shift : PairOp → Bool
  | .shl | .shr | .sra => true
  | _ => false

def wfHalf (x : PairHalf) : Bool :=
  (x.len || x.lat == 0) && (!x.nwb || x.dst == 0) && x.op.tys x.ty.ty && srcOk x.ty.ty x.sa
    && (if x.op.unary then x.sb.unread else x.op.shift || srcOk x.ty.ty x.sb)

/-- The vector registers that a half reads, with repetition. -/
def PairHalf.reads (x : PairHalf) : List Nat :=
  (match x.sa with | .v n => [n.toNat] | _ => [])
    ++ (if x.op.unary then [] else match x.sb with | .v n => [n.toNat] | _ => [])
    ++ (if x.op.accumulates then [x.dst.toNat] else [])

def PairHalf.latReads (x : PairHalf) : List (BitVec 2) :=
  (match x.sa with | .lat n => [n] | _ => []) ++ (match x.sb with | .lat n => [n] | _ => [])

/-- No half reads what the other writes (R150). -/
def pairApart (x y : PairHalf) : Bool :=
  !(!y.nwb && x.reads.contains y.dst.toNat) && !(y.len && x.latReads.contains y.lat)

def wfPair (a b : PairHalf) : Bool :=
  let r := a.reads ++ b.reads
  wfHalf a && wfHalf b && decide (r.length ≤ 4) && [0, 1, 2, 3].all (fun k => decide ((r.filter (· % 4 == k)).length ≤ 3))
    && (a.nwb || b.nwb || !(a.dst == b.dst)) && !(a.len && b.len && a.lat == b.lat) && pairApart a b && pairApart b a

/-! ### Every instruction -/

/-- `i` breaks no decode rule of its entry. The event rows have no word and no decode rule. -/
def Instr.wf : Instr → Bool
  | .nop => true
  | .trap h o => wfSys h o false false 0 (2 ^ 30)
  | .dcall h o => wfSys h o true true 0 (2 ^ 16)
  | .rdsr h o => wfRdsr h o
  | .wrsr h o => wfWrsr h o
  | .launch h o => wfSys h o true true 0 64
  | .leaseReq h o => wfSys h o true true 0 1
  | .leaseRet h o => wfSys h o true false 1 1
  | .mark h o => wfSys h o false false 0 (2 ^ 30)
  | .curve h o => wfSys h o true false 0 8
  | .ckpt h o => wfSys h o true true 0 1
  | .sadd h o | .ssub h o | .smul h o | .smulh h o | .sdiv h o | .srem h o | .smin h o | .smax h o | .scmp h o =>
    wfScBin Ty.isScalarInt h o
  | .sand h o | .sor h o | .sxor h o | .sshl h o | .sshr h o | .ssra h o => wfScBin Ty.isScalarIntB h o
  | .sclz h o | .spop h o => wfScUn Ty.isScalarIntB h o
  | .ssel h o => wfScBin (· == .b64) h o
  | .smov h o => wfScUn (fun t => t == .b64 || t == .s32 || t == .n32) h o
  | .smovi h o => wfScImm (fun t => t == .s64 || t == .n64) h o
  | .smovh h o => wfScImm (· == .b64) h o
  | .slea h o => wfScBin Ty.isAddr h o
  | .mwin h o => wfScBin (· == .s64) h o && o.sd == 0
  | .mand h o | .mor h o | .mxor h o | .mandn h o => wfMsk2 h o
  | .mnot h o | .mmov h o => wfMsk1 h o
  | .mpop h o | .mffs h o | .mtos h o => wfMskS h o
  | .mfroms h o => h.ok0 && o.opnd.uni && o.ma == 0 && o.mb == 0
  | .bra h o =>
    wfBr h o true true true true false && decide (o.bc.toNat ≤ 6) && (decide (5 ≤ o.bc.toNat) || o.mb == 0)
      && (!(o.bc == 0) || o.ss == 0)
  | .brm h o => wfBr h o true false true true false && decide (o.bc.toNat ≤ 3)
  | .split h o => wfBr h o false false true true true && !(o.joff == 0)
  | .join h o | .exit h o => wfBr h o false false false false false
  | .brx h o => wfBr h o false false false true true && decide (o.joff.toNat < 256)
  | .call h o | .loopd h o => wfBr h o false true false true false
  | .callx h o => wfBr h o false true false true false && decide (o.off.toNat < 128)
  | .ret h o => wfBr h o false true false false false
  | .bara h o => wfBar h o && o.sa.unread && o.tmo == 0
  | .barw h o => wfBar h o && o.sa.unread
  | .bars h o => wfBar h o && o.sa.uni
  | .bart h o => wfBar h o && o.sa.uni && o.tmo == 0
  | .fsync h o => wfBar h o && o.bar == 0 && o.lvl == 0 && o.sa.unread
  | .yield h o =>
    h.ok0 && o.bar == 0 && o.lvl == 0 && o.scope == .flock && o.fk == 0 && o.sd == 0 && o.sa.unread && o.tmo == 0
  | .fence h o =>
    h.ok0 && o.bar == 0 && o.lvl == 0 && decide (1 ≤ o.fk.toNat ∧ o.fk.toNat ≤ 3) && o.sd == 0 && o.sa.unread && o.tmo == 0
  | .fenceSc h o =>
    h.ok0 && o.bar == 0 && o.lvl == 0 && o.fk == 0 && (o.scope == .device || o.scope == .domain) && o.sa.unread && o.tmo == 0
  | .tagw h o => wfTag h o && decide (o.bar.toNat ≤ 1)
  | .tagff h o | .tagrel h o | .tokw h o => wfTag h o && o.bar == 0 && o.tmo == 0
  | .vadd h o | .vsub h o | .vmul h o | .vmin h o | .vmax h o | .vdiv h o | .vrem h o => wfVr2 Ty.isInt h o
  | .vmulh h o => wfVr2 Ty.isScalarInt h o
  | .vmad h o => wfVr3 Ty.isInt h o
  | .vabs h o => wfVr1 (fun t => t.isInt && t.signed) h o
  | .vand h o | .vor h o | .vxor h o => wfVr2 Ty.isIntB h o
  | .vnot h o | .vclz h o | .vpop h o => wfVr1 Ty.isIntB h o
  | .vshl h o | .vshr h o | .vsra h o => wfVrShift h o
  | .vcmp h o => wfVrMask Ty.isInt 6 h o
  | .vfcmp h o => wfVrMask Ty.isFp 8 h o
  | .vsel h o => wfVsel h o
  | .vmov h o => wfVr1 Ty.isSel h o
  | .vfadd h o | .vfsub h o | .vfmul h o => wfVrFp2 h o
  | .vfmin h o | .vfmax h o => wfVr2 Ty.isFp h o
  | .vfma h o => wfVrFp3 h o
  | .vfclass h o | .vrcp h o | .vrsq h o | .vsqrt h o | .vexp2 h o | .vlog2 h o | .vsin h o | .vcos h o | .vtanh h o =>
    wfVr1 Ty.isFp h o
  | .mrd h o => wfMrd h o
  | .mwr h o => wfMwr h o
  | .vmovi h o => wfVi Ty.isMovi 1 h o
  | .viota h o => wfVi (fun t => t == .s32 || t == .n32) 2 h o
  | .vcvt h o => wfVcvt h o
  | .vqnt h o => wfVqnt h o
  | .vexpd h o => wfVexpd h o
  | .vbpk h o => wfVbpk h o
  | .vbunpk h o => wfVbunpk h o
  | .amaxrd h o => wfAmaxrd h o
  | .vshuf h o => wfXl h o
  | .vrot h o | .vbcst h o => wfXl h o && o.sb.uni
  | .vvote h o => wfVvote h o
  | .vred h o => wfXlRed 1 h o
  | .vscan h o => wfXlRed 2 h o
  | .vld h o => wfVldVst true h o
  | .vst h o => wfVldVst false h o
  | .sld h o => wfSldSst true h o
  | .sst h o => wfSldSst false h o
  | .vldw h o => wfWin true h o
  | .vstw h o => wfWin false h o
  | .pref h o => wfPref h o
  | .atom h o => wfAtom h o
  | .red h o => wfRed h o
  | .waita h o => wfWaita h o
  | .cpy h o => wfCpy h o
  | .cpym h o => wfCpym h o
  | .gath h o => wfGath h o
  | .coll h o => wfColl h o
  | .tidw h o | .tidr h o => wfTid h o
  | .pairWord a b => wfPair a b
  | .mzero o => wfMtx o false false true false false false false 1
  | .mma o | .mmax o => wfMma o
  | .mst o => wfMst o
  | .mscale o | .mbias o => wfMtx o true false true true false false false 2
  | .marr o => wfMtx o false false false false false false true 1
  | .mwaitb o => wfMtx o false false false false false false true 2
  | .mloop o => wfMtx o false false false true false true false 1
  | .mprog o => wfMprog o
  | .mend o => wfMtx o false false false false false false false 1
  | .curveMoveEnd _ | .curveTimeout _ | .barrierTimeout _ _ _ | .heartbeatTick _ | .tagwTimeout _ _ _
  | .loadLands _ _ _ | .storePerformed _ | .waitaWake _ _ _ | .watchPoll _ _ _ | .waitaTimeout _ _ _
  | .cpymHoldRelease _ _ _ | .jobChunk _ _ | .jobComplete _ | .arrayOpComplete _ | .foldStart _ | .foldEnd _
  | .dispatcherCycle | .agePoint _ | .clusterMapRotation _ | .writeIndexWake _ | .packetNop _ | .packetLaunch _
  | .launchc _ | .fetchfence _ | .waitmem _ | .waitmemTimeout _ | .signal _ | .stamp _ | .contextTeardown _
  | .preqPreempt _ _ | .preqKill _ _ | .preqCtxall _ _ _ | .foldStopped _ | .saveComplete _ | .fltackResume _ _
  | .fltackKill _ _ | .faultRecordService _ | .migreq _ _ | .migrationTransferDone _ | .migrationSample _
  | .tileclr _ _ | .writeQueueDescriptor _ _ | .writeContextDescriptor _ _ | .shootdown _ _ _ | .preEmptOrKill _ _
  | .resumeSavedFold _ _ | .writeCoreControl _ _ _ | .readCoreControl _ _ | .readViolationLog _ _
  | .pstateTargetWrite _ _ _ | .pstateTransitionDone _ | .sensorRetest _ | .registerWrite _ _ _
  | .arbiterPeriod _ _ | .leaseExpiry _ | .leaderLeaseRenew _ | .leaderLeaseLapse | .leaderClaim _
  | .failsafeEntry _ | .vaultHot _ | .vaultCool _ | .sensorTest _ | .replicaLockTimeout _ _ _ | .remoteTimeout _ _ _
  | .peerRequest _ | .hostAccess _ | .patrolScrub _ _ | .reset _ | .rcvgo _ | .getVersion | .getCapabilities
  | .negotiateAlgorithms | .getCertificate | .getMeasurements _ | .keySlotLoad _ _ | .keySlotClear _
  | .backgroundSweepDone | .firmwareCoreAnswer _ _ _ | .commandProcessorCopyHeld _ _ _ | .settlingAndRelockEnd _
  | .domainFenceScDelay _ _ _ | .spdmSessionOpen | .spdmSessionEnd | .recoveryWindowWrite _ _
  | .linkError _ _ _ _ _ | .peerAccessTableWrite _ _ _ => true

end Sys2Proof
end

