-- ==== Sys2Proof/Machine/Num.lean ====
section
/-! DEFINITION. Exact arithmetic and one rounding (chapter 04): the formats, the value of a code, the exact sum and
product, rounding under R119 and R120, delivery under R122 and R123, and conversions under R428. -/

namespace Sys2Proof.Machine

/-! ### Formats (Tables 4.2, 4.3) -/

/-- How a format uses its largest exponent. -/
inductive Specials where
  | ieee | e4m3 | none
  deriving DecidableEq, Repr

structure Fmt where
  eb : Nat
  mb : Nat
  bias : Nat
  sp : Specials
  /-- it has signalling NaNs (R116) -/
  sig : Bool
  deriving DecidableEq, Repr

/-- The format of a floating-point type (other types have none; `F32` stands in). -/
def fmtOf : Ty → Fmt
  | .f16 => { eb := 5, mb := 10, bias := 15, sp := .ieee, sig := true }
  | .bf16 => { eb := 8, mb := 7, bias := 127, sp := .ieee, sig := true }
  | .e4m3 => { eb := 4, mb := 3, bias := 7, sp := .e4m3, sig := false }
  | .e5m2 => { eb := 5, mb := 2, bias := 15, sp := .ieee, sig := false }
  | .mxf4 => { eb := 2, mb := 1, bias := 1, sp := .none, sig := false }
  | .e3m2 => { eb := 3, mb := 2, bias := 3, sp := .none, sig := false }
  | .e2m3 => { eb := 2, mb := 3, bias := 1, sp := .none, sig := false }
  | _ => { eb := 8, mb := 23, bias := 127, sp := .ieee, sig := true }

/-- The narrow sum of the matrix array, E8M19 (R128). -/
def fmtNarrow : Fmt := { eb := 8, mb := 19, bias := 127, sp := .ieee, sig := false }

/-- The bit of the sign. -/
def Fmt.signBit (f : Fmt) : Nat := 2 ^ (f.eb + f.mb)

/-- The code of the largest finite magnitude. -/
def Fmt.maxCode (f : Fmt) : Nat :=
  match f.sp with
  | .ieee => (2 ^ f.eb - 1) * 2 ^ f.mb - 1
  | .e4m3 => 2 ^ (f.eb + f.mb) - 2
  | .none => 2 ^ (f.eb + f.mb) - 1

/-- The code of infinity, of the formats that have one. -/
def Fmt.infCode (f : Fmt) : Nat := (2 ^ f.eb - 1) * 2 ^ f.mb

/-- The canonical NaN (Table 4.3); formats without NaN deliver code 0 (Table 4.6). -/
def Fmt.nanCode (f : Fmt) : Nat :=
  match f.sp with
  | .ieee => f.infCode + 2 ^ (f.mb - 1)
  | .e4m3 => 2 ^ (f.eb + f.mb) - 1
  | .none => 0

/-- The exponent of the smallest subnormal: it is 2 to this power. -/
def Fmt.qmin (f : Fmt) : Int := 1 - f.bias - f.mb

/-- A value: NaN (signalling or not), a signed infinity, or (-1)^neg * m * 2^e. -/
inductive FVal where
  | nan (sig : Bool)
  | inf (neg : Bool)
  | fin (neg : Bool) (m : Nat) (e : Int)
  deriving DecidableEq, Repr

/-- The value of a code (R113, R114). -/
def Fmt.value (f : Fmt) (code : Nat) : FVal :=
  let neg := bit code (f.eb + f.mb)
  let ex := code / 2 ^ f.mb % 2 ^ f.eb
  let fr := code % 2 ^ f.mb
  if f.sp = .ieee ∧ ex = 2 ^ f.eb - 1 then
    (if fr = 0 then .inf neg else .nan (f.sig && !bit fr (f.mb - 1)))
  else if f.sp = .e4m3 ∧ ex = 2 ^ f.eb - 1 ∧ fr = 2 ^ f.mb - 1 then .nan false
  else if ex = 0 then .fin neg fr f.qmin
  else .fin neg (2 ^ f.mb + fr) (f.qmin + (ex - 1 : Nat))

/-- The exact value of an integer. -/
def FVal.ofInt (x : Int) : FVal := .fin (decide (x < 0)) x.natAbs 0

/-- 2 to the power `e`. -/
def FVal.pow2 (e : Int) : FVal := .fin false 1 e

def FVal.isNan : FVal → Bool
  | .nan _ => true
  | _ => false

def FVal.isSig : FVal → Bool
  | .nan b => b
  | _ => false

def FVal.neg : FVal → FVal
  | .nan s => .nan s
  | .inf n => .inf (!n)
  | .fin n m e => .fin (!n) m e

/-- `m * 2^e` as an integer multiple of 2^`q`, for `q` at most `e`. -/
def scaleTo (m : Nat) (e q : Int) : Nat := m * 2 ^ (e - q).toNat

/-- The signed numerator over 2^`q`. -/
def signedAt (n : Bool) (m : Nat) (e q : Int) : Int :=
  let x : Int := scaleTo m e q
  if n then -x else x

/-- The order of two finite magnitudes and values: `a < b`. -/
def FVal.lt : FVal → FVal → Bool
  | .nan _, _ => false
  | _, .nan _ => false
  | .inf a, .inf b => a && !b
  | .inf a, .fin _ _ _ => a
  | .fin _ _ _, .inf b => !b
  | .fin a m e, .fin b k g =>
    let q := min e g
    decide (signedAt a m e q < signedAt b k g q)

/-- Equal as numbers: the two zeros are equal. -/
def FVal.eqv (x y : FVal) : Bool := !x.isNan && !y.isNan && !x.lt y && !y.lt x

/-! ### Rounding (R119, R120) -/

/-- A rounding mode with what it needs: stochastic rounding carries the advanced lane state. -/
inductive Mode where
  | rne | rz | ru | rd | rna
  | sr (x : Nat)
  deriving DecidableEq, Repr

/-- One step of the stochastic-rounding state (R120). -/
def srStep (x : W32) : W32 :=
  let a := x ^^^ (x <<< 13)
  let b := a ^^^ (a >>> 17)
  b ^^^ (b <<< 5)

/-- Whether the truncated magnitude `n` is raised by one quantum, for a remainder `rem` of 2^`k`. -/
def roundUpQ (md : Mode) (neg : Bool) (n rem k : Nat) : Bool :=
  match md with
  | .rne => decide (2 ^ k < 2 * rem) || (2 * rem == 2 ^ k && n % 2 == 1)
  | .rz => false
  | .ru => !neg && decide (0 < rem)
  | .rd => neg && decide (0 < rem)
  | .rna => decide (2 ^ k ≤ 2 * rem)
  | .sr x => decide (x % 65536 < rem * 65536 / 2 ^ k)

/-- A magnitude rounded to a multiple of 2^`q`: the multiple, and whether it differs. -/
def roundAt (md : Mode) (neg : Bool) (m : Nat) (e q : Int) : Nat × Bool :=
  if q ≤ e then (scaleTo m e q, false)
  else
    let k := (q - e).toNat
    let n := m / 2 ^ k
    let rem := m % 2 ^ k
    (if roundUpQ md neg n rem k then n + 1 else n, decide (0 < rem))

/-- The quantum exponent of a nonzero magnitude in a format: full precision from the smallest normal on, below it the
smallest subnormal (R119). -/
def Fmt.quantum (f : Fmt) (m : Nat) (e : Int) : Int := max (e + bitLen m - 1 - f.mb) f.qmin

/-- The magnitude code, with the exponent range unbounded above, and whether the rounding was inexact. -/
def Fmt.roundMag (f : Fmt) (md : Mode) (neg : Bool) (m : Nat) (e : Int) : Nat × Bool :=
  let q := f.quantum m e
  let r := roundAt md neg m e q
  ((q - f.qmin).toNat * 2 ^ f.mb + r.1, r.2)

/-- The magnitude is below the smallest normal (R123). -/
def Fmt.tiny (f : Fmt) (m : Nat) (e : Int) : Bool := decide (e + bitLen m - 1 < f.qmin + f.mb)

/-! ### Flags (Table 3.3) -/

def flNV : W32 := 0x1
def flDZ : W32 := 0x2
def flOF : W32 := 0x4
def flUF : W32 := 0x8
def flNX : W32 := 0x10
def flOV : W32 := 0x20
def flSAT : W32 := 0x40
def flNANSEEN : W32 := 0x80
def flLOST : W32 := 0x100

def flIf (b : Bool) (f : W32) : W32 := if b then f else 0

/-- The signed code of a magnitude code. -/
def Fmt.signed (f : Fmt) (neg : Bool) (c : Nat) : Nat := if neg then f.signBit + c else c

/-- What a finite overflow gives without saturation: infinity, or the largest finite value where the mode rounds toward
it (Table 4.6); `E4M3` has no infinity and gives its NaN. -/
def Fmt.overflow (f : Fmt) (md : Mode) (neg : Bool) : Nat :=
  match f.sp with
  | .none => f.signed neg f.maxCode
  | .e4m3 => f.nanCode
  | .ieee =>
    let toMax := match md with | .rz => true | .ru => neg | .rd => !neg | _ => false
    f.signed neg (if toMax then f.maxCode else f.infCode)

/-- Delivery of an exact arithmetic result in an IEEE format: code and flags (R119, R122, R123). -/
def Fmt.deliver (f : Fmt) (md : Mode) : FVal → Nat × W32
  | .nan _ => (f.nanCode, 0)
  | .inf n => (f.signed n f.infCode, 0)
  | .fin n m e =>
    if m = 0 then (f.signed n 0, 0)
    else
      let r := f.roundMag md n m e
      if f.maxCode < r.1 then (f.overflow md n, flOF ||| flNX)
      else (f.signed n r.1, flIf r.2 flNX ||| flIf (r.2 && f.tiny m e) flUF)

/-! ### Exact operations -/

/-- The exact sum of two values that are no NaN; an exact zero sum of unequal signs is `zneg` (R216). -/
def FVal.add (zneg : Bool) : FVal → FVal → FVal
  | .nan s, _ => .nan s
  | _, .nan s => .nan s
  | .inf a, .inf b => if a = b then .inf a else .nan false
  | .inf a, .fin _ _ _ => .inf a
  | .fin _ _ _, .inf b => .inf b
  | .fin a m e, .fin b k g =>
    let q := min e g
    let s := signedAt a m e q + signedAt b k g q
    if s = 0 then .fin (if a = b then a else zneg) 0 0 else .fin (decide (s < 0)) s.natAbs q

/-- The exact product. -/
def FVal.mul : FVal → FVal → FVal
  | .nan s, _ => .nan s
  | _, .nan s => .nan s
  | .inf a, .inf b => .inf (a != b)
  | .inf a, .fin b m _ => if m = 0 then .nan false else .inf (a != b)
  | .fin a m _, .inf b => if m = 0 then .nan false else .inf (a != b)
  | .fin a m e, .fin b k g => .fin (a != b) (m * k) (e + g)

/-- The invalid-operation flag of an operation that made a NaN of operands that are none, or that read a signalling
NaN (R123). -/
def nvOf (ops : List FVal) (r : FVal) : W32 :=
  flIf (ops.any FVal.isSig || (r.isNan && !ops.any FVal.isNan)) flNV

/-- `VFADD` and its like on codes: the exact sum, rounded once. -/
def fpAdd (f : Fmt) (md : Mode) (a b : Nat) : Nat × W32 :=
  let x := f.value a
  let y := f.value b
  let r := x.add (md == .rd) y
  let d := f.deliver md r
  (d.1, d.2 ||| nvOf [x, y] r)

/-- A code with its sign turned (for subtraction). -/
def Fmt.flip (f : Fmt) (c : Nat) : Nat := if bit c (f.eb + f.mb) then c - f.signBit else c + f.signBit

def fpSub (f : Fmt) (md : Mode) (a b : Nat) : Nat × W32 :=
  let x := f.value a
  let y := (f.value b).neg
  let r := x.add (md == .rd) y
  let d := f.deliver md r
  (d.1, d.2 ||| nvOf [x, y] r)

def fpMul (f : Fmt) (md : Mode) (a b : Nat) : Nat × W32 :=
  let x := f.value a
  let y := f.value b
  let r := x.mul y
  let d := f.deliver md r
  (d.1, d.2 ||| nvOf [x, y] r)

/-- The fused multiply-add (R218): a zero times an infinity is invalid even when c is a quiet NaN. -/
def fpFma (f : Fmt) (md : Mode) (a b c : Nat) : Nat × W32 :=
  let x := f.value a
  let y := f.value b
  let z := f.value c
  let p := x.mul y
  let r := p.add (md == .rd) z
  let d := f.deliver md r
  let badProduct := p.isNan && !x.isNan && !y.isNan
  (d.1, d.2 ||| nvOf [x, y, z] r ||| flIf badProduct flNV)

/-- `VFMIN` and `VFMAX` (R217). -/
def fpMinMax (f : Fmt) (wantMax : Bool) (a b : Nat) : Nat × W32 :=
  let x := f.value a
  let y := f.value b
  let fl := flIf (x.isSig || y.isSig) flNV
  let below : Bool := x.lt y || (x.eqv y && bit a (f.eb + f.mb))
  let r :=
    if x.isNan && y.isNan then f.nanCode
    else if x.isNan then b
    else if y.isNan then a
    else if below != wantMax then a else b
  (r, fl)

/-- The comparisons of Table 8.4: outcome and flag. -/
def fpCmp (f : Fmt) (cc : Nat) (a b : Nat) : Bool × W32 :=
  let x := f.value a
  let y := f.value b
  let un := x.isNan || y.isNan
  let r :=
    match cc with
    | 0 => !un && x.eqv y
    | 1 => un || !x.eqv y
    | 2 => x.lt y
    | 3 => !un && !y.lt x
    | 4 => y.lt x
    | 5 => !un && !x.lt y
    | 6 => un
    | _ => !un
  let nv := if 2 ≤ cc ∧ cc ≤ 5 then un else x.isSig || y.isSig
  (r, flIf nv flNV)

/-- The class bit of a code (Table 8.6). -/
def fpClass (f : Fmt) (c : Nat) : Nat :=
  match f.value c with
  | .nan true => 2 ^ 8
  | .nan false => 2 ^ 9
  | .inf true => 2 ^ 0
  | .inf false => 2 ^ 7
  | .fin n m e =>
    if m = 0 then (if n then 2 ^ 3 else 2 ^ 4)
    else if f.tiny m e then (if n then 2 ^ 2 else 2 ^ 5)
    else (if n then 2 ^ 1 else 2 ^ 6)

/-! ### Conversions (R122, R124, R428) -/

/-- A value rounded to an integer under a mode: the integer, and whether it is exact. -/
def roundInt (md : Mode) (n : Bool) (m : Nat) (e : Int) : Int × Bool :=
  let r := roundAt md n m e 0
  (if n then -(r.1 : Int) else r.1, r.2)

def intMin (sg : Bool) (w : Nat) : Int := if sg then -((2 ^ (w - 1) : Nat) : Int) else 0
def intMax (sg : Bool) (w : Nat) : Int := if sg then ((2 ^ (w - 1) : Nat) : Int) - 1 else ((2 ^ w : Nat) : Int) - 1

/-- A floating-point source to an integer: clamped whatever `SAT` (Table 4.6, R428). -/
def cvtToInt (md : Mode) (sg : Bool) (w : Nat) (x : FVal) : Nat × W32 :=
  match x with
  | .nan _ => (0, flNV)
  | .inf n => (wrap w (if n then intMin sg w else intMax sg w), flNV ||| flSAT ||| flNX)
  | .fin n m e =>
    let r := roundInt md n m e
    if r.1 < intMin sg w then (wrap w (intMin sg w), flNV ||| flSAT ||| flNX)
    else if intMax sg w < r.1 then (wrap w (intMax sg w), flNV ||| flSAT ||| flNX)
    else (wrap w r.1, flIf r.2 flNX)

/-- An integer to an integer (R122, R428). -/
def cvtIntInt (sat : Bool) (sg : Bool) (w : Nat) (x : Int) : Nat × W32 :=
  if !sat || (decide (intMin sg w ≤ x) && decide (x ≤ intMax sg w)) then (wrap w x, 0)
  else (wrap w (if x < 0 then intMin sg w else intMax sg w), flSAT ||| flNX)

/-- A value to a floating-point format, with `SAT` (R122, R428). `sig` says that the source is a signalling NaN. The product of an
infinite source and a zero scale, or of a zero and an infinite scale, is a NaN of which R428 says nothing: it gives the canonical
NaN without `NV`, as a NaN scale does (log 114, DESIGN CHOICE). -/
def cvtToFp (f : Fmt) (md : Mode) (sat sig : Bool) (x : FVal) : Nat × W32 :=
  match x with
  | .nan _ => if f.sp = .none then (0, flNV) else (f.nanCode, flIf sig flNV)
  | .inf n =>
    if f.sp = .none || sat then (f.signed n f.maxCode, flSAT ||| flNX)
    else if f.sp = .e4m3 then (f.nanCode, flNV)
    else (f.signed n f.infCode, 0)
  | .fin n m e =>
    if m = 0 then (f.signed n 0, 0)
    else
      let r := f.roundMag md n m e
      if f.maxCode < r.1 then
        (if sat || f.sp = .none then (f.signed n f.maxCode, flOF ||| flNX ||| flSAT)
         else (f.overflow md n, flOF ||| flNX))
      else (f.signed n r.1, flIf r.2 flNX ||| flIf (r.2 && f.tiny m e) flUF)

/-- The value of an `E8M0` scale, 2^(e - 127); `0xFF` is NaN (R115). -/
def e8m0 (e : Nat) : FVal := if e % 256 = 255 then .nan false else .pow2 ((e % 256 : Nat) - 127)

/-- The inverse of an `E8M0` scale, 2^(127 - e) (R124). -/
def e8m0inv (e : Nat) : FVal := if e % 256 = 255 then .nan false else .pow2 (127 - (e % 256 : Nat))

/-! ### The narrow sum of the matrix array (R128, R129) -/

/-- Rounds toward zero to 20 significant bits; tiny results become a signed zero, and a finite result above the largest
value becomes the largest value. -/
def narrowRound : FVal → FVal
  | .nan s => .nan s
  | .inf n => .inf n
  | .fin n m e =>
    if m = 0 ∨ fmtNarrow.tiny m e then .fin n 0 0
    else
      let r := fmtNarrow.roundMag .rz n m e
      fmtNarrow.value (fmtNarrow.signed n (min r.1 fmtNarrow.maxCode))

/-- The exact sum of a group's products: NaN if one is NaN or infinities of both signs meet (R129); an exact zero sum is
+0 unless every addend is -0. -/
def groupSum (l : List FVal) : FVal :=
  match l with
  | [] => .fin false 0 0
  | x :: r => r.foldl (FVal.add false) x

/-- The `F32` accumulator plus the narrow sum, rounded with RNE; NaN results are canonical (R128, R129). -/
def accAdd (acc : W32) (x : FVal) : W32 :=
  let f := fmtOf .f32
  BitVec.ofNat 32 (f.deliver .rne ((f.value acc.toNat).add false x)).1

end Sys2Proof.Machine
end

