-- ==== Sys2Proof/Decode.lean ====
section
/-! DEFINITION. From the bits of an instruction slot to an instruction or a named decode fault, in the order of
Table 5.9, and back: `encode` writes the words of the same tables (R137, R143, Tables 5.2, 5.4, 5.6, 5.8,
6.1 to 6.4). -/

namespace Sys2Proof

/-! ### Bit fields

A word is a list of fields, highest first, as the tables draw it: (width, value). -/

/-- The number of bits of a list of widths. -/
def widthSum : List Nat → Nat
  | [] => 0
  | w :: r => w + widthSum r

/-- The number whose fields, highest first, are the pairs (width, value). -/
def packFields : List (Nat × Nat) → Nat
  | [] => 0
  | (_, v) :: r => v * 2 ^ widthSum (r.map (·.1)) + packFields r

/-- The fields of `x`, highest first, for the given widths. -/
def unpackFields : List Nat → Nat → List Nat
  | [], _ => []
  | w :: r, x => x / 2 ^ widthSum r % 2 ^ w :: unpackFields r (x % 2 ^ widthSum r)

def bitOf (b : Bool) : Nat := if b then 1 else 0

/-! ### Codes of fields -/

def Src.code : Src → Nat
  | .v n => n.toNat
  | .lat n => 256 + n.toNat
  | .s n => 260 + n.toNat
  | .c n => 388 + n.toNat

/-- Table 5.4; codes 452 to 511 are reserved. -/
def Src.ofCode (k : Nat) : Option Src :=
  if k < 256 then some (.v (BitVec.ofNat 8 k))
  else if k < 260 then some (.lat (BitVec.ofNat 2 (k - 256)))
  else if k < 388 then some (.s (BitVec.ofNat 7 (k - 260)))
  else if k < 452 then some (.c (BitVec.ofNat 6 (k - 388)))
  else none

/-- Codes of R145. -/
def Ty.code : Ty → Nat
  | .b32 => 0 | .s32 => 1 | .n32 => 2 | .s16 => 3 | .n16 => 4 | .s8 => 5 | .n8 => 6 | .s64 => 7 | .n64 => 8
  | .f32 => 9 | .f16 => 10 | .bf16 => 11 | .e4m3 => 12 | .e5m2 => 13 | .mxf4 => 14 | .s4 => 15 | .e3m2 => 16
  | .e2m3 => 17 | .b64 => 18

/-- Codes of R145; the others are reserved. -/
def Ty.ofCode : Nat → Option Ty
  | 0 => some .b32 | 1 => some .s32 | 2 => some .n32 | 3 => some .s16 | 4 => some .n16 | 5 => some .s8
  | 6 => some .n8 | 7 => some .s64 | 8 => some .n64 | 9 => some .f32 | 10 => some .f16 | 11 => some .bf16
  | 12 => some .e4m3 | 13 => some .e5m2 | 14 => some .mxf4 | 15 => some .s4 | 16 => some .e3m2
  | 17 => some .e2m3 | 18 => some .b64
  | _ => none

/-- Codes of Table 4.5. -/
def Rm.code : Rm → Nat
  | .rne => 0 | .rz => 1 | .ru => 2 | .rd => 3 | .rna => 4 | .sr => 5 | .dyn => 6

/-- Codes of Table 4.5; the others are reserved. -/
def Rm.ofCode : Nat → Option Rm
  | 0 => some .rne | 1 => some .rz | 2 => some .ru | 3 => some .rd | 4 => some .rna | 5 => some .sr
  | 6 => some .dyn
  | _ => none

/-- Codes of Table 3.5. -/
def Space.code : Space → Nat
  | .global => 0 | .fold => 1 | .paddock => 2 | .window => 3 | .priv => 4 | .const => 5

/-- Codes of Table 3.5; the others are reserved. -/
def Space.ofCode : Nat → Option Space
  | 0 => some .global | 1 => some .fold | 2 => some .paddock | 3 => some .window | 4 => some .priv
  | 5 => some .const
  | _ => none

/-- Codes of Table 5.7; the others are reserved. -/
def Scope.ofCode : Nat → Option Scope
  | 0 => some .flock | 1 => some .fold | 2 => some .paddock | 3 => some .die | 4 => some .device
  | 5 => some .domain
  | _ => none

/-- Codes of Table 5.7. -/
def Ord4.code : Ord4 → Nat
  | .plain => 0 | .acq => 1 | .rel => 2 | .acqrel => 3

/-- Codes of Table 5.7; the others are reserved. -/
def Ord4.ofCode : Nat → Option Ord4
  | 0 => some .plain | 1 => some .acq | 2 => some .rel | 3 => some .acqrel
  | _ => none

/-- Codes of Table 3.9. -/
def Cpol.code : Cpol → Nat
  | .deflt => 0 | .nol1 => 1 | .stream => 2 | .last => 3

/-- Codes of Table 3.9; the others are reserved. -/
def Cpol.ofCode : Nat → Option Cpol
  | 0 => some .deflt | 1 => some .nol1 | 2 => some .stream | 3 => some .last
  | _ => none

/-- Codes of Table 9.5. -/
def AtmTy.code : AtmTy → Nat
  | .s32 => 0 | .n32 => 1 | .s64 => 2 | .n64 => 3 | .f32 => 4 | .f16 => 5 | .bf16 => 6

/-- Codes of Table 9.5; the others are reserved. -/
def AtmTy.ofCode : Nat → Option AtmTy
  | 0 => some .s32 | 1 => some .n32 | 2 => some .s64 | 3 => some .n64 | 4 => some .f32 | 5 => some .f16
  | 6 => some .bf16
  | _ => none

/-- Codes of Table 5.7. -/
def PairTy.code : PairTy → Nat
  | .b32 => 0 | .s32 => 1 | .n32 => 2 | .f32 => 3 | .f16 => 4 | .bf16 => 5 | .s16 => 6 | .n16 => 7

/-- Codes of Table 5.7; the others are reserved. -/
def PairTy.ofCode : Nat → Option PairTy
  | 0 => some .b32 | 1 => some .s32 | 2 => some .n32 | 3 => some .f32 | 4 => some .f16 | 5 => some .bf16
  | 6 => some .s16 | 7 => some .n16
  | _ => none

/-- The `VR` opcode of a half's operation (R161). -/
def PairOp.code : PairOp → Nat
  | .add => 1 | .sub => 2 | .mul => 3 | .mad => 5 | .min => 6 | .max => 7 | .abs => 8 | .and => 9 | .or => 10
  | .xor => 11 | .not => 12 | .shl => 13 | .shr => 14 | .sra => 15 | .sel => 21 | .mov => 22 | .fadd => 32
  | .fsub => 33 | .fmul => 34 | .fma => 37

/-- The class-A opcodes of Table 6.2; every other value is unassigned in a half. -/
def PairOp.ofCode : Nat → Option PairOp
  | 1 => some .add | 2 => some .sub | 3 => some .mul | 5 => some .mad | 6 => some .min | 7 => some .max
  | 8 => some .abs | 9 => some .and | 10 => some .or | 11 => some .xor | 12 => some .not | 13 => some .shl
  | 14 => some .shr | 15 => some .sra | 21 => some .sel | 22 => some .mov | 32 => some .fadd | 33 => some .fsub
  | 34 => some .fmul | 37 => some .fma
  | _ => none

/-! ### Words from instructions -/

def hdrWidths : List Nat := [5, 8, 4, 1, 8, 1, 1, 2]

def hdrFields (fmt opc : Nat) (h : Hdr) : List (Nat × Nat) :=
  [(5, fmt), (8, opc), (4, h.grd.toNat), (1, bitOf h.gneg), (8, h.wait.toNat), (1, bitOf h.nwb), (1, bitOf h.len),
    (2, h.lat.toNat)]

/-- The fixed header of `MTX` words (Table 5.3). -/
def mtxHdr : Hdr :=
  { grd := 15, gneg := false, wait := 0, nwb := false, len := false, lat := 0 }

/-- `SYS` bodies (Table 5.6). -/
def SysOp.widths : List Nat := [7, 9, 12, 8, 30]

def SysOp.fields (o : SysOp) : List (Nat × Nat) :=
  [(7, o.sd.toNat), (9, o.sa.code), (12, o.srid.toNat), (8, o.sop.toNat), (30, o.imm.toNat)]

def SysOp.ofFields : List Nat → Option SysOp
  | [xsd, xsa, xsrid, xsop, ximm] =>
    match Src.ofCode xsa with
    | some ysa =>
      some { sd := BitVec.ofNat 7 xsd, sa := ysa, srid := BitVec.ofNat 12 xsrid, sop := BitVec.ofNat 8 xsop,
             imm := BitVec.ofNat 30 ximm }
    | _ => none
  | _ => none

/-- `VR` bodies (Table 5.6). -/
def VrOp.widths : List Nat := [8, 9, 9, 9, 5, 3, 8, 15]

def VrOp.fields (o : VrOp) : List (Nat × Nat) :=
  [(8, o.dst.toNat), (9, o.sa.code), (9, o.sb.code), (9, o.sc.code), (5, o.ty.code), (3, o.rm.code),
    (8, o.md.toNat), (15, 0)]

def VrOp.ofFields : List Nat → Option VrOp
  | [xdst, xsa, xsb, xsc, xty, xrm, xmd, xz] =>
    if xz = 0 then
      match Src.ofCode xsa, Src.ofCode xsb, Src.ofCode xsc, Ty.ofCode xty, Rm.ofCode xrm with
      | some ysa, some ysb, some ysc, some yty, some yrm =>
        some { dst := BitVec.ofNat 8 xdst, sa := ysa, sb := ysb, sc := ysc, ty := yty, rm := yrm,
               md := BitVec.ofNat 8 xmd }
      | _, _, _, _, _ => none
    else none
  | _ => none

/-- `VI` bodies (Table 5.6). -/
def ViOp.widths : List Nat := [8, 9, 5, 3, 8, 32, 1]

def ViOp.fields (o : ViOp) : List (Nat × Nat) :=
  [(8, o.dst.toNat), (9, o.sa.code), (5, o.ty.code), (3, o.rm.code), (8, o.md.toNat), (32, o.imm.toNat), (1, 0)]

def ViOp.ofFields : List Nat → Option ViOp
  | [xdst, xsa, xty, xrm, xmd, ximm, xz] =>
    if xz = 0 then
      match Src.ofCode xsa, Ty.ofCode xty, Rm.ofCode xrm with
      | some ysa, some yty, some yrm =>
        some { dst := BitVec.ofNat 8 xdst, sa := ysa, ty := yty, rm := yrm, md := BitVec.ofNat 8 xmd,
               imm := BitVec.ofNat 32 ximm }
      | _, _, _ => none
    else none
  | _ => none

/-- `SC` bodies (Table 5.6). -/
def ScOp.widths : List Nat := [7, 9, 9, 5, 32, 1, 3]

def ScOp.fields (o : ScOp) : List (Nat × Nat) :=
  [(7, o.sd.toNat), (9, o.sa.code), (9, o.sb.code), (5, o.ty.code), (32, o.imm.toNat), (1, bitOf o.immsel),
    (3, 0)]

def ScOp.ofFields : List Nat → Option ScOp
  | [xsd, xsa, xsb, xty, ximm, ximmsel, xz] =>
    if xz = 0 then
      match Src.ofCode xsa, Src.ofCode xsb, Ty.ofCode xty with
      | some ysa, some ysb, some yty =>
        some { sd := BitVec.ofNat 7 xsd, sa := ysa, sb := ysb, ty := yty, imm := BitVec.ofNat 32 ximm,
               immsel := ximmsel == 1 }
      | _, _, _ => none
    else none
  | _ => none

/-- `BR` bodies (Table 5.6). -/
def BrOp.widths : List Nat := [4, 7, 4, 32, 19]

def BrOp.fields (o : BrOp) : List (Nat × Nat) :=
  [(4, o.bc.toNat), (7, o.ss.toNat), (4, o.mb.toNat), (32, o.off.toNat), (19, o.joff.toNat)]

def BrOp.ofFields : List Nat → Option BrOp
  | [xbc, xss, xmb, xoff, xjoff] =>
    some { bc := BitVec.ofNat 4 xbc, ss := BitVec.ofNat 7 xss, mb := BitVec.ofNat 4 xmb,
           off := BitVec.ofNat 32 xoff, joff := BitVec.ofNat 19 xjoff }
  | _ => none

/-- `MEM` bodies (Table 5.6). -/
def MemOp.widths : List Nat := [8, 9, 24, 3, 3, 3, 2, 3, 3, 1, 1, 1, 5]

def MemOp.fields (o : MemOp) : List (Nat × Nat) :=
  [(8, o.data.toNat), (9, o.addr.code), (24, o.disp.toNat), (3, o.space.code), (3, o.size.toNat),
    (3, o.scope.code), (2, o.ord.code), (3, o.cpol.code), (3, o.tokn.toNat), (1, bitOf o.toke),
    (1, bitOf o.sext), (1, bitOf o.vec), (5, 0)]

def MemOp.ofFields : List Nat → Option MemOp
  | [xdata, xaddr, xdisp, xspace, xsize, xscope, xord, xcpol, xtokn, xtoke, xsext, xvec, xz] =>
    if xz = 0 then
      match Src.ofCode xaddr, Space.ofCode xspace, Scope.ofCode xscope, Ord4.ofCode xord, Cpol.ofCode xcpol with
      | some yaddr, some yspace, some yscope, some yord, some ycpol =>
        some { data := BitVec.ofNat 8 xdata, addr := yaddr, disp := BitVec.ofNat 24 xdisp, space := yspace,
               size := BitVec.ofNat 3 xsize, scope := yscope, ord := yord, cpol := ycpol,
               tokn := BitVec.ofNat 3 xtokn, toke := xtoke == 1, sext := xsext == 1, vec := xvec == 1 }
      | _, _, _, _, _ => none
    else none
  | _ => none

/-- `ATM` bodies (Table 5.6). -/
def AtmOp.widths : List Nat := [8, 9, 9, 9, 5, 3, 3, 2, 1, 17]

def AtmOp.fields (o : AtmOp) : List (Nat × Nat) :=
  [(8, o.data.toNat), (9, o.addr.code), (9, o.opa.code), (9, o.opb.code), (5, o.aop.toNat), (3, o.ty.code),
    (3, o.scope.code), (2, o.ord.code), (1, bitOf o.ret), (17, o.disp.toNat)]

def AtmOp.ofFields : List Nat → Option AtmOp
  | [xdata, xaddr, xopa, xopb, xaop, xty, xscope, xord, xret, xdisp] =>
    match Src.ofCode xaddr, Src.ofCode xopa, Src.ofCode xopb, AtmTy.ofCode xty, Scope.ofCode xscope, Ord4.ofCode xord with
    | some yaddr, some yopa, some yopb, some yty, some yscope, some yord =>
      some { data := BitVec.ofNat 8 xdata, addr := yaddr, opa := yopa, opb := yopb, aop := BitVec.ofNat 5 xaop,
             ty := yty, scope := yscope, ord := yord, ret := xret == 1, disp := BitVec.ofNat 17 xdisp }
    | _, _, _, _, _, _ => none
  | _ => none

/-- `XL` bodies (Table 5.6). -/
def XlOp.widths : List Nat := [8, 9, 9, 4, 5, 5, 8, 18]

def XlOp.fields (o : XlOp) : List (Nat × Nat) :=
  [(8, o.dst.toNat), (9, o.sa.code), (9, o.sb.code), (4, o.mmem.toNat), (5, o.xop.toNat), (5, o.ty.code),
    (8, o.md.toNat), (18, 0)]

def XlOp.ofFields : List Nat → Option XlOp
  | [xdst, xsa, xsb, xmmem, xxop, xty, xmd, xz] =>
    if xz = 0 then
      match Src.ofCode xsa, Src.ofCode xsb, Ty.ofCode xty with
      | some ysa, some ysb, some yty =>
        some { dst := BitVec.ofNat 8 xdst, sa := ysa, sb := ysb, mmem := BitVec.ofNat 4 xmmem,
               xop := BitVec.ofNat 5 xxop, ty := yty, md := BitVec.ofNat 8 xmd }
      | _, _, _ => none
    else none
  | _ => none

/-- `CV` bodies (Table 5.6). -/
def CvOp.widths : List Nat := [8, 9, 9, 5, 5, 3, 1, 1, 8, 17]

def CvOp.fields (o : CvOp) : List (Nat × Nat) :=
  [(8, o.dst.toNat), (9, o.sa.code), (9, o.scl.code), (5, o.frm.code), (5, o.dty.code), (3, o.rm.code),
    (1, bitOf o.amx), (1, bitOf o.sat), (8, o.md.toNat), (17, 0)]

def CvOp.ofFields : List Nat → Option CvOp
  | [xdst, xsa, xscl, xfrm, xto, xrm, xamx, xsat, xmd, xz] =>
    if xz = 0 then
      match Src.ofCode xsa, Src.ofCode xscl, Ty.ofCode xfrm, Ty.ofCode xto, Rm.ofCode xrm with
      | some ysa, some yscl, some yfrm, some yto, some yrm =>
        some { dst := BitVec.ofNat 8 xdst, sa := ysa, scl := yscl, frm := yfrm, dty := yto, rm := yrm,
               amx := xamx == 1, sat := xsat == 1, md := BitVec.ofNat 8 xmd }
      | _, _, _, _, _ => none
    else none
  | _ => none

/-- `MSK` bodies (Table 5.6). -/
def MskOp.widths : List Nat := [4, 4, 4, 9, 5, 40]

def MskOp.fields (o : MskOp) : List (Nat × Nat) :=
  [(4, o.md.toNat), (4, o.ma.toNat), (4, o.mb.toNat), (9, o.opnd.code), (5, o.mop.toNat), (40, 0)]

def MskOp.ofFields : List Nat → Option MskOp
  | [xmd, xma, xmb, xopnd, xmop, xz] =>
    if xz = 0 then
      match Src.ofCode xopnd with
      | some yopnd =>
        some { md := BitVec.ofNat 4 xmd, ma := BitVec.ofNat 4 xma, mb := BitVec.ofNat 4 xmb, opnd := yopnd,
               mop := BitVec.ofNat 5 xmop }
      | _ => none
    else none
  | _ => none

/-- `SYN` bodies (Table 5.6). -/
def SynOp.widths : List Nat := [4, 2, 3, 4, 7, 9, 32, 5]

def SynOp.fields (o : SynOp) : List (Nat × Nat) :=
  [(4, o.bar.toNat), (2, o.lvl.toNat), (3, o.scope.code), (4, o.fk.toNat), (7, o.sd.toNat), (9, o.sa.code),
    (32, o.tmo.toNat), (5, 0)]

def SynOp.ofFields : List Nat → Option SynOp
  | [xbar, xlvl, xscope, xfk, xsd, xsa, xtmo, xz] =>
    if xz = 0 then
      match Scope.ofCode xscope, Src.ofCode xsa with
      | some yscope, some ysa =>
        some { bar := BitVec.ofNat 4 xbar, lvl := BitVec.ofNat 2 xlvl, scope := yscope, fk := BitVec.ofNat 4 xfk,
               sd := BitVec.ofNat 7 xsd, sa := ysa, tmo := BitVec.ofNat 32 xtmo }
      | _, _ => none
    else none
  | _ => none

/-- `ENG` bodies (Table 5.6). -/
def EngOp.widths : List Nat := [12, 7, 6, 3, 1, 5, 22, 8, 2]

def EngOp.fields (o : EngOp) : List (Nat × Nat) :=
  [(12, o.tid.toNat), (7, o.cb.toNat), (6, o.tag.toNat), (3, o.tokn.toNat), (1, bitOf o.toke), (5, o.kind.toNat),
    (22, o.dst.toNat), (8, o.mcg.toNat), (2, 0)]

def EngOp.ofFields : List Nat → Option EngOp
  | [xtid, xcb, xtag, xtokn, xtoke, xkind, xdst, xmcg, xz] =>
    if xz = 0 then
      some { tid := BitVec.ofNat 12 xtid, cb := BitVec.ofNat 7 xcb, tag := BitVec.ofNat 6 xtag,
             tokn := BitVec.ofNat 3 xtokn, toke := xtoke == 1, kind := BitVec.ofNat 5 xkind,
             dst := BitVec.ofNat 22 xdst, mcg := BitVec.ofNat 8 xmcg }
    else none
  | _ => none

/-- `MTX` bodies (Table 5.6). -/
def MtxOp.widths : List Nat := [12, 12, 2, 7, 3, 13, 4, 8, 5]

def MtxOp.fields (o : MtxOp) : List (Nat × Nat) :=
  [(12, o.tida.toNat), (12, o.tidb.toNat), (2, o.bank.toNat), (7, o.cb.toNat), (3, o.plog.toNat),
    (13, o.k.toNat), (4, o.mbar.toNat), (8, o.md.toNat), (5, 0)]

def MtxOp.ofFields : List Nat → Option MtxOp
  | [xtida, xtidb, xbank, xcb, xplog, xk, xmbar, xmd, xz] =>
    if xz = 0 then
      some { tida := BitVec.ofNat 12 xtida, tidb := BitVec.ofNat 12 xtidb, bank := BitVec.ofNat 2 xbank,
             cb := BitVec.ofNat 7 xcb, plog := BitVec.ofNat 3 xplog, k := BitVec.ofNat 13 xk,
             mbar := BitVec.ofNat 4 xmbar, md := BitVec.ofNat 8 xmd }
    else none
  | _ => none

/-- One half of a pair word (Table 5.8). -/
def PairHalf.widths : List Nat := [7, 4, 1, 1, 2, 8, 9, 9, 4]

def PairHalf.fields (x : PairHalf) : List (Nat × Nat) :=
  [(7, x.op.code), (4, x.grd.toNat), (1, bitOf x.nwb), (1, bitOf x.len), (2, x.lat.toNat), (8, x.dst.toNat),
    (9, x.sa.code), (9, x.sb.code), (4, x.ty.code)]

/-- A half: its opcode is judged before its fields (Table 5.9). -/
def PairHalf.ofFields : List Nat → Option PairHalf
  | [xop, xgrd, xnwb, xlen, xlat, xdst, xsa, xsb, xty] =>
    match PairOp.ofCode xop, Src.ofCode xsa, Src.ofCode xsb, PairTy.ofCode xty with
    | some yop, some ysa, some ysb, some yty =>
      some { op := yop, grd := BitVec.ofNat 4 xgrd, nwb := xnwb == 1, len := xlen == 1, lat := BitVec.ofNat 2 xlat,
             dst := BitVec.ofNat 8 xdst, sa := ysa, sb := ysb, ty := yty }
    | _, _, _, _ => none
  | _ => none

/-- The fields of an instruction's word, highest first; none for an event row. -/
def Instr.fields : Instr → Option (List (Nat × Nat))
  | .nop => some [(96, 0)]
  | .trap h o => some (hdrFields 0 1 h ++ o.fields)
  | .dcall h o => some (hdrFields 0 2 h ++ o.fields)
  | .rdsr h o => some (hdrFields 0 3 h ++ o.fields)
  | .wrsr h o => some (hdrFields 0 4 h ++ o.fields)
  | .launch h o => some (hdrFields 0 5 h ++ o.fields)
  | .leaseReq h o => some (hdrFields 0 6 h ++ o.fields)
  | .leaseRet h o => some (hdrFields 0 6 h ++ o.fields)
  | .mark h o => some (hdrFields 0 7 h ++ o.fields)
  | .curve h o => some (hdrFields 0 8 h ++ o.fields)
  | .ckpt h o => some (hdrFields 0 9 h ++ o.fields)
  | .sadd h o => some (hdrFields 3 1 h ++ o.fields)
  | .ssub h o => some (hdrFields 3 2 h ++ o.fields)
  | .smul h o => some (hdrFields 3 3 h ++ o.fields)
  | .smulh h o => some (hdrFields 3 4 h ++ o.fields)
  | .sdiv h o => some (hdrFields 3 5 h ++ o.fields)
  | .srem h o => some (hdrFields 3 6 h ++ o.fields)
  | .sand h o => some (hdrFields 3 7 h ++ o.fields)
  | .sor h o => some (hdrFields 3 8 h ++ o.fields)
  | .sxor h o => some (hdrFields 3 9 h ++ o.fields)
  | .sshl h o => some (hdrFields 3 10 h ++ o.fields)
  | .sshr h o => some (hdrFields 3 11 h ++ o.fields)
  | .ssra h o => some (hdrFields 3 12 h ++ o.fields)
  | .smin h o => some (hdrFields 3 13 h ++ o.fields)
  | .smax h o => some (hdrFields 3 14 h ++ o.fields)
  | .sclz h o => some (hdrFields 3 15 h ++ o.fields)
  | .spop h o => some (hdrFields 3 16 h ++ o.fields)
  | .scmp h o => some (hdrFields 3 24 h ++ o.fields)
  | .ssel h o => some (hdrFields 3 25 h ++ o.fields)
  | .smov h o => some (hdrFields 3 26 h ++ o.fields)
  | .smovi h o => some (hdrFields 3 27 h ++ o.fields)
  | .smovh h o => some (hdrFields 3 28 h ++ o.fields)
  | .slea h o => some (hdrFields 3 29 h ++ o.fields)
  | .mwin h o => some (hdrFields 3 32 h ++ o.fields)
  | .mand h o => some (hdrFields 9 1 h ++ o.fields)
  | .mor h o => some (hdrFields 9 2 h ++ o.fields)
  | .mxor h o => some (hdrFields 9 3 h ++ o.fields)
  | .mandn h o => some (hdrFields 9 4 h ++ o.fields)
  | .mnot h o => some (hdrFields 9 5 h ++ o.fields)
  | .mmov h o => some (hdrFields 9 8 h ++ o.fields)
  | .mpop h o => some (hdrFields 9 9 h ++ o.fields)
  | .mffs h o => some (hdrFields 9 10 h ++ o.fields)
  | .mfroms h o => some (hdrFields 9 11 h ++ o.fields)
  | .mtos h o => some (hdrFields 9 12 h ++ o.fields)
  | .bra h o => some (hdrFields 4 1 h ++ o.fields)
  | .brm h o => some (hdrFields 4 2 h ++ o.fields)
  | .split h o => some (hdrFields 4 3 h ++ o.fields)
  | .join h o => some (hdrFields 4 4 h ++ o.fields)
  | .brx h o => some (hdrFields 4 5 h ++ o.fields)
  | .call h o => some (hdrFields 4 6 h ++ o.fields)
  | .callx h o => some (hdrFields 4 7 h ++ o.fields)
  | .exit h o => some (hdrFields 4 8 h ++ o.fields)
  | .ret h o => some (hdrFields 4 9 h ++ o.fields)
  | .loopd h o => some (hdrFields 4 10 h ++ o.fields)
  | .bara h o => some (hdrFields 10 1 h ++ o.fields)
  | .barw h o => some (hdrFields 10 2 h ++ o.fields)
  | .bars h o => some (hdrFields 10 3 h ++ o.fields)
  | .bart h o => some (hdrFields 10 4 h ++ o.fields)
  | .fsync h o => some (hdrFields 10 5 h ++ o.fields)
  | .yield h o => some (hdrFields 10 6 h ++ o.fields)
  | .fence h o => some (hdrFields 10 16 h ++ o.fields)
  | .fenceSc h o => some (hdrFields 10 17 h ++ o.fields)
  | .tagw h o => some (hdrFields 10 24 h ++ o.fields)
  | .tagff h o => some (hdrFields 10 25 h ++ o.fields)
  | .tagrel h o => some (hdrFields 10 26 h ++ o.fields)
  | .tokw h o => some (hdrFields 10 27 h ++ o.fields)
  | .vadd h o => some (hdrFields 1 1 h ++ o.fields)
  | .vsub h o => some (hdrFields 1 2 h ++ o.fields)
  | .vmul h o => some (hdrFields 1 3 h ++ o.fields)
  | .vmulh h o => some (hdrFields 1 4 h ++ o.fields)
  | .vmad h o => some (hdrFields 1 5 h ++ o.fields)
  | .vmin h o => some (hdrFields 1 6 h ++ o.fields)
  | .vmax h o => some (hdrFields 1 7 h ++ o.fields)
  | .vabs h o => some (hdrFields 1 8 h ++ o.fields)
  | .vand h o => some (hdrFields 1 9 h ++ o.fields)
  | .vor h o => some (hdrFields 1 10 h ++ o.fields)
  | .vxor h o => some (hdrFields 1 11 h ++ o.fields)
  | .vnot h o => some (hdrFields 1 12 h ++ o.fields)
  | .vshl h o => some (hdrFields 1 13 h ++ o.fields)
  | .vshr h o => some (hdrFields 1 14 h ++ o.fields)
  | .vsra h o => some (hdrFields 1 15 h ++ o.fields)
  | .vclz h o => some (hdrFields 1 16 h ++ o.fields)
  | .vpop h o => some (hdrFields 1 17 h ++ o.fields)
  | .vdiv h o => some (hdrFields 1 18 h ++ o.fields)
  | .vrem h o => some (hdrFields 1 19 h ++ o.fields)
  | .vcmp h o => some (hdrFields 1 20 h ++ o.fields)
  | .vsel h o => some (hdrFields 1 21 h ++ o.fields)
  | .vmov h o => some (hdrFields 1 22 h ++ o.fields)
  | .vfadd h o => some (hdrFields 1 32 h ++ o.fields)
  | .vfsub h o => some (hdrFields 1 33 h ++ o.fields)
  | .vfmul h o => some (hdrFields 1 34 h ++ o.fields)
  | .vfmin h o => some (hdrFields 1 35 h ++ o.fields)
  | .vfmax h o => some (hdrFields 1 36 h ++ o.fields)
  | .vfma h o => some (hdrFields 1 37 h ++ o.fields)
  | .vfcmp h o => some (hdrFields 1 38 h ++ o.fields)
  | .vfclass h o => some (hdrFields 1 39 h ++ o.fields)
  | .vrcp h o => some (hdrFields 1 48 h ++ o.fields)
  | .vrsq h o => some (hdrFields 1 49 h ++ o.fields)
  | .vsqrt h o => some (hdrFields 1 50 h ++ o.fields)
  | .vexp2 h o => some (hdrFields 1 51 h ++ o.fields)
  | .vlog2 h o => some (hdrFields 1 52 h ++ o.fields)
  | .vsin h o => some (hdrFields 1 53 h ++ o.fields)
  | .vcos h o => some (hdrFields 1 54 h ++ o.fields)
  | .vtanh h o => some (hdrFields 1 55 h ++ o.fields)
  | .mrd h o => some (hdrFields 1 64 h ++ o.fields)
  | .mwr h o => some (hdrFields 1 65 h ++ o.fields)
  | .vmovi h o => some (hdrFields 2 1 h ++ o.fields)
  | .viota h o => some (hdrFields 2 2 h ++ o.fields)
  | .vcvt h o => some (hdrFields 8 1 h ++ o.fields)
  | .vqnt h o => some (hdrFields 8 2 h ++ o.fields)
  | .vexpd h o => some (hdrFields 8 3 h ++ o.fields)
  | .vbpk h o => some (hdrFields 8 4 h ++ o.fields)
  | .vbunpk h o => some (hdrFields 8 5 h ++ o.fields)
  | .amaxrd h o => some (hdrFields 8 6 h ++ o.fields)
  | .vshuf h o => some (hdrFields 7 1 h ++ o.fields)
  | .vrot h o => some (hdrFields 7 2 h ++ o.fields)
  | .vbcst h o => some (hdrFields 7 3 h ++ o.fields)
  | .vvote h o => some (hdrFields 7 4 h ++ o.fields)
  | .vred h o => some (hdrFields 7 5 h ++ o.fields)
  | .vscan h o => some (hdrFields 7 6 h ++ o.fields)
  | .vld h o => some (hdrFields 5 1 h ++ o.fields)
  | .vst h o => some (hdrFields 5 2 h ++ o.fields)
  | .sld h o => some (hdrFields 5 3 h ++ o.fields)
  | .sst h o => some (hdrFields 5 4 h ++ o.fields)
  | .vldw h o => some (hdrFields 5 5 h ++ o.fields)
  | .vstw h o => some (hdrFields 5 6 h ++ o.fields)
  | .pref h o => some (hdrFields 5 7 h ++ o.fields)
  | .atom h o => some (hdrFields 6 1 h ++ o.fields)
  | .red h o => some (hdrFields 6 2 h ++ o.fields)
  | .waita h o => some (hdrFields 6 3 h ++ o.fields)
  | .cpy h o => some (hdrFields 11 1 h ++ o.fields)
  | .cpym h o => some (hdrFields 11 2 h ++ o.fields)
  | .gath h o => some (hdrFields 11 3 h ++ o.fields)
  | .coll h o => some (hdrFields 11 4 h ++ o.fields)
  | .tidw h o => some (hdrFields 11 8 h ++ o.fields)
  | .tidr h o => some (hdrFields 11 9 h ++ o.fields)
  | .pairWord a b => some ([(5, 31), (1, 0)] ++ a.fields ++ b.fields)
  | .mzero o => some (hdrFields 12 1 mtxHdr ++ o.fields)
  | .mma o => some (hdrFields 12 2 mtxHdr ++ o.fields)
  | .mmax o => some (hdrFields 12 3 mtxHdr ++ o.fields)
  | .mst o => some (hdrFields 12 4 mtxHdr ++ o.fields)
  | .mscale o => some (hdrFields 12 5 mtxHdr ++ o.fields)
  | .mbias o => some (hdrFields 12 6 mtxHdr ++ o.fields)
  | .marr o => some (hdrFields 12 7 mtxHdr ++ o.fields)
  | .mwaitb o => some (hdrFields 12 8 mtxHdr ++ o.fields)
  | .mloop o => some (hdrFields 12 9 mtxHdr ++ o.fields)
  | .mprog o => some (hdrFields 12 10 mtxHdr ++ o.fields)
  | .mend o => some (hdrFields 12 11 mtxHdr ++ o.fields)
  | .curveMoveEnd _ | .curveTimeout _ | .barrierTimeout _ _ _ | .heartbeatTick _ | .tagwTimeout _ _ _
  | .loadLands _ _ _ | .storePerformed _ | .waitaWake _ _ _ | .watchPoll _ _ _ | .waitaTimeout _ _ _
  | .cpymHoldRelease _ _ _ | .jobChunk _ _ | .jobComplete _ | .arrayOpComplete _ | .foldStart _ | .foldEnd _
  | .dispatcherCycle | .agePoint _ | .clusterMapRotation _ | .writeIndexWake _ | .packetNop _ | .packetLaunch _
  | .launchc _ | .fetchfence _ | .waitmem _ | .waitmemTimeout _ | .signal _ | .stamp _ | .contextTeardown _
  | .preqPreempt _ _ | .preqKill _ _ | .preqCtxall _ _ _ | .foldStopped _ | .saveComplete _ | .fltackResume _ _
  | .fltackKill _ _ | .faultRecordService _ | .migreq _ _ | .migrationTransferDone _ | .migrationSample _
  | .tileclr _ _ | .writeQueueDescriptor _ _ | .writeContextDescriptor _ _ | .shootdown _ _ _
  | .preEmptOrKill _ _ | .resumeSavedFold _ _ | .writeCoreControl _ _ _ | .readCoreControl _ _
  | .readViolationLog _ _ | .pstateTargetWrite _ _ _ | .pstateTransitionDone _ | .sensorRetest _
  | .registerWrite _ _ _ | .arbiterPeriod _ _ | .leaseExpiry _ | .leaderLeaseRenew _ | .leaderLeaseLapse
  | .leaderClaim _ | .failsafeEntry _ | .vaultHot _ | .vaultCool _ | .sensorTest _ | .replicaLockTimeout _ _ _
  | .remoteTimeout _ _ _ | .peerRequest _ | .hostAccess _ | .patrolScrub _ _ | .reset _ | .rcvgo _ | .getVersion
  | .getCapabilities | .negotiateAlgorithms | .getCertificate | .getMeasurements _ | .keySlotLoad _ _
  | .keySlotClear _ | .backgroundSweepDone | .firmwareCoreAnswer _ _ _ | .commandProcessorCopyHeld _ _ _
  | .settlingAndRelockEnd _ | .domainFenceScDelay _ _ _ | .spdmSessionOpen | .spdmSessionEnd
  | .recoveryWindowWrite _ _ | .linkError _ _ _ _ _ | .peerAccessTableWrite _ _ _ => none

/-- The word of an instruction (an event row has none; 0 stands in). -/
def encode (i : Instr) : IWord :=
  match i.fields with
  | some l => BitVec.ofNat 96 (packFields l)
  | none => 0

/-- `i` has an instruction word: it is no event row. -/
def Instr.hasWord (i : Instr) : Bool := i.fields.isSome

/-! ### Instructions from words -/

/-- Why a slot holds no instruction, in the order of Table 5.9. -/
inductive DecErr where
  | format | opc | field
  deriving DecidableEq, Repr

/-- The kind of line an instruction stands in: 00 flock code, 01 matrix-stream code (R133). -/
inductive LineKind where
  | code | matrix
  deriving DecidableEq, Repr

/-- The opcodes of `SYS` (Tables 6.1 to 6.3); `SOP` splits the `LEASE` opcode (R199). -/
def sysCtor (h : Hdr) (o : SysOp) : Nat → Option Instr
  | 1 => some (.trap h o)
  | 2 => some (.dcall h o)
  | 3 => some (.rdsr h o)
  | 4 => some (.wrsr h o)
  | 5 => some (.launch h o)
  | 6 => some (if o.sop == 1 then .leaseRet h o else .leaseReq h o)
  | 7 => some (.mark h o)
  | 8 => some (.curve h o)
  | 9 => some (.ckpt h o)
  | _ => none

/-- The opcodes of `VR` (Tables 6.1 to 6.3). -/
def vrCtor (h : Hdr) (o : VrOp) : Nat → Option Instr
  | 1 => some (.vadd h o)
  | 2 => some (.vsub h o)
  | 3 => some (.vmul h o)
  | 4 => some (.vmulh h o)
  | 5 => some (.vmad h o)
  | 6 => some (.vmin h o)
  | 7 => some (.vmax h o)
  | 8 => some (.vabs h o)
  | 9 => some (.vand h o)
  | 10 => some (.vor h o)
  | 11 => some (.vxor h o)
  | 12 => some (.vnot h o)
  | 13 => some (.vshl h o)
  | 14 => some (.vshr h o)
  | 15 => some (.vsra h o)
  | 16 => some (.vclz h o)
  | 17 => some (.vpop h o)
  | 18 => some (.vdiv h o)
  | 19 => some (.vrem h o)
  | 20 => some (.vcmp h o)
  | 21 => some (.vsel h o)
  | 22 => some (.vmov h o)
  | 32 => some (.vfadd h o)
  | 33 => some (.vfsub h o)
  | 34 => some (.vfmul h o)
  | 35 => some (.vfmin h o)
  | 36 => some (.vfmax h o)
  | 37 => some (.vfma h o)
  | 38 => some (.vfcmp h o)
  | 39 => some (.vfclass h o)
  | 48 => some (.vrcp h o)
  | 49 => some (.vrsq h o)
  | 50 => some (.vsqrt h o)
  | 51 => some (.vexp2 h o)
  | 52 => some (.vlog2 h o)
  | 53 => some (.vsin h o)
  | 54 => some (.vcos h o)
  | 55 => some (.vtanh h o)
  | 64 => some (.mrd h o)
  | 65 => some (.mwr h o)
  | _ => none

/-- The opcodes of `VI` (Tables 6.1 to 6.3). -/
def viCtor (h : Hdr) (o : ViOp) : Nat → Option Instr
  | 1 => some (.vmovi h o)
  | 2 => some (.viota h o)
  | _ => none

/-- The opcodes of `SC` (Tables 6.1 to 6.3). -/
def scCtor (h : Hdr) (o : ScOp) : Nat → Option Instr
  | 1 => some (.sadd h o)
  | 2 => some (.ssub h o)
  | 3 => some (.smul h o)
  | 4 => some (.smulh h o)
  | 5 => some (.sdiv h o)
  | 6 => some (.srem h o)
  | 7 => some (.sand h o)
  | 8 => some (.sor h o)
  | 9 => some (.sxor h o)
  | 10 => some (.sshl h o)
  | 11 => some (.sshr h o)
  | 12 => some (.ssra h o)
  | 13 => some (.smin h o)
  | 14 => some (.smax h o)
  | 15 => some (.sclz h o)
  | 16 => some (.spop h o)
  | 24 => some (.scmp h o)
  | 25 => some (.ssel h o)
  | 26 => some (.smov h o)
  | 27 => some (.smovi h o)
  | 28 => some (.smovh h o)
  | 29 => some (.slea h o)
  | 32 => some (.mwin h o)
  | _ => none

/-- The opcodes of `BR` (Tables 6.1 to 6.3). -/
def brCtor (h : Hdr) (o : BrOp) : Nat → Option Instr
  | 1 => some (.bra h o)
  | 2 => some (.brm h o)
  | 3 => some (.split h o)
  | 4 => some (.join h o)
  | 5 => some (.brx h o)
  | 6 => some (.call h o)
  | 7 => some (.callx h o)
  | 8 => some (.exit h o)
  | 9 => some (.ret h o)
  | 10 => some (.loopd h o)
  | _ => none

/-- The opcodes of `MEM` (Tables 6.1 to 6.3). -/
def memCtor (h : Hdr) (o : MemOp) : Nat → Option Instr
  | 1 => some (.vld h o)
  | 2 => some (.vst h o)
  | 3 => some (.sld h o)
  | 4 => some (.sst h o)
  | 5 => some (.vldw h o)
  | 6 => some (.vstw h o)
  | 7 => some (.pref h o)
  | _ => none

/-- The opcodes of `ATM` (Tables 6.1 to 6.3). -/
def atmCtor (h : Hdr) (o : AtmOp) : Nat → Option Instr
  | 1 => some (.atom h o)
  | 2 => some (.red h o)
  | 3 => some (.waita h o)
  | _ => none

/-- The opcodes of `XL` (Tables 6.1 to 6.3). -/
def xlCtor (h : Hdr) (o : XlOp) : Nat → Option Instr
  | 1 => some (.vshuf h o)
  | 2 => some (.vrot h o)
  | 3 => some (.vbcst h o)
  | 4 => some (.vvote h o)
  | 5 => some (.vred h o)
  | 6 => some (.vscan h o)
  | _ => none

/-- The opcodes of `CV` (Tables 6.1 to 6.3). -/
def cvCtor (h : Hdr) (o : CvOp) : Nat → Option Instr
  | 1 => some (.vcvt h o)
  | 2 => some (.vqnt h o)
  | 3 => some (.vexpd h o)
  | 4 => some (.vbpk h o)
  | 5 => some (.vbunpk h o)
  | 6 => some (.amaxrd h o)
  | _ => none

/-- The opcodes of `MSK` (Tables 6.1 to 6.3). -/
def mskCtor (h : Hdr) (o : MskOp) : Nat → Option Instr
  | 1 => some (.mand h o)
  | 2 => some (.mor h o)
  | 3 => some (.mxor h o)
  | 4 => some (.mandn h o)
  | 5 => some (.mnot h o)
  | 8 => some (.mmov h o)
  | 9 => some (.mpop h o)
  | 10 => some (.mffs h o)
  | 11 => some (.mfroms h o)
  | 12 => some (.mtos h o)
  | _ => none

/-- The opcodes of `SYN` (Tables 6.1 to 6.3). -/
def synCtor (h : Hdr) (o : SynOp) : Nat → Option Instr
  | 1 => some (.bara h o)
  | 2 => some (.barw h o)
  | 3 => some (.bars h o)
  | 4 => some (.bart h o)
  | 5 => some (.fsync h o)
  | 6 => some (.yield h o)
  | 16 => some (.fence h o)
  | 17 => some (.fenceSc h o)
  | 24 => some (.tagw h o)
  | 25 => some (.tagff h o)
  | 26 => some (.tagrel h o)
  | 27 => some (.tokw h o)
  | _ => none

/-- The opcodes of `ENG` (Tables 6.1 to 6.3). -/
def engCtor (h : Hdr) (o : EngOp) : Nat → Option Instr
  | 1 => some (.cpy h o)
  | 2 => some (.cpym h o)
  | 3 => some (.gath h o)
  | 4 => some (.coll h o)
  | 8 => some (.tidw h o)
  | 9 => some (.tidr h o)
  | _ => none

/-- The opcodes of `MTX` (Table 6.3). -/
def mtxCtor (o : MtxOp) : Nat → Option Instr
  | 1 => some (.mzero o)
  | 2 => some (.mma o)
  | 3 => some (.mmax o)
  | 4 => some (.mst o)
  | 5 => some (.mscale o)
  | 6 => some (.mbias o)
  | 7 => some (.marr o)
  | 8 => some (.mwaitb o)
  | 9 => some (.mloop o)
  | 10 => some (.mprog o)
  | 11 => some (.mend o)
  | _ => none

/-- Whether an opcode is assigned in a format. -/
def opcAssigned (fmt opc : Nat) : Bool :=
  match fmt with
  | 0 => [0, 1, 2, 3, 4, 5, 6, 7, 8, 9].contains opc
  | 1 => [1, 2, 3, 4, 5, 6, 7, 8, 9, 10, 11, 12, 13, 14, 15, 16, 17, 18, 19, 20, 21, 22, 32, 33, 34, 35, 36, 37,
    38, 39, 48, 49, 50, 51, 52, 53, 54, 55, 64, 65].contains opc
  | 2 => [1, 2].contains opc
  | 3 => [1, 2, 3, 4, 5, 6, 7, 8, 9, 10, 11, 12, 13, 14, 15, 16, 24, 25, 26, 27, 28, 29, 32].contains opc
  | 4 => [1, 2, 3, 4, 5, 6, 7, 8, 9, 10].contains opc
  | 5 => [1, 2, 3, 4, 5, 6, 7].contains opc
  | 6 => [1, 2, 3].contains opc
  | 7 => [1, 2, 3, 4, 5, 6].contains opc
  | 8 => [1, 2, 3, 4, 5, 6].contains opc
  | 9 => [1, 2, 3, 4, 5, 8, 9, 10, 11, 12].contains opc
  | 10 => [1, 2, 3, 4, 5, 6, 16, 17, 24, 25, 26, 27].contains opc
  | 11 => [1, 2, 3, 4, 8, 9].contains opc
  | 12 => [1, 2, 3, 4, 5, 6, 7, 8, 9, 10, 11].contains opc
  | _ => false

/-- Refuses an instruction that breaks a decode rule of its entry. -/
def checked : Option Instr → Except DecErr Instr
  | some i => if i.wf then .ok i else .error .field
  | none => .error .field

/-- An instruction of a format other than `PAIR`, from its opcode, header and body. -/
def decodeBody (fmt opc : Nat) (h : Hdr) (body : Nat) : Option Instr :=
  match fmt with
  | 0 => (SysOp.ofFields (unpackFields SysOp.widths body)).bind (sysCtor h · opc)
  | 1 => (VrOp.ofFields (unpackFields VrOp.widths body)).bind (vrCtor h · opc)
  | 2 => (ViOp.ofFields (unpackFields ViOp.widths body)).bind (viCtor h · opc)
  | 3 => (ScOp.ofFields (unpackFields ScOp.widths body)).bind (scCtor h · opc)
  | 4 => (BrOp.ofFields (unpackFields BrOp.widths body)).bind (brCtor h · opc)
  | 5 => (MemOp.ofFields (unpackFields MemOp.widths body)).bind (memCtor h · opc)
  | 6 => (AtmOp.ofFields (unpackFields AtmOp.widths body)).bind (atmCtor h · opc)
  | 7 => (XlOp.ofFields (unpackFields XlOp.widths body)).bind (xlCtor h · opc)
  | 8 => (CvOp.ofFields (unpackFields CvOp.widths body)).bind (cvCtor h · opc)
  | 9 => (MskOp.ofFields (unpackFields MskOp.widths body)).bind (mskCtor h · opc)
  | 10 => (SynOp.ofFields (unpackFields SynOp.widths body)).bind (synCtor h · opc)
  | 11 => (EngOp.ofFields (unpackFields EngOp.widths body)).bind (engCtor h · opc)
  | 12 => if h = mtxHdr then (MtxOp.ofFields (unpackFields MtxOp.widths body)).bind (mtxCtor · opc) else none
  | _ => none

/-- A pair word: bit 90, then the halves (R146, R150). -/
def decodePair (w : Nat) : Except DecErr Instr :=
  match unpackFields [5, 1, 45, 45] w with
  | [_, z, x, y] =>
    let fx := unpackFields PairHalf.widths x
    let fy := unpackFields PairHalf.widths y
    if (PairOp.ofCode (fx.headD 0)).isNone || (PairOp.ofCode (fy.headD 0)).isNone then .error .opc
    else if z = 0 then
      match PairHalf.ofFields fx, PairHalf.ofFields fy with
      | some a, some b => checked (some (.pairWord a b))
      | _, _ => .error .field
    else .error .field
  | _ => .error .format

/-- The instruction that a slot of a line of kind `k` holds, or the first fault of Table 5.9 (R152, R157, R158,
R162): the format and the placement, then the opcode, then the fields. -/
def decode (k : LineKind) (w : IWord) : Except DecErr Instr :=
  let n := w.toNat
  match unpackFields (hdrWidths ++ [66]) n with
  | [fmt, opc, grd, gneg, wait, nwb, len, lat, body] =>
    if n = 0 then .ok .nop
    else if fmt = 31 then (if k = .code then decodePair n else .error .format)
    else if 12 < fmt ∨ (fmt = 12 ∧ k = .code) ∨ (fmt ≠ 12 ∧ k = .matrix) then .error .format
    else if opcAssigned fmt opc then
      checked (decodeBody fmt opc
        { grd := BitVec.ofNat 4 grd, gneg := gneg == 1, wait := BitVec.ofNat 8 wait, nwb := nwb == 1, len := len == 1,
          lat := BitVec.ofNat 2 lat } body)
    else .error .opc
  | _ => .error .format

/-- The kind of line that an instruction stands in (Table 6.5); `NOP` stands in both. -/
def Instr.lineKind : Instr → LineKind
  | .mzero _ | .mma _ | .mmax _ | .mst _ | .mscale _ | .mbias _ | .marr _ | .mwaitb _ | .mloop _ | .mprog _ | .mend _ => .matrix
  | .nop | .trap _ _ | .dcall _ _ | .rdsr _ _ | .wrsr _ _ | .launch _ _ | .leaseReq _ _ | .leaseRet _ _
  | .mark _ _ | .curve _ _ | .ckpt _ _ | .sadd _ _ | .ssub _ _ | .smul _ _ | .smulh _ _ | .sdiv _ _ | .srem _ _
  | .sand _ _ | .sor _ _ | .sxor _ _ | .sshl _ _ | .sshr _ _ | .ssra _ _ | .smin _ _ | .smax _ _ | .sclz _ _
  | .spop _ _ | .scmp _ _ | .ssel _ _ | .smov _ _ | .smovi _ _ | .smovh _ _ | .slea _ _ | .mwin _ _ | .mand _ _
  | .mor _ _ | .mxor _ _ | .mandn _ _ | .mnot _ _ | .mmov _ _ | .mpop _ _ | .mffs _ _ | .mfroms _ _ | .mtos _ _
  | .bra _ _ | .brm _ _ | .split _ _ | .join _ _ | .brx _ _ | .call _ _ | .callx _ _ | .exit _ _ | .ret _ _
  | .loopd _ _ | .bara _ _ | .barw _ _ | .bars _ _ | .bart _ _ | .fsync _ _ | .yield _ _ | .fence _ _
  | .fenceSc _ _ | .tagw _ _ | .tagff _ _ | .tagrel _ _ | .tokw _ _ | .vadd _ _ | .vsub _ _ | .vmul _ _
  | .vmulh _ _ | .vmad _ _ | .vmin _ _ | .vmax _ _ | .vabs _ _ | .vand _ _ | .vor _ _ | .vxor _ _ | .vnot _ _
  | .vshl _ _ | .vshr _ _ | .vsra _ _ | .vclz _ _ | .vpop _ _ | .vdiv _ _ | .vrem _ _ | .vcmp _ _ | .vsel _ _
  | .vmov _ _ | .vfadd _ _ | .vfsub _ _ | .vfmul _ _ | .vfmin _ _ | .vfmax _ _ | .vfma _ _ | .vfcmp _ _
  | .vfclass _ _ | .vrcp _ _ | .vrsq _ _ | .vsqrt _ _ | .vexp2 _ _ | .vlog2 _ _ | .vsin _ _ | .vcos _ _
  | .vtanh _ _ | .mrd _ _ | .mwr _ _ | .vmovi _ _ | .viota _ _ | .vcvt _ _ | .vqnt _ _ | .vexpd _ _ | .vbpk _ _
  | .vbunpk _ _ | .amaxrd _ _ | .vshuf _ _ | .vrot _ _ | .vbcst _ _ | .vvote _ _ | .vred _ _ | .vscan _ _
  | .vld _ _ | .vst _ _ | .sld _ _ | .sst _ _ | .vldw _ _ | .vstw _ _ | .pref _ _ | .atom _ _ | .red _ _
  | .waita _ _ | .cpy _ _ | .cpym _ _ | .gath _ _ | .coll _ _ | .tidw _ _ | .tidr _ _ | .pairWord _ _
  | .curveMoveEnd _ | .curveTimeout _ | .barrierTimeout _ _ _ | .heartbeatTick _ | .tagwTimeout _ _ _
  | .loadLands _ _ _ | .storePerformed _ | .waitaWake _ _ _ | .watchPoll _ _ _ | .waitaTimeout _ _ _
  | .cpymHoldRelease _ _ _ | .jobChunk _ _ | .jobComplete _ | .arrayOpComplete _ | .foldStart _ | .foldEnd _
  | .dispatcherCycle | .agePoint _ | .clusterMapRotation _ | .writeIndexWake _ | .packetNop _ | .packetLaunch _
  | .launchc _ | .fetchfence _ | .waitmem _ | .waitmemTimeout _ | .signal _ | .stamp _ | .contextTeardown _
  | .preqPreempt _ _ | .preqKill _ _ | .preqCtxall _ _ _ | .foldStopped _ | .saveComplete _ | .fltackResume _ _
  | .fltackKill _ _ | .faultRecordService _ | .migreq _ _ | .migrationTransferDone _ | .migrationSample _
  | .tileclr _ _ | .writeQueueDescriptor _ _ | .writeContextDescriptor _ _ | .shootdown _ _ _
  | .preEmptOrKill _ _ | .resumeSavedFold _ _ | .writeCoreControl _ _ _ | .readCoreControl _ _
  | .readViolationLog _ _ | .pstateTargetWrite _ _ _ | .pstateTransitionDone _ | .sensorRetest _
  | .registerWrite _ _ _ | .arbiterPeriod _ _ | .leaseExpiry _ | .leaderLeaseRenew _ | .leaderLeaseLapse
  | .leaderClaim _ | .failsafeEntry _ | .vaultHot _ | .vaultCool _ | .sensorTest _ | .replicaLockTimeout _ _ _
  | .remoteTimeout _ _ _ | .peerRequest _ | .hostAccess _ | .patrolScrub _ _ | .reset _ | .rcvgo _ | .getVersion
  | .getCapabilities | .negotiateAlgorithms | .getCertificate | .getMeasurements _ | .keySlotLoad _ _
  | .keySlotClear _ | .backgroundSweepDone | .firmwareCoreAnswer _ _ _ | .commandProcessorCopyHeld _ _ _
  | .settlingAndRelockEnd _ | .domainFenceScDelay _ _ _ | .spdmSessionOpen | .spdmSessionEnd
  | .recoveryWindowWrite _ _ | .linkError _ _ _ _ _ | .peerAccessTableWrite _ _ _ => .code

/-- The instruction that the decoder reads from an instruction of `nbits` bits numbered from the least significant
bit of its first byte; the bits above are zero. A slot is one 96-bit little-endian word (R131). Its format tells
the kind of line it stands in. -/
def decodeTableWord (nbits w : Nat) : Option Instr :=
  let x := BitVec.ofNat 96 (w % 2 ^ nbits)
  match decode (if x.toNat / 2 ^ 91 = 12 then .matrix else .code) x with
  | .ok i => some i
  | .error _ => none

end Sys2Proof
end

