-- ==== Sys2Proof/Machine/State.lean ====
section
/-! DEFINITION. All the state of one Finade F3 package, as plain data, and the state right after reset.
Each field's comment names the rule that gives it; INVENTORY.md lists every piece with its reset value. -/

namespace Sys2Proof.Machine

/-! ### Lane, flock and fragment (R13 to R40, R63 to R68) -/

/-- A lane that waits on an address (R250): its address and the line of its home, the operand it compares with, and the value it
read last. -/
structure WaitLane where
  lane : Nat
  addr : Nat
  line : Nat
  a : Nat
  last : Nat
  deriving DecidableEq, Repr

/-- The flock registers as an instruction that waits after its issue found them: what it reads when it is tried again
(R149, R297, log 88). -/
structure Held where
  s : Map W64
  m : Map Mask
  lat : Map W64
  latOk : BitVec 4
  accBase : BitVec 10 := 0
  accLim : BitVec 10 := 0
  deriving DecidableEq, Repr

/-- Why a fragment is not ready (R29), with what its release needs. -/
inductive Park where
  | ready
  /-- at its join (R26) -/
  | join
  /-- a barrier wait on barrier `key` (0 to 15 fold, 16 `FSYNC`, 17 to 24 paddock) for phase `phase` (R189, R190) -/
  | barrier (key : Nat) (phase : BitVec 16) (deadline : Option Nat)
  /-- a barrier wait for phase `phase` that issues anew, its flock having arrived in that phase, since its fold was stopped (R373) -/
  | rebar (key : Nat) (phase : BitVec 16)
  /-- arriving again in phase `phase` (R32) -/
  | rearrive (key : Nat) (phase : BitVec 16)
  /-- a cross-lane rendezvous (R37, R38): its active lanes, the lanes it names, and the operands of its lanes, read at issue -/
  | rendezvous (act named : Mask) (a b : List Nat)
  /-- `TAGW`: its mask and deadline (R267) -/
  | tag (mask : Mask) (deadline : Option Nat)
  /-- the tokens of a `WAIT` mask (R42, R88) -/
  | token
  /-- `TOKW`: its tokens (R270) -/
  | tokw (mask : BitVec 8)
  /-- no job card is free (R254) -/
  | card
  /-- a multicast hold (R259) -/
  | multicast
  /-- `WAITA`: the lanes not yet satisfied and the deadline (R250) -/
  | waita (left : List WaitLane) (deadline : Option Nat)
  /-- `FENCE.SC`: its drain is made and it waits for a tick, of the domain if `dom` (R253) -/
  | fenceSc (dom : Bool)
  /-- `FENCE.SC` at domain scope in its further 200 ns after domain tick `n` (R330) -/
  | domDelay (n : Nat)
  /-- `DCALL`: the service and its argument (R196) -/
  | firmware (service : Nat) (arg : W64)
  /-- `LAUNCH`, the packet read and the queue named (R198) -/
  | cmdproc (pkt : Line)
  /-- `LEASE`: a request of so many microseconds, or a return (R199) -/
  | lease (us : Option W64)
  /-- `CURVE` in a rendezvous (R53) -/
  | curve
  /-- a store or atomic to a replicated page in its commit (R107) -/
  | commit (held : Held)
  /-- an access that waits for an accumulator bank that an array operation owns, or for a fold that is being moved
  (R240, R276, R385) -/
  | busy (held : Held)
  deriving DecidableEq, Repr

/-- The fetch buffer: the current line and the instruction-unit count of its slot 0 divided by 5 (R136, R381). -/
structure LineBuf where
  num : Nat
  data : Line
  deriving DecidableEq, Repr

/-- A fragment (R24). `path` lists the unfused splits it descends from, innermost first. -/
structure Frag where
  fid : Nat
  members : Mask
  exec : Mask
  pc : Pc
  /-- the pc was reached by a transfer of control, so the landing slot's `BTM` bit is due (R135) -/
  arriving : Bool
  buf : Option LineBuf
  path : List Nat
  /-- the pending half of a serial split (R25) -/
  pending : Bool
  park : Park
  deriving DecidableEq, Repr

/-- An unfused split: its join, the split-table entries it holds, and the divergence-stack depth of a serial split. -/
structure Split where
  sid : Nat
  join : Pc
  entries : Nat
  serial : Option Nat
  /-- lanes of the pending half of a serial split (R25) -/
  held : Mask := 0
  /-- the pending half has not run since it was pushed: it goes on at the record's `RESUME` (R25, R305) -/
  unrun : Bool := false
  deriving DecidableEq, Repr

/-- What a stopped party does when all its records are acknowledged with resume (R370). -/
inductive Resume where
  /-- re-execute over `SR.REPLAY` -/
  | replay
  /-- re-execute the instruction -/
  | again
  /-- go on after the instruction -/
  | past
  deriving DecidableEq, Repr

/-- A party stopped by faults: the sequence numbers of its records not yet acknowledged. -/
structure Stop where
  awaits : List Nat
  resume : Resume
  frag : Nat
  /-- a record of the stop is `PRIV_GROW` (R72) -/
  grow : Bool
  deriving DecidableEq, Repr

/-- An armed `MARK`: the descriptor's pc and its 480 bits (R50, R51). -/
structure Armed where
  pc : Pc
  desc : BitVec 480
  markPc : Pc
  deriving DecidableEq, Repr

/-- Where the flock's last instruction issued: fragment, line and slot (R148). -/
structure LastIssue where
  fid : Nat
  num : Nat
  slot : Nat
  deriving DecidableEq, Repr

/-- A flock. Its index in the fold is `SR.FLOCK`. It has ended when it has no fragment (R33). -/
structure Flock where
  /-- s0 to s127 (R63) -/
  s : Map W64
  /-- m0 to m14 (R63) -/
  m : Map Mask
  /-- lat0 to lat3 by latch * 64 + lane, and their valid bits (R147) -/
  lat : Map W64
  latOk : BitVec 4
  /-- error bits of tk0 to tk7 (R88); the counts are the fold's token references -/
  tkErr : BitVec 8
  accBase : BitVec 10
  accLim : BitVec 10
  replay : Mask
  /-- the fragment that re-executes over `SR.REPLAY` on resume (R242, R370) -/
  replayFid : Option Nat
  privHwm : Nat
  frags : List Frag
  splits : List Split
  stop : Option Stop
  last : Option LastIssue
  armed : Option Armed
  ckpt : Option W64
  /-- lanes that have passed barrier `key` in its current phase (R32) -/
  passed : Map Mask
  /-- arrivals at paddock barriers not yet recorded for the fold (R32) -/
  padArr : BitVec 8
  party : BitVec 16
  /-- within the kill scope of a fatal trap: stops at its next line boundary (R34) -/
  dying : Bool
  /-- the number of the store or atomic that the flock re-executes over `SR.REPLAY`; 0 for none (R242) -/
  replayGrp : Nat := 0
  /-- after a `YIELD`: the yielding fragment, with itself up to its line boundary, and from there on with each fragment that was ready
  there and has not issued since (R193) -/
  behind : List (Nat × Nat) := []
  deriving DecidableEq, Repr

/-- A barrier (R32): members and arrivals are flocks of a fold or folds of a paddock. -/
structure BarSt where
  declared : Bool
  broken : Bool
  stream : Bool
  streamArrived : Bool
  members : Mask
  phase : BitVec 16
  arrived : Mask
  permanent : Mask
  deriving DecidableEq, Repr

def BarSt.none : BarSt :=
  { declared := false, broken := false, stream := false, streamArrived := false, members := 0, phase := 0, arrived := 0,
    permanent := 0 }

/-- An incomplete job or access that counts on token `tk` of the flock whose threads are `lo` to `hi` - 1 (R88). -/
structure TokRef where
  id : Nat
  lo : Nat
  hi : Nat
  tk : Nat
  deriving DecidableEq, Repr

/-- An outstanding load: the register words still to land, by register * fold size + thread (R45, R238). -/
structure LoadItem where
  id : Nat
  lo : Nat
  hi : Nat
  /-- register words: key and value -/
  words : List (Nat × W32)
  tok : Option Nat
  /-- an `MRD`, `VLDW` or `VLD`: lane-loads count for the memory forms only (R45) -/
  counts : Bool
  deriving DecidableEq, Repr

/-! ### The matrix stream (Table 10.1) -/

/-- An array operation issued and not complete (R275): its opcode and fields, the stream registers and records it
copied, its card, and its progress (R290). -/
structure ArrayOp where
  opc : Nat
  o : MtxOp
  regs : List W64
  recs : List Line
  card : Nat
  /-- k-steps of completed blocks, or rows stored -/
  kdone : Nat
  rgdone : Nat
  stop : Option Stop
  deriving DecidableEq, Repr

structure Stream where
  pc : Pc
  arriving : Bool
  buf : Option LineBuf
  q : Map W64
  qamax : W32
  qnan : Bool
  qsr : W32
  party : BitVec 16
  queue : List ArrayOp
  /-- the phase of the last recorded arrival at fold barrier b, plus 1; 0 when none (R284) -/
  lastArr : Map Nat
  /-- `MWAITB` has arrived and waits (R284) -/
  waiting : Option (Nat × BitVec 16)
  ended : Bool
  stop : Option Stop
  deriving DecidableEq, Repr

/-! ### The fold (R13 to R23, R77, R78) -/

/-- Race metadata (Table 3.13). -/
structure RaceMark where
  party : BitVec 16
  phase : BitVec 16
  deriving DecidableEq, Repr

/-- The metadata of a line that no party has written. -/
def RaceMark.clear : RaceMark := { party := 0xFFFF, phase := 0 }

/-- What a fold is doing as a whole. -/
inductive FoldRun where
  /-- placed, not started (R21) -/
  | placed
  | running
  /-- stopping for a pre-emption (R373) or for a migration to a physical package core (R384) -/
  | stopping (migrate : Option Nat)
  /-- stopped and saving (R375) -/
  | saving
  /-- stopped and being transferred to a physical package core (R384) -/
  | moving (target : Nat)
  /-- saved (R376) -/
  | saved
  /-- placed again after a save, not restored yet (R378) -/
  | restoring
  /-- within a kill scope (R34) -/
  | dying
  deriving DecidableEq, Repr

/-- A boost lease (Table 16.11). -/
structure Lease where
  /-- microseconds left while its time stands still -/
  remain : Nat
  /-- twice the heartbeat count at which it ends while it runs: a microsecond is 62.5 ticks -/
  until' : Nat
  active : Bool
  susp : Bool
  dropped : Bool
  deriving DecidableEq, Repr

structure Fold where
  uid : Nat
  ctx : Nat
  gid : Nat
  /-- the paddock (unit) it belongs to -/
  pad : Nat
  x : Nat
  y : Nat
  z : Nat
  /-- linear index F (R300, R354) -/
  lin : Nat
  /-- `SR.PADDOCK` -/
  padIdx : Nat
  /-- physical package core 0 to 431 and fold slot -/
  core : Nat
  pslot : Nat
  /-- logical package core, 144 * die + core, and fold slot, kept across a migration (R4, R5, R386) -/
  lcore : Nat
  slot : Nat
  /-- private index P (R71) -/
  pidx : Nat
  size : Nat
  width : Nat
  /-- registers per thread -/
  regs : Nat
  scrBytes : Nat
  accRows : Nat
  tags : Nat
  run : FoldRun
  flocks : List Flock
  /-- vector registers by register * size + thread (R75) -/
  v : Map W32
  flags : Map W32
  srstate : Map W32
  amax : Map W32
  tagReady : Mask
  tagErr : Mask
  /-- ready tags that a job of another core has set: what its issuer wrote may be newer than this core's L1 (R321, R323) -/
  tagFar : Mask := 0
  fpctl : W32
  lease : Lease
  scr : Map Byte
  /-- race metadata by 32-byte granule of the scratchpad (R108) -/
  scrMark : Map RaceMark
  /-- accumulator words by row * 256 + column (R78) -/
  acc : Map W32
  /-- fold barriers 0 to 15 and the `FSYNC` barrier 16 -/
  bars : Map BarSt
  stream : Option Stream
  loads : List LoadItem
  toks : List TokRef
  /-- `MARK`s that have armed (R362) -/
  marks : Nat
  /-- a committed move in progress: the new width (R55) -/
  moveTo : Option Nat
  /-- a migration or rotation that waits for an honour point: the target physical package core (R361, R383) -/
  wants : Option Nat
  /-- a pre-emption that waits for the end of a migration (R390) -/
  preqAfter : Bool
  /-- a kill that waits for the end of a move to which the fold has committed (R55) -/
  killAfter : Bool
  /-- an acknowledgement with kill that came while the fold was saved (R390) -/
  lateKill : Bool
  /-- the step at which a rollback started the fold (R314) -/
  roll : Option W64
  /-- argument words not yet read because their read faulted (R299) -/
  argFault : Option Stop
  deriving DecidableEq, Repr

/-! ### Grids, paddocks, queues and contexts (chapters 15 and 16) -/

/-- A barrier declaration (Table 11.6). -/
structure BarDecl where
  paddock : Bool
  num : Nat
  matrix : Bool
  mask : Mask
  deriving DecidableEq, Repr

/-- A placement-map entry (R354). -/
structure MapEntry where
  lo : Nat
  hi : Nat
  cluster : Nat
  deriving DecidableEq, Repr

/-- The fields of a launch record (Table 15.6). -/
structure LaunchRec where
  width : Nat
  resident : Bool
  contain : Bool
  race : Bool
  prio : Nat
  clo : Nat
  chi : Nat
  regs : Nat
  fold : Nat
  scr : Nat
  acc : Nat
  pad : Nat
  tags : Nat
  fentry : Pc
  mentry : Option Pc
  rentry : Option Pc
  rmentry : Option Pc
  cbase : Nat
  badr : Nat
  nbar : Nat
  tidlo : Nat
  tidn : Nat
  hw : List Nat
  pmap : Nat
  pmapn : Nat
  argsz : Nat
  ibt : Nat
  coid : W64
  priv : Nat
  deriving DecidableEq, Repr

/-- A grid that a queue has handed to the dispatcher and that has not completed (R348, R353). -/
structure Grid where
  gid : Nat
  ctx : Nat
  queue : Nat
  lrec : LaunchRec
  lrecAddr : Nat
  /-- address of its packet -/
  paddr : Nat
  bars : List BarDecl
  pmap : List MapEntry
  gx : Nat
  gy : Nat
  gz : Nat
  cword : Nat
  irq : Bool
  msix : Nat
  dom : Bool
  args : Nat
  seed : W32
  /-- the grid whose completion word a `LAUNCHC` waits for (R18) -/
  prev : Option Nat
  /-- the first linear index not yet placed -/
  nextF : Nat
  ended : Nat
  foldKilled : Bool
  killed : Bool
  /-- heartbeat count at which it became head, its age points, and the count at its first failure (R358, R359) -/
  since : Nat
  age : Nat
  failed : Option Nat
  reserved : List Nat
  /-- its place among those that became head in one tick, rising (R358) -/
  order : Nat := 0
  /-- saved paddocks whose resumption the driver has asked for (R378) -/
  resumes : List Nat
  deriving DecidableEq, Repr

/-- A paddock (R16) with its paddock barriers. -/
structure Paddock where
  pid : Nat
  gid : Nat
  bars : Map BarSt
  deriving DecidableEq, Repr

/-- A context (R79, R367, R368). `recs` counts the records made; `unwritten` are those that wait for room. -/
structure Ctx where
  root : Nat
  privBase : Nat
  tidBase : Nat
  fblk : BitVec 512
  recs : Nat
  unwritten : List (BitVec 512)
  /-- records that firmware has read (R369) -/
  fwRead : Nat
  /-- the ring was full at the last look (R368) -/
  full : Bool
  error : Bool
  deriving DecidableEq, Repr

/-- A queue (Table 15.1). -/
structure Queue where
  base : Nat
  logn : Nat
  prio : Nat
  devq : Bool
  enable : Bool
  ctx : Nat
  qnum : Nat
  widx : Nat
  ridx : Nat
  err : Bool
  ecause : Nat
  /-- write index as last read, and packets processed -/
  wseen : Nat
  read : Nat
  /-- prefetched packets, the first at index `read` (R347) -/
  pre : List Line
  /-- deadline of a `WAITMEM` in progress (R351) -/
  waiting : Option Nat
  waits : Bool
  /-- the grid of the preceding launch (R348) -/
  prevLaunch : Option Nat
  deriving DecidableEq, Repr

/-! ### Memory system (chapters 03, 09, 12) -/

/-- A byte of storage: memory by home key (page class * 2^51 + physical address), a fold's scratchpad, or the words of
window region 0 (registers) or 2 (accumulators) of a fold, by byte offset. -/
inductive Loc where
  | mem (k : Nat)
  | scr (fold off : Nat)
  | win (fold region off : Nat)
  deriving DecidableEq, Repr

/-- Whose access it is: a flock by its threads, a fold's stream, or a job card (R316). -/
inductive Owner where
  | flock (fold lo hi : Nat)
  | stream (fold : Nat)
  | card (cid : Nat)
  deriving DecidableEq, Repr

/-- A buffered effect that has issued and is not yet performed at its home (R237, R319). -/
inductive PendKind where
  /-- bytes of a store -/
  | write (bytes : List Byte)
  /-- a non-returning atomic (R245) -/
  | update (aop : Nat) (ty : AtmTy) (a b : W64)
  /-- a release: later writes of the owner wait for it (`holds`); it leaves when every earlier entry of the owner is
  performed, and raises the owner's phase if `raise` -/
  | release (scope : Scope) (holds raise : Bool)
  deriving DecidableEq, Repr

structure Pend where
  owner : Owner
  core : Nat
  loc : Loc
  kind : PendKind
  /-- the number of its instruction, rising in program order -/
  grp : Nat
  /-- visible to the other flocks of its core -/
  visible : Bool
  /-- it records its party and phase when it is performed (R109, R111, R325) -/
  checked : Bool
  /-- the party and phase that it records, once a release has followed it; none stands for the owner's present ones -/
  mark : Option RaceMark
  managed : Bool
  key : Nat
  deriving DecidableEq, Repr

/-- A store instruction that counts on a token until its entries are performed at device scope (R238). -/
structure StoreGrp where
  grp : Nat
  fold : Nat
  tok : Nat
  deriving DecidableEq, Repr

/-- A line held by an L1 (R86), with the metadata it took (R325). -/
structure L1Line where
  num : Nat
  data : List Byte
  mark : RaceMark
  deriving DecidableEq, Repr

/-- A TLB entry (R83): the entry of the page table that maps page `vpn` of size 2^`bits`. -/
structure TlbEnt where
  ctx : Nat
  vpn : Nat
  bits : Nat
  pte : W64
  deriving DecidableEq, Repr

/-- An instruction-cache line (R132, R381). -/
structure IcLine where
  ctx : Nat
  num : Nat
  data : Line
  deriving DecidableEq, Repr

/-- A cached tensor identifier record (R91). -/
structure TidEnt where
  ctx : Nat
  tid : Nat
  data : Line
  deriving DecidableEq, Repr

/-- A log entry (Table 3.11) of tile `tile` (home key div 2,048). -/
structure LogEnt where
  tile : Nat
  off : Nat
  lop : Nat
  lty : Nat
  val : W64
  key : Nat
  deriving DecidableEq, Repr

/-- A byte range of one space (R264): space 0 global by virtual address, 1 scratchpad of a fold, 3 window words. -/
structure Box where
  space : Nat
  fold : Nat
  lo : Nat
  hi : Nat
  deriving DecidableEq, Repr

/-- What a job is. -/
inductive JobKind where
  | cpy | cpym | gath | coll | arr
  deriving DecidableEq, Repr

/-- An access of a job that has been made alone (R316), by its number (`Card.elemOf`): what it has read, element codes and scales by packed
index, and the places, by their numbers, to which that has been written. -/
structure Moved where
  item : Nat
  els : List (Nat × Nat)
  scs : List (Nat × Nat)
  wrote : List Nat
  deriving DecidableEq, Repr

/-- An engine job card (R263). -/
structure Card where
  cid : Nat
  /-- its number on its core, 0 to 63 -/
  idx : Nat
  core : Nat
  fold : Nat
  ctx : Nat
  kind : JobKind
  /-- its instruction word (Table 16.8) -/
  word : IWord
  o : EngOp
  recs : List Line
  vals : List W64
  /-- folds whose tag `o.tag` the job sets (R89, R259) -/
  tagFolds : List Nat
  /-- the window addresses at which the job writes into each of them -/
  wins : List Nat := []
  tok : Option Nat
  /-- the threads `lo` to `hi` - 1 of the flock that issued it, whose token it is -/
  lo : Nat := 0
  hi : Nat := 0
  party : BitVec 16
  reads : List Box
  writes : List Box
  /-- elements done, and in all; `ahead` holds where the chunks done beyond them begin -/
  done : Nat
  ahead : List Nat
  total : Nat
  /-- accesses of the chunks left that have been made alone -/
  part : List Moved := []
  /-- its fold has been killed: it stops at the end of the chunk that it has begun (R34) -/
  dying : Bool := false
  error : Bool
  stop : Option Stop
  deriving DecidableEq, Repr

/-! ### Cores, clusters, dies -/

/-- A lane of a peer's `WAITA` at this home (R250, R408): the peer, the key identifier under which its accesses are encrypted, and the
word, condition and operand. -/
structure PeerLane where
  peer : Nat
  key : Nat
  addr : Nat
  cond : Nat
  ty : AtmTy
  a : W64
  deriving DecidableEq, Repr

/-- A waiting lane whose line the watch table of its home die holds (R97): the waiting fragment, the context and the
line, and whether a write or atomic to the line has it looked at again; die 3 stands for a peer's table, and for a peer's lane
that found the table full. A peer's lane names no fold and a context above every context of the package. -/
structure Watch where
  die : Nat
  ctx : Nat
  line : Nat
  fold : Nat
  flock : Nat
  frag : Nat
  due : Bool
  lane : Option PeerLane
  deriving DecidableEq, Repr

/-- A temperature or current sensor as firmware sees it (R422): its reading, the reading of the test before, the
mark, and the heartbeat count since which it has passed every test. -/
structure Sensor where
  now : Int
  before : Int
  suspect : Bool
  okSince : Option Nat
  deriving DecidableEq, Repr

/-- A physical core. -/
structure Core where
  l1 : List L1Line
  tlb : List TlbEnt
  ic : List IcLine
  tids : List TidEnt
  /-- `PSTAT` (Table 16.5) -/
  preq : Nat
  saveFault : Bool
  killed : Bool
  /-- `MIGSTAT` (Table 16.10), with the fold and the target of the request -/
  mig : Nat
  migDropped : Bool
  migRefused : Bool
  migFold : Nat
  migTarget : Nat
  fltack : W32
  tileclr : W32
  cycle : Nat
  temp : Sensor
  deriving DecidableEq, Repr

/-- An open curve rendezvous (R53, R54). -/
structure Rdv where
  target : BitVec 3
  opened : Nat
  deriving DecidableEq, Repr

structure Cluster where
  point : BitVec 3
  settling : Bool
  rdv : Option Rdv
  held : Bool
  /-- the cluster's TLB (R83) -/
  tlb : List TlbEnt
  /-- the vault has been reported at 110 °C or above (R421) -/
  wasHot : Bool
  vault : List Sensor
  current : Sensor
  deriving DecidableEq, Repr

/-- An entry of a die's error log (Table 21.4). -/
structure ErrEnt where
  cause : Nat
  unit : Nat
  corr : Bool
  core : Nat
  addr : Nat
  heart : Nat
  detail : Nat
  seq : Nat
  deriving DecidableEq, Repr

/-- An entry of a die's violation log (Table 19.4). -/
structure VioEnt where
  ctx : Nat
  cls : Nat
  die : Nat
  core : Nat
  seq : Nat
  addr : Nat
  deriving DecidableEq, Repr

structure Die where
  cur : Nat
  target : Nat
  fsafe : Bool
  hot : Bool
  shold : Bool
  grant : Nat
  demand : Nat
  lastGrant : Nat
  /-- physical cluster of each logical cluster 0 to 17 (R5, R361) -/
  map : List Nat
  rotms : Nat
  rflim : Nat
  rotbusy : Bool
  migthr : Nat
  auto : Bool
  errlog : List ErrEnt
  errSeq : Nat
  viol : List VioEnt
  violSeq : Nat
  rail : Int
  deriving DecidableEq, Repr

/-- Where the boot of R398 stands. -/
inductive Boot where
  | pending | running | recovery
  deriving DecidableEq, Repr

/-- The operator block beyond what the dies hold (Table 21.1). -/
structure Oper where
  ceil : Nat
  /-- the ceiling at the last grant (R389) -/
  granted : Nat
  oob : Bool
  pavg : Nat
  rotms : Nat
  rflim : Nat
  migthr : Nat
  auto : Bool
  elidx : Nat
  eldie : Nat
  tlidx : Nat
  tlsub : Nat
  deriving DecidableEq, Repr

/-- Firmware's boot state and the paths of chapter 19. -/
structure Firm where
  boot : Boot
  slotA : FlashSlot
  slotB : FlashSlot
  /-- active slot 0 A, 1 B, 2 none; the failure of each slot (Table 19.2) -/
  active : Nat
  failA : Nat
  failB : Nat
  window : Map Byte
  rcvgo : Nat
  /-- the mailbox: the command written last, its status, and the words from `0x0108` on, which hold its arguments and then its
  result (R405) -/
  mbCmd : Nat
  mbStatus : Nat
  mbValue : List W64
  doe : List Byte
  spdm : Bool
  keys : Map (Option (BitVec 512))
  peers : Map (Option Nat)
  /-- offset in each die's memory of the 64 MB of its overflow area (R96) -/
  overflow : Nat
  deriving DecidableEq, Repr

/-- A fragment of a flock issues, a matrix stream issues, the array of a fold makes one unit of progress, a line is read
ahead of the load that will ask for it (R236, R319), or an event of the opcode table comes about: the turn that one
step of the machine takes. -/
inductive Turn where
  | issue (fold fl fr : Nat)
  | stream (fold : Nat)
  | array (fold : Nat)
  | early (fold va : Nat)
  | event (i : Instr)
  deriving DecidableEq, Repr, Inhabited

/-- The party whose instruction `exec` runs: a fragment by fold, flock and place, or a fold's stream. -/
inductive Party where
  | frag (fold fl fr : Nat)
  | stream (fold : Nat)
  deriving DecidableEq, Repr

structure State where
  /-- Memory as cells (home key, byte); an unlisted byte reads 0. -/
  mem : List Host.Cell
  /-- race metadata by home line (key div 64) (R108) -/
  marks : Map RaceMark
  /-- key material last used for a class-0 line; none is plaintext (R401) -/
  lineKey : Map (Option (BitVec 512))
  pend : List Pend
  groups : List StoreGrp
  logs : List LogEnt
  resident : List Nat
  /-- tiles whose apply met an uncorrectable error (R105) -/
  badTiles : List Nat
  /-- class-0 lines that hold an uncorrectable error (R105, R364, R425) -/
  poison : List Nat
  /-- the watch tables of the synchronisation engines, an element for each waiter of an entry (R97) -/
  watch : List Watch
  /-- release phases of the parties, the numbers in use and the retired ones (R109, R110) -/
  phases : Map (BitVec 16)
  inUse : List Nat
  retired : List Nat
  folds : List Fold
  paddocks : List Paddock
  grids : List Grid
  queues : Map (Option Queue)
  ctxs : Map (Option Ctx)
  cards : List Card
  cores : Map Core
  clusters : Map Cluster
  dies : Map Die
  /-- device and domain heartbeat counts -/
  heart : Nat
  domTicks : Nat
  /-- lease register: holder (3 none) and expiry (R396) -/
  holder : Nat
  expiry : Nat
  /-- the heartbeat count at which the holder claimed, for the claims of one tick (R396, R409) -/
  claimed : Option Nat
  /-- headroom of the last grant in W (R416) -/
  headroom : Nat
  oper : Oper
  firm : Firm
  /-- telemetry counters by item * 256 + instance (Table 21.5) -/
  telem : Map Nat
  /-- lines or rows corrected before, with the heartbeat count (R425) -/
  corrected : List (Nat × Nat)
  /-- MSI-X vectors raised, oldest first -/
  msix : List Nat
  /-- the last value that a host or peer read returned; none is an error response -/
  answer : Option (List Byte)
  /-- parties whose next access to a peer or the host is not answered within 1 ms (R408) -/
  remoteDown : List Party
  /-- stepping number of the package (R1) -/
  stepping : Nat
  domNum : Nat
  /-- the model's own: turns to take next, turns drawn from the world, free values drawn, fresh identities, and
  the party whose instruction runs -/
  agenda : List Turn
  draws : Nat
  fresh : Nat
  nextId : Nat
  cur : Option Party
  deriving DecidableEq, Repr

/-- Reasons for which a step stops with a fault. -/
inductive Fault where
  /-- `exec` of a flock or stream instruction while no fragment or stream holds the turn. The step never raises it:
  it sets the party before it runs an instruction. Safe: nothing runs. -/
  | noIssuer
  deriving DecidableEq, Repr

/-- Reasons for which an instruction has no meaning. -/
inductive Refusal where
  /-- The instruction is not modelled yet; raised by an arm of `exec`. Safe: nothing runs. -/
  | notModelled (mnemonic : String)
  deriving DecidableEq, Repr

/-! ### Values of unlisted entries and the state after reset -/

def Sensor.init (v : Int) : Sensor := { now := v, before := v, suspect := false, okSince := some 0 }

/-- A core after reset. The temperature is a DESIGN CHOICE (log 6). -/
def Core.init : Core :=
  { l1 := [], tlb := [], ic := [], tids := [], preq := 0, saveFault := false, killed := false, mig := 0,
    migDropped := false, migRefused := false, migFold := 0, migTarget := 0, fltack := 0, tileclr := 0, cycle := 0,
    temp := Sensor.init 25000 }

/-- A cluster after reset: point CP0 and the sensor readings are DESIGN CHOICES (log 6, log 7). -/
def Cluster.init : Cluster :=
  { point := 0, settling := false, rdv := none, held := false, tlb := [], wasHot := false, vault := List.replicate 4 (Sensor.init 25000),
    current := Sensor.init 0 }

/-- A die after reset (Tables 15.8, 16.10, 21.1); the map is the identity (DESIGN CHOICE, log 9). -/
def Die.init : Die :=
  { cur := 0, target := 0, fsafe := false, hot := false, shold := false, grant := 0, demand := 0, lastGrant := 0,
    map := List.range 18, rotms := 4, rflim := 8, rotbusy := false, migthr := 95, auto := true, errlog := [], errSeq := 0,
    viol := [], violSeq := 0, rail := 0 }

/-- An empty flash slot (DESIGN CHOICE, log 11). -/
def FlashSlot.empty : FlashSlot := { readable := true, header := [], sig := [], image := [] }

/-- The package right after reset: nothing is launched, placed or queued; registers with a reset value hold it, and
the values the spec leaves open are the DESIGN CHOICES of the log. -/
def State.reset : State :=
  { mem := [], marks := [], lineKey := [], pend := [], groups := [], logs := [], resident := [], badTiles := [], poison := [], watch := [],
    phases := [], inUse := [], retired := [], folds := [], paddocks := [], grids := [], queues := [], ctxs := [],
    cards := [], cores := [], clusters := [], dies := [], heart := 0, domTicks := 0, holder := 3, expiry := 0, claimed := none,
    headroom := 0,
    oper := { ceil := 240, granted := 240, oob := false, pavg := 0, rotms := 4, rflim := 8, migthr := 95, auto := true, elidx := 0,
              eldie := 0, tlidx := 0, tlsub := 0 },
    firm := { boot := .pending, slotA := FlashSlot.empty, slotB := FlashSlot.empty, active := 2, failA := 0, failB := 0,
              window := [], rcvgo := 0, mbCmd := 0, mbStatus := 0, mbValue := [], doe := [], spdm := false, keys := [], peers := [],
              overflow := 80 * 2 ^ 30 - 64 * 2 ^ 20 },
    telem := [], corrected := [], msix := [], answer := none, remoteDown := [], stepping := 0, domNum := 0, agenda := [], draws := 0,
    fresh := 0, nextId := 1, cur := none }

end Sys2Proof.Machine
end

