-- ==== Sys2Proof/Config.lean ====
section
/-! DEFINITION. What is fixed for a package but not by the spec, and the values that the spec leaves open. Each is an
opaque constant: nothing in Lean can tell its value, so what is proved holds whatever it is. -/

namespace Sys2Proof.Config

open Sys2Proof.Machine

/-- Turn number n that the world chooses when no turn is named (log 1): the order in which parties issue and
events come about is not the spec's. -/
opaque world : Nat → Turn

/-- Free bits (log 2): whether a cached copy serves an access, whether a tile is resident, and the like. -/
opaque freeBit : Nat → Bool

/-- Free numbers (log 2): how many cycles have passed, a time the spec bounds but does not fix. -/
opaque freeNat : Nat → Nat

/-- Which of the results that the error bound of Table 8.7 allows a special function delivers: by function code
(the `VR` opcode) and the encoding of its `F32` input, to which a narrower one is widened; equal inputs give equal bits
(R220). -/
opaque sfuPick : Nat → W32 → Nat

/-- The thermal resistance of a vault in m°C/W by physical package cluster (R355): its calibration, held by firmware. -/
opaque theta : Nat → Nat

/-- What firmware takes a suspect sensor of number n to read when every neighbour is suspect too (R422 gives none). -/
opaque lostSensor : Nat → Int

/-- The power in W that the arbiter's estimate gives to a boost lease on a physical package cluster, beyond 2 W: the
example of R416 grants none from a headroom of 1 W. -/
opaque leaseWatts : Nat → Nat

/-- `DETAIL` of a `SENSOR_SUSPECT` entry by sensor index and failing test: Table 21.4 names both but no layout. -/
opaque suspectDetail : Nat → Nat → Nat

/-- What a 64-byte line of class-0 memory reads as under other key material than it was written with (R401). -/
opaque garble : Option (BitVec 512) → Option (BitVec 512) → Nat → List Byte → List Byte

/-- SHA3-512 (FIPS 202) and the ML-DSA-87 verification against Smiral's key (FIPS 204) of R398. -/
opaque sha3 : List Byte → BitVec 512
opaque mldsaOk : BitVec 512 → List Byte → Bool

/-- The fused minimum security version, and the fields of a flash header that R398 names: image size and version. -/
opaque fusedMin : Nat
opaque headerSize : List Byte → Nat
opaque headerVersion : List Byte → Nat

/-- How the contents of the recovery window lie as header, signature and image (R399 gives no layout). -/
opaque windowSlot : Map Byte → FlashSlot

/-- The digest of the boot ROM (Table 19.2), and the answers to the SPDM requests that carry no state of the model. -/
opaque romDigest : BitVec 512
opaque spdmAnswer : Nat → List Byte

/-- The signature of the device identity key over a response (R400). -/
opaque identitySign : List Byte → List Byte

end Sys2Proof.Config
end

