-- ==== Sys2Proof/Machine/Cells.lean ====
section
/-! DEFINITION. The units of the package by number, memory by home key, memory encryption, free values and party
numbers: the plainest operations over State. -/

namespace Sys2Proof.Machine

/-! ### Units -/

def State.core (s : State) (c : Nat) : Core := Map.get Core.init s.cores c
def State.modCore (s : State) (c : Nat) (f : Core → Core) : State :=
  { s with cores := Map.set Core.init s.cores c (f (s.core c)) }

def State.cluster (s : State) (c : Nat) : Cluster := Map.get Cluster.init s.clusters c
def State.modCluster (s : State) (c : Nat) (f : Cluster → Cluster) : State :=
  { s with clusters := Map.set Cluster.init s.clusters c (f (s.cluster c)) }

def State.die (s : State) (d : Nat) : Die := Map.get Die.init s.dies d
def State.modDie (s : State) (d : Nat) (f : Die → Die) : State :=
  { s with dies := Map.set Die.init s.dies d (f (s.die d)) }

/-- The package cluster and the die of a package core (R4). -/
def clusterOf (core : Nat) : Nat := core / 8
def dieOf (core : Nat) : Nat := core / 144

def State.queue (s : State) (q : Nat) : Option Queue := Map.get none s.queues q
def State.setQueue (s : State) (q : Nat) (x : Option Queue) : State := { s with queues := Map.set none s.queues q x }
def State.modQueue (s : State) (q : Nat) (f : Queue → Queue) : State := s.setQueue q ((s.queue q).map f)

def State.ctx (s : State) (c : Nat) : Option Ctx := Map.get none s.ctxs c
def State.setCtx (s : State) (c : Nat) (x : Option Ctx) : State := { s with ctxs := Map.set none s.ctxs c x }
def State.modCtx (s : State) (c : Nat) (f : Ctx → Ctx) : State := s.setCtx c ((s.ctx c).map f)

def State.fold? (s : State) (u : Nat) : Option Fold := s.folds.find? (·.uid == u)
def State.modFold (s : State) (u : Nat) (f : Fold → Fold) : State :=
  { s with folds := s.folds.map fun x => if x.uid = u then f x else x }

def Fold.modFlock (x : Fold) (l : Nat) (f : Flock → Flock) : Fold := { x with flocks := modNth f l x.flocks }
def State.modFlock (s : State) (u l : Nat) (f : Flock → Flock) : State := s.modFold u (·.modFlock l f)

def Flock.frag? (k : Flock) (r : Nat) : Option Frag := k.frags.find? (·.fid == r)
def Flock.modFrag (k : Flock) (r : Nat) (f : Frag → Frag) : Flock :=
  { k with frags := k.frags.map fun g => if g.fid = r then f g else g }
def State.modFrag (s : State) (u l r : Nat) (f : Frag → Frag) : State := s.modFlock u l (·.modFrag r f)

def State.grid? (s : State) (g : Nat) : Option Grid := s.grids.find? (·.gid == g)
def State.modGrid (s : State) (g : Nat) (f : Grid → Grid) : State :=
  { s with grids := s.grids.map fun x => if x.gid = g then f x else x }

def State.pad? (s : State) (p : Nat) : Option Paddock := s.paddocks.find? (·.pid == p)
def State.modPad (s : State) (p : Nat) (f : Paddock → Paddock) : State :=
  { s with paddocks := s.paddocks.map fun x => if x.pid = p then f x else x }

def State.card? (s : State) (c : Nat) : Option Card := s.cards.find? (·.cid == c)
def State.modCard (s : State) (c : Nat) (f : Card → Card) : State :=
  { s with cards := s.cards.map fun x => if x.cid = c then f x else x }

/-- The folds resident on a physical core or on a physical package cluster. A saved fold is on none. -/
def Fold.resident (x : Fold) : Bool := x.run != .saved
def State.foldsOnCore (s : State) (c : Nat) : List Fold := s.folds.filter fun x => x.core == c && x.resident
def State.foldsOnCluster (s : State) (c : Nat) : List Fold := s.folds.filter fun x => clusterOf x.core == c && x.resident

def State.raceOn (s : State) (g : Nat) : Bool := (s.grid? g).any (·.lrec.race)

/-- A fresh identity. -/
def State.newId (s : State) : Nat × State := (s.nextId, { s with nextId := s.nextId + 1 })

/-! ### Free values (log 2) -/

/-- A free bit. -/
def State.flip (s : State) : Bool × State := (Config.freeBit s.fresh, { s with fresh := s.fresh + 1 })

/-- A free number. -/
def State.draw (s : State) : Nat × State := (Config.freeNat s.fresh, { s with fresh := s.fresh + 1 })

/-! ### Memory cells

A home key is page class * 2^51 + physical address (R81): class 0 the stacked memory, 1 the peers' (with the device
number in its address), 2 the host's. An unlisted byte reads 0. -/

/-- What an unlisted address reads as (log 3). -/
def Memory.blank : Byte := 0

/-- The canonical form of memory. -/
def Memory.wf (m : List Host.Cell) : Bool := Map.wf Memory.blank m

def State.byte (s : State) (k : Nat) : Byte := Map.get Memory.blank s.mem k
def State.setByte (s : State) (k : Nat) (b : Byte) : State := { s with mem := Map.set Memory.blank s.mem k b }

/-- `n` bytes from key `k` on. -/
def State.bytes (s : State) (k : Nat) : Nat → List Byte
  | 0 => []
  | n + 1 => s.byte k :: s.bytes (k + 1) n

def State.setBytes (s : State) (k : Nat) : List Byte → State
  | [] => s
  | b :: r => (s.setByte k b).setBytes (k + 1) r

def classKey : Nat := 2 ^ 51
def keyClass (k : Nat) : Nat := k / classKey
/-- The bytes of the stacked memory: 240 GB (R81). -/
def dramBytes : Nat := 240 * 2 ^ 30
/-- The bytes of one die's memory (R84). -/
def dieBytes : Nat := 80 * 2 ^ 30

/-! ### Encryption of class-0 lines (R401) -/

/-- The key material of a key identifier: none for plaintext; no value where the slot holds no key. -/
def State.material (s : State) (id : Nat) : Option (Option (BitVec 512)) :=
  if id = 0 then some none else (Map.get none s.firm.keys id).map some

/-- The 64 bytes of the line of key `n` * 64 as read under material `mat`. -/
def State.lineAs (s : State) (mat : Option (BitVec 512)) (n : Nat) : List Byte :=
  let raw := s.bytes (n * 64) 64
  let have' := Map.get none s.lineKey n
  if have' = mat then raw else Config.garble have' mat n raw

/-- `n` bytes from key `k` on, read under material `mat`. -/
def State.readAs (s : State) (mat : Option (BitVec 512)) (k n : Nat) : List Byte :=
  let l0 := k / 64
  let l1 := (k + n - 1) / 64
  if (List.range (l1 + 1 - l0)).all (fun i => Map.get none s.lineKey (l0 + i) == mat) then s.bytes k n
  else
    let all := (List.range (l1 + 1 - l0)).flatMap fun i => s.lineAs mat (l0 + i)
    (all.drop (k % 64)).take n

/-- Bytes written under material `mat`: a line last written under another is re-encrypted whole. -/
def State.writeAs (s : State) (mat : Option (BitVec 512)) (k : Nat) (bs : List Byte) : State :=
  let l0 := k / 64
  let l1 := (k + bs.length - 1) / 64
  let s1 := (List.range (l1 + 1 - l0)).foldl
    (fun t i =>
      if Map.get none t.lineKey (l0 + i) == mat then t
      else
        let u := t.setBytes ((l0 + i) * 64) (t.lineAs mat (l0 + i))
        { u with lineKey := Map.set none u.lineKey (l0 + i) mat }) s
  s1.setBytes k bs

/-! ### Party numbers (R109, R110) -/

/-- The lowest number from `k` on that is not in `used`. -/
def firstFree (used : List Nat) : Nat → Nat → Nat
  | 0, k => k
  | f + 1, k => if used.contains k then firstFree used f (k + 1) else k

/-- A party number of the pool of 65,535. That it is the lowest free one is the model's choice (log 85), and so is `0xFFFF` for
a party that takes a fresh number while the pool is empty: its writes are unmarked from then on (R110, log 117, DESIGN
CHOICE). -/
def State.newParty (s : State) : BitVec 16 × State :=
  let n := firstFree (s.inUse ++ s.retired) (s.inUse.length + s.retired.length) 0
  if n < 0xFFFF then
    (BitVec.ofNat 16 n, { s with inUse := n :: s.inUse, phases := Map.set 0 s.phases n 0 })
  else (0xFFFF, s)

def State.poolFree (s : State) : Nat := 0xFFFF - s.inUse.length - s.retired.length

def State.phaseOf (s : State) (p : BitVec 16) : BitVec 16 := Map.get 0 s.phases p.toNat

/-- The party number of an owner. -/
def State.partyOf (s : State) : Owner → BitVec 16
  | .flock u lo _ =>
    ((s.fold? u).bind fun x => x.flocks[lo / x.width]?).elim 0xFFFF (·.party)
  | .stream u => ((s.fold? u).bind (·.stream)).elim 0xFFFF (·.party)
  | .card c => (s.card? c).elim 0xFFFF (·.party)

def State.setParty (s : State) (o : Owner) (p : BitVec 16) : State :=
  match o with
  | .flock u lo _ => s.modFold u fun x => x.modFlock (lo / x.width) fun k => { k with party := p }
  | .stream u => s.modFold u fun x => { x with stream := x.stream.map fun m => { m with party := p } }
  | .card c => s.modCard c fun x => { x with party := p }

end Sys2Proof.Machine
end

