-- ==== Sys2Proof/Machine/Walk.lean ====
section
/-! DEFINITION. The cause codes (Table 16.1), and the translation of a global address (R79 to R83). -/

namespace Sys2Proof.Machine

/-- The causes of Table 16.1. -/
inductive Cause where
  | decodeFormat | decodeOpc | decodeField | template | brTarget | parity | staleLatch | srAccess | markDesc | userTrap
  | pageAbsent | pteInvalid | pagePerm | fetchNx | addrNoncanon | misaligned | scratchRange | windowRange | windowRights
  | privGrow | privLimit | constRange | constWrite | memError | walkError | remoteError
  | trap (i : Nat)
  | barMember | xlSplit | mmConflict | replicaTimeout
  | tidInvalid | tidFormat | tidResidency | tagRange | engBox | accWindow | mtxOperand | jobError | gathRange | collMismatch
  | launchInvalid | queueOverflow | queuePacket | queueTimeout | queueUnmapped | saveFault | restoreError | faultqFull
  | sramError | dramError | linkError | logTileError | windowViolation | thermalMigrate | vaultHot | failsafe
  | leaderChange | sensorSuspect | leaseDropped
  deriving DecidableEq, Repr

def Cause.code : Cause → Nat
  | .decodeFormat => 0 | .decodeOpc => 1 | .decodeField => 2 | .template => 3 | .brTarget => 4 | .parity => 5
  | .staleLatch => 6 | .srAccess => 7 | .markDesc => 8 | .userTrap => 9 | .pageAbsent => 24 | .pteInvalid => 25
  | .pagePerm => 26 | .fetchNx => 27 | .addrNoncanon => 28 | .misaligned => 29 | .scratchRange => 30
  | .windowRange => 31 | .windowRights => 32 | .privGrow => 33 | .privLimit => 34 | .constRange => 35
  | .constWrite => 36 | .memError => 37 | .walkError => 38 | .remoteError => 39 | .trap i => 56 + i
  | .barMember => 80 | .xlSplit => 81 | .mmConflict => 82 | .replicaTimeout => 83 | .tidInvalid => 112
  | .tidFormat => 113 | .tidResidency => 114 | .tagRange => 115 | .engBox => 116 | .accWindow => 117
  | .mtxOperand => 118 | .jobError => 119 | .gathRange => 120 | .collMismatch => 121 | .launchInvalid => 144
  | .queueOverflow => 145 | .queuePacket => 146 | .queueTimeout => 147 | .queueUnmapped => 148 | .saveFault => 149
  | .restoreError => 150 | .faultqFull => 151 | .sramError => 168 | .dramError => 169 | .linkError => 170
  | .logTileError => 171 | .windowViolation => 172 | .thermalMigrate => 173 | .vaultHot => 174 | .failsafe => 175
  | .leaderChange => 176 | .sensorSuspect => 177 | .leaseDropped => 178

/-- The outcome column reads kill: the cause is fatal (R34, R364). -/
def Cause.fatal : Cause → Bool
  | .decodeFormat | .decodeOpc | .decodeField | .template | .brTarget | .parity | .staleLatch | .srAccess | .markDesc
  | .pteInvalid | .addrNoncanon | .misaligned | .scratchRange | .windowRange | .windowRights | .privLimit | .constRange
  | .constWrite | .memError | .walkError | .remoteError | .barMember | .xlSplit | .tidInvalid | .tidFormat
  | .tidResidency | .tagRange | .engBox | .accWindow | .mtxOperand | .restoreError | .sramError => true
  | _ => false

/-- The precise column reads no. -/
def Cause.imprecise (c : Cause) : Bool := decide (119 ≤ c.code)

/-- A fault met by an access: its cause, the address, the `AUX` field (R366), the page it concerns, and of an error response the physical
address that gave it. -/
structure FInfo where
  cause : Cause
  addr : Nat
  aux : Nat
  page : Option Nat
  phys : Option Nat := none
  deriving DecidableEq, Repr

/-- A leaf of the page tables: the entry, and the page size as a power of two (Table 3.8). -/
structure Leaf where
  pte : W64
  lg : Nat
  deriving DecidableEq, Repr

def Leaf.r (l : Leaf) : Bool := l.pte.getLsbD 2
def Leaf.w (l : Leaf) : Bool := l.pte.getLsbD 3
def Leaf.x (l : Leaf) : Bool := l.pte.getLsbD 4
def Leaf.ml (l : Leaf) : Bool := l.pte.getLsbD 5
def Leaf.rp (l : Leaf) : Bool := l.pte.getLsbD 6
def Leaf.rx (l : Leaf) : Bool := l.pte.getLsbD 7
def Leaf.cls (l : Leaf) : Nat := bits l.pte.toNat 9 8
def Leaf.keyId (l : Leaf) : Nat := bits l.pte.toNat 63 51
def ptePa (p : W64) : Nat := bits p.toNat 50 16 * 2 ^ 16

/-- The home key of a virtual address through a leaf (R81). -/
def Leaf.key (l : Leaf) (va : Nat) : Nat := l.cls * classKey + ptePa l.pte + va % 2 ^ l.lg

/-- The home key of an address through a leaf, on a core: a replicated page is read in the replica of its die (R106). -/
def Leaf.keyOn (l : Leaf) (core va : Nat) : Nat := l.key va + if l.rp then dieOf core * dieBytes else 0

/-- The identifier that an access through a leaf carries: only class-0 memory is encrypted (R401). -/
def Leaf.crypt (l : Leaf) : Nat := if l.cls = 0 then l.keyId else 0

/-- Whether the entry `p` read at `level` ends the walk, and with what (R80, R81). A leaf with `RP` set that breaks R106, of
1 GB or with its `PA` outside die 0, is in neither list: it is accepted, and its page is read and written as replicated
(log 89, DESIGN CHOICE). So is a leaf with both `ML` and `RP` set: stores and atomics of flocks and the writes of units go to
all three replicas, with no entry in a log (log 115, DESIGN CHOICE). -/
def checkPte (level : Nat) (p : W64) : Option Cause :=
  let leaf := p.getLsbD 1
  let cls := bits p.toNat 9 8
  let size := 16 + (if level = 0 then 0 else if level = 1 then 5 else 14)
  if !p.getLsbD 0 then some .pageAbsent
  else if bits p.toNat 15 10 ≠ 0 then some .pteInvalid
  else if leaf && decide (3 ≤ level) then some .pteInvalid
  else if !leaf && level == 0 then some .pteInvalid
  else if !leaf && (bits p.toNat 9 2 ≠ 0 || bits p.toNat 63 51 ≠ 0) then some .pteInvalid
  else if leaf && ptePa p % 2 ^ size ≠ 0 then some .pteInvalid
  else if (p.getLsbD 5 || p.getLsbD 6) && cls ≠ 0 then some .pteInvalid
  else if cls = 3 then some .pteInvalid
  else if cls = 0 ∧ dramBytes ≤ ptePa p then some .pteInvalid
  else none

/-- The levels of the walk: number, lowest index bit, index bits, and the size of the page a leaf maps (Table 3.7). -/
def walkLevels : List (Nat × Nat × Nat) := [(4, 48, 9), (3, 39, 9), (2, 30, 9), (1, 21, 9), (0, 16, 5)]

/-- The 2 KB granule of a class-0 address is the tile of a managed page (R84). -/
def tileBytes : Nat := 2048

/-- Line `n` (home key div 64) cannot be read: it holds an uncorrectable error, or its tile is cut off (R105), or its die
is at PS7 (R420). -/
def State.lineBad (s : State) (n : Nat) : Bool :=
  keyClass (n * 64) == 0 &&
    (s.poison.contains n || s.badTiles.contains (n * 64 / tileBytes) || (s.die (n * 64 / dieBytes)).cur == 7)

/-- The walk from the table at physical address `tbl` (R79, R80); an entry that cannot be read ends it with `WALK_ERROR`
(R364). The tables are plaintext: a pointer names no key (R80), so a line of them written under a key is read as its ciphertext
(R401; log 125, DEDUCED). -/
def State.walkFrom (s : State) (va : Nat) : List (Nat × Nat × Nat) → Nat → Except Cause Leaf
  | [], _ => .error .pteInvalid
  | (level, lo, n) :: r, tbl =>
    let a := tbl + 8 * (va / 2 ^ lo % 2 ^ n)
    let p := BitVec.ofNat 64 (ofLe (s.readAs none a 8))
    if s.lineBad (a / 64) then .error .walkError
    else
      match checkPte level p with
      | some c => .error c
      | none => if p.getLsbD 1 then .ok { pte := p, lg := lo } else s.walkFrom va r (ptePa p)

/-- The leaf that the page tables of a context hold for an address. -/
def State.walk (s : State) (ctx va : Nat) : Except Cause Leaf :=
  match s.ctx ctx with
  | some c => s.walkFrom va walkLevels c.root
  | none => .error .pageAbsent

/-- The translation that a TLB holds for an address. -/
def tlbFind (l : List TlbEnt) (ctx va : Nat) : Option Leaf :=
  (l.find? fun e => e.ctx == ctx && va / 2 ^ e.bits == e.vpn).map fun e => { pte := e.pte, lg := e.bits }

/-- A TLB of `n` entries takes the translation of an address in place of one that it held. -/
def tlbPut (n : Nat) (l : List TlbEnt) (ctx va : Nat) (f : Leaf) : List TlbEnt :=
  ({ ctx := ctx, vpn := va / 2 ^ f.lg, bits := f.lg, pte := f.pte } ::
    l.filter fun y => !(y.ctx == ctx && va / 2 ^ y.bits == y.vpn)).take n

def State.putCoreTlb (s : State) (core ctx va : Nat) (f : Leaf) : State :=
  s.modCore core fun x => { x with tlb := tlbPut 256 x.tlb ctx va f }

/-- A walk for an address; its result goes to the TLBs of the core and of its cluster. -/
def State.walkMiss (s : State) (core ctx va : Nat) : State × Except Cause Leaf :=
  match s.walk ctx va with
  | .error c => (s, .error c)
  | .ok l =>
    ((s.modCluster (clusterOf core) fun x => { x with tlb := tlbPut 4096 x.tlb ctx va l }).putCoreTlb core ctx va l, .ok l)

/-- The translation of an address that the core's TLB does not serve: the cluster's TLB may, else it is walked. -/
def State.coreMiss (s : State) (core ctx va : Nat) : State × Except Cause Leaf :=
  match tlbFind (s.cluster (clusterOf core)).tlb ctx va with
  | some l => let b := s.flip; if b.1 then (b.2.putCoreTlb core ctx va l, .ok l) else b.2.walkMiss core ctx va
  | none => s.walkMiss core ctx va

/-- The translation of an address on a core, through the 256 entries of its TLB and the 4,096 of its cluster's where one
that holds it serves it, else by a walk (R83). The walker pool and the joining of walks are timing only (log 1). -/
def State.translate (s : State) (core ctx va : Nat) : State × Except Cause Leaf :=
  match tlbFind (s.core core).tlb ctx va with
  | some l => let b := s.flip; if b.1 then (b.2, .ok l) else b.2.coreMiss core ctx va
  | none => s.coreMiss core ctx va

/-- What an access needs: a read, a write, an atomic without or with return, or an instruction fetch (R82). -/
inductive Acc where
  | read | write | atomic (ret : Bool) | fetch | constRead
  deriving DecidableEq, Repr

/-- The access kind in the record of a page fault (R366). -/
def Acc.kind : Acc → Nat
  | .read | .constRead => 0
  | .write => 1
  | .atomic _ => 2
  | .fetch => 3

def Leaf.allows (l : Leaf) : Acc → Bool
  | .read => l.r
  | .constRead => l.r
  | .write => l.w
  | .atomic ret => l.w && (!ret || l.r)
  | .fetch => l.x

/-- Bytes of the overflow area of a synchronisation engine (R96). -/
def overflowBytes : Nat := 64 * 2 ^ 20

/-- An address in the overflow area of its die, which no context can reach (R96). -/
def State.inOverflow (s : State) (k : Nat) : Bool :=
  keyClass k == 0 && decide (s.firm.overflow ≤ k % dieBytes) && decide (k % dieBytes < s.firm.overflow + overflowBytes)

/-- Class-0 memory at key `k` answers an access under key identifier `id`: the slot holds a key (R401), the home die is on
(R420), and the address is no engine's overflow area (R96, log 90). -/
def State.homeOk (s : State) (id k : Nat) : Bool :=
  keyClass k != 0 || (!((s.die (k / dieBytes)).cur == 7) && (s.material id).isSome && !s.inOverflow k)

/-- The error response that an access of kind `a` through a leaf meets at home key `k`, as a cause. A store's error response
reaches no instruction: `MEM_ERROR` is a load's or an atomic's (R364, R401), so a store is let go and has no effect at its
home (log 90). A peer's address lies in its memory (R407). -/
def State.homeAnswers (s : State) (l : Leaf) (k : Nat) (a : Acc) : Option Cause :=
  if l.cls = 0 then if a != .write && !s.homeOk l.keyId k then some .memError else none
  else if l.cls = 1 ∧ dramBytes ≤ k % 2 ^ 39 then some .remoteError
  else none

/-- The page of size 2^`lg` that holds an address, as one fault record names it (R392): pages of different sizes are different
pages. -/
def pageAt (lg va : Nat) : Nat := va / 2 ^ lg * 64 + lg

/-- One access to a global address: canonical form, translation, rights, and whether the home answers. The result is
the leaf through which it goes. -/
def State.access (s : State) (core ctx va : Nat) (a : Acc) : State × Except FInfo Leaf :=
  if 2 ^ 57 ≤ va then (s, .error { cause := .addrNoncanon, addr := va, aux := 0, page := none })
  else
    let t := s.translate core ctx va
    match t.2 with
    | .error c =>
      (t.1, .error { cause := c, addr := va, aux := (if c = .pageAbsent then a.kind else 0), page := some (pageAt 16 va) })
    | .ok l =>
      if !l.allows a then
        (t.1, .error { cause := (if a = .fetch then .fetchNx else .pagePerm), addr := va,
                       aux := (if a = .fetch then 0 else a.kind), page := some (pageAt l.lg va) })
      else
        match s.homeAnswers l (l.keyOn core va) a with
        | some c => (t.1, .error { cause := c, addr := va, aux := 0, page := some (pageAt l.lg va), phys := some (l.keyOn core va % classKey) })
        | none => (t.1, .ok l)

end Sys2Proof.Machine
end

