-- ==== Sys2Proof/Machine/Home.lean ====
section
/-! DEFINITION. What an access does at its home: the operation of an atomic, the error log, race metadata and party numbers
(R108 to R111), the watch table (R97), pending-operation logs (R98 to R105), and writes there by any unit. -/

namespace Sys2Proof.Machine

/-! ### What an atomic stores (Table 9.6, R246) -/

/-- The new memory value for old value `old` and operands `a` and `b`. -/
def atomNew (aop : Nat) (ty : AtmTy) (old a b : Nat) : Nat :=
  let w := ty.ty.bits
  let sg := ty.ty.signed
  match aop with
  | 0 => (old + a) % 2 ^ w
  | 1 => (old + 2 ^ w - a % 2 ^ w) % 2 ^ w
  | 2 => old &&& a
  | 3 => old ||| a
  | 4 => old ^^^ a
  | 5 => if ival sg w a < ival sg w old then a else old
  | 6 => if ival sg w old < ival sg w a then a else old
  | 7 => a
  | 8 => if old = a then b else old
  | 9 => if a ≤ old then 0 else old + 1
  | 10 => if old = 0 ∨ a < old then a else old - 1
  | 11 => if old + a ≤ b then old + a else old
  | _ => (fpAdd (fmtOf ty.ty) .rne old a).1

/-- The failure flag of `ADDB`. -/
def atomFail (aop old a b : Nat) : Bool := aop == 11 && decide (b < old + a)

/-! ### The error log (R424) -/

/-- An entry of a die's error log; `core` is a physical core of the die, or 255 for none. -/
def State.logErr (s : State) (d : Nat) (cause unit : Nat) (corr : Bool) (core addr detail : Nat) : State :=
  s.modDie d fun x =>
    let e : ErrEnt := { cause := cause, unit := unit, corr := corr, core := core, addr := addr, heart := s.heart,
                        detail := detail, seq := x.errSeq + 1 }
    { x with errSeq := x.errSeq + 1, errlog := (x.errlog ++ [e]).drop ((x.errlog.length + 1) - 4096) }

/-! ### Key material -/

/-- The key material under which class-0 bytes of key identifier `id` are read and written. -/
def State.matOf (s : State) (id : Nat) : Option (BitVec 512) := (s.material id).getD none

/-! ### Race metadata and party numbers (R108 to R111) -/

/-- The mark under which a write of an owner is recorded. -/
def State.markOf (s : State) (o : Owner) : RaceMark :=
  let p := s.partyOf o
  { party := p, phase := s.phaseOf p }

/-- The mark that a buffered write records when it is performed (R109). -/
def State.pendMark (s : State) (e : Pend) : RaceMark := e.mark.getD (s.markOf e.owner)

/-- A write records the phase that stood when it was made (R109): the party's present mark is fixed in its buffered writes
of instructions up to number `upTo`, before its phase rises or its number is given up. -/
def State.seal (s : State) (p : BitVec 16) (upTo : Nat) : State :=
  { s with pend := s.pend.map fun e =>
      if e.checked && e.mark.isNone && decide (e.grp ≤ upTo) && s.partyOf e.owner == p then
        { e with mark := some { party := p, phase := s.phaseOf p } }
      else e }

/-- The number is given up; it returns to the pool after the background sweep (R110). -/
def State.retire (s : State) (p : BitVec 16) : State :=
  if s.inUse.contains p.toNat then
    { s.seal p s.nextId with inUse := s.inUse.filter (· ≠ p.toNat), retired := p.toNat :: s.retired }
  else s

/-- A release that covers the instructions up to number `upTo` is made: the party's phase rises by 1; past `0xFFFF` the party
takes a fresh number (R109, R110), or `0xFFFF` where the pool has none (log 117, DESIGN CHOICE). -/
def State.raiseTo (s : State) (o : Owner) (upTo : Nat) : State :=
  let p := s.partyOf o
  let s1 := s.seal p upTo
  if s.phaseOf p = 0xFFFF then
    let n := (s1.retire p).newParty
    n.2.setParty o n.1
  else { s1 with phases := Map.set 0 s1.phases p.toNat (s1.phaseOf p + 1) }

/-- A release of everything that the owner has issued. -/
def State.raise (s : State) (o : Owner) : State := s.raiseTo o s.nextId

/-- The mark conflicts with an access of party `own`: another party's, and not released since (R109, R110, R325). -/
def State.conflicts (s : State) (own : BitVec 16) (m : RaceMark) : Bool :=
  m.party != 0xFFFF && m.party != own && s.inUse.contains m.party.toNat && m.phase == s.phaseOf m.party

/-- `AUX` of an `MM_CONFLICT` record (R366). -/
def conflictAux (own : BitVec 16) (m : RaceMark) : Nat := m.party.toNat + m.phase.toNat * 2 ^ 16 + own.toNat * 2 ^ 32

/-- The lines of `n` bytes at key `k`. -/
def linesOf (k n : Nat) : List Nat := (List.range ((k + n - 1) / 64 + 1 - k / 64)).map (k / 64 + ·)

/-- Marks the lines of `n` bytes at key `k`, where none stands for no party; only the stacked memory carries marks (R108). -/
def State.markMem (s : State) (k n : Nat) (m : Option RaceMark) : State :=
  if keyClass k = 0 then
    { s with marks := (linesOf k n).foldl (fun t i => Map.set RaceMark.clear t i (m.getD RaceMark.clear)) s.marks }
  else s

/-! ### The watch table (R97) -/

/-- A write or atomic at `n` bytes from key `k` has the waiters of the lines looked at again. -/
def State.notify (s : State) (k n : Nat) : State :=
  { s with watch := s.watch.map fun w => if (linesOf k n).contains w.line then { w with due := true } else w }

/-! ### Writes at a home -/

/-- The memory at key `k` takes a write under key identifier `id`; where it does not, the write meets an error response
and has no effect (R105, R401, R420). -/
def State.takes (s : State) (id k : Nat) : Bool :=
  s.homeOk id k && !(keyClass k == 0 && s.badTiles.contains (k / tileBytes))

/-- Bytes written in place, with the mark that the write records. -/
def State.putHome (s : State) (k key : Nat) (bs : List Byte) (m : Option RaceMark) : State :=
  if s.takes key k then ((s.writeAs (s.matOf key) k bs).markMem k bs.length m).notify k bs.length else s

/-! ### Pending-operation logs (Table 3.11) -/

def ltyBytes (lty : Nat) : Nat :=
  match lty with
  | 0 => 1 | 1 => 2 | 2 => 4 | 3 => 8 | 4 => 4 | 5 => 4 | 6 => 8 | 7 => 8 | 8 => 4 | _ => 2

def ltyAtm (lty : Nat) : AtmTy :=
  match lty with
  | 4 => .s32 | 5 => .n32 | 6 => .s64 | 7 => .n64 | 8 => .f32 | 9 => .f16 | _ => .bf16

def atmLty : AtmTy → Nat
  | .s32 => 4 | .n32 => 5 | .s64 => 6 | .n64 => 7 | .f32 => 8 | .f16 => 9 | .bf16 => 10

def bytesLty (n : Nat) : Nat := if n = 1 then 0 else if n = 2 then 1 else if n = 4 then 2 else 3

/-- The atomic operation of a log operation 1 to 7. -/
def lopAop (lop : Nat) : Nat :=
  match lop with
  | 1 => 0 | 2 => 2 | 3 => 3 | 4 => 4 | 5 => 5 | 6 => 6 | _ => 12

/-- Applies one entry to its tile (R101). One whose key slot holds no key any more is refused, and has no effect (R401; log 125,
DEDUCED). -/
def State.applyEntry (s : State) (e : LogEnt) : State :=
  let k := e.tile * tileBytes + e.off
  let n := ltyBytes e.lty
  match s.material e.key with
  | none => s
  | some mat =>
    if e.lop = 0 then s.writeAs mat k (leBytes n e.val.toNat)
    else s.writeAs mat k (leBytes n (atomNew (lopAop e.lop) (ltyAtm e.lty) (ofLe (s.readAs mat k n)) e.val.toNat 0))

/-- The package cluster above whose vault a tile lies (R84). -/
def tileCluster (t : Nat) : Nat :=
  let a := t * tileBytes
  a / dieBytes * 18 + a % dieBytes / 2048 % 18

/-- An uncorrectable error stops the apply of a tile: its address is logged, and every access to it meets an error response
until firmware clears it (R105). `unit` is 0 for an error in the tile and 2 for one in a log entry of it (Table 21.4). -/
def State.cutTile (s : State) (t unit : Nat) : State :=
  ({ s with badTiles := nubNat (t :: s.badTiles) } : State).logErr (t * tileBytes / dieBytes) Cause.logTileError.code unit false 255
    (t * tileBytes) 0

/-- The resident tiles with `t` among them: the 8 MB L2 of a cluster holds 4,096 tiles (Table 0.2), and the one that has been
there longest gives way (log 2). -/
def keepResident (t : Nat) (l : List Nat) : List Nat :=
  let r := t :: l.filter (· ≠ t)
  let mine := r.filter (tileCluster · == tileCluster t)
  if mine.length ≤ 4096 then r else r.filter (· ≠ mine.getLastD 0)

/-- Fetches a tile and applies its log in append order; the tile is then resident (R101). The apply of a tile that holds an
uncorrectable error stops before it changes anything (R105). -/
def State.applyTile (s : State) (t : Nat) : State :=
  if s.badTiles.contains t then s
  else if s.poison.any (fun n => n * 64 / tileBytes == t) && s.logs.any (·.tile == t) then s.cutTile t 0
  else
    let s1 := (s.logs.filter (·.tile == t)).foldl State.applyEntry s
    { s1 with logs := s1.logs.filter (·.tile ≠ t), resident := keepResident t s1.resident }

/-- Fetches every tile that the bytes from `k` on touch. -/
def State.applyRange (s : State) (k n : Nat) : State :=
  (List.range ((k + n - 1) / tileBytes + 1 - k / tileBytes)).foldl (fun t i => t.applyTile (k / tileBytes + i)) s

/-- The entries touch a common byte of one tile. -/
def LogEnt.touches (e f : LogEnt) : Bool :=
  e.tile == f.tile && decide (e.off < f.off + ltyBytes f.lty) && decide (f.off < e.off + ltyBytes e.lty)

/-- The bytes of `e` all lie within those of `f`. -/
def LogEnt.within (e f : LogEnt) : Bool :=
  e.tile == f.tile && decide (f.off ≤ e.off) && decide (e.off + ltyBytes e.lty ≤ f.off + ltyBytes f.lty)

/-- One entry more behind a compacted log, newest first: a store removes what it covers, and an entry combines with the
last one that touches it where the rule allows, at the place of the later one (R102). -/
def compactAdd (acc : List LogEnt) (e : LogEnt) : List LogEnt :=
  if e.lop = 0 then e :: acc.filter (fun f => !f.within e)
  else
    match acc.find? (fun f => f.touches e) with
    | some f =>
      if 1 ≤ e.lop ∧ e.lop ≤ 6 ∧ f.off = e.off ∧ f.lop = e.lop ∧ f.lty = e.lty ∧ f.key = e.key then
        let v := atomNew (lopAop e.lop) (ltyAtm e.lty) f.val.toNat e.val.toNat 0
        { e with val := BitVec.ofNat 64 v } :: acc.erase f
      else e :: acc
    | none => e :: acc

/-- The compaction of the log of tile `t` among the entries of the log stores; the others keep their places (R102). -/
def compact (t : Nat) (l : List LogEnt) : List LogEnt :=
  (l.foldl (fun acc e => if e.tile = t then compactAdd acc e else e :: acc) []).reverse

/-- Applies the logs of a cluster, that of the tile with the oldest entry first, until its store has room for an entry of
tile `t` (R103); a tile that is cut off keeps its log (R105). An entry of a tile that has a log already needs no room in
the index (log 91, DEDUCED). Where every entry is of a tile that is cut off, no room can be made, and the entry is appended past
the store's 65,536 (log 116, DESIGN CHOICE). -/
def State.makeRoom (s : State) (t : Nat) : Nat → State
  | 0 => s
  | f + 1 =>
    let mine := s.logs.filter fun e => tileCluster e.tile == tileCluster t
    let tiles := nubNat (mine.map (·.tile))
    if mine.length < 65536 ∧ (tiles.contains t ∨ tiles.length < 4096) then s
    else match mine.find? fun e => !s.badTiles.contains e.tile with
      | none => s
      | some e => (s.applyTile e.tile).makeRoom t f

/-- An entry goes to the end of its tile's log, which is compacted past 128 entries (R99, R102). -/
def State.appendLog (s : State) (e : LogEnt) : State :=
  let logs := s.logs ++ [e]
  { s with logs := if 128 < (logs.filter (·.tile == e.tile)).length then compact e.tile logs else logs }

/-- A tile is not resident any more; where it had been, its residency has been asked (log 2). -/
def State.evict (s : State) (t : Nat) : State :=
  { s with resident := s.resident.filter (· ≠ t), fresh := if s.resident.contains t then s.fresh + 1 else s.fresh }

/-- A non-returning update of a tile: applied at once where the tile is resident (its residency may have ended at any
time), else appended; a tile that has been fetched to make room for the entry is resident, and takes it (R99, R103). A managed line never carries a mark (R111). -/
def State.logUpdate (s : State) (e : LogEnt) : State :=
  let k := e.tile * tileBytes + e.off
  let n := ltyBytes e.lty
  if !s.takes e.key k then s
  else
    let s1 := (s.markMem k n none).notify k n
    if s1.resident.contains e.tile && s1.flip.1 then s1.flip.2.applyEntry e
    else if 256 ≤ (s1.logs.filter (·.tile == e.tile)).length then
      let s2 := (s1.evict e.tile).applyTile e.tile
      if s2.takes e.key k then s2.applyEntry e else s2
    else
      let s2 := (s1.evict e.tile).makeRoom e.tile 65537
      if !s2.takes e.key k then s2 else if s2.resident.contains e.tile then s2.applyEntry e else s2.appendLog e

/-- Log entries of a store of up to 8 bytes at key `k`. -/
def storeEntry (k key : Nat) (bs : List Byte) : LogEnt :=
  { tile := k / tileBytes, off := k % tileBytes, lop := 0, lty := bytesLty bs.length, val := BitVec.ofNat 64 (ofLe bs), key := key }

/-- The log entry of a non-returning atomic that may be logged; a `SUB` is logged as `ADD` of the negated operand (R99). -/
def updateEntry (k key aop : Nat) (ty : AtmTy) (a : Nat) : Option LogEnt :=
  let mk (lop v : Nat) : Option LogEnt :=
    some { tile := k / tileBytes, off := k % tileBytes, lop := lop, lty := atmLty ty, val := BitVec.ofNat 64 v, key := key }
  match aop with
  | 0 => mk 1 a
  | 1 => mk 1 (wrap ty.ty.bits (-(a : Int)))
  | 2 => mk 2 a | 3 => mk 3 a | 4 => mk 4 a | 5 => mk 5 a | 6 => mk 6 a | 12 => mk 7 a
  | _ => none

/-! ### Stores, atomics and the writes of units, at their homes -/

/-- The replicas of a class-0 address (R106). -/
def replicaKeys (k : Nat) : List Nat := [0, 1, 2].map fun d => k % dieBytes + d * dieBytes

/-- A piece of a flock's store performed at its home: an entry of the log where the page is managed (R99). -/
def State.homeWrite (s : State) (k key : Nat) (managed : Bool) (bs : List Byte) (m : Option RaceMark) : State :=
  if managed then s.logUpdate (storeEntry k key bs) else s.putHome k key bs m

/-- Bytes written at the home by an engine, an array operation or another unit: at all replicas of a replicated page
(R107), which goes before a log where its leaf has `ML` set too (log 115, DESIGN CHOICE), and to a managed page once its tiles are fetched and their logs applied, since such a write is no entry of a log
(R99). -/
def State.directWrite (s : State) (k key : Nat) (managed replicated : Bool) (bs : List Byte) (m : Option RaceMark) : State :=
  if replicated then (replicaKeys k).foldl (fun t j => t.putHome j key bs m) s
  else (if managed then s.applyRange k bs.length else s).putHome k key bs m

/-- Bytes that an atomic leaves at its home, at all replicas of a replicated page; the metadata stay as they are (R247). -/
def State.putAtomic (s : State) (k key : Nat) (replicated : Bool) (bs : List Byte) : State :=
  let put (t : State) (j : Nat) : State :=
    if t.takes key j then (t.writeAs (t.matOf key) j bs).notify j bs.length else t
  if replicated then (replicaKeys k).foldl put s else put s k

/-- The value at the home of `n` bytes, with the log of a managed tile applied. -/
def State.homeValue (s : State) (k n key : Nat) (managed : Bool) : State × Nat :=
  let s1 := if managed then s.applyRange k n else s
  (s1, ofLe (s1.readAs (s1.matOf key) k n))

/-- A non-returning atomic performed at its home. -/
def State.homeUpdate (s : State) (k key : Nat) (managed replicated : Bool) (aop : Nat) (ty : AtmTy) (a b : Nat) : State :=
  match (if managed then updateEntry k key aop ty a else none) with
  | some e => s.logUpdate e
  | none =>
    let v := s.homeValue k ty.bytes key managed
    v.1.putAtomic k key replicated (leBytes ty.bytes (atomNew aop ty v.2 a b))

/-! ### Virtual memory as the package's own units reach it -/

/-- The leaf and home key of a virtual address of a context, with the right `a`, outside any TLB; a write that would meet an
error response fails too. -/
def State.virt (s : State) (ctx va : Nat) (a : Acc) : Except Cause (Leaf × Nat) :=
  if 2 ^ 57 ≤ va then .error .addrNoncanon
  else
    match s.walk ctx va with
    | .error c => .error c
    | .ok l =>
      if !l.allows a then .error (if a = .fetch then .fetchNx else .pagePerm)
      else match s.homeAnswers l (l.key va) (if a = .write then .atomic false else a) with
        | some c => .error c
        | none => .ok (l, l.key va)

/-- A line of the bytes cannot be read. -/
def State.rangeBad (s : State) (k n : Nat) : Bool := (linesOf k n).any s.lineBad

/-- Reads `n` bytes of one page at a virtual address, with the logs of a managed page applied (R101). -/
def State.readVirt (s : State) (ctx va n : Nat) : Except Cause (List Byte) :=
  match s.virt ctx va .read with
  | .error c => .error c
  | .ok (l, k) =>
    let t := if l.ml then s.applyRange k n else s
    if t.rangeBad k n then .error .memError else .ok (t.readAs (t.matOf l.crypt) k n)

/-- The tiles that an access of a unit fetches, before it is served: what stays of one that is answered with an error, since a
fetch that meets an uncorrectable error is logged and cuts its tile off (R101, R105). -/
def State.unitMet (s : State) (ctx va n : Nat) (a : Acc) : State :=
  match s.virt ctx va a with
  | .error _ => s
  | .ok (l, k) => if l.ml then s.applyRange k n else s

/-- The state `s` as it stood before work that has been undone, which ended in `t`: what that work logged stays logged, the tiles that
it cut off stay so, and no free value is drawn twice. -/
def State.undo (s t : State) : State := { s with remoteDown := t.remoteDown, badTiles := t.badTiles, dies := t.dies, fresh := t.fresh }

/-- Writes bytes of one page at a virtual address; such a write records no party (R111). -/
def State.writeVirt (s : State) (ctx va : Nat) (bs : List Byte) : Except Cause State :=
  match s.virt ctx va .write with
  | .error c => .error c
  | .ok (l, k) =>
    let t := if l.ml then s.applyRange k bs.length else s
    if t.takes l.crypt k then .ok (t.directWrite k l.crypt l.ml l.rp bs none) else .error .memError

end Sys2Proof.Machine
end

