-- ==== Sys2Proof/Machine/Ops.lean ====
section
/-! DEFINITION. The named operations that the meanings share: the issuing fragment and its registers, fault records and
logs, barriers, the end of a flock, the kill of R34, TAKING A FAULT and the return from one, and how an instruction
ends (the next pc, a transfer, the join). -/

namespace Sys2Proof.Machine

/-! ### The issuing fragment -/

/-- The issuing fragment with its flock, fold and state, as they stand when its instruction issues. -/
structure Iss where
  s : State
  x : Fold
  fl : Nat
  k : Flock
  g : Frag
  deriving DecidableEq, Repr

/-- A flock as the instruction on which a fragment waits reads it: one that waits after its issue keeps the registers that it
found then (R149, R297, log 88). -/
def Flock.asHeld (k : Flock) : Park → Flock
  | .commit h | .busy h => { k with s := h.s, m := h.m, lat := h.lat, latOk := h.latOk, accBase := h.accBase, accLim := h.accLim }
  | _ => k

def State.iss? (s : State) (u l r : Nat) : Option Iss :=
  match s.fold? u with
  | none => none
  | some x =>
    match x.flocks[l]? with
    | none => none
    | some k =>
      match k.frag? r with
      | none => none
      | some g => some { s := s, x := x, fl := l, k := k.asHeld g.park, g := g }

/-- The fragment that holds the turn. -/
def State.issuer (s : State) : Option Iss :=
  match s.cur with
  | some (.frag u l r) => s.iss? u l r
  | _ => none

/-- Runs an instruction of a flock for the fragment that holds the turn. -/
def onFrag (s : State) (f : Iss → State) : Host.Outcome State Fault Refusal :=
  match s.issuer with
  | some i => .next (f i)
  | none => .fault .noIssuer

def Iss.modFold (i : Iss) (s : State) (f : Fold → Fold) : State := s.modFold i.x.uid f
def Iss.modFlock (i : Iss) (s : State) (f : Flock → Flock) : State := s.modFlock i.x.uid i.fl f
def Iss.modFrag (i : Iss) (s : State) (f : Frag → Frag) : State := s.modFrag i.x.uid i.fl i.g.fid f

/-- The flock registers as the issuing instruction finds them. -/
def Iss.held (i : Iss) : Held := { s := i.k.s, m := i.k.m, lat := i.k.lat, latOk := i.k.latOk, accBase := i.k.accBase, accLim := i.k.accLim }

/-- Flock width and the thread of a lane (R15). -/
def Iss.w (i : Iss) : Nat := i.x.width
def Iss.thread (i : Iss) (l : Nat) : Nat := i.fl * i.x.width + l

/-- The flock as an owner of accesses. -/
def Iss.owner (i : Iss) : Owner := .flock i.x.uid (i.fl * i.x.width) (i.fl * i.x.width + i.x.width)
def Iss.party (i : Iss) : BitVec 16 := i.k.party

/-- Mask k, with 15 for `exec` (R142, R172): bits at and above the width read as zero. -/
def Iss.mask (i : Iss) (n : Nat) : Mask := (if n = 15 then i.g.exec else Map.get 0 i.k.m n) &&& lowMask i.w

/-- The active set of a guard (R138). -/
def Iss.guardSet (i : Iss) (grd : BitVec 4) (gneg : Bool) : Mask :=
  if grd = 15 then i.g.exec
  else if gneg then i.g.exec &&& ~~~(i.mask grd.toNat) else i.g.exec &&& i.mask grd.toNat

def Iss.active (i : Iss) (h : Hdr) : Mask := i.guardSet h.grd h.gneg

/-- A flock-uniform instruction executes unless it is guarded and its active set is empty (R164). -/
def Iss.executes (i : Iss) (h : Hdr) : Bool := h.grd == 15 || i.active h != 0

/-! ### Registers -/

def Flock.sreg (k : Flock) (n : Nat) : W64 := Map.get 0 k.s n
def Flock.setS (k : Flock) (n : Nat) (v : W64) : Flock := { k with s := Map.set 0 k.s n v }
def Iss.sreg (i : Iss) (n : BitVec 7) : W64 := i.k.sreg n.toNat
def Iss.setS (i : Iss) (s : State) (n : BitVec 7) (v : W64) : State := i.modFlock s (·.setS n.toNat v)

/-- Register `r` of thread `t` (R75). -/
def Fold.vreg (x : Fold) (r t : Nat) : W32 := Map.get 0 x.v (r * x.size + t)
def Fold.setV (x : Fold) (r t : Nat) (v : W32) : Fold := { x with v := Map.set 0 x.v (r * x.size + t) v }
def Iss.vreg (i : Iss) (r l : Nat) : W32 := i.x.vreg r (i.thread l)

/-- A write of mask k: bits at and above the width are cleared, and `exec` keeps to the members (R27, R172). -/
def Iss.setMask (i : Iss) (s : State) (n : Nat) (v : Mask) : State :=
  if n = 15 then i.modFrag s fun g => { g with exec := v &&& g.members }
  else i.modFlock s fun k => { k with m := Map.set 0 k.m n (v &&& lowMask i.w) }

/-- Sets flags of a lane (R67). -/
def Fold.orFlags (x : Fold) (t : Nat) (f : W32) : Fold :=
  if f = 0 then x else { x with flags := Map.set 0 x.flags t (Map.get 0 x.flags t ||| f) }

def Fold.accW (x : Fold) (r c : Nat) : W32 := Map.get 0 x.acc (r * 256 + c)
def Fold.setAcc (x : Fold) (r c : Nat) (v : W32) : Fold := { x with acc := Map.set 0 x.acc (r * 256 + c) v }

/-! ### The violation log and telemetry (R404, R426) -/

def State.logViol (s : State) (d ctx cls core addr : Nat) : State :=
  s.modDie d fun x =>
    let e : VioEnt := { ctx := ctx, cls := cls, die := d, core := core, seq := x.violSeq + 1, addr := addr }
    { x with violSeq := x.violSeq + 1, viol := (x.viol ++ [e]).drop ((x.viol.length + 1) - 1024) }

def State.count (s : State) (item sub n : Nat) : State :=
  { s with telem := Map.set 0 s.telem (item * 256 + sub) (Map.get 0 s.telem (item * 256 + sub) + n) }

/-- An MSI-X vector is raised. -/
def State.raiseMsix (s : State) (v : Nat) : State := { s with msix := s.msix ++ [v] }

/-! ### Fault records (Tables 16.2, 16.3; R365 to R368) -/

def Ctx.field (c : Ctx) (hi lo : Nat) : Nat := bits c.fblk.toNat hi lo
def Ctx.fqBase (c : Ctx) : Nat := c.field 56 0
def Ctx.fqLogn (c : Ctx) : Nat := c.field 68 64
def Ctx.fqIrq (c : Ctx) : Bool := c.field 69 69 == 1
def Ctx.fqMsix (c : Ctx) : Nat := c.field 80 70
def Ctx.fqRidx (c : Ctx) : Nat := c.field 184 128
def Ctx.saveBase (c : Ctx) : Nat := c.field 248 192
def Ctx.pool (c : Ctx) : Nat := c.field 312 256
def Ctx.fillLo (c : Ctx) : Nat := c.field 376 320
def Ctx.fillHi (c : Ctx) : Nat := c.field 440 384
def Ctx.fkey (c : Ctx) : Nat := c.field 460 448

/-- What a record says (Table 16.2); `lcore` is the logical package core. -/
structure RecIn where
  cause : Cause
  src : Nat
  ctx : Nat
  qnum : Nat
  lcore : Nat
  slot : Nat
  flock : Nat
  card : Nat
  lanes : Mask
  addr : Nat
  pc : Nat
  aux : Nat
  coid : W64
  more : Bool
  phys : Bool
  deriving DecidableEq, Repr

/-- The 64 bytes of a record but for `HEART`, which is the count at its write. -/
def RecIn.word (r : RecIn) (seq : Nat) : BitVec 512 :=
  BitVec.ofNat 512 (packFields
    [(64, 0), (64, seq), (64, r.coid.toNat), (64, r.aux % 2 ^ 64), (9, 0), (55, r.pc % 2 ^ 55), (64, r.addr % 2 ^ 64),
     (64, r.lanes.toNat), (6, 0), (6, r.card % 64), (6, r.flock % 64), (4, r.slot % 16), (8, r.lcore % 144),
     (2, r.lcore / 144), (4, 0), (6, r.qnum % 64), (6, r.ctx % 64), (1, 0), (1, bitOf r.more), (1, bitOf r.phys),
     (1, bitOf r.cause.fatal), (1, bitOf r.cause.imprecise), (3, r.src), (8, r.cause.code)])

/-- Firmware finds the record ring of a context full: it enters `FAULTQ_FULL` and raises `FQMSIX`, once for each time the ring
fills (R368). -/
def State.ringFull (s : State) (c : Nat) : State :=
  match s.ctx c with
  | none => s
  | some x =>
    if x.full then s
    else
      ((s.modCtx c fun y => { y with full := true }).logErr 0 Cause.faultqFull.code 255 false 255 0 0).raiseMsix x.fqMsix

/-- Writes the waiting records of a context while its ring has room (R368). -/
def State.flushRecs (s : State) (c : Nat) : Nat → State
  | 0 => s
  | f + 1 =>
    match s.ctx c with
    | none => s
    | some x =>
      match x.unwritten with
      | [] => s
      | r :: rest =>
        let n := x.recs - x.unwritten.length
        match s.readVirt c x.fqRidx 8 with
        | .error _ => s.unitMet c x.fqRidx 8 .read
        | .ok cnt =>
          if n - ofLe cnt < 2 ^ x.fqLogn then
            match s.writeVirt c (x.fqBase + 64 * (n % 2 ^ x.fqLogn))
                (leBytes 64 (r.toNat + s.heart % 2 ^ 64 * 2 ^ 448)) with
            | .error _ => s.unitMet c (x.fqBase + 64 * (n % 2 ^ x.fqLogn)) 64 .write
            | .ok t =>
              let u := t.modCtx c fun y => { y with unwritten := rest, full := false }
              if n + 1 - ofLe cnt < 2 ^ x.fqLogn then u.flushRecs c f else u.ringFull c
          else s.ringFull c

/-- Writes the waiting records of every context. -/
def State.flushAll (s : State) : State :=
  s.ctxs.foldl (fun t p => t.flushRecs p.1 ((t.ctx p.1).elim 0 (·.unwritten.length))) s

/-- Makes a record of a context: the state and the record's `SEQ`. -/
def State.queueRec (s : State) (r : RecIn) : State × Nat :=
  match s.ctx r.ctx with
  | none => (s, 0)
  | some x =>
    (s.modCtx r.ctx fun y => { y with recs := y.recs + 1, unwritten := y.unwritten ++ [r.word (x.recs + 1)] }, x.recs + 1)

/-- Writes what waits of a context's records. -/
def State.flush (s : State) (c : Nat) : State := s.flushRecs c ((s.ctx c).elim 0 (·.unwritten.length))

/-- Makes a record of a context and writes it as soon as there is room: the state and the record's `SEQ`. -/
def State.pushRec (s : State) (r : RecIn) : State × Nat :=
  let p := s.queueRec r
  (p.1.flush r.ctx, p.2)

/-- The records of one stop, in order, every one but the last with `MORE` (R368). -/
def State.queueRecs (s : State) : List RecIn → State × List Nat
  | [] => (s, [])
  | r :: rest =>
    let p := s.queueRec { r with more := !rest.isEmpty }
    let q := p.1.queueRecs rest
    (q.1, p.2 :: q.2)

/-- Makes the records of one stop and writes the first; those behind it are written in the same heartbeat tick or at a later
one (Table 18.3, log 2). -/
def State.pushRecs (s : State) (l : List RecIn) : State × List Nat :=
  match l with
  | [] => (s, [])
  | r :: rest =>
    let p := s.pushRec { r with more := !rest.isEmpty }
    if rest.isEmpty then (p.1, [p.2])
    else
      let q := p.1.queueRecs rest
      let b := q.1.flip
      (if b.1 then b.2.flush r.ctx else b.2, p.2 :: q.2)

/-- The fields of a record that name a fold. -/
def State.recOf (s : State) (x : Fold) (cause : Cause) (src : Nat) : RecIn :=
  { cause := cause, src := src, ctx := x.ctx, qnum := 0, lcore := x.lcore, slot := x.slot, flock := 0, card := 0,
    lanes := 0, addr := 0, pc := 0, aux := 0, coid := (s.grid? x.gid).elim 0 (·.lrec.coid), more := false, phys := false }

/-! ### Barriers (R32 to R35)

Barrier keys: 0 to 15 the fold barriers, 16 the barrier of `FSYNC`, 17 to 24 the paddock barriers 0 to 7. -/

def State.bar (s : State) (x : Fold) (key : Nat) : BarSt :=
  if key ≤ 16 then Map.get BarSt.none x.bars key
  else (s.pad? x.pad).elim BarSt.none fun p => Map.get BarSt.none p.bars (key - 17)

def State.modBar (s : State) (x : Fold) (key : Nat) (f : BarSt → BarSt) : State :=
  if key ≤ 16 then
    s.modFold x.uid fun y => { y with bars := Map.set BarSt.none y.bars key (f (Map.get BarSt.none y.bars key)) }
  else
    s.modPad x.pad fun p => { p with bars := Map.set BarSt.none p.bars (key - 17) (f (Map.get BarSt.none p.bars (key - 17))) }

/-- The bit under which a flock or its fold is a member of a barrier. -/
def memberBit (x : Fold) (fl key : Nat) : Mask := bitMask (if key ≤ 16 then fl else x.padIdx)

def BarSt.has (b : BarSt) (m : Mask) : Bool := b.declared && (b.members &&& m) != 0

/-- Clears the passed sets and held arrivals of a barrier at the end of its phase. -/
def Fold.clearPassed (key : Nat) (y : Fold) : Fold :=
  { y with flocks := y.flocks.map fun k =>
      { k with passed := Map.set 0 k.passed key 0,
               padArr := if key ≤ 16 then k.padArr else k.padArr &&& ~~~(BitVec.ofNat 8 (2 ^ (key - 17))) } }

/-- A stream that has ended, or that a fold does not have, counts as arrived (R32, R277). -/
def Fold.streamGone (x : Fold) : Bool := x.stream.all (·.ended)

/-- The phase completes when every member that has not permanently arrived has arrived (R32). A broken barrier completes
no further phase: its waiters return the status broken (R35). -/
def State.completeBar (s : State) (u key : Nat) : State :=
  match s.fold? u with
  | none => s
  | some x =>
    let b := s.bar x key
    let streamIn := !b.stream || b.streamArrived || x.streamGone
    if b.declared && !b.broken && (b.members &&& ~~~(b.arrived ||| b.permanent)) == 0 && streamIn
        && (b.arrived != 0 || b.streamArrived) then
      let s1 := s.modBar x key fun y => { y with phase := y.phase + 1, arrived := 0, streamArrived := false }
      { s1 with folds := s1.folds.map fun y =>
          if y.uid = x.uid ∨ (17 ≤ key ∧ y.pad = x.pad) then y.clearPassed key else y }
    else s

/-- A flock of which nothing is set and that has no fragment. -/
def Flock.blank : Flock :=
  { s := [], m := [], lat := [], latOk := 0, tkErr := 0, accBase := 0, accLim := 0, replay := 0, replayFid := none,
    privHwm := 0, frags := [], splits := [], stop := none, last := none, armed := none, ckpt := none, passed := [],
    padArr := 0, party := 0xFFFF, dying := false }

/-- A live flock. -/
def Flock.live (k : Flock) : Bool := !k.frags.isEmpty

def Fold.allEnded (x : Fold) : Bool := x.flocks.all (!·.live)

/-- Records a fold's arrival at a paddock barrier once every live flock of it has arrived (R32). -/
def State.padArrive (s : State) (u key : Nat) : State :=
  match s.fold? u with
  | none => s
  | some x =>
    let live := x.flocks.filter (·.live)
    if live.any (fun k => k.padArr.getLsbD (key - 17)) && live.all (fun k => k.padArr.getLsbD (key - 17)) then
      let s1 := s.modBar x key fun b => { b with arrived := b.arrived ||| bitMask x.padIdx }
      let s2 := s1.modFold u fun y => { y with flocks := y.flocks.map fun k =>
        { k with padArr := k.padArr &&& ~~~(BitVec.ofNat 8 (2 ^ (key - 17))) } }
      s2.completeBar u key
    else s

/-- Records a flock's arrival at a barrier. -/
def State.arriveBar (s : State) (u fl key : Nat) : State :=
  match s.fold? u with
  | none => s
  | some x =>
    if key ≤ 16 then (s.modBar x key fun b => { b with arrived := b.arrived ||| bitMask fl }).completeBar u key
    else (s.modFlock u fl fun k => { k with padArr := k.padArr ||| BitVec.ofNat 8 (2 ^ (key - 17)) }).padArrive u key

/-- Every barrier of which the flock is a member becomes broken (R34, R35). -/
def State.breakBars (s : State) (u fl : Nat) : State :=
  (List.range 25).foldl (fun t key =>
    match t.fold? u with
    | none => t
    | some x => t.modBar x key fun b => if b.has (memberBit x fl key) then { b with broken := true } else b) s

/-- The flock ends: it counts as arrived permanently, and its party number is retired (R33, R110). -/
def State.endFlock (s : State) (u fl : Nat) : State :=
  match s.fold? u with
  | none => s
  | some x =>
    match x.flocks[fl]? with
    | none => s
    | some k =>
      let s2 := (s.retire k.party).modFlock u fl fun k =>
        { k with frags := [], splits := [], stop := none, armed := none, last := none, latOk := 0, dying := false, behind := [],
                 party := 0xFFFF }
      (List.range 25).foldl (fun t key =>
        match t.fold? u with
        | none => t
        | some y =>
          if (t.bar y key).has (memberBit y fl key) then
            if key ≤ 16 then (t.modBar y key fun b => { b with permanent := b.permanent ||| bitMask fl }).completeBar u key
            else if y.allEnded then
              (t.modBar y key fun b => { b with permanent := b.permanent ||| bitMask y.padIdx }).completeBar u key
            else t.padArrive u key
          else t) s2

/-- The stream of a fold ends: it counts as arrived permanently (R277). -/
def State.endStream (s : State) (u : Nat) : State :=
  match (s.fold? u).bind (·.stream) with
  | none => s
  | some m =>
    let s1 := (s.retire m.party).modFold u fun x =>
      { x with stream := x.stream.map fun m => { m with ended := true, waiting := none, stop := none, party := 0xFFFF } }
    (List.range 16).foldl (fun t key => t.completeBar u key) s1

/-! ### Kill (R34, R36) -/

def Park.isReady : Park → Bool
  | .ready => true
  | _ => false

/-- The instruction of a fragment comes up for issue: it is ready, or issues anew after a stop (R373). -/
def Park.issues : Park → Bool
  | .ready | .rebar _ _ => true
  | _ => false

/-- A job card is freed without its tag or its token. -/
def State.dropCard (s : State) (c : Card) : State :=
  let t := s.retire c.party
  { t with cards := t.cards.filter (·.cid ≠ c.cid) }

/-- A job has begun a chunk, and no fault has stopped it there. -/
def Card.inChunk (c : Card) : Bool := !c.part.isEmpty && c.stop.isNone

/-- The jobs of a fold stop, one that has begun a chunk at the end of that chunk; neither their tags nor their tokens are set (R34). -/
def State.dropCards (s : State) (u : Nat) : State :=
  let s1 := (s.cards.filter fun c => c.fold == u && !c.inChunk).foldl State.dropCard s
  { s1 with cards := s1.cards.map fun c => if c.fold = u then { c with dying := true } else c }

/-- `PSTAT.STATE` of a core after a fold of it has changed (Table 16.5): stopping while one of its folds stops, saving while
one saves, then done. -/
def State.updPreq (s : State) (core : Nat) : State :=
  let here := s.foldsOnCore core
  let st := if here.any (fun x => x.run == .stopping none || x.preqAfter) then 1 else if here.any (·.run == .saving) then 2 else 3
  s.modCore core fun c => if c.preq = 1 ∨ c.preq = 2 then { c with preq := st } else c

/-- The paddock barriers of which a fold is a member become broken for the folds that survive it (R36). -/
def State.breakPads (s : State) (u : Nat) : State :=
  (List.range 8).foldl (fun t b =>
    match t.fold? u with
    | none => t
    | some x => t.modBar x (17 + b) fun y => if y.has (bitMask x.padIdx) then { y with broken := true } else y) s

/-- A fold whose fragments may issue: it runs, or completes lines before a stop. -/
def FoldRun.issues : FoldRun → Bool
  | .running | .stopping _ | .dying => true
  | _ => false

/-- Steps 3 to 6 of R34 for one fold of the kill scope: its flocks stop at their next line boundary, or at once if they
are parked or stopped; its stream and its accumulators stop, and its jobs at their chunk boundaries. A fold that has committed to a move is killed when
the move ends (R55). -/
def State.killFold (s : State) (u : Nat) : State :=
  match s.fold? u with
  | none => s
  | some x =>
    if x.moveTo.isSome then s.modFold u fun y => { y with killAfter := true } else
    let atOnce (k : Flock) : Bool :=
      k.live && (k.stop.isSome || k.frags.all (fun g => !g.park.isReady || g.pending) || !x.run.issues)
    let s1 := s.modFold u fun y =>
      { y with run := if y.run = .saved then .saved else .dying, argFault := none, moveTo := none, wants := none, preqAfter := false, killAfter := false,
               lease := { y.lease with remain := 0, active := false, susp := false },
               flocks := y.flocks.map fun k => { k with dying := k.live } }
    let s2 := (List.range x.flocks.length).foldl (fun t l =>
      match x.flocks[l]? with
      | some k => if atOnce k then (t.breakBars u l).endFlock u l else t
      | none => t) s1
    let s3 := (s2.modFold u fun y => { y with acc := [], stream := y.stream.map fun m => { m with queue := [] } }).endStream u
    let s4 := (s3.dropCards u).breakPads u
    if x.run = .stopping none ∨ x.run = .saving ∨ x.preqAfter then (s4.modCore x.core fun c => { c with killed := true }).updPreq x.core
    else s4

def Grid.total (g : Grid) : Nat := g.gx * g.gy * g.gz

/-- The head of a queue for the dispatcher: its oldest grid with units to place (R358). -/
def Grid.hasUnits (g : Grid) : Bool := !g.killed && (!g.resumes.isEmpty || decide (g.nextF < g.total))
def State.headGrid (s : State) (q : Nat) : Option Grid := s.grids.find? fun g => g.queue == q && g.hasUnits

/-- A queue's head has changed: the new one became head now (R358). -/
def State.newHead (s : State) (q : Nat) : State :=
  match s.headGrid q with
  | some g =>
    let n := s.newId
    n.2.modGrid g.gid fun x => { x with since := s.heart, order := n.1, age := 0, failed := none, reserved := [] }
  | none => s

/-- The whole grid as kill scope: its context is marked in error (R36). -/
def State.killGrid (s : State) (gid : Nat) : State :=
  match s.grid? gid with
  | none => s
  | some g =>
    let was := (s.headGrid g.queue).map (·.gid)
    let s1 := (s.modGrid gid fun g => { g with killed := true, resumes := [] }).modCtx g.ctx fun c => { c with error := true }
    let s2 := ((s.folds.filter (·.gid == gid)).map (·.uid)).foldl (fun t v => t.killFold v) s1
    if was = some gid then s2.newHead g.queue else s2

/-- The kill scope of a fatal trap in fold `u`: the fold when the launch's contain flag is set, else the whole grid, whose
context is then marked in error (R36). -/
def State.killScope (s : State) (u : Nat) : State :=
  match s.fold? u with
  | none => s
  | some x =>
    if (s.grid? x.gid).any (·.lrec.contain) then
      (s.modGrid x.gid fun g => { g with foldKilled := true }).killFold u
    else if (s.grid? x.gid).isSome then s.killGrid x.gid
    else (s.modCtx x.ctx fun c => { c with error := true }).killFold u

/-- A fatal trap of a flock (R34): it stops, its barriers break, and the kill scope follows. -/
def State.fatalFlock (s : State) (u fl : Nat) : State := ((s.breakBars u fl).endFlock u fl).killScope u

/-- A fatal trap of a matrix stream (R278): the fold barriers of which it is a member break. -/
def State.fatalStream (s : State) (u : Nat) : State :=
  let s1 := (List.range 16).foldl (fun t key =>
    match t.fold? u with
    | none => t
    | some x => t.modBar x key fun b => if b.declared && b.stream then { b with broken := true } else b) s
  s1.killScope u

/-! ### Taking a fault

A fault of the device is taken as R242, R364 and R365 describe: the party stops at the instruction, its latches are lost,
its records are written, and a fatal cause kills at once. Nothing else of the instruction happens. -/

/-- A fault of some lanes of the issuing fragment: the records of one stop. -/
def Iss.recs (i : Iss) (l : List (FInfo × Mask)) : List RecIn :=
  l.map fun p =>
    { i.s.recOf i.x p.1.cause 0 with flock := i.fl, lanes := p.2, addr := p.1.addr, pc := i.g.pc.toNat, aux := p.1.aux }

/-- A fragment that stops at its instruction: it re-executes from issue, and its resumption is no transfer of control (R135, R370). -/
def Frag.atFault (g : Frag) : Frag := { g with arriving := false, buf := if g.arriving then none else g.buf, park := .ready }

/-- TAKING A FAULT: the flock of the issuing fragment stops in state `s` with the faults `l` (by rising lowest lane);
`how` says what a resume does. -/
def Iss.take (i : Iss) (s : State) (l : List (FInfo × Mask)) (how : Resume) : State :=
  let p := s.pushRecs (i.recs l)
  let s1 := i.modFlock p.1 fun k =>
    { k with latOk := 0, last := none,
             frags := if how = .past then k.frags else k.frags.map fun g => if g.fid = i.g.fid then g.atFault else g,
             stop := some { awaits := p.2.filter (· ≠ 0), resume := how, frag := i.g.fid, grow := l.any (·.1.cause == .privGrow) } }
  if l.any (·.1.cause.fatal) then s1.fatalFlock i.x.uid i.fl else s1

/-- A precise fault of the whole instruction: nothing of it has happened, and a resume re-executes it. -/
def Iss.fault (i : Iss) (c : Cause) (lns : Mask) (addr aux : Nat) : State :=
  i.take i.s [({ cause := c, addr := addr, aux := aux, page := none }, lns)] .again

/-- A fault of the matrix stream of a fold, precise at its pc (R278). -/
def State.faultStream (s : State) (u : Nat) (f : FInfo) : State :=
  match s.fold? u with
  | none => s
  | some x =>
    match x.stream with
    | none => s
    | some m =>
      let p := s.pushRec { s.recOf x f.cause 1 with addr := f.addr, pc := m.pc.toNat, aux := f.aux }
      let s1 := p.1.modFold u fun y => { y with stream := y.stream.map fun m =>
        { m with arriving := false, buf := if m.arriving then none else m.buf,
                 stop := some { awaits := if f.cause.fatal then [] else [p.2].filter (· ≠ 0), resume := .again, frag := 0, grow := false } } }
      if f.cause.fatal then s1.fatalStream u else s1

/-! ### Return from a fault (R370) -/

/-- All records of the stop are acknowledged with resume: the party goes on as the stop says. -/
def Stop.ack (p : Stop) (seq : Nat) : Stop := { p with awaits := p.awaits.filter (· ≠ seq) }

/-- RETURN FROM A FAULT of a flock: the record `seq` is acknowledged with resume; when it was the last, the fragment goes
on: over `SR.REPLAY`, with the instruction again, or after it. -/
def Flock.ackResume (k : Flock) (seq : Nat) : Flock :=
  match k.stop with
  | none => k
  | some p =>
    if p.awaits.contains seq then
      let q := p.ack seq
      if q.awaits.isEmpty then
        { k with stop := none, replayFid := if p.resume = .replay then some p.frag else k.replayFid }
      else { k with stop := some q }
    else k

/-! ### Fragments, splits and joins (R24 to R26, R178, R179) -/

def Flock.split? (k : Flock) (sid : Nat) : Option Split := k.splits.find? (·.sid == sid)

/-- The current join of a fragment: that of the innermost unfused split it descends from. -/
def Flock.joinOf (k : Flock) (g : Frag) : Option Pc :=
  match g.path with
  | [] => none
  | sid :: _ => (k.split? sid).map (·.join)

/-- The fragments that descend from a split. -/
def Flock.under (k : Flock) (sid : Nat) : List Frag := k.frags.filter (·.path.contains sid)

/-- Fuses split `sid` when each of its fragments has reached the join or lost all its members (R26): the fragments at the
join become one, whose arrival there is a transfer of control, and the split's record is freed. -/
def Flock.fuse (k : Flock) (sid : Nat) : Flock :=
  match k.split? sid with
  | none => k
  | some sp =>
    let fs := k.under sid
    if fs.all (fun g => g.path.head? == some sid && g.park == .join) then
      let rest := k.splits.filter (·.sid ≠ sid)
      match fs with
      | [] => { k with splits := rest }
      | g :: _ =>
        let mem := fs.foldl (fun m f => m ||| f.members) 0
        let fused : Frag :=
          { fid := g.fid, members := mem, exec := mem, pc := sp.join, arriving := true, buf := none, path := g.path.tail,
            pending := fs.all (·.pending), park := .ready }
        { k with splits := rest, frags := fused :: k.frags.filter (fun f => !f.path.contains sid) }
    else k

/-- Parks every ready fragment that stands at its join. -/
def Flock.parkJoins (k : Flock) : Flock :=
  { k with frags := k.frags.map fun g =>
      if g.park == .ready && k.joinOf g == some g.pc then { g with park := .join } else g }

/-- Fragments at their joins park and fuse, innermost split first. -/
def Flock.settle (k : Flock) : Nat → Flock
  | 0 => k.parkJoins
  | f + 1 =>
    let k1 := k.parkJoins
    (k1.splits.reverse.foldl (fun a sp => a.fuse sp.sid) k1).settle f

/-- Joins are looked at after every instruction of a flock. -/
def State.settle (s : State) (u l : Nat) : State := s.modFlock u l fun k => k.settle k.splits.length

/-! ### How an instruction ends -/

/-- The fragment goes on at the next slot (R136). -/
def Iss.next (i : Iss) (s : State) : State :=
  (i.modFrag s fun g => { g with pc := i.g.pc + 1, arriving := false, park := .ready }).settle i.x.uid i.fl

/-- A transfer of control: the landing slot's `BTM` bit is due (R135). -/
def Iss.jump (i : Iss) (s : State) (tgt : Pc) : State :=
  (i.modFrag s fun g => { g with pc := tgt, arriving := true, buf := none, park := .ready }).settle i.x.uid i.fl

/-- A transfer to a pc that has bits above 54 faults (R175). -/
def Iss.jumpTo (i : Iss) (s : State) (tgt : Nat) : State :=
  if tgt < 2 ^ 55 then i.jump s (BitVec.ofNat 55 tgt) else i.fault .brTarget (i.g.exec) 0 0

/-- The fragment parks on its instruction (R29). -/
def Iss.park (i : Iss) (s : State) (p : Park) : State := i.modFrag s fun g => { g with park := p }

/-- A flock-uniform instruction: `f` when it executes, else only the next slot (R164). One that is parked has executed. -/
def Iss.uniform (i : Iss) (h : Hdr) (f : State) : State := if i.executes h || !i.g.park.issues then f else i.next i.s

/-! ### Arithmetic traps (R40, R68) -/

/-- Puts a record's lanes behind those of equal or lower lowest lane (R368). -/
def insertRec (r : FInfo × Mask) : List (FInfo × Mask) → List (FInfo × Mask)
  | [] => [r]
  | q :: l => if ffs r.2 < ffs q.2 then r :: q :: l else q :: insertRec r l

/-- The records of one stop in rising order of their lowest lane (R368); of equal ones the one that came first stays first. -/
def sortRecs (l : List (FInfo × Mask)) : List (FInfo × Mask) := l.foldl (fun acc r => insertRec r acc) []

/-- After an instruction that set flags in some lanes: where a trap of the fold is enabled for such a flag, the trap is
taken at the boundary, one record for each flag, in rising order of their lowest lane (R368), and of the flag where that
is the same (log 94, DESIGN CHOICE). `fl` gives the flags that each lane raised. -/
def Iss.finish (i : Iss) (s : State) (fl : List (Nat × W32)) : State :=
  let t := i.next s
  let ten := i.x.fpctl.toNat / 256 % 128
  let hits := (List.range 7).filter (bit ten)
  let recs := hits.filterMap fun b =>
    let m := fl.foldl (fun m p => if p.2.getLsbD b then m ||| bitMask p.1 else m) (0 : Mask)
    if m = 0 then none else some (({ cause := .trap b, addr := 0, aux := 0, page := none } : FInfo), m)
  if recs.isEmpty then t else i.take t (sortRecs recs) .past

end Sys2Proof.Machine
end

