-- ==== Sys2Proof/Machine/Operands.lean ====
section
/-! DEFINITION. How an instruction reads its source operands under their types (R64, R65, R140, R141, R204), and how a
vector result is written to its register and its latch (R65, R139, R147). -/

namespace Sys2Proof.Machine

/-! ### Inline constants (Table 5.5) -/

/-- The integer value of constants 0 to 48. -/
def constInt (c : Nat) : Int := if c ≤ 32 then (c : Int) else 32 - (c : Int)

/-- The `F32` encoding of constants 49 to 63. -/
def constF32 (c : Nat) : Nat :=
  match c with
  | 49 => 0x3F000000 | 50 => 0xBF000000 | 51 => 0x3F800000 | 52 => 0xBF800000 | 53 => 0x40000000 | 54 => 0xC0000000
  | 55 => 0x40800000 | 56 => 0xC0800000 | 57 => 0x3E800000 | 58 => 0xBE800000 | 59 => 0x3F317218 | 60 => 0x3FB8AA3B
  | 61 => 0x40490FDB | 62 => 0x3E22F983 | _ => 0x3FB504F3

/-- A constant in an operand of `w` bits that is no floating-point operand (R141). A floating-point constant in a 4-bit integer operand,
for which R141 gives no bits, is the low 4 bits of its encoding (log 81, DESIGN CHOICE). -/
def constRaw (w c : Nat) : Nat := if c ≤ 48 then wrap w (constInt c) else constF32 c % 2 ^ w

/-- A constant in a floating-point operand (R141). -/
def constFp (f : Fmt) (c : Nat) : Nat :=
  (f.deliver .rne (if c ≤ 48 then FVal.ofInt (constInt c) else (fmtOf .f32).value (constF32 c))).1

/-- A constant under a type. -/
def constOf (t : Ty) (c : Nat) : Nat := if t.isFp then constFp (fmtOf t) c else constRaw t.bits c

/-! ### Sources of a lane -/

/-- The 32 bits that a source gives lane `l`, for an operand of 32 bits or less that is no constant. -/
def Iss.raw32 (i : Iss) (x : Src) (l : Nat) : Nat :=
  match x with
  | .v n => (i.vreg n.toNat l).toNat
  | .lat n => (Map.get 0 i.k.lat (n.toNat * 64 + l)).toNat % 2 ^ 32
  | .s n => (i.sreg n).toNat % 2 ^ 32
  | .c n => constRaw 32 n.toNat

/-- The 64 bits that a source gives lane `l` for a 64-bit operand (R64). -/
def Iss.raw64 (i : Iss) (x : Src) (l : Nat) : Nat :=
  match x with
  | .v n => (i.vreg n.toNat l).toNat + (i.vreg (n.toNat + 1) l).toNat * 2 ^ 32
  | .lat n => (Map.get 0 i.k.lat (n.toNat * 64 + l)).toNat
  | .s n => (i.sreg n).toNat
  | .c n => constRaw 64 n.toNat

/-- The operand that a source gives lane `l` under type `t`: `t.bits` bits (R204). -/
def Iss.opnd (i : Iss) (t : Ty) (x : Src) (l : Nat) : Nat :=
  match x with
  | .c n => constOf t n.toNat
  | _ => if t.bits = 64 then i.raw64 x l else i.raw32 x l % 2 ^ t.bits

/-- A scalar or constant source as 64 bits. -/
def Iss.sval64 (i : Iss) (x : Src) : W64 := BitVec.ofNat 64 (i.raw64 x 0)

/-! ### Results of lanes -/

/-- A result of type `t` in a register of `n` bits: filled with the sign for signed types, with zeros for all others (R65). -/
def fill (n : Nat) (t : Ty) (r : Nat) : Nat := wrap n (ival t.signed t.bits r)

/-- Writes a result of type `t` to register `d` of thread `th`. -/
def Fold.putV (x : Fold) (t : Ty) (d th r : Nat) : Fold :=
  if t.bits = 64 then (x.setV d th (BitVec.ofNat 32 r)).setV (d + 1) th (BitVec.ofNat 32 (r / 2 ^ 32))
  else x.setV d th (BitVec.ofNat 32 (fill 32 t r))

/-- What the header and body of a word, or a pair half, say about the write-back. -/
structure Wb where
  nwb : Bool
  len : Bool
  lat : BitVec 2
  t : Ty
  dst : BitVec 8
  deriving DecidableEq, Repr

def wbOf (h : Hdr) (t : Ty) (dst : BitVec 8) : Wb := { nwb := h.nwb, len := h.len, lat := h.lat, t := t, dst := dst }

/-- The result of one lane: the lane, the result under its type, and the flags it raises. -/
structure LaneRes where
  lane : Nat
  val : Nat
  flags : W32
  deriving DecidableEq, Repr

/-- Latch `n` after a write: the results in the lanes of `res`, zero in every other; valid unless there is none (R42, R147). -/
def Flock.putLatch (k : Flock) (w : Nat) (n : BitVec 2) (t : Ty) (res : List LaneRes) : Flock :=
  let zeroed := (List.range w).foldl (fun m l => Map.set 0 m (n.toNat * 64 + l) 0) k.lat
  let m := res.foldl (fun m r => Map.set 0 m (n.toNat * 64 + r.lane) (BitVec.ofNat 64 (fill 64 t r.val))) zeroed
  { k with lat := m,
           latOk := if res.isEmpty then k.latOk &&& ~~~(BitVec.ofNat 4 (2 ^ n.toNat)) else k.latOk ||| BitVec.ofNat 4 (2 ^ n.toNat) }

/-- Writes the results of lanes: registers unless suppressed, flags, and the latch where asked for (R139, R147). -/
def Iss.put (i : Iss) (s : State) (b : Wb) (res : List LaneRes) : State :=
  let s1 := i.modFold s fun x => res.foldl (fun y r =>
    (if b.nwb then y else y.putV b.t b.dst.toNat (i.thread r.lane) r.val).orFlags (i.thread r.lane) r.flags) x
  if b.len then i.modFlock s1 fun k => k.putLatch i.w b.lat b.t res else s1

/-- The flags of the lanes. -/
def LaneRes.flagsOf (res : List LaneRes) : List (Nat × W32) := res.map fun r => (r.lane, r.flags)

/-- A vector instruction: `f` gives the result and flags of each active lane, all read before any is written (R203). -/
def Iss.vector (i : Iss) (h : Hdr) (t : Ty) (dst : BitVec 8) (f : Nat → Nat × W32) : State :=
  let res := (lanes (i.active h)).map fun l => ({ lane := l, val := (f l).1, flags := (f l).2 } : LaneRes)
  i.finish (i.put i.s (wbOf h t dst) res) (LaneRes.flagsOf res)

/-- A vector instruction whose result is a mask: bit l for each active lane l, every other bit 0; nothing is written
when no lane is active (R42, R213). -/
def Iss.vectorMask (i : Iss) (h : Hdr) (dst : BitVec 8) (f : Nat → Bool × W32) : State :=
  let ls := lanes (i.active h)
  if ls.isEmpty then i.next i.s
  else
    let m := ls.foldl (fun m l => if (f l).1 then m ||| bitMask l else m) (0 : Mask)
    let s1 := i.modFold i.s fun x => ls.foldl (fun y l => y.orFlags (i.thread l) (f l).2) x
    i.finish (i.setMask s1 dst.toNat m) (ls.map fun l => (l, (f l).2))

/-! ### Rounding fields (Table 4.5, R121) -/

/-- The mode of a rounding field for an instruction that does not accept SR, or (`sr` given) that does, with the lane's
advanced state. -/
def Iss.mode (i : Iss) (rm : Rm) (sr : Option W32) : Mode :=
  let code := match rm with
    | .rne => 0 | .rz => 1 | .ru => 2 | .rd => 3 | .rna => 4 | .sr => 5 | .dyn => i.x.fpctl.toNat % 8
  match code with
  | 1 => .rz
  | 2 => .ru
  | 3 => .rd
  | 4 => .rna
  | 5 => match sr with | some x => .sr x.toNat | none => .rne
  | _ => .rne

/-- The rounding field selects SR (R120). -/
def Iss.usesSr (i : Iss) (rm : Rm) : Bool := rm == .sr || (rm == .dyn && i.x.fpctl.toNat % 8 == 5)

/-! ### Scalar instructions (R166) -/

/-- The first and second source of an `SC` word as 64 bits (R144). -/
def Iss.scA (i : Iss) (o : ScOp) : Nat := (i.sval64 o.sa).toNat
def Iss.scB (i : Iss) (o : ScOp) : Nat := if o.immsel then (o.imm.signExtend 64).toNat else (i.sval64 o.sb).toNat

/-- An `SC` word: `f` gives the result, of the type's width, from the operands' low bits; the result is extended under
R65 (R166). -/
def Iss.scalar (i : Iss) (h : Hdr) (o : ScOp) (f : Nat → Nat → Nat) : State :=
  i.uniform h <|
    let w := o.ty.bits
    let r := f (i.scA o % 2 ^ w) (i.scB o % 2 ^ w)
    i.next (if h.nwb then i.s else i.setS i.s o.sd (BitVec.ofNat 64 (fill 64 o.ty r)))

end Sys2Proof.Machine
end

