-- ==== Sys2Proof/Machine/Flags.lean ====
section
/-! DEFINITION. Results that raise flags: integer division (Table 1.7, R39, R40), the running largest magnitude (R125), and
conversions of one element (R122, R124, R428). -/

namespace Sys2Proof.Machine

/-! ### Integer division -/

/-- The quotient of Table 1.7 and its flags, for `w`-bit operands. -/
def divQ (sg : Bool) (w a b : Nat) : Nat × W32 :=
  let x := ival sg w a
  let y := ival sg w b
  if y = 0 then ((if sg then (if 0 ≤ x then 2 ^ (w - 1) - 1 else 2 ^ (w - 1)) else 2 ^ w - 1), flDZ)
  else if sg && decide (x = intMin true w) && decide (y = -1) then (2 ^ (w - 1), flOV)
  else (wrap w (Int.tdiv x y), 0)

/-- The remainder of Table 1.7 and its flags. -/
def divR (sg : Bool) (w a b : Nat) : Nat × W32 :=
  let x := ival sg w a
  let y := ival sg w b
  if y = 0 then (a % 2 ^ w, flDZ)
  else if sg && decide (x = intMin true w) && decide (y = -1) then (0, flOV)
  else (wrap w (Int.tmod x y), 0)

/-- A scalar division: its flags go to every lane of the active set, and no lane takes a trap when there is none (R40). -/
def Iss.scalarDiv (i : Iss) (h : Hdr) (o : ScOp) (f : Bool → Nat → Nat → Nat → Nat × W32) : State :=
  i.uniform h <|
    let w := o.ty.bits
    let r := f o.ty.signed w (i.scA o) (i.scB o)
    let s1 := if h.nwb then i.s else i.setS i.s o.sd (BitVec.ofNat 64 (fill 64 o.ty r.1))
    let ls := lanes (i.active h)
    let s2 := i.modFold s1 fun x => ls.foldl (fun y l => y.orFlags (i.thread l) r.2) x
    i.finish s2 (ls.map fun l => (l, r.2))

/-! ### `SR.AMAX` (R125) -/

/-- `SR.AMAX` and the flag after an update from a source value. -/
def amaxUpdate (old : W32) (x : FVal) : W32 × W32 :=
  match x with
  | .nan _ => (old, flNANSEEN)
  | .inf _ => (0x7F800000, 0)
  | .fin _ m e =>
    let c := BitVec.ofNat 32 ((fmtOf .f32).deliver .rne (.fin false m e)).1
    (if old.toNat < c.toNat then c else old, 0)

/-! ### One element of a conversion -/

/-- The exact value of an element of type `t`. -/
def elemVal (t : Ty) (c : Nat) : FVal :=
  if t.isInt || t == .s4 then FVal.ofInt (ival t.signed t.bits c) else (fmtOf t).value c

/-- A value, exact before the rounding, converted to a type (R122, R428). `sig` says that its source is a signalling
NaN. -/
def convertTo (t : Ty) (md : Mode) (sat sig : Bool) (x : FVal) : Nat × W32 :=
  if t.isInt then cvtToInt md t.signed t.bits x else cvtToFp (fmtOf t) md sat sig x

end Sys2Proof.Machine
end

