-- ==== Sys2Proof/Machine/Mem.lean ====
section
/-! DEFINITION. Accesses to memory below the level of an instruction: buffered stores and releases (R236, R237, R319), the
race check (R325), reads through the L1 (R86), and where a lane's address lies (R69 to R76, R233). -/

namespace Sys2Proof.Machine

/-! ### Scratchpads -/

/-- Marks the granules of `n` bytes of a scratchpad. -/
def Fold.markScr (x : Fold) (off n : Nat) (m : Option RaceMark) : Fold :=
  { x with scrMark := (List.range ((off + n - 1) / 32 + 1 - off / 32)).foldl (fun t i => Map.set RaceMark.clear t (off / 32 + i) (m.getD RaceMark.clear)) x.scrMark }

def Fold.scrBytesAt (x : Fold) (off n : Nat) : List Byte := (List.range n).map fun i => Map.get 0 x.scr (off + i)

def Fold.setScr (x : Fold) (off : Nat) (bs : List Byte) : Fold :=
  { x with scr := (bs.zipIdx).foldl (fun m p => Map.set 0 m (off + p.2) p.1) x.scr }

/-! ### Performing buffered effects at their homes -/

/-- Two owners are one party: the same stream or card, or flocks of one fold that share a thread. -/
def Owner.meets : Owner → Owner → Bool
  | .flock u a b, .flock v c d => u == v && decide (a < d) && decide (c < b)
  | .stream u, .stream v => u == v
  | .card c, .card d => c == d
  | _, _ => false

/-- The fold whose flock or stream an owner is. -/
def Owner.fold? : Owner → Option Nat
  | .flock u _ _ => some u
  | .stream u => some u
  | .card _ => none

/-- Two owners belong to one fold. -/
def Owner.mates (o p : Owner) : Bool := o.fold?.isSome && o.fold? == p.fold?

def Pend.len (p : Pend) : Nat :=
  match p.kind with
  | .write bs => bs.length
  | .update _ ty _ _ => ty.bytes
  | .release _ _ _ => 0

/-- Bytes `n` at a location overlap those of an entry. -/
def Pend.overlaps (p : Pend) (loc : Loc) (n : Nat) : Bool :=
  match p.loc, loc with
  | .mem a, .mem b => decide (a < b + n) && decide (b < a + p.len)
  | .scr u a, .scr v b => u == v && decide (a < b + n) && decide (b < a + p.len)
  | .win u q a, .win v r b => u == v && q == r && decide (a < b + n) && decide (b < a + p.len)
  | _, _ => false

/-- Bytes `n` at a location lie in a line, or a granule of a scratchpad, that the entry touches (R108). -/
def Pend.sameLine (p : Pend) (loc : Loc) (n : Nat) : Bool :=
  match p.loc, loc with
  | .mem a, .mem b => decide (a / 64 ≤ (b + n - 1) / 64) && decide (b / 64 ≤ (a + p.len - 1) / 64)
  | .scr u a, .scr v b => u == v && decide (a / 32 ≤ (b + n - 1) / 32) && decide (b / 32 ≤ (a + p.len - 1) / 32)
  | _, _ => false

def Pend.isRelease (p : Pend) : Bool :=
  match p.kind with
  | .release _ _ _ => true
  | _ => false

def Pend.holds (p : Pend) : Bool :=
  match p.kind with
  | .release _ h _ => h
  | _ => false

/-- The rise of the phase that an ordered store or atomic makes once every lane of it has written (R237, R249). -/
def Pend.isRaise (p : Pend) : Bool :=
  match p.kind with
  | .release _ h r => !h && r
  | _ => false

def Pend.isUpdate (p : Pend) : Bool :=
  match p.kind with
  | .update _ _ _ _ => true
  | _ => false

/-- A store updates a present L1 line of its core (R86). -/
def Core.patchL1 (c : Core) (k : Nat) (bs : List Byte) : Core :=
  { c with l1 := c.l1.map fun l =>
      if l.num = k / 64 then { l with data := l.data.take (k % 64) ++ bs ++ l.data.drop (k % 64 + bs.length) } else l }

def Core.dropLine (c : Core) (num : Nat) : Core := { c with l1 := c.l1.filter (·.num ≠ num) }

/-- Words of a window of region 0 or 2 (Table 3.6). -/
def Fold.setWin (x : Fold) (region off : Nat) (bs : List Byte) : Fold :=
  (List.range (bs.length / 4)).foldl (fun y j =>
    let w := off / 4 + j
    let v := BitVec.ofNat 32 (ofLe ((bs.drop (4 * j)).take 4))
    if region = 0 then { y with v := Map.set 0 y.v w v } else y.setAcc (w / 256) (w % 256) v) x

/-- Bytes of a window of region 0 or 2. -/
def Fold.winBytes (x : Fold) (region off n : Nat) : List Byte :=
  (List.range (n / 4)).flatMap fun j =>
    let w := off / 4 + j
    leBytes 4 (if region = 0 then Map.get 0 x.v w else x.accW (w / 256) (w % 256)).toNat

/-- One entry takes effect at its home; a release raises its party's phase. -/
def State.perform (s : State) (p : Pend) : State :=
  let m := if p.checked then some (s.pendMark p) else none
  match p.loc, p.kind with
  | .mem k, .write bs => (s.homeWrite k p.key p.managed bs m).modCore p.core fun c => c.patchL1 k bs
  | .mem k, .update aop ty a b =>
    (s.homeUpdate k p.key p.managed false aop ty a.toNat b.toNat).modCore p.core fun c => c.dropLine (k / 64)
  | .scr u off, .write bs => s.modFold u fun x => (x.setScr off bs).markScr off bs.length m
  | .win u r off, .write bs => s.modFold u fun x => x.setWin r off bs
  | _, .release _ _ r => if r then s.raiseTo p.owner p.grp else s
  | _, _ => s

def Pend.wide (p : Pend) : Bool :=
  match p.kind with
  | .release scope _ _ => decide (2 ≤ scope.code)
  | _ => false

/-- Two entries of one core that touch a common byte are performed in their order (R236). -/
def Pend.sameBytes (e f : Pend) : Bool := e.core == f.core && !e.isRelease && f.len != 0 && e.overlaps f.loc f.len

/-- Two updates of one tile by one owner, which enter its log in program order and lane order (R99, R332). -/
def Pend.sameTile (e f : Pend) : Bool :=
  e.managed && f.managed &&
    match e.loc, f.loc with
    | .mem a, .mem b => a / tileBytes == b / tileBytes
    | _, _ => false

/-- Two checked writes of different parties to one line or granule of which the later is not released: the earlier one was checked
there first, so it is served there first, and never meets the other's mark (R325, R326, log 92). -/
def Pend.sameCheck (e f : Pend) : Bool :=
  e.checked && f.checked && f.mark.isNone && !e.owner.meets f.owner && f.len != 0 && e.sameLine f.loc f.len

/-- The earlier entry `e` has to be performed before the later entry `f`: writes wait for an earlier release of their owner,
a release at paddock scope or wider waits for its owner's earlier accesses and for those of its fold that its core sees, which
may happen before it (R322, R323), a rise of the phase waits for the lanes of its instruction, and the lanes of one atomic
execute in rising order (R237, R247, R248, R249, R319). -/
def Pend.before (e f : Pend) : Bool :=
  e.sameBytes f || e.sameCheck f || (f.isRelease && f.wide && e.visible && e.owner.mates f.owner) || (e.owner.meets f.owner &&
    (e.holds || e.sameTile f || (f.isRelease && (f.wide || e.isRelease)) || (e.grp == f.grp && (f.isRaise || (e.isUpdate && f.isUpdate)))))

/-- The earlier entry `e` has to be visible on its core before the later entry `f` is performed anywhere: at flock and fold
scope an access is performed once its core sees it (R237). -/
def Pend.seenBefore (e f : Pend) : Bool := e.sameBytes f || (e.owner.meets f.owner && (e.holds || f.isRelease))

/-- The entries that `seed` picks together with those that `rel` puts before them, and the rest, in order. -/
def pickNeeded (rel : Pend → Pend → Bool) (seed : Pend → Bool) : List Pend → List Pend × List Pend
  | [] => ([], [])
  | e :: r =>
    let p := pickNeeded rel seed r
    if seed e || p.1.any (rel e ·) then (e :: p.1, p.2) else (p.1, e :: p.2)

/-- An instruction has buffered writes that are not yet performed. -/
def State.unperformed (s : State) (grp : Nat) : Bool := s.pend.any fun e => e.grp == grp && !e.isRelease

/-- The rise `f` of a phase is at hand: every lane of its instruction has written as far as its core sees, that is, its atomics are
performed, and its stores are performed or visible on their core. -/
def State.raiseDue (s : State) (f : Pend) : Bool :=
  s.pend.all fun e => e.isRelease || e.grp != f.grp || !e.owner.meets f.owner || (e.visible && !e.isUpdate)

/-- The phase rises, and the entry that stood for it leaves. -/
def State.makeRise (s : State) (f : Pend) : State :=
  let t := s.raiseTo f.owner f.grp
  { t with pend := t.pend.filter fun e => !(e.isRaise && e.grp == f.grp) }

/-- A store instruction leaves its token. -/
def State.leaveToken (s : State) (g : StoreGrp) : State := s.modFold g.fold fun x => { x with toks := x.toks.filter (·.id ≠ g.grp) }

/-- After buffered writes have been performed or shown: store instructions all of whose entries are performed leave their tokens
(R238). -/
def State.sweepGroups (s : State) : State :=
  let s1 := (s.groups.filter fun g => !s.unperformed g.grp).foldl State.leaveToken s
  { s1 with groups := s1.groups.filter fun g => s.unperformed g.grp }

/-- Performs the entries that `seed` picks, and what has to go before them. -/
def State.drain (s : State) (seed : Pend → Bool) : State :=
  let p := pickNeeded Pend.before seed s.pend
  let shown := (pickNeeded Pend.seenBefore seed s.pend).1
  let rest := p.2.map fun e => if shown.contains e then { e with visible := true } else e
  (p.1.foldl State.perform { s with pend := rest }).sweepGroups

/-- Makes entries visible on their core. A release at paddock scope or wider that stands before them is performed first; one
at a narrower scope is made once what stands before it is visible. -/
def State.expose (s : State) (seed : Pend → Bool) : State :=
  let c := (pickNeeded Pend.seenBefore seed s.pend).1
  let wides := c.filter fun e => e.wide && e.holds
  let s1 := if wides.isEmpty then s else s.drain (wides.contains ·)
  let narrow := c.filter fun e => !e.wide && e.holds
  let left := s1.pend.filter fun e => !narrow.contains e
  let s2 : State := { s1 with pend := left.map fun e => if c.contains e then { e with visible := true } else e }
  (narrow.foldl State.perform s2).sweepGroups

/-- Every earlier access of the owner is performed at `scope`: at flock and fold scope once the core sees it, wider once
its home has it (R237), with what its fold has made visible on the core, since that may happen before it (R322, R323). -/
def State.drainOwner (s : State) (o : Owner) (scope : Scope) : State :=
  if scope.code ≤ 1 then s.expose (·.owner.meets o) else s.drain fun e => e.owner.meets o || (e.visible && e.owner.mates o)

/-- A release that is made at once: the drain, and the phase rises (R109, R319). -/
def State.release (s : State) (o : Owner) (scope : Scope) : State := (s.drainOwner o scope).raise o

/-- The phases that are at hand rise; at paddock scope and wider their writes are performed first. A phase may rise later than the
last write of its instruction reaches its home (R237), but not later than an acquire that may have read one of those writes,
since what then follows is ordered (R320, R323; log 118, DEDUCED). -/
def State.settleRaises (s : State) : State :=
  let due := s.pend.filter fun f => f.isRaise && s.raiseDue f
  let t := if due.any (·.wide) then s.drain fun e => e.wide && due.contains e else s
  (due.filter fun f => !f.wide).foldl State.makeRise t

/-- An acquire: at paddock scope and wider the core's L1 holds no line any more (R237, R252). -/
def State.acquire (s : State) (core : Nat) (scope : Scope) : State :=
  let t := s.settleRaises
  if 2 ≤ scope.code then t.modCore core fun c => { c with l1 := [] } else t

/-! ### Pieces of an access -/

/-- A piece of an access: at most 8 bytes at one place, with the leaf through which a global address goes. -/
structure Site where
  loc : Loc
  n : Nat
  leaf : Option Leaf
  deriving DecidableEq, Repr

def Site.managed (t : Site) : Bool := t.leaf.any (·.ml)
def Site.replicated (t : Site) : Bool := t.leaf.any (·.rp)
def Site.crypt (t : Site) : Nat := t.leaf.elim 0 Leaf.crypt

/-- The race detector checks accesses there: not on exempt or managed pages, nor on a peer's or the host's memory (R111). -/
def Site.checkable (t : Site) : Bool :=
  match t.leaf with
  | none => (match t.loc with | .win _ _ _ => false | _ => true)
  | some l => !l.rx && !l.ml && l.cls == 0

/-- The marks that an access of the piece meets at the place that serves it. -/
def State.marksAt (s : State) (t : Site) : List RaceMark :=
  match t.loc with
  | .mem k => [Map.get RaceMark.clear s.marks (k / 64)]
  | .scr u off =>
    match s.fold? u with
    | none => []
    | some x => (List.range ((off + t.n - 1) / 32 + 1 - off / 32)).map fun i => Map.get RaceMark.clear x.scrMark (off / 32 + i)
  | .win _ _ _ => []

/-- Entries of the core that the owner sees: its own, and those visible on the core. -/
def Pend.seenBy (e : Pend) (o : Owner) (core : Nat) : Bool := e.owner.meets o || (e.core == core && e.visible)

/-- The marks of other parties' buffered writes that a read of the piece on a core meets: those visible there that it reads
through, or that share a granule of a scratchpad with it. -/
def State.readMarks (s : State) (o : Owner) (core : Nat) (t : Site) : List RaceMark :=
  let near (e : Pend) : Bool := match t.loc with | .scr _ _ => e.sameLine t.loc t.n | _ => e.overlaps t.loc t.n
  (s.pend.filter fun e => e.checked && !e.owner.meets o && e.core == core && e.visible && near e).map s.pendMark

/-- The marks of other parties' buffered writes that a write of the piece meets. It is checked as it issues, against the
writes that have issued before it and will reach its lines or granules first (R326, R327, log 92). -/
def State.writeMarks (s : State) (o : Owner) (t : Site) : List RaceMark :=
  (s.pend.filter fun e => e.checked && !e.owner.meets o && e.sameLine t.loc t.n).map s.pendMark

/-- A buffered write into the scratchpad or a window of a fold. -/
def Pend.inFold (e : Pend) (u : Nat) : Bool :=
  !e.isRelease && match e.loc with
    | .scr v _ | .win v _ _ => v == u
    | .mem _ => false

/-- The bytes `base` of a piece with the buffered writes over them that the owner sees. -/
def State.overlay (s : State) (o : Owner) (core : Nat) (t : Site) (base : List Byte) : List Byte :=
  (s.pend.filter fun e => e.seenBy o core && e.overlaps t.loc t.n).foldl (fun bs e =>
    match e.loc, t.loc, e.kind with
    | .mem a, .mem b, .write ws | .scr _ a, .scr _ b, .write ws | .win _ _ a, .win _ _ b, .write ws =>
      bs.zipIdx.map fun p => if a ≤ b + p.2 ∧ b + p.2 < a + ws.length then (ws[b + p.2 - a]?).getD p.1 else p.1
    | _, _, _ => bs) base

/-- The bytes of a line at its home, through its log. -/
def State.homeLine (s : State) (managed : Bool) (key num : Nat) : State × List Byte :=
  let s1 := if managed then s.applyRange (num * 64) 64 else s
  (s1, s1.readAs (s1.matOf key) (num * 64) 64)

/-- A line that the L1 takes: it holds 256 KB, 4,096 lines, and the line that came first gives way (Table 0.2, log 2). -/
def Core.putL1 (c : Core) (l : L1Line) : Core := { c with l1 := (l :: (c.dropLine l.num).l1).take 4096 }

/-- A line as a read of a core meets it, with its metadata and whether the L1 served it: the copy that the L1 holds may
serve it (R86, R325); else the home does, and the L1 takes the line unless the policy keeps it out (Table 3.9). -/
def State.lineFor (s : State) (core : Nat) (l1 : Bool) (cpol : Cpol) (managed : Bool) (key num : Nat) :
    State × List Byte × RaceMark × Bool :=
  let fromHome (t : State) : State × List Byte × RaceMark × Bool :=
    let r := t.homeLine managed key num
    let m := Map.get RaceMark.clear r.1.marks num
    (if l1 then
      r.1.modCore core fun c =>
        if cpol == .nol1 || cpol == .last then c.dropLine num else c.putL1 { num := num, data := r.2, mark := m }
     else r.1, r.2, m, false)
  match (if l1 then (s.core core).l1.find? (·.num == num) else none) with
  | none => fromHome s
  | some e =>
    let b := s.flip
    if b.1 then
      (if cpol == .nol1 || cpol == .last then b.2.modCore core (fun c => c.dropLine num) else b.2, e.data, e.mark, true)
    else fromHome b.2

/-- A piece cannot be read: its line or its tile holds an uncorrectable error (R105, R364). -/
def State.siteBad (s : State) (t : Site) : Bool :=
  match t.loc with
  | .mem k => s.rangeBad k t.n
  | _ => false

/-- The fault of a load or atomic whose home answers with an error; it concerns one page, which the access names (R392). -/
def Site.memError (t : Site) : FInfo :=
  match t.loc with
  | .mem k => { cause := .memError, addr := k % classKey, aux := 0, page := t.leaf.map fun l => pageAt l.lg k, phys := some (k % classKey) }
  | _ => { cause := .memError, addr := 0, aux := 0, page := none }

/-- Reads a piece for an owner on a core; `check` says that the race detector checks it. -/
def State.readSite (s : State) (o : Owner) (core : Nat) (l1 check : Bool) (cpol : Cpol) (t : Site) : State × Except FInfo (List Byte) :=
  let s1 := s.drain fun e =>
    e.seenBy o core && e.overlaps t.loc t.n && e.isUpdate
  let own := s1.partyOf o
  let bad (m : RaceMark) (a : Nat) : FInfo := { cause := .mmConflict, addr := a, aux := conflictAux own m, page := none }
  match t.loc with
  | .mem k =>
    let r := s1.lineFor core l1 cpol t.managed t.crypt (k / 64)
    if !r.2.2.2 && r.1.siteBad t then (r.1, .error t.memError)
    else
      let met := r.2.2.1 :: if r.2.2.2 then [] else r.1.readMarks o core t
      match (if check && t.checkable then met.find? (r.1.conflicts own) else none) with
      | some m => (r.1, .error (bad m (k % classKey)))
      | none => (r.1, .ok (r.1.overlay o core t ((r.2.1.drop (k % 64)).take t.n)))
  | .scr u off =>
    match (if check then (s1.marksAt t ++ s1.readMarks o core t).find? (s1.conflicts own) else none) with
    | some m => (s1, .error (bad m off))
    | none =>
      (s1, .ok (s1.overlay o core t (((s1.fold? u).elim [] (·.scrBytesAt off t.n)))))
  | .win u r off => (s1, .ok (s1.overlay o core t ((s1.fold? u).elim [] (·.winBytes r off t.n))))

/-- Whether a write of a piece meets a conflict, at its home or with a buffered write (R325). -/
def State.checkWrite (s : State) (o : Owner) (check : Bool) (t : Site) : Option FInfo :=
  let own := s.partyOf o
  if check && t.checkable then
    ((s.marksAt t ++ s.writeMarks o t).find? (s.conflicts own)).map fun m =>
      { cause := .mmConflict, addr := 0, aux := conflictAux own m, page := none }
  else none

/-- A write of a piece enters the buffer of its core. -/
def State.bufferWrite (s : State) (o : Owner) (core : Nat) (check : Bool) (grp : Nat) (t : Site) (bs : List Byte) : State :=
  { s with pend := s.pend ++ [{ owner := o, core := core, loc := t.loc, kind := .write bs, grp := grp, visible := false,
                                checked := check && t.checkable, mark := none, managed := t.managed,
                                key := t.crypt }] }

/-- A write of a piece that reaches its home at once: an engine's, an array operation's, or a flock's commit to a
replicated page, which all three replicas receive together (R107). -/
def State.writeSite (s : State) (o : Owner) (core : Nat) (check : Bool) (t : Site) (bs : List Byte) : State :=
  let m := if check && t.checkable then some (s.markOf o) else none
  match t.loc with
  | .mem k =>
    let s1 := s.directWrite k t.crypt t.managed t.replicated bs m
    if t.replicated then s1.modCore core fun c => c.patchL1 k bs else s1
  | .scr u off => s.modFold u fun x => (x.setScr off bs).markScr off bs.length m
  | .win u r off => s.modFold u fun x => x.setWin r off bs

/-! ### Where a lane's address lies (R69 to R73, R233) -/

def plainFault (c : Cause) (a : Int) : FInfo := { cause := c, addr := wrap 64 a, aux := 0, page := none }

/-- The pieces of `n` bytes at home key `k`. -/
def sitesAt (l : Leaf) (k n : Nat) : List Site :=
  if n ≤ 8 then [{ loc := .mem k, n := n, leaf := some l }]
  else (List.range (n / 8)).map fun j => { loc := .mem (k + 8 * j), n := 8, leaf := some l }

def scrSites (u off n : Nat) : List Site :=
  if n ≤ 8 then [{ loc := .scr u off, n := n, leaf := none }]
  else (List.range (n / 8)).map fun j => { loc := .scr u (off + 8 * j), n := 8, leaf := none }

/-- The pieces of `n` bytes at a global address for a core: translated and checked (R79 to R83); a party whose next
remote access is not answered meets `REMOTE_ERROR` there (R408). -/
def State.globalSites (s : State) (core ctx : Nat) (who : Option Party) (acc : Acc) (va n : Nat) : State × Except FInfo (List Site) :=
  let r := s.access core ctx va acc
  match r.2 with
  | .error f => (r.1, .error f)
  | .ok l =>
    if l.cls ≠ 0 && who.any (s.remoteDown.contains ·) then
      ({ r.1 with remoteDown := r.1.remoteDown.filter fun p => !(who == some p) },
        .error { cause := .remoteError, addr := va, aux := 0, page := some (pageAt l.lg va), phys := some (l.keyOn core va % classKey) })
    else (r.1, .ok (sitesAt l (l.keyOn core va) n))

/-- Runs `f` over places in order; the first fault ends it. -/
def State.allSites (s : State) (f : State → Nat → State × Except FInfo (List Site)) : List Nat → State × Except FInfo (List Site)
  | [] => (s, .ok [])
  | v :: r =>
    let p := f s v
    match p.2 with
    | .error e => (p.1, .error e)
    | .ok a =>
      let q := p.1.allSites f r
      match q.2 with
      | .error e => (q.1, .error e)
      | .ok b => (q.1, .ok (a ++ b))

/-- The virtual address of word `o` div 4 of a thread's private memory (R71). -/
def privAddr (base pidx thread o : Nat) : Nat := base + pidx * 2 ^ 35 + o / 4 * 8192 + thread * 4 + o % 4

/-- The pieces of a private access (R71, R72). -/
def Iss.privSites (i : Iss) (s : State) (acc : Acc) (lane o n : Nat) : State × Except FInfo (List Site) :=
  let base := (s.ctx i.x.ctx).elim 0 (·.privBase)
  let th := i.thread lane
  let words := if n ≤ 4 then [o] else (List.range (n / 4)).map fun j => o + 4 * j
  s.allSites (fun t w => t.globalSites i.x.core i.x.ctx (some (.frag i.x.uid i.fl i.g.fid)) acc (privAddr base i.x.pidx th w) (min n 4)) words

/-- The pieces of a lane's access of `n` bytes at address `a` of a space, or its fault: the space's limit first, then
the alignment (R69, R233). A negative private address takes `PRIV_LIMIT` of the two faults of its space (log 93, DESIGN
CHOICE). -/
def Iss.resolve (i : Iss) (s : State) (sp : Space) (acc : Acc) (lane : Nat) (a : Int) (n : Nat) : State × Except FInfo (List Site) :=
  let off := a.toNat
  match sp with
  | .global =>
    if a < 0 ∨ (2 ^ 57 : Nat) ≤ a then (s, .error (plainFault .addrNoncanon a))
    else if off % n ≠ 0 then (s, .error (plainFault .misaligned a))
    else s.globalSites i.x.core i.x.ctx (some (.frag i.x.uid i.fl i.g.fid)) acc off n
  | .fold =>
    if a < 0 ∨ (i.x.scrBytes : Int) < a + n then (s, .error (plainFault .scratchRange a))
    else if off % n ≠ 0 then (s, .error (plainFault .misaligned a))
    else (s, .ok (scrSites i.x.uid off n))
  | .paddock =>
    let o := off % 2 ^ 20
    match (if 0 ≤ a ∧ off < 2 ^ 23 then s.folds.find? fun y => y.pad == i.x.pad && y.padIdx == off / 2 ^ 20 else none) with
    | none => (s, .error (plainFault .scratchRange a))
    | some y =>
      if y.scrBytes < o + n then (s, .error (plainFault .scratchRange a))
      else if o % n ≠ 0 then (s, .error (plainFault .misaligned a))
      else (s, .ok (scrSites y.uid o n))
  | .priv =>
    if a < 0 ∨ (2 ^ 24 : Nat) ≤ a then (s, .error (plainFault .privLimit a))
    else if i.k.privHwm ≤ off then (s, .error (plainFault .privGrow a))
    else if off % n ≠ 0 then (s, .error (plainFault .misaligned a))
    else i.privSites s acc lane off n
  | .const =>
    if acc = .write then (s, .error (plainFault .constWrite a))
    else if a < 0 ∨ (2 ^ 24 : Nat) < a + n then (s, .error (plainFault .constRange a))
    else if off % n ≠ 0 then (s, .error (plainFault .misaligned a))
    else
      let cb := (s.grid? i.x.gid).elim 0 (·.lrec.cbase)
      s.globalSites i.x.core i.x.ctx (some (.frag i.x.uid i.fl i.g.fid)) .constRead (cb + off) n
  | .window => (s, .error (plainFault .windowRange a))

/-- The pieces of an access read in order; the first fault ends it. -/
def State.readSites (s : State) (o : Owner) (core : Nat) (l1 check : Bool) (cpol : Cpol) : List Site → State × Except FInfo (List Byte)
  | [] => (s, .ok [])
  | t :: r =>
    let p := s.readSite o core l1 check cpol t
    match p.2 with
    | .error e => (p.1, .error e)
    | .ok a =>
      let q := p.1.readSites o core l1 check cpol r
      match q.2 with
      | .error e => (q.1, .error e)
      | .ok b => (q.1, .ok (a ++ b))

/-- The race detector checks accesses of a fold in a space (R111, R325). -/
def Iss.checks (i : Iss) (sp : Space) : Bool := i.s.raceOn i.x.gid && sp != .const

/-! ### Tokens and tags (R88 to R90) -/

/-- The count of token `tk` of the flock of threads `lo` to `hi` - 1. -/
def Fold.tokCount (x : Fold) (lo hi tk : Nat) : Nat :=
  (x.toks.filter fun r => r.tk == tk && decide (r.lo < hi) && decide (lo < r.hi)).length

def Iss.tokCount (i : Iss) (tk : Nat) : Nat := i.x.tokCount (i.fl * i.x.width) (i.fl * i.x.width + i.x.width) tk

def Iss.addTok (i : Iss) (s : State) (id tk : Nat) : State :=
  i.modFold s fun x => { x with toks := x.toks ++ [{ id := id, lo := i.fl * i.x.width, hi := i.fl * i.x.width + i.x.width, tk := tk }] }

/-- Sets the error bit of a job's token in the flocks that hold its threads, whether or not the job still counts in it (R88). -/
def Fold.tokError (x : Fold) (c : Card) : Fold :=
  match c.tok with
  | none => x
  | some t => { x with flocks := x.flocks.zipIdx.map fun p =>
      if p.2 * x.width < c.hi ∧ c.lo < (p.2 + 1) * x.width then { p.1 with tkErr := p.1.tkErr ||| BitVec.ofNat 8 (2 ^ t) } else p.1 }

def Fold.dropTok (x : Fold) (id : Nat) : Fold := { x with toks := x.toks.filter (·.id ≠ id) }

/-- A job's completion sets a tag's ready bit, and its error bit where the job ended in error (R90); `far` says that the job was another
core's. -/
def Fold.setTag (x : Fold) (tag : Nat) (err far : Bool) : Fold :=
  { x with tagReady := x.tagReady ||| bitMask tag, tagErr := if err then x.tagErr ||| bitMask tag else x.tagErr,
           tagFar := if far then x.tagFar ||| bitMask tag else x.tagFar &&& ~~~bitMask tag }

end Sys2Proof.Machine
end

