-- ==== Sys2Proof/Machine/Fetch.lean ====
section
/-! DEFINITION. What happens before an instruction runs: the fetch of its line and the checks at line entry (R131 to
R135), the decode of its slot and the checks at issue (R64, R148, R149, R152), and the waits at issue (R42, R45, R88,
R238). -/

namespace Sys2Proof.Machine

/-! ### Lines (R131 to R134) -/

/-- Slot `i` of a line. -/
def slotWord (d : Line) (i : Nat) : IWord := BitVec.ofNat 96 (d.toNat / 2 ^ (96 * i))

/-- The line word. -/
def lineWord (d : Line) : Nat := d.toNat / 2 ^ 480

/-- Even parity of each slot with its bit, and of the line word (R132). -/
def parityOk (d : Line) : Bool :=
  (List.range 5).all (fun i => (popc 96 (slotWord d i).toNat + bits (lineWord d) (10 + i) (10 + i)) % 2 == 0)
    && popc 32 (lineWord d) % 2 == 0

def lineKindCode (d : Line) : Nat := bits (lineWord d) 17 16

/-- The kind and the reserved bits of a line fit its fetcher (R133). -/
def kindOk (k : LineKind) (d : Line) : Bool :=
  lineKindCode d == (match k with | .code => 0 | .matrix => 1) && bits (lineWord d) 31 18 == 0

/-- The template agrees with the format of every slot (R134). -/
def templateOk (d : Line) : Bool :=
  (List.range 5).all fun i => bit (lineWord d) (5 + i) == (bits (slotWord d i).toNat 95 91 == 31)

/-- The branch-target bit of a slot (R135). -/
def btm (d : Line) (slot : Nat) : Bool := bit (lineWord d) slot

/-- The instruction cache takes a line: it holds 128 KB, 2,048 lines, and the line that came first gives way (Table 0.2,
log 2). -/
def Core.putIc (c : Core) (e : IcLine) : Core :=
  { c with ic := (e :: c.ic.filter fun f => !(f.ctx == e.ctx && f.num == e.num)).take 2048 }

/-- The line at address 64 * `num` of a context as a core fetches it: translated as a fetch, taken from the instruction
cache where it serves the line, else from memory; parity is checked, and a mismatch refetches once (R132, R381). The
physical address of a line whose parity stays wrong goes to the error log, as the instruction cache's (Table 21.4). -/
def State.fetchLine (s : State) (core ctx num : Nat) : State × Except FInfo Line :=
  let va := num * 64
  let r := s.access core ctx va .fetch
  match r.2 with
  | .error f => (r.1, .error { f with addr := va })
  | .ok l =>
    let k := l.keyOn core va
    let fromMemory (t : State) : State × Except FInfo Line :=
      let h := t.homeLine l.ml l.crypt (k / 64)
      if h.1.rangeBad k 64 then (h.1, .error { cause := .memError, addr := va, aux := 0, page := none })
      else
        let d := BitVec.ofNat 512 (ofLe h.2)
        if parityOk d then (h.1.modCore core fun c => c.putIc { ctx := ctx, num := num, data := d }, .ok d)
        else
          ((h.1.count 11 7 1).logErr (dieOf core) Cause.parity.code 7 false (core % 144) (k % classKey) 0,
            .error { cause := .parity, addr := va, aux := 0, page := none })
    match (r.1.core core).ic.find? fun f => f.ctx == ctx && f.num == num with
    | none => fromMemory r.1
    | some e =>
      let b := r.1.flip
      if b.1 && parityOk e.data then (b.2, .ok e.data) else fromMemory b.2

/-- The checks of a line at its entry, but for parity, in the order of R134; `landing` is the slot that a transfer of
control reaches. -/
def entryFault (k : LineKind) (d : Line) (landing : Option Nat) : Option Cause :=
  if !kindOk k d then some .decodeFormat
  else if !templateOk d then some .template
  else if landing.any (fun i => !btm d i) then some .brTarget
  else none

def DecErr.cause : DecErr → Cause
  | .format => .decodeFormat
  | .opc => .decodeOpc
  | .field => .decodeField

/-- A slot that holds an instruction other than `NOP` after a `CURVE` of its line (R50, Table 5.9). -/
def afterCurve (d : Line) (slot : Nat) : Bool :=
  (List.range slot).any fun j =>
    match decode .code (slotWord d j) with
    | .ok (.curve _ _) => true
    | _ => false

/-! ### What an instruction uses -/

/-- The vector registers that an instruction reads or writes, the latches it reads, its token wait mask, the token it
counts on, and of a load its header and whether it loads in lanes (R45). -/
structure Uses where
  v : List Nat
  lat : List (BitVec 2)
  wait : BitVec 8
  tok : Option (BitVec 3)
  load : Option (Hdr × Bool)
  deriving DecidableEq, Repr

def pairIf (wide : Bool) (n : Nat) : List Nat := if wide then [n, n + 1] else [n]

/-- The registers that a source names, as a pair for 64 bits (R64). -/
def Src.regs (wide : Bool) : Src → List Nat
  | .v n => pairIf wide n.toNat
  | _ => []

def Src.lats : Src → List (BitVec 2)
  | .lat n => [n]
  | _ => []

def Ty.wide (t : Ty) : Bool := t.bits == 64

/-- Uses of a word with sources `l` (each with its width) and destination registers `d`. -/
def usesOf (h : Hdr) (l : List (Bool × Src)) (d : List Nat) : Uses :=
  { v := d ++ l.flatMap (fun p => Src.regs p.1 p.2), lat := l.flatMap (fun p => Src.lats p.2), wait := h.wait, tok := none, load := none }

def dstRegs (h : Hdr) (t : Ty) (d : BitVec 8) : List Nat := if h.nwb then [] else pairIf (Ty.wide t) d.toNat

def usesVr (h : Hdr) (o : VrOp) (n : Nat) : Uses :=
  usesOf h (([o.sa, o.sb, o.sc].take n).map fun x => (Ty.wide o.ty, x)) (dstRegs h o.ty o.dst)

def groupAt (d : BitVec 8) (n : Nat) : List Nat := (List.range n).map (d.toNat + ·)

def usesMem (h : Hdr) (o : MemOp) (data : List Nat) (load : Option (Hdr × Bool)) : Uses :=
  let u := usesOf h [(o.space == .global, o.addr)] data
  { u with tok := if o.toke then some o.tokn else none, load := load }

def atmData (o : AtmOp) (addb : Bool) : List Nat :=
  if !o.ret then []
  else if addb && o.aop == 11 then groupAt o.data (if o.ty.bytes = 8 then 4 else 2)
  else pairIf (o.ty.bytes == 8) o.data.toNat

def usesEng (h : Hdr) (o : EngOp) : Uses :=
  { v := [], lat := [], wait := h.wait, tok := if o.toke then some o.tokn else none, load := none }

def usesHalf (x : PairHalf) : Uses :=
  { v := (if x.nwb then (if x.op.accumulates then [x.dst.toNat] else []) else [x.dst.toNat]) ++ Src.regs false x.sa
      ++ (if x.op.unary then [] else Src.regs false x.sb)
    lat := Src.lats x.sa ++ (if x.op.unary then [] else Src.lats x.sb), wait := 0, tok := none, load := none }

def usesNone : Uses := { v := [], lat := [], wait := 0, tok := none, load := none }

/-- What an instruction of a flock uses. -/
def usesFlock : Instr → Uses
  | .pairWord a b =>
    { v := (usesHalf a).v ++ (usesHalf b).v, lat := (usesHalf a).lat ++ (usesHalf b).lat, wait := 0, tok := none, load := none }
  | .rdsr h o | .wrsr h o =>
    usesOf h [] (match Sr.ofId o.srid with | some r => if r.lane then [o.imm.toNat % 256] else [] | none => [])
  | .trap h _ | .dcall h _ | .launch h _ | .leaseReq h _ | .leaseRet h _ | .mark h _ | .curve h _ | .ckpt h _ => usesOf h [] []
  | .sadd h _ | .ssub h _ | .smul h _ | .smulh h _ | .sdiv h _ | .srem h _ | .sand h _ | .sor h _ | .sxor h _ | .sshl h _
  | .sshr h _ | .ssra h _ | .smin h _ | .smax h _ | .sclz h _ | .spop h _ | .scmp h _ | .ssel h _ | .smov h _ | .smovi h _
  | .smovh h _ | .slea h _ | .mwin h _ => usesOf h [] []
  | .mand h _ | .mor h _ | .mxor h _ | .mandn h _ | .mnot h _ | .mmov h _ | .mpop h _ | .mffs h _ | .mfroms h _
  | .mtos h _ => usesOf h [] []
  | .bra h _ | .brm h _ | .split h _ | .join h _ | .call h _ | .callx h _ | .exit h _ | .ret h _ | .loopd h _ => usesOf h [] []
  | .brx h o => usesOf h [] [o.joff.toNat % 256]
  | .bara h _ | .barw h _ | .bars h _ | .bart h _ | .fsync h _ | .yield h _ | .fence h _ | .fenceSc h _ | .tagw h _
  | .tagff h _ | .tagrel h _ | .tokw h _ => usesOf h [] []
  | .vadd h o | .vsub h o | .vmul h o | .vmulh h o | .vmin h o | .vmax h o | .vand h o | .vor h o | .vxor h o | .vdiv h o
  | .vrem h o | .vfadd h o | .vfsub h o | .vfmul h o | .vfmin h o | .vfmax h o => usesVr h o 2
  | .vmad h o | .vfma h o => usesVr h o 3
  | .vabs h o | .vnot h o | .vclz h o | .vpop h o | .vmov h o | .vfclass h o | .vrcp h o | .vrsq h o | .vsqrt h o
  | .vexp2 h o | .vlog2 h o | .vsin h o | .vcos h o | .vtanh h o => usesVr h o 1
  | .vshl h o | .vshr h o | .vsra h o => usesOf h [(Ty.wide o.ty, o.sa), (false, o.sb)] (dstRegs h o.ty o.dst)
  | .vcmp h o | .vfcmp h o => usesOf h [(Ty.wide o.ty, o.sa), (Ty.wide o.ty, o.sb)] []
  | .vsel h o => usesVr h o (if o.md == 15 then 3 else 2)
  | .mrd h o => usesOf h [(false, o.sa), (false, o.sb)] [o.dst.toNat]
  | .mwr h o => usesOf h [(false, o.sa), (false, o.sb), (false, o.sc)] []
  | .vmovi h o | .viota h o => usesOf h [] (dstRegs h o.ty o.dst)
  | .vcvt h o => usesOf h ((Ty.wide o.frm, o.sa) :: if o.scen then [(false, o.scl)] else []) (dstRegs h o.dty o.dst ++ if o.ins then [o.dst.toNat] else [])
  | .vqnt h o => usesOf h [(false, o.sa), (false, o.scl)] (dstRegs h o.dty o.dst ++ if o.ins then [o.dst.toNat] else [])
  | .vexpd h o | .vbunpk h o => usesOf h [(false, o.sa)] (dstRegs h o.dty o.dst ++ if o.ins then [o.dst.toNat] else [])
  | .vbpk h o => usesOf h [(false, o.sa)] (dstRegs h .b32 o.dst)
  | .amaxrd h o => usesOf h [] (dstRegs h .f32 o.dst)
  | .vshuf h o => usesOf h [(Ty.wide o.ty, o.sa), (false, o.sb)] (dstRegs h o.ty o.dst)
  | .vrot h o | .vbcst h o | .vred h o | .vscan h o => usesOf h [(Ty.wide o.ty, o.sa)] (dstRegs h o.ty o.dst)
  | .vvote h o => usesOf h [(Ty.wide o.ty, o.sa)] []
  | .vld h o | .vldw h o => usesMem h o (groupAt o.data (groupRegs o.size.toNat)) (some (h, true))
  | .vst h o | .vstw h o => usesMem h o (groupAt o.data (groupRegs o.size.toNat)) none
  | .sld h o => usesMem h o [] (some (h, false))
  | .sst h o | .pref h o => usesMem h o [] none
  | .atom h o =>
    usesOf h ([(true, o.addr), (o.ty.bytes == 8, o.opa)] ++ if aopTwo o.aop.toNat then [(o.ty.bytes == 8, o.opb)] else [])
      (atmData o true)
  | .red h o => usesOf h [(true, o.addr), (o.ty.bytes == 8, o.opa)] []
  | .waita h o => usesOf h [(true, o.addr), (o.ty.bytes == 8, o.opa)] (atmData o false)
  | .cpy h o | .cpym h o | .gath h o | .coll h o | .tidw h o | .tidr h o => usesEng h o
  | _ => usesNone

/-- The header of a flock-uniform instruction (R164, R194, R239, R271, R272). -/
def uniformHdr : Instr → Option Hdr
  | .rdsr h o | .wrsr h o => if (Sr.ofId o.srid).any (·.lane) then none else some h
  | .trap h _ | .dcall h _ | .launch h _ | .leaseReq h _ | .leaseRet h _ | .mark h _ | .curve h _
  | .ckpt h _ => some h
  | .sadd h _ | .ssub h _ | .smul h _ | .smulh h _ | .sdiv h _ | .srem h _ | .sand h _ | .sor h _ | .sxor h _ | .sshl h _
  | .sshr h _ | .ssra h _ | .smin h _ | .smax h _ | .sclz h _ | .spop h _ | .scmp h _ | .ssel h _ | .smov h _ | .smovi h _
  | .smovh h _ | .slea h _ | .mwin h _ => some h
  | .mand h _ | .mor h _ | .mxor h _ | .mandn h _ | .mnot h _ | .mmov h _ | .mpop h _ | .mffs h _ | .mfroms h _
  | .mtos h _ => some h
  | .bra h _ | .brm h _ | .join h _ | .call h _ | .callx h _ | .ret h _ | .loopd h _ => some h
  | .bara h _ | .barw h _ | .bars h _ | .bart h _ | .fsync h _ | .yield h _ | .fence h _ | .fenceSc h _ | .tagw h _
  | .tagff h _ | .tagrel h _ | .tokw h _ => some h
  | .sld h _ | .sst h _ | .tidw h _ | .tidr h _ => some h
  | _ => none

/-- The instructions that leave an armed `MARK` armed: `NOP`, `CURVE` until it has run, and a flock-uniform instruction that
its guard keeps from executing, since it is not among those that the flock executed (R50, R164, R200). -/
def Iss.keepsArm (i : Iss) (ins : Instr) : Bool :=
  (match ins with | .nop | .curve _ _ => true | _ => false) || (uniformHdr ins).any fun h => !i.executes h

/-! ### Issue of a fragment -/

/-- What comes before an instruction runs: the state is changed or unchanged and no instruction runs, or the instruction
runs in the state given, which names its party. -/
inductive Prep where
  | stay (s : State)
  | run (i : Instr) (s : State)
  deriving DecidableEq, Repr

def FoldRun.stops : FoldRun → Bool
  | .stopping _ => true
  | _ => false

/-- A parked fragment whose instruction looks again when it is selected. -/
def Park.retries : Park → Bool
  | .ready | .barrier _ _ _ | .rebar _ _ | .rearrive _ _ | .rendezvous _ _ _ _ | .tag _ _ | .token | .tokw _ | .card | .commit _ | .busy _ => true
  | _ => false

/-- A commit to a replicated page in progress: its line is completed before the fold stops (R373). -/
def Park.commits : Park → Bool
  | .commit _ => true
  | _ => false

def Park.isBusy : Park → Bool
  | .busy _ => true
  | _ => false

/-- An issued access waits that completes whatever else the flock issues. -/
def Park.inAccess (p : Park) : Bool := p.commits || p.isBusy

/-- A parked instruction whose release is still to be made. -/
def Park.unmade : Park → Bool
  | .card | .rearrive _ _ => true
  | _ => false

/-- The fragment enters a line at its next issue (R134). -/
def Frag.enters (g : Frag) : Bool := g.arriving || g.buf.all fun b => b.num != g.pc.toNat / 5

/-- Issue of the flock stays with the fragment that issued last while it is in the middle of a line (R29). -/
def Flock.heldBy (k : Flock) (r : Nat) : Bool :=
  match k.last with
  | none => false
  | some li => li.fid != r && k.frags.any fun g => g.fid == li.fid && g.park.isReady && !g.pending && !g.enters && g.pc.toNat % 5 != 0

/-! ### The order of issue after a `YIELD` (R29, R193) -/

/-- The instruction on which a fragment stands, as its fetch buffer holds it. -/
def Frag.current (g : Frag) : Option Instr :=
  match g.buf with
  | some b => if b.num = g.pc.toNat / 5 then (match decode .code (slotWord b.data (g.pc.toNat % 5)) with | .ok i => some i | .error _ => none) else none
  | none => none

/-- The first number of a core's 64 job cards that is free (R254). -/
def State.freeCard (s : State) (core : Nat) : Option Nat :=
  (List.range 64).find? fun j => !(s.cards.any fun c => c.core == core && c.idx == j)

/-- The wait is over: all of the mask, or any of it, is ready. -/
def tagsReady (any : Bool) (ready mask : Mask) : Bool := if any then mask == 0 || ready &&& mask != 0 else ready &&& mask == mask

/-- The wait of a parked fragment of the flock is over, though the fragment has not looked again since. -/
def Iss.waitOver (i : Iss) (f : Frag) : Bool :=
  match f.park with
  | .barrier key ph _ | .rebar key ph | .rearrive key ph => let b := i.s.bar i.x key; b.phase != ph || b.broken
  | .tag m _ => tagsReady (match f.current with | some (.tagw _ o) => o.bar.toNat % 2 == 1 | _ => false) i.x.tagReady m
  | .token => f.current.any fun w => (List.range 8).all fun t => !(usesFlock w).wait.getLsbD t || i.tokCount t == 0
  | .tokw m => (List.range 8).all fun t => !m.getLsbD t || i.tokCount t == 0
  | .card => (i.s.freeCard i.x.core).isSome && i.s.poolFree != 0
  | _ => false

/-- Fragment `f` of the flock is ready, and no pending half of a serial split. -/
def Iss.mayGo (i : Iss) (f : Frag) : Bool := !f.pending && (f.park.isReady || i.waitOver f)

/-- The fragment has yielded, and waits at its line boundary for those that were ready there before it (R193). -/
def Iss.isBehind (i : Iss) : Bool :=
  i.g.enters && i.k.replayFid.isNone &&
    i.k.behind.any fun p => p.1 == i.g.fid && p.2 != i.g.fid && i.k.frags.any fun f => f.fid == p.2 && i.mayGo f

/-- Fragment `r` issues: those that yielded to it wait for it no longer, nor it for others; one that has yielded in this line has still
to take its place. -/
def Flock.issued (k : Flock) (r : Nat) : List (Nat × Nat) :=
  k.behind.filter fun p => (if p.1 == r then p.2 == r else p.2 != r) && k.frags.any (·.fid == p.2)

/-- Fragments of a flock that have yielded and stand at a line boundary now take their places behind the fragments that are ready. -/
def State.seat (s : State) (x : Fold) (fl : Nat) (k : Flock) : Flock :=
  { k with behind := k.frags.foldl (fun l g =>
      if l.contains (g.fid, g.fid) && g.enters then
        l.filter (·.1 != g.fid) ++ (k.frags.filter fun f => f.fid != g.fid && ({ s := s, x := x, fl := fl, k := k, g := g } : Iss).mayGo f).map fun f => (g.fid, f.fid)
      else l) k.behind }

/-- A fragment of the flock has yielded and not yet come to its line boundary. -/
def Flock.yielding (k : Flock) : Bool := k.behind.any fun p => p.1 == p.2

/-- Before each turn: the fragments that have come to a line boundary after a `YIELD` take their places (R193). -/
def State.seatYielders (s : State) : State :=
  if s.folds.any fun x => x.flocks.any Flock.yielding then
    { s with folds := s.folds.map fun x => { x with flocks := x.flocks.zipIdx.map fun p => s.seat x p.2 p.1 } }
  else s

/-- The pending half of a serial split holds fragment `g`. -/
def Split.holds (sp : Split) (g : Frag) : Bool := sp.serial.isSome && sp.held &&& g.members != 0

/-- The serial splits in whose pending halves a fragment is, innermost first. -/
def Flock.heldIn (k : Flock) (g : Frag) : List Split := (g.path.filterMap k.split?).filter (·.holds g)

/-- The pending halves with fragment `g` may run: no fragment of the running halves is ready, or, where the fold stops, goes on
in its line (R25, R29, R373). -/
def Flock.mayYield (k : Flock) (stops : Bool) (g : Frag) : Bool :=
  (k.heldIn g).all fun sp => (k.under sp.sid).all fun f => sp.holds f || f.pending || !f.park.isReady || (stops && f.enters)

/-- A serial split of which the other half runs now. -/
def Flock.flip (k : Flock) (sp : Split) : Split :=
  { sp with held := ((k.under sp.sid).filter fun f => !sp.holds f).foldl (fun m f => m ||| f.members) 0, unrun := false }

/-- The pending halves with fragment `g` run whole, and the halves beside them are pending (R25). -/
def Flock.swap (k : Flock) (g : Frag) : Flock :=
  let k1 : Flock := { k with splits := k.splits.map fun sp => if (k.heldIn g).any (·.sid == sp.sid) then k.flip sp else sp }
  { k1 with frags := k1.frags.map fun f => { f with pending := !(k1.heldIn f).isEmpty } }

/-! ### The divergence stack (Table 11.2, R305) -/

/-- The 16 bytes of a record; offsets are from the flock entry pc `entry`. -/
def stackRec (entry : Int) (pend : Mask) (resume join : Int) : List Byte :=
  leBytes 8 pend.toNat ++ leBytes 4 (wrap 32 (resume - entry)) ++ leBytes 4 (wrap 32 (join - entry))

/-- The flock entry pc, from which the records count. -/
def Iss.entryPc (i : Iss) : Int := (i.s.grid? i.x.gid).elim 0 fun g => (g.lrec.fentry.toNat : Int)

/-- Writes a record of depth `d` in the private memory of the flock's first thread. -/
def Iss.putRecord (i : Iss) (s : State) (d : Nat) (words : List Byte) : Except FInfo State :=
  let r := i.privSites s .write 0 (16 * d) 16
  match r.2 with
  | .error f => .error f
  | .ok sites =>
    .ok ((sites.zipIdx).foldl (fun t p => t.writeSite i.owner i.x.core false p.1 ((words.drop (4 * p.2)).take 4)) r.1)

/-- The resume pc that the record of depth `d` holds; none where it cannot be read. -/
def Iss.recordResume (i : Iss) (s : State) (d : Nat) : State × Option Pc :=
  let r := i.privSites s .read 0 (16 * d) 16
  match r.2 with
  | .error _ => (r.1, none)
  | .ok sites =>
    let q := r.1.readSites i.owner i.x.core false false .deflt sites
    match q.2 with
    | .error _ => (q.1, none)
    | .ok bs => (q.1, some (BitVec.ofInt 55 (i.entryPc + sval 32 (ofLe ((bs.drop 8).take 4)))))

/-- The record of a serial split as its pending half comes to run (R25, R305): a half that has not run, and has not split again, goes on
at the record's `RESUME`; then the record is written for the half that is pending now, unless all its lanes have exited. -/
def Iss.swapRecord (i : Iss) (s : State) (sp : Split) : State :=
  let d := sp.serial.getD 0
  let half := (i.k.under sp.sid).filter sp.holds
  let other := (i.k.under sp.sid).filter fun f => !sp.holds f
  let s1 := match sp.unrun, half with
    | true, [g] =>
      let r := i.recordResume s d
      match r.2 with
      | some pc => r.1.modFrag i.x.uid i.fl g.fid fun f => { f with pc := pc }
      | none => r.1
    | _, _ => s
  match other with
  | [] => s1
  | f :: _ =>
    match i.putRecord s1 d (stackRec i.entryPc (i.k.flip sp).held (f.pc.toNat : Nat) sp.join.toNat) with
    | .ok t => t
    | .error _ => s1

/-- The pending half with fragment `g` comes to run (R25): what runs, what is pending, and the records of the serial splits that
swap. That a swap rewrites the record, that it names the pc of the first fragment of a half that has split again, and that a
half which has run keeps its fragments outside the record are the model's (log 95, DESIGN CHOICE). -/
def Iss.swapIn (i : Iss) : State := (i.k.heldIn i.g).foldl i.swapRecord (i.s.modFlock i.x.uid i.fl (·.swap i.g))

/-- The next slot of the line that the flock issued from last, by the same fragment (R148). -/
def Flock.follows (k : Flock) (g : Frag) : Bool :=
  !g.arriving && k.last == some { fid := g.fid, num := g.pc.toNat / 5, slot := g.pc.toNat % 5 - 1 } && g.pc.toNat % 5 != 0

/-- A register of a thread of the flock is pending (R238). -/
def Fold.pendingReg (x : Fold) (lo hi : Nat) (regs : List Nat) : Bool :=
  x.loads.any fun q => q.words.any fun p => regs.contains (p.1 / x.size) && decide (lo ≤ p.1 % x.size) && decide (p.1 % x.size < hi)

/-- The outstanding loads of a flock, and the lane-loads of a core (R45). -/
def Fold.loadsOf (x : Fold) (lo hi : Nat) : Nat := (x.loads.filter fun q => q.counts && decide (q.lo < hi) && decide (lo < q.hi)).length
def Fold.laneLoads (x : Fold) : Nat := sumNat ((x.loads.filter (·.counts)).map fun q => (nubNat (q.words.map fun p => p.1 % x.size)).length)
def State.laneLoads (s : State) (core : Nat) : Nat := sumNat ((s.foldsOnCore core).map Fold.laneLoads)

/-- The fragment re-executes over `SR.REPLAY`. -/
def Iss.replaying (i : Iss) : Bool := i.k.replayFid == some i.g.fid

/-- The lanes that a memory instruction acts on. -/
def Iss.memLanes (i : Iss) (h : Hdr) : Mask := if i.replaying then i.k.replay else i.active h

/-- The instructions that access memory for their flock. -/
def accesses : Instr → Bool
  | .vld _ _ | .vst _ _ | .sld _ _ | .sst _ _ | .vldw _ _ | .vstw _ _ | .pref _ _ | .atom _ _ | .red _ _ | .waita _ _
  | .cpy _ _ | .cpym _ _ | .gath _ _ | .coll _ _ | .tidw _ _ | .tidr _ _ | .launch _ _ => true
  | _ => false

/-- A fragment waits in a `FENCE.SC`. -/
def Park.fencing : Park → Bool
  | .fenceSc _ | .domDelay _ => true
  | _ => false

def Park.isFence (dom : Bool) : Park → Bool
  | .fenceSc d => d == dom
  | _ => false

/-- An instruction that is about to make a release (Table 12.2). -/
def Iss.releases (i : Iss) : Instr → Bool
  | .vst h o | .vstw h o => o.ord == .rel && i.memLanes h != 0
  | .sst h o => o.ord == .rel && i.executes h
  | .atom h o | .red h o => (o.ord == .rel || o.ord == .acqrel) && i.memLanes h != 0
  | .fence h o => decide (2 ≤ o.fk.toNat) && i.executes h
  | .fenceSc h _ | .bara h _ | .barw h _ | .fsync h _ | .tagrel h _ | .dcall h _ | .launch h _ | .ckpt h _ | .tidw h _ => i.executes h
  | .cpy h _ | .cpym h _ | .gath h _ | .coll h _ => i.active h != 0
  | _ => false

/-- Another fragment of the flock waits on an access that has issued and is not performed: in a commit to a replicated page, on a
bank or a fold, or in a `WAITA`. A fold that stops has the last two issue again when it resumes (R373). -/
def Iss.outstanding (i : Iss) : Bool :=
  i.k.frags.any fun f => f.fid != i.g.fid &&
    match f.park with
    | .commit _ => true
    | .busy _ | .waita _ _ => !i.x.run.stops
    | _ => false

/-- What the order of the flock's accesses holds back at issue (R316, R319). While a fragment of it waits in a `FENCE.SC`, no later access
of the flock is made, by any of its fragments (R253, R329, R330), and no second fence for the same kind of tick; and no release is
made while an access that issued before it is not performed. That the release itself waits, and not only the writes behind it, is the
model's (log 127, DESIGN CHOICE). -/
def Iss.fenced (i : Iss) (ins : Instr) : Bool :=
  accesses ins && i.k.frags.any (·.park.fencing)
    || (match ins with | .fenceSc h o => i.executes h && i.k.frags.any (·.park.isFence (o.scope == .domain)) | _ => false)
    || i.releases ins && i.outstanding

/-- A load whose lanes would pass the limit, or a count at its limit, waits at issue (R45, R88). -/
def Iss.mustHold (i : Iss) (u : Uses) : Bool :=
  let lo := i.thread 0
  let hi := lo + i.w
  i.x.pendingReg lo hi u.v
    || (u.load.any fun l =>
      decide (32 ≤ i.x.loadsOf lo hi) || decide (2048 < i.s.laneLoads i.x.core + (if l.2 then popc 64 (i.memLanes l.1).toNat else 1)))
    || u.tok.any fun t => decide (64 ≤ i.tokCount t.toNat)

/-- A decoded instruction comes up for issue: registers beyond the fold's (R64), an instruction after a `CURVE`, stale
latches (R149), the token wait (R42), the waits at issue and those for the order of accesses; then it issues. -/
def Iss.issue (i : Iss) (b : LineBuf) (ins : Instr) : Prep :=
  let u := usesFlock ins
  let slot := i.g.pc.toNat % 5
  let party : Party := .frag i.x.uid i.fl i.g.fid
  if u.v.any (i.x.regs ≤ ·) || (ins != .nop && afterCurve b.data slot) then .stay (i.fault .decodeField i.g.exec 0 0)
  else if !i.g.park.issues && i.g.park != .token then
    if i.g.park.unmade && i.releases ins && i.outstanding then .stay i.s else .run ins { i.s with cur := some party }
  else
    let k := if i.k.follows i.g then i.k else { i.k with latOk := 0 }
    if u.lat.any (fun n => !k.latOk.getLsbD n.toNat) then .stay (i.fault .staleLatch i.g.exec 0 0)
    else if (List.range 8).any (fun t => u.wait.getLsbD t && i.tokCount t != 0) then .stay (i.park i.s .token)
    else if i.mustHold u || i.fenced ins then .stay i.s
    else
      let s1 := i.modFlock i.s fun _ =>
        { k with armed := if i.keepsArm ins then k.armed else none, last := some { fid := i.g.fid, num := b.num, slot := slot }, behind := k.issued i.g.fid }
      .run ins { (i.park s1 (match i.g.park with | .rebar key ph => .rebar key ph | _ => .ready)) with cur := some party }

/-- The fragment enters a line: the fetch and the checks of R134; what the flock issues next is in no line in progress (R148). -/
def Iss.enter (i : Iss) : State × Option LineBuf :=
  let num := i.g.pc.toNat / 5
  let r := i.s.fetchLine i.x.core i.x.ctx num
  let j := { i with s := r.1 }
  match r.2 with
  | .error f => (j.take j.s [(f, i.g.exec)] .again, none)
  | .ok d =>
    match entryFault .code d (if i.g.arriving then some (i.g.pc.toNat % 5) else none) with
    | some c => (j.fault c i.g.exec 0 0, none)
    | none =>
      let b : LineBuf := { num := num, data := d }
      (j.modFrag (j.modFlock j.s fun k => { k with last := none, latOk := 0 }) fun g => { g with buf := some b, arriving := false }, some b)

/-- The slot at the pc is decoded in the line that the fragment holds. -/
def Iss.decodeSlot (i : Iss) (b : LineBuf) : Prep :=
  match decode .code (slotWord b.data (i.g.pc.toNat % 5)) with
  | .error e => .stay (i.fault (DecErr.cause e) i.g.exec 0 0)
  | .ok ins => i.issue b ins

/-- A fragment is selected for issue. A selection of one that may not issue changes nothing: so while its cluster settles
after a change of point (R49, R55). A flock of a kill scope ends at its next line boundary, or at once if it is parked or
stopped (R34). -/
def State.prepFrag (s : State) (u l r : Nat) : Prep :=
  match s.iss? u l r with
  | none => .stay s
  | some i0 =>
    if !i0.x.run.issues || (i0.k.heldBy r && !i0.g.park.inAccess) || (!i0.k.dying && i0.isBehind) then .stay s
    else if i0.k.dying && (i0.g.enters || !i0.g.park.isReady || i0.k.stop.isSome) then .stay ((s.breakBars u l).endFlock u l)
    else if i0.k.stop.isSome || i0.x.argFault.isSome || !i0.g.park.retries || i0.k.replayFid.any (· != r)
        || (i0.g.pending && !i0.g.park.inAccess && !i0.k.mayYield i0.x.run.stops i0.g) then .stay s
    else if i0.x.run.stops && !i0.g.park.commits && (i0.g.enters || !i0.g.park.isReady) then .stay s
    else if (s.cluster (clusterOf i0.x.core)).settling then .stay s
    else
      let s0 := if i0.g.pending && !i0.g.park.inAccess then i0.swapIn else s
      match s0.iss? u l r with
      | none => .stay s0
      | some i =>
        if i.g.enters then
          let p := i.enter
          match p.2, p.1.iss? u l r with
          | some b, some j => ({ j with g := { j.g with arriving := i.g.arriving } } : Iss).decodeSlot b
          | _, _ => .stay p.1
        else
          match i.g.buf with
          | some b => i.decodeSlot b
          | none => .stay s0

/-! ### Issue of a matrix stream (R274) -/

def State.modStream (s : State) (u : Nat) (f : Stream → Stream) : State :=
  s.modFold u fun x => { x with stream := x.stream.map f }

/-- The stream goes on at its next slot. -/
def State.streamNext (s : State) (u : Nat) : State := s.modStream u fun m => { m with pc := m.pc + 1 }

/-- The stream of a fold is selected: it fetches, enters lines and decodes as a fragment does, from kind-01 lines. -/
def State.prepStream (s : State) (u : Nat) : Prep :=
  match s.fold? u with
  | none => .stay s
  | some x =>
    match x.stream with
    | none => .stay s
    | some m =>
      if x.run ≠ .running || m.ended || m.stop.isSome || x.argFault.isSome then .stay s
      else
        let num := m.pc.toNat / 5
        let slot := m.pc.toNat % 5
        let decodeIn (t : State) (d : Line) : Prep :=
          match decode .matrix (slotWord d slot) with
          | .error e => .stay (t.faultStream u { cause := DecErr.cause e, addr := 0, aux := 0, page := none })
          | .ok ins => .run ins { t with cur := some (.stream u) }
        if m.arriving || m.buf.all (fun b => b.num != num) then
          let r := s.fetchLine x.core x.ctx num
          match r.2 with
          | .error f => .stay (r.1.faultStream u f)
          | .ok d =>
            match entryFault .matrix d (if m.arriving then some slot else none) with
            | some c => .stay (r.1.faultStream u { cause := c, addr := 0, aux := 0, page := none })
            | none => decodeIn (r.1.modStream u fun m => { m with buf := some { num := num, data := d }, arriving := false }) d
        else
          match m.buf with
          | some b => decodeIn s b.data
          | none => .stay s

end Sys2Proof.Machine
end

