-- ==== Sys2Proof/Machine/Room.lean ====
section
/-! DEFINITION. Rails and points (R43, R47, R419), sensors as firmware uses them (R422), the resources of a core (R19), the
test of R355, and the honouring of a migration (R383). -/

namespace Sys2Proof.Machine

/-! ### Rails and points -/

/-- P-states 3 to 5 are on rail L (Table 21.2); a parked die has no rail. -/
def railL (ps : Nat) : Bool := decide (3 ≤ ps)

/-- The P-state that a die is to be at: PS5 in the fail-safe state or when a vault is hot, the lowest of its rail under the
sensor hold, else its target, and so for a die that leaves PS6 (R418, R421, R423). -/
def Die.goal (d : Die) : Nat :=
  if 6 ≤ d.cur ∧ 6 ≤ d.target then d.target
  else if d.fsafe || d.hot then 5
  else if d.shold then (if railL (if 6 ≤ d.cur then d.target else d.cur) then 5 else 2)
  else d.target

/-- A running die is on its way to the other rail (R54, R355). -/
def Die.railChanging (d : Die) : Bool := decide (d.cur < 6) && decide (d.goal < 6) && railL d.cur != railL d.goal

/-- A die that takes no fold: parked, off, asked to park, or with its rail changing (R355, R420). -/
def Die.closed (d : Die) : Bool := decide (6 ≤ d.cur) || decide (6 ≤ d.target) || d.railChanging

/-- The lowest point of a range on a rail (R355). -/
def lowestPoint (l : Bool) (clo chi : Nat) : Option Nat :=
  (List.range 8).find? fun p => decide (clo ≤ p) && decide (p ≤ chi) && (decide (4 ≤ p) == l)

/-- The point at which a fold of the range `clo` to `chi` would run on physical cluster `c`; none where it cannot (R47). -/
def State.pointFor (s : State) (c clo chi : Nat) : Option Nat :=
  let cl := s.cluster c
  if !(s.foldsOnCluster c).isEmpty || cl.held then
    (if clo ≤ cl.point.toNat ∧ cl.point.toNat ≤ chi then some cl.point.toNat else none)
  else lowestPoint (railL (s.die (c / 18)).cur) clo chi

/-! ### Sensors as firmware uses them (R422): readings in m°C -/

/-- A reading with a suspect sensor replaced by the largest of its neighbours that are not, plus 5 °C. -/
def usedReading (num : Nat) (x : Sensor) (others : List Sensor) : Int :=
  if x.suspect then
    match (others.filter (!·.suspect)).map (·.now) with
    | [] => Config.lostSensor num
    | a :: r => r.foldl max a + 5000
  else x.now

/-- What a list of readings gives for a number. -/
def lookup (l : List (Nat × Int)) (k : Nat) : Option Int := (l.find? (·.1 == k)).map (·.2)

/-- A sensor takes a new reading, where there is one. -/
def Sensor.read (x : Sensor) (v : Option Int) : Sensor := { x with now := v.getD x.now }

/-- Those of cores `cs` of which there is a reading take it. -/
def State.readCores (s : State) (cs : List Nat) (l : List (Nat × Int)) : State :=
  cs.foldl (fun t k =>
    match lookup l k with
    | none => t
    | some v => t.modCore k fun c => { c with temp := c.temp.read (some v) }) s

/-- The temperature of a physical core. -/
def State.coreTemp (s : State) (c : Nat) : Int :=
  usedReading c (s.core c).temp (((List.range 8).filter (· ≠ c % 8)).map fun j => (s.core (c / 8 * 8 + j)).temp)

/-- Sensor `j` of the vault of a physical cluster. -/
def State.vaultTemp (s : State) (c j : Nat) : Int :=
  let v := (s.cluster c).vault
  usedReading (432 + 4 * c + j) ((v[j]?).getD (Sensor.init 0)) (((List.range 4).filter (· ≠ j)).filterMap (v[·]?))

/-- `T_now` of a vault (R355). -/
def State.tNow (s : State) (c : Nat) : Int := ([1, 2, 3].map (s.vaultTemp c)).foldl max (s.vaultTemp c 0)

/-! ### Resources (Table 1.3) -/

/-- Split-table entries that a fold holds (R24). -/
def Fold.splitEntries (x : Fold) : Nat := sumNat (x.flocks.flatMap fun k => k.splits.map (·.entries))

/-- What one fold holds on its core, and the logical core and the fold slot of a fold that has them. -/
structure Need where
  flocks : Nat
  regs : Nat
  scr : Nat
  acc : Nat
  tags : Nat
  splits : Nat := 0
  lcore : Option Nat := none
  slot : Nat := 0
  deriving DecidableEq, Repr

def Fold.need (x : Fold) : Need :=
  { flocks := x.size / x.width, regs := x.size * x.regs, scr := x.scrBytes, acc := x.accRows, tags := x.tags,
    splits := x.splitEntries, lcore := some x.lcore, slot := x.slot }

def LaunchRec.need (l : LaunchRec) : Need :=
  { flocks := l.fold / l.width, regs := l.fold * l.regs, scr := l.scr, acc := l.acc, tags := l.tags }

/-- A core holds the resources for one fold more, beside `xs` (Tables 0.2, 1.3). -/
def roomBeside (xs : List Fold) (n : Need) : Bool :=
  let used (f : Need → Nat) : Nat := sumNat (xs.map fun x => f x.need)
  decide (xs.length < 16) && decide (used (·.flocks) + n.flocks ≤ 64) && decide (used (·.regs) + n.regs ≤ 131072)
    && decide (used (·.scr) + n.scr ≤ 2 ^ 20) && decide (used (·.acc) + n.acc ≤ 512) && decide (used (·.tags) + n.tags ≤ 64)
    && decide (used (·.splits) + n.splits ≤ 256)

/-- The physical core to which a fold is on its way (R383, R384). -/
def Fold.bound (x : Fold) : Option Nat :=
  match x.run with
  | .stopping t => t
  | .moving t => some t
  | _ => none

/-- Room on a core beside its folds and those that are moving to it. -/
def State.roomOn (s : State) (core : Nat) (n : Need) : Bool :=
  roomBeside (s.foldsOnCore core ++ s.folds.filter fun x => x.bound == some core && x.core != core) n

/-! ### Logical and physical clusters (R5) -/

/-- The physical package cluster of logical package cluster `i`, and the other way round. -/
def State.physical (s : State) (i : Nat) : Nat := i / 18 * 18 + ((s.die (i / 18)).map[i % 18]?).getD 0
def State.logical (s : State) (c : Nat) : Nat := c / 18 * 18 + (s.die (c / 18)).map.idxOf (c % 18)

/-- The logical package core that a physical one stands for in a placement. -/
def State.logCore (s : State) (core : Nat) : Nat := s.logical (clusterOf core) * 8 + core % 8

/-- The fold slots of a logical core that resident folds hold, wherever a migration has taken them. -/
def State.slotsOf (s : State) (lcore : Nat) : List Nat := (s.folds.filter fun y => y.lcore == lcore && y.resident).map (·.slot)

/-- A logical core has a fold slot for a fold: a saved fold the one it had, so that its window addresses stay (R49, R61; log 45), and any
other one of the core `k` at which it is placed. -/
def State.slotFree (s : State) (k : Nat) (n : Need) : Bool :=
  match n.lcore with
  | some l => !(s.slotsOf l).contains n.slot
  | none => decide ((s.slotsOf (s.logCore k)).length < 16)

/-- The first core of a physical cluster that has room, where the fold has a slot on its logical core: that for which the core stands,
or the one that a saved fold keeps (R49, R61; log 105). -/
def State.coreFor (s : State) (c : Nat) (n : Need) : Option Nat :=
  ((List.range 8).map (8 * c + ·)).find? fun k => s.roomOn k n && s.slotFree k n

/-! ### The test of R355 -/

/-- The heat weight of a fold at a point, in mW. -/
def State.heat (s : State) (x : Fold) (pt : Nat) : Nat :=
  (s.grid? x.gid).elim 0 fun g => (g.lrec.hw[pt]?).getD 0

/-- The predicted temperature in µ°C with `w` mW on the cluster, and the bound at which the share of R355 meets `RFLIM`. -/
def State.predicted (s : State) (c w : Nat) : Int := s.tNow c * 1000 + (Config.theta c * w : Nat)

/-- 85 °C + 10 log2(`RFLIM` / 2) in µ°C, rounded down. -/
def shareBound (rflim : Nat) : Int :=
  match rflim with
  | 4 => 95000000 | 5 => 98219280 | 6 => 100849625 | 7 => 103073549 | 8 => 105000000 | 9 => 106699250
  | 10 => 108219280 | 11 => 109594316 | _ => 110849625

/-- The tests of R355 on physical cluster `c`, but for the resources, of a fold with launch record `l` at point `pt` beside the
folds of `s`. -/
def State.fitsAt (s : State) (l : LaunchRec) (c pt : Nat) : Bool :=
  let d := s.die (c / 18)
  let w := (l.hw[pt]?).getD 0 + sumNat ((s.foldsOnCluster c).map fun x => s.heat x pt)
  !d.closed && decide (s.tNow c < 105000) && decide (s.predicted c w ≤ shareBound d.rflim)

/-- `fits` of R355 for a fold with launch record `l` and resources `n` on physical cluster `c`: the point it would run at. -/
def State.fits (s : State) (l : LaunchRec) (n : Need) (c : Nat) : Option Nat :=
  match s.pointFor c l.clo l.chi with
  | none => none
  | some pt => if s.fitsAt l c pt && (s.coreFor c n).isSome then some pt else none

/-- The predicted share, as a key that orders clusters (R356): below 85 °C all are equal. -/
def State.shareKey (s : State) (l : LaunchRec) (c pt : Nat) : Nat :=
  (max 85000000 (s.predicted c ((l.hw[pt]?).getD 0 + sumNat ((s.foldsOnCluster c).map fun x => s.heat x pt)))).toNat

/-! ### Migration -/

/-- The fold is moved to, or refused by, physical core `t` (R383): free resources, the same cluster for a paddock of
several folds, a running die, and a point of the launch range. An open rendezvous of the target's cluster bars the dispatcher's
placements (R53) and no migration (log 110, DESIGN CHOICE). -/
def State.canMove (s : State) (x : Fold) (t : Nat) : Bool :=
  let rest : State := { s with folds := s.folds.filter (·.uid ≠ x.uid) }
  let same := clusterOf t == clusterOf x.core
  let single := decide ((s.folds.filter fun y => y.pad == x.pad && y.gid == x.gid).length ≤ 1)
  let lim := (s.grid? x.gid).elim (0, 7) fun g => (g.lrec.clo, g.lrec.chi)
  rest.roomOn t x.need && decide (t < 432) && (same || (single && !(s.die (dieOf t)).closed && (rest.pointFor (clusterOf t) lim.1 lim.2).isSome))

/-- An honour point of a fold (R383): a pending migration or rotation begins, and the fold stops; a target that cannot
take it is refused, and the fold runs on. -/
def State.honour (s : State) (u : Nat) : State :=
  match s.fold? u with
  | none => s
  | some x =>
    match (if x.run = .running then x.wants else none) with
    | none => s
    | some t =>
      let s1 := s.modFold u fun y => { y with wants := none }
      let asked := (s.core x.core).mig == 1 && (s.core x.core).migFold == u
      if s.canMove x t then
        let s2 := s1.modFold u fun y => { y with run := .stopping (some t) }
        if asked then s2.modCore x.core fun c => { c with mig := 2 } else s2
      else if asked then s1.modCore x.core fun c => { c with mig := 3, migDropped := true, migRefused := true }
      else s1

end Sys2Proof.Machine
end

