-- ==== Sys2Proof/Machine/Barrier.lean ====
section
/-! DEFINITION. Barriers and issue (R185 to R193): arrivals, waits, their timeouts, and `YIELD`. -/

namespace Sys2Proof.Machine

/-- The key of the barrier that a `SYN` word names (R185). -/
def barKey (o : SynOp) : Nat := if o.lvl = 0 then o.bar.toNat else 17 + o.bar.toNat

/-- The heartbeat count at which a wait times out; none for `TMO` 0 (R185). -/
def State.deadline (s : State) (tmo : W32) : Option Nat := if tmo = 0 then none else some (s.heart + tmo.toNat)

/-- Runs `f` where the issuing flock is a member of a declared barrier; else it faults whatever the guard (R186). -/
def Iss.asMember (i : Iss) (h : Hdr) (key : Nat) (f : State) : State :=
  if (i.s.bar i.x key).has (memberBit i.x i.fl key) then i.uniform h f
  else i.fault .barMember i.g.exec 0 (if key ≤ 16 then key else key - 17 + 16)

/-- A wait ends with a status; status 0 is an acquire (R187, R191). -/
def Iss.barStatus (i : Iss) (s : State) (o : SynOp) (scope : Scope) (st : Nat) : State :=
  let s1 := if st = 0 then s.acquire i.x.core scope else s
  i.next (i.setS s1 o.sd (BitVec.ofNat 64 st))

/-- The arrival of the issuing fragment at a barrier none of whose passed lanes it holds (R32, R191): its lanes pass, and
the first fragment of the flock in the phase records the flock's arrival, which is a release. -/
def Iss.arrive (i : Iss) (key : Nat) (scope : Scope) : State :=
  let passed := Map.get 0 i.k.passed key
  let mark (s : State) : State := i.modFlock s fun k => { k with passed := Map.set 0 k.passed key (passed ||| i.g.members) }
  if passed = 0 then (mark (i.s.release i.owner scope)).arriveBar i.x.uid i.fl key else mark i.s

/-- The fragment shares a lane with those that have passed in the current phase: it is arriving again (R32). -/
def Iss.again (i : Iss) (key : Nat) : Bool := Map.get 0 i.k.passed key &&& i.g.members != 0

/-- `BARA` (R188). On a broken barrier, where no arrival counts, bits [15:0] hold the barrier's present phase (log 97, DESIGN
CHOICE). -/
def execBara (h : Hdr) (o : SynOp) (s : State) : Host.Outcome State Fault Refusal :=
  onFrag s fun i =>
    let key := barKey o
    i.asMember h key <|
      let b := i.s.bar i.x key
      if b.broken then i.next (i.setS i.s o.sd (BitVec.ofNat 64 (2 ^ 63 + b.phase.toNat)))
      else if i.again key then i.park i.s (.rearrive key b.phase)
      else (i.next (i.setS (i.arrive key o.scope) o.sd (BitVec.ofNat 64 b.phase.toNat))).honour i.x.uid

/-- The wait of a fragment for phase `ph` of a barrier, looked at again (R187, R189, R190): a phase that completed keeps
its normal completion even if the barrier has broken since (R35). -/
def Iss.waitBar (i : Iss) (s : State) (o : SynOp) (key : Nat) (scope : Scope) (ph : BitVec 16) (dl : Option Nat) : State :=
  let b := s.bar ((s.fold? i.x.uid).getD i.x) key
  if b.phase ≠ ph then i.barStatus s o scope 0
  else if b.broken then i.barStatus s o scope 1
  else i.park s (.barrier key ph dl)

/-- `BARW` and `FSYNC`: arrive, then wait (R189, R192). One that issues anew after a stop of its fold has arrived, and waits on, with its
timeout from then (R32, R373; log 130, DEDUCED). -/
def Iss.barw (i : Iss) (o : SynOp) (key : Nat) (scope : Scope) : State :=
  match i.g.park with
  | .barrier _ ph dl => i.waitBar i.s o key scope ph dl
  | .rebar _ ph => i.waitBar i.s o key scope ph (i.s.deadline o.tmo)
  | _ =>
    let b := i.s.bar i.x key
    if b.broken then i.barStatus i.s o scope 1
    else if i.again key then i.park i.s (.rearrive key b.phase)
    else (i.waitBar (i.arrive key scope) o key scope b.phase (i.s.deadline o.tmo)).honour i.x.uid

def execBarw (h : Hdr) (o : SynOp) (s : State) : Host.Outcome State Fault Refusal :=
  onFrag s fun i => i.asMember h (barKey o) (i.barw o (barKey o) o.scope)

def execFsync (h : Hdr) (o : SynOp) (s : State) : Host.Outcome State Fault Refusal :=
  onFrag s fun i => i.uniform h (i.barw o 16 o.scope)

/-- The phase operand of `BARS` and `BART`. -/
def Iss.phaseOp (i : Iss) (o : SynOp) : BitVec 16 := BitVec.ofNat 16 (i.sval64 o.sa).toNat

def execBars (h : Hdr) (o : SynOp) (s : State) : Host.Outcome State Fault Refusal :=
  onFrag s fun i =>
    let key := barKey o
    i.asMember h key <|
      match i.g.park with
      | .barrier _ ph dl => i.waitBar i.s o key o.scope ph dl
      | _ =>
        if (i.s.bar i.x key).broken then i.barStatus i.s o o.scope 1
        else i.waitBar i.s o key o.scope (i.phaseOp o) (i.s.deadline o.tmo)

def execBart (h : Hdr) (o : SynOp) (s : State) : Host.Outcome State Fault Refusal :=
  onFrag s fun i =>
    let b := i.s.bar i.x (barKey o)
    i.asMember h (barKey o) <|
      i.barStatus i.s o o.scope (if b.broken then 1 else if i.phaseOp o ≠ b.phase then 0 else 3)

/-- A fragment yields: it is to take its place anew in the order of issue at its next line boundary (`State.seatYielders`, R193). -/
def Flock.yields (k : Flock) (g : Frag) : Flock := { k with behind := k.behind.filter (·.1 != g.fid) ++ [(g.fid, g.fid)] }

/-- `YIELD` changes only the order of issue: the rest of the line comes first, then the fragments of the flock that are ready at the
line boundary, and then the yielder (R29, R193). How flocks take turns goes by the cycles in which their fragments became ready, which are no
part of the model (log 1). -/
def execYield (h : Hdr) (_o : SynOp) (s : State) : Host.Outcome State Fault Refusal :=
  onFrag s fun i => i.uniform h (i.next (i.modFlock i.s (·.yields i.g)))

/-! ### The timeout of a barrier wait -/

/-- The `SYN` word on which a fragment stands. -/
def Frag.synOp (g : Frag) : Option SynOp :=
  match g.current with
  | some (.barw _ o) | some (.bars _ o) | some (.fsync _ o) | some (.tagw _ o) => some o
  | _ => none

/-- A fragment whose own event comes about: its fold runs or completes lines before a stop, and its flock is not stopped. -/
def State.eventFrag (s : State) (u l r : Nat) (f : Iss → State) : State :=
  match s.iss? u l r with
  | none => s
  | some i => if (i.x.run = .running || i.x.run.stops) && i.k.stop.isNone then f i else s

/-- `BARRIER_TIMEOUT`: the deadline of a parked wait passes before its phase completes or its barrier breaks (R189, R190). -/
def execBarrierTimeout (fold fl fr : Nat) (s : State) : Host.Outcome State Fault Refusal :=
  .next <| s.eventFrag fold fl fr fun i =>
    match i.g.park, i.g.synOp with
    | .barrier key ph (some d), some o =>
      let b := s.bar i.x key
      if d ≤ s.heart ∧ b.phase = ph ∧ !b.broken then i.barStatus s o o.scope 2 else s
    | _, _ => s

end Sys2Proof.Machine
end

