-- ==== Sys2Proof/Machine/Memory.lean ====
section
/-! DEFINITION. The `MEM` family (R231 to R242): loads and stores of lanes and of a flock, the on-chip window, prefetches, and
the events by which loads land and stores are performed. -/

namespace Sys2Proof.Machine

/-! ### Lanes that fault (R242) -/

/-- Runs `f` for each lane in rising order; a fault stops only its lane. -/
def overLanes {α : Type} (f : State → Nat → State × Except FInfo α) : List Nat → State → State × List (Nat × α) × List (Nat × FInfo)
  | [], s => (s, [], [])
  | l :: r, s =>
    let p := f s l
    let q := overLanes f r p.1
    match p.2 with
    | .ok a => (q.1, (l, a) :: q.2.1, q.2.2)
    | .error e => (q.1, q.2.1, (l, e) :: q.2.2)

/-- Joins a lane's fault to the record of its page, or opens one. -/
def addFault (acc : List (FInfo × Mask)) (p : Nat × FInfo) : List (FInfo × Mask) :=
  let same (g : FInfo × Mask) : Bool := p.2.page.isSome && g.1.page == p.2.page && g.1.cause == p.2.cause
  if acc.any same then acc.map fun g => if same g then (g.1, g.2 ||| bitMask p.1) else g
  else acc ++ [(p.2, bitMask p.1)]

/-- One record for each faulting page, and one for each lane whose cause concerns no page. -/
def groupFaults (l : List (Nat × FInfo)) : List (FInfo × Mask) := l.foldl addFault []

/-- The end of a memory instruction whose other lanes have completed: `SR.REPLAY` is cleared, or receives the lanes that
faulted and the flock stops. -/
def Iss.endMem (i : Iss) (s : State) (left : List (Nat × FInfo)) : State :=
  if left.isEmpty then
    i.next (if i.replaying then i.modFlock s fun k => { k with replay := 0, replayFid := none } else s)
  else
    let m := left.foldl (fun m p => m ||| bitMask p.1) (0 : Mask)
    i.take (i.modFlock s fun k => { k with replay := m, replayFid := none }) (groupFaults left) .replay

/-! ### Addresses and data -/

/-- The exact sum of the address operand and the displacement (R233). -/
def Iss.memAddr (i : Iss) (o : MemOp) (l : Nat) : Int :=
  ((if o.space = .global then i.raw64 o.addr l else i.raw32 o.addr l : Nat) : Int) + o.disp.toInt

/-- The address that a fault record names for a lane. -/
def Iss.recAddr (i : Iss) (sp : Space) (l : Nat) (a : Int) : Nat :=
  match sp with
  | .priv => privAddr ((i.s.ctx i.x.ctx).elim 0 (·.privBase)) i.x.pidx (i.thread l) a.toNat
  | .const => (i.s.grid? i.x.gid).elim 0 (·.lrec.cbase) + a.toNat
  | _ => wrap 64 a

/-- The register words of `n` loaded bytes (R232). -/
def loadWords (n : Nat) (sext : Bool) (bs : List Byte) : List W32 :=
  if n ≤ 4 then [BitVec.ofNat 32 (if sext then wrap 32 (sval (8 * n) (ofLe bs)) else ofLe bs)]
  else (List.range (n / 4)).map fun j => BitVec.ofNat 32 (ofLe ((bs.drop (4 * j)).take 4))

/-- The `n` bytes that lane `l` stores from register `d` on. -/
def Iss.dataBytes (i : Iss) (d n l : Nat) : List Byte :=
  if n ≤ 4 then leBytes n (i.vreg d l).toNat
  else (List.range (n / 4)).flatMap fun j => leBytes 4 (i.vreg (d + j) l).toNat

def memBytes (o : MemOp) : Nat := 2 ^ o.size.toNat

def memTok (o : MemOp) : Option Nat := if o.toke then some o.tokn.toNat else none

/-! ### Loads -/

/-- The virtual address of piece `j` of a lane's access at address `a`: a private one is cut into words (R71). -/
def Iss.pieceAddr (i : Iss) (sp : Space) (l : Nat) (a : Int) (j : Nat) : Nat :=
  match sp with
  | .priv => i.recAddr sp l (a + 4 * j)
  | _ => i.recAddr sp l a

/-- A fault of an access to the pieces `sites` as the record of a lane has it: its address, and the page of the first piece that cannot
be read (R392). -/
def Iss.named (i : Iss) (t : State) (sp : Space) (l : Nat) (a : Int) (sites : List Site) (f : FInfo) : FInfo :=
  let page := match f.page, sites.findIdx? t.siteBad with
    | some p, some j => some (((sites[j]?).bind (·.leaf)).elim p fun q => pageAt q.lg (i.pieceAddr sp l a j))
    | p, _ => p
  { f with addr := i.recAddr sp l a, page := page }

/-- A lane's load: its pieces and their bytes. -/
def Iss.loadLane (i : Iss) (sp : Space) (cpol : Cpol) (a : Nat → Int) (n : Nat) (s : State) (l : Nat) : State × Except FInfo (List Byte) :=
  let r := i.resolve s sp .read l (a l) n
  match r.2 with
  | .error f => (r.1, .error f)
  | .ok sites =>
    let q := r.1.readSites i.owner i.x.core true (i.checks sp) cpol sites
    match q.2 with
    | .error f => (q.1, .error (i.named q.1 sp l (a l) sites f))
    | .ok bs => (q.1, .ok bs)

/-- The values of an issued load are fixed; they land lane by lane, and the token counts until all have (R238). -/
def Iss.addLoad (i : Iss) (s : State) (words : List (Nat × W32)) (tok : Option Nat) : State :=
  if words.isEmpty then s
  else
    let p := s.newId
    let it : LoadItem := { id := p.1, lo := i.thread 0, hi := i.thread 0 + i.w, words := words, tok := tok, counts := true }
    let s1 := i.modFold p.2 fun x => { x with loads := x.loads ++ [it] }
    match tok with
    | some t => i.addTok s1 p.1 t
    | none => s1

/-- The register words that the lanes of a load are to receive. -/
def Iss.loadItemWords (i : Iss) (o : MemOp) (n : Nat) (got : List (Nat × List Byte)) : List (Nat × W32) :=
  got.flatMap fun p => (loadWords n o.sext p.2).zipIdx.map fun q => ((o.data.toNat + q.2) * i.x.size + i.thread p.1, q.1)

/-- The acquire of an ordered load, made before its lanes read (R237). -/
def Iss.acquireIf (i : Iss) (ord : Ord4) (scope : Scope) (m : Mask) : State :=
  if (ord = .acq || ord = .acqrel) && m != 0 then i.s.acquire i.x.core scope else i.s

/-- After the lanes of an acquiring access: the phases that an update has reached which they have read rise, before anything that
follows (R320, R323; log 118, DEDUCED). -/
def State.settleIf (s : State) (ord : Ord4) (m : Mask) : State := if (ord = .acq || ord = .acqrel) && m != 0 then s.settleRaises else s

/-- A load of lanes: `f` reads one lane. -/
def Iss.loads (i : Iss) (h : Hdr) (o : MemOp) (n : Nat) (f : State → Nat → State × Except FInfo (List Byte)) : State :=
  let m := i.memLanes h
  let q := overLanes f (lanes m) (i.acquireIf o.ord o.scope m)
  i.endMem (i.addLoad (q.1.settleIf o.ord m) (i.loadItemWords o n q.2.1) (memTok o)) q.2.2

def execVld (h : Hdr) (o : MemOp) (s : State) : Host.Outcome State Fault Refusal :=
  onFrag s fun i => i.loads h o (memBytes o) (i.loadLane o.space o.cpol (i.memAddr o) (memBytes o))

/-- `SLD` writes its scalar at issue (R239); a fault is one of the whole flock. -/
def execSld (h : Hdr) (o : MemOp) (s : State) : Host.Outcome State Fault Refusal :=
  onFrag s fun i => i.uniform h <|
    let r := i.loadLane o.space o.cpol (i.memAddr o) (memBytes o) (i.acquireIf o.ord o.scope 1) 0
    match r.2 with
    | .error f => i.take r.1 [(f, i.active h)] .again
    | .ok bs =>
      let v := if o.sext then wrap 64 (sval (8 * memBytes o) (ofLe bs)) else ofLe bs
      i.next (i.setS (r.1.settleIf o.ord 1) (BitVec.ofNat 7 o.data.toNat) (BitVec.ofNat 64 v))

/-! ### Stores -/

/-- The bytes of an access over its pieces, which are of equal size. -/
def spread (sites : List Site) (bs : List Byte) : List (Site × List Byte) :=
  sites.zipIdx.map fun p => (p.1, (bs.drop (p.1.n * p.2)).take p.1.n)

/-- Earlier entries that have to be performed before an access at these pieces that reaches its home at once: those of the flock
over the same bytes, the releases that hold it (R236, R237), and the writes that were checked in its lines before it (R325). -/
def Iss.clearWay (i : Iss) (s : State) (check : Bool) (sites : List Site) : State :=
  s.drain fun e => (e.owner.meets i.owner && e.holds)
    || (e.seenBy i.owner i.x.core && sites.any fun t => e.overlaps t.loc t.n)
    || (check && e.checked && !e.owner.meets i.owner && sites.any fun t => e.sameLine t.loc t.n)

/-- A store's pieces: checked, then buffered, or committed to all replicas (R107). The result says whether it commits;
`tmo` says that the replica lock of a line of the instruction is not obtained in time: each storing lane whose lock that is
faults, and which they are is free (log 2). -/
def Iss.storeSites (i : Iss) (s : State) (check tmo : Bool) (grp : Nat) (sites : List Site) (bs : List Byte) : State × Except FInfo Bool :=
  match sites.findSome? (s.checkWrite i.owner check) with
  | some f => (s, .error f)
  | none =>
    if sites.any (·.replicated) then
      let b := if tmo then s.flip else (false, s)
      if b.1 then (b.2, .error { cause := .replicaTimeout, addr := 0, aux := 0, page := none })
      else
        ((spread sites bs).foldl (fun t p => t.writeSite i.owner i.x.core check p.1 p.2) (i.clearWay b.2 check sites), .ok true)
    else ((spread sites bs).foldl (fun t p => t.bufferWrite i.owner i.x.core check grp p.1 p.2) s, .ok false)

/-- A lane's store of the bytes `bs` at address `a` of a space. -/
def Iss.storeLane (i : Iss) (sp : Space) (tmo : Bool) (grp : Nat) (a : Int) (bs : List Byte) (s : State) (l : Nat) : State × Except FInfo Bool :=
  let r := i.resolve s sp .write l a bs.length
  match r.2 with
  | .error f => (r.1, .error f)
  | .ok sites =>
    let q := i.storeSites r.1 (i.checks sp) tmo grp sites bs
    match q.2 with
    | .error f => (q.1, .error { f with addr := i.recAddr sp l a })
    | .ok b => (q.1, .ok b)

/-- A release that stands before or behind the effects of instruction `grp` among the buffered effects (R237, R319). -/
def Iss.pushRelease (i : Iss) (s : State) (grp : Nat) (scope : Scope) (holds raise : Bool) : State :=
  { s with pend := s.pend ++ [{ owner := i.owner, core := i.x.core, loc := .scr 0 0, kind := .release scope holds raise, grp := grp,
                                visible := false, checked := false, mark := none, managed := false, key := 0 }] }

/-- The release of an ordered store or atomic, before its first lane writes; a replay makes no second one (R242). -/
def Iss.releaseIf (i : Iss) (s : State) (grp : Nat) (ord : Ord4) (scope : Scope) : State :=
  if (ord = .rel || ord = .acqrel) && !i.replaying then i.pushRelease s grp scope true false else s

/-- The rise of the phase, which comes once every lane has written (R237, R249). -/
def Iss.raiseIf (i : Iss) (s : State) (grp : Nat) (ord : Ord4) (scope : Scope) (faulted : Bool) : State :=
  if (ord = .rel || ord = .acqrel) && !faulted then (i.pushRelease s grp scope false true).sweepGroups else s

/-- The token of a store counts until its entries are performed at device scope (R238); once for all attempts of a replayed store. -/
def Iss.storeTok (i : Iss) (s : State) (grp : Nat) (tok : Option Nat) : State :=
  match tok with
  | some t =>
    if s.unperformed grp && !(i.replaying && s.groups.any (·.grp == grp)) then i.addTok { s with groups := s.groups ++ [{ grp := grp, fold := i.x.uid, tok := t }] } grp t else s
  | none => s

/-- An attempt to commit to a replicated page that meets a held lock waits, with none of its effects (R107). -/
def Iss.lockWait (i : Iss) (t : State) (commits tmo : Bool) (f : State → State) : State :=
  let b := t.flip
  if commits && !tmo && b.1 then i.park { i.s with fresh := b.2.fresh } (.commit i.held) else f (if commits && !tmo then b.2 else t)

/-- The number of a store or atomic: a fresh one, but a replay has that of the attempt whose lanes faulted, so that its phase rises
once the lanes of every attempt have written (R242). -/
def Iss.group (i : Iss) (s : State) : Nat × State := if i.replaying && i.k.replayGrp != 0 then (i.k.replayGrp, s) else s.newId

/-- The lanes of instruction `grp` that have completed are performed, before the records of those that faulted are written (R242). -/
def Iss.performLanes (i : Iss) (s : State) (grp : Nat) : State := s.drain fun e => e.owner.meets i.owner && e.grp == grp && !e.isRelease

/-- The end of a store or atomic of number `grp`, which a replay keeps. -/
def Iss.endStore (i : Iss) (s : State) (grp : Nat) (left : List (Nat × FInfo)) : State :=
  if left.isEmpty then i.endMem (if i.replaying then i.modFlock s fun k => { k with replayGrp := 0 } else s) []
  else i.endMem (i.modFlock (i.performLanes s grp) fun k => { k with replayGrp := grp }) left

/-- A store of lanes: `f grp` stores one lane. -/
def Iss.stores (i : Iss) (h : Hdr) (o : MemOp) (tmo : Bool) (f : Nat → State → Nat → State × Except FInfo Bool) : State :=
  let ls := lanes (i.memLanes h)
  if ls.isEmpty then i.endMem i.s []
  else
    let p := i.group i.s
    let q := overLanes (f p.1) ls (i.releaseIf p.2 p.1 o.ord o.scope)
    i.lockWait q.1 (q.2.1.any (·.2)) tmo fun t =>
      i.endStore (i.storeTok (i.raiseIf t p.1 o.ord o.scope (!q.2.2.isEmpty)) p.1 (memTok o)) p.1 q.2.2

def Iss.vst (i : Iss) (h : Hdr) (o : MemOp) (tmo : Bool) : State :=
  i.stores h o tmo fun grp s l => i.storeLane o.space tmo grp (i.memAddr o l) (i.dataBytes o.data.toNat (memBytes o) l) s l

def execVst (h : Hdr) (o : MemOp) (s : State) : Host.Outcome State Fault Refusal :=
  onFrag s fun i => i.vst h o false

/-- `SST` (R239). -/
def Iss.sst (i : Iss) (h : Hdr) (o : MemOp) (tmo : Bool) : State :=
  let p := i.s.newId
  let r := i.storeLane o.space tmo p.1 (i.memAddr o 0) (leBytes (memBytes o) (i.k.sreg (o.data.toNat % 128)).toNat)
    (i.releaseIf p.2 p.1 o.ord o.scope) 0
  match r.2 with
  | .error f => i.take (i.s.undo r.1) [(f, i.active h)] .again
  | .ok commits =>
    i.lockWait r.1 commits tmo fun t => i.next (i.storeTok (i.raiseIf t p.1 o.ord o.scope false) p.1 (memTok o))

def execSst (h : Hdr) (o : MemOp) (s : State) : Host.Outcome State Fault Refusal :=
  onFrag s fun i => i.uniform h (i.sst h o false)

/-! ### The on-chip window (R74 to R76, R240) -/

def winOff (w : Nat) : Nat := bits w 17 0
def winSlot (w : Nat) : Nat := bits w 21 18
def winRegion (w : Nat) : Nat := bits w 23 22
def winCore (w : Nat) : Nat := bits w 31 24
def winDie (w : Nat) : Nat := bits w 33 32

/-- The fold whose slot a window address names (R5, R74). -/
def State.slotFold (s : State) (w : Nat) : Option Fold :=
  s.folds.find? fun y => y.lcore == 144 * winDie w + winCore w && y.slot == winSlot w && y.resident

/-- The fold that a window address reaches for a context, as it is checked at issue (R76). -/
def State.window (s : State) (ctx w : Nat) : Except Cause Fold :=
  if 2 ^ 34 ≤ w ∨ winDie w = 3 ∨ 144 ≤ winCore w then .error .windowRange
  else if winRegion w = 3 then .error .windowRights
  else
    match s.slotFold w with
    | none => .error .windowRange
    | some y => if y.ctx = ctx then .ok y else .error .windowRights

/-- Words `a` to `a` + `n` - 1 of a region of a fold lie in its allocation (R75). -/
def Fold.winHas (y : Fold) (region : Nat) (a : Int) (n : Nat) : Bool :=
  let e := a.toNat + n
  decide (0 ≤ a) && decide (e ≤ 2 ^ 18) &&
    match region with
    | 0 => decide ((e - 1) / y.size < y.regs)
    | 1 => decide (4 * e ≤ y.scrBytes)
    | _ => decide (e ≤ 256 * y.accRows)

/-- The pieces of `n` words of a region, each of 4 bytes (R236). -/
def winSites (u region a n : Nat) : List Site :=
  (List.range n).map fun j =>
    { loc := if region = 1 then .scr u (4 * (a + j)) else .win u region (4 * (a + j)), n := 4, leaf := none }

/-- An array operation of the fold owns bank `b` (R276). -/
def Fold.bankOwned (y : Fold) (b : Nat) : Bool := y.stream.any fun m => m.queue.any fun q => q.o.bank.toNat == b

/-- A window access has to wait: the fold is being moved (R385), or a row is in a bank that is owned (R240). -/
def Fold.winBusy (y : Fold) (region : Nat) (a : Int) (n : Nat) : Bool :=
  (match y.run with | .stopping (some _) | .moving _ => true | _ => false)
    || (region == 2 && (y.bankOwned (a.toNat / 32768) || y.bankOwned ((a.toNat + n - 1) / 32768)))

/-- The words per lane of a window access, and the first word of a lane. -/
def winWords (o : MemOp) : Nat := 2 ^ (o.size.toNat - 2)
def winLane (o : MemOp) (w l : Nat) : Int := (winOff w : Int) + o.disp.toInt + (l * (winWords o) : Nat)

/-- The window address of a lane, as a fault record names it. -/
def winAddr (o : MemOp) (w l : Nat) : Nat := wrap 64 ((w : Int) - winOff w + winLane o w l)

/-- The pieces of a lane's window access. A word offset that is no multiple of the access's words is not `MISALIGNED`: each word is one
access (R236; log 128, DEDUCED). -/
def winResolve (o : MemOp) (y : Fold) (w l : Nat) : Except FInfo (List Site) :=
  if y.winHas (winRegion w) (winLane o w l) (winWords o) then .ok (winSites y.uid (winRegion w) (winLane o w l).toNat (winWords o))
  else .error { cause := .windowRange, addr := winAddr o w l, aux := 0, page := none }

/-- A held access whose fold was killed on its way is answered with an error response, and is a violation (R390, R404). -/
def Iss.windowGone (i : Iss) (h : Hdr) (w : Nat) (load : Bool) : State :=
  let s1 := i.s.logViol (dieOf i.x.core) i.x.ctx 0 (i.x.core % 144) w
  let s2 := (s1.pushRec { s1.recOf i.x .windowViolation 0 with flock := i.fl, lanes := i.memLanes h, addr := w }).1
  if load then i.take s2 [({ cause := .memError, addr := w, aux := 0, page := none }, i.memLanes h)] .again else i.next s2

/-- The fold whose slot a held window access of context `ctx` names is gone, within a kill scope, or another context's: the
access meets an error response (R390, R404). -/
def State.slotGone (s : State) (ctx w : Nat) : Bool := (s.slotFold w).all fun y => y.run == .dying || y.ctx != ctx

/-- A window access: its window is checked at issue, for a window of another context whatever the guard and else where a lane is
active (R41), and it waits where the window is busy. -/
def Iss.windowed (i : Iss) (h : Hdr) (o : MemOp) (load : Bool) (f : Fold → Nat → State) : State :=
  let w := (i.sval64 o.addr).toNat
  if i.g.park.isBusy && i.s.slotGone i.x.ctx w then i.windowGone h w load else
  match i.s.window i.x.ctx w with
  | .error c => if c = .windowRange && i.memLanes h == 0 then i.endMem i.s [] else i.fault c i.g.exec w 0
  | .ok y =>
    if (lanes (i.memLanes h)).any fun l => y.winBusy (winRegion w) (winLane o w l) (winWords o) then i.park i.s (.busy i.held)
    else f y w

def execVldw (h : Hdr) (o : MemOp) (s : State) : Host.Outcome State Fault Refusal :=
  onFrag s fun i => i.windowed h o true fun y w => i.loads h o (4 * winWords o) fun s l =>
    match winResolve o y w l with
    | .error f => (s, .error f)
    | .ok sites =>
      let q := s.readSites i.owner i.x.core false (i.s.raceOn i.x.gid) o.cpol sites
      match q.2 with
      | .error f => (q.1, .error { f with addr := winAddr o w l })
      | .ok bs => (q.1, .ok bs)

def execVstw (h : Hdr) (o : MemOp) (s : State) : Host.Outcome State Fault Refusal :=
  onFrag s fun i => i.windowed h o false fun y w => i.stores h o false fun grp s l =>
    match winResolve o y w l with
    | .error f => (s, .error f)
    | .ok sites =>
      let q := i.storeSites s (i.s.raceOn i.x.gid) false grp sites (i.dataBytes o.data.toNat (4 * winWords o) l)
      match q.2 with
      | .error f => (q.1, .error { f with addr := winAddr o w l })
      | .ok b => (q.1, .ok b)

/-! ### Prefetch (R241) -/

/-- A lane's prefetch: a lane whose address fails is dropped; a managed tile is fetched, and the L1 takes the line. -/
def Iss.prefLane (i : Iss) (o : MemOp) (s : State) (l : Nat) : State :=
  let r := i.resolve s .global .read l (i.memAddr o l) 1
  match r.2 with
  | .error _ => r.1
  | .ok sites =>
    sites.foldl (fun t x =>
      match x.loc with
      | .mem k =>
        let u := if x.managed then t.applyTile (k / tileBytes) else t
        if o.cpol = .deflt && !u.siteBad x then (u.lineFor i.x.core true .deflt x.managed x.crypt (k / 64)).1 else u
      | _ => t) r.1

def execPref (h : Hdr) (o : MemOp) (s : State) : Host.Outcome State Fault Refusal :=
  onFrag s fun i => i.next ((lanes (i.active h)).foldl (i.prefLane o) i.s)

/-- A line of a fold's memory is read into the L1 of its core ahead of the load that asks for it: loads of different bytes
are not ordered (R236, R319). It goes through a translation that a TLB holds, since no walk is speculative (R83), and fetches
no managed tile, since a tile is fetched only on a read of it (R101). -/
def State.earlyRead (s : State) (u va : Nat) : State :=
  match s.fold? u with
  | none => s
  | some x =>
    match (tlbFind (s.core x.core).tlb x.ctx va).or (tlbFind (s.cluster (clusterOf x.core)).tlb x.ctx va) with
    | none => s
    | some l =>
      let k := l.keyOn x.core va
      if !l.allows .read || l.ml || (s.homeAnswers l k .read).isSome || s.rangeBad k 64 then s
      else (s.lineFor x.core true .deflt false l.crypt (k / 64)).1

/-! ### Events of loads and stores (R238) -/

/-- A thread's data of load `item` land: its registers are written and pending no more; the token counts down with the
last. -/
def Fold.land (x : Fold) (item thread : Nat) : Fold :=
  match x.loads.find? (·.id == item) with
  | none => x
  | some q =>
    let mine := q.words.filter fun p => p.1 % x.size == thread
    let rest := q.words.filter fun p => p.1 % x.size != thread
    let x1 : Fold := { x with v := mine.foldl (fun v p => Map.set 0 v p.1 p.2) x.v }
    if rest.isEmpty then ({ x1 with loads := x1.loads.filter (·.id != item) } : Fold).dropTok item
    else { x1 with loads := x1.loads.map fun y => if y.id = item then { y with words := rest } else y }

/-- `LOAD_LANDS`. -/
def execLoadLands (fold item thread : Nat) (s : State) : Host.Outcome State Fault Refusal :=
  .next (s.modFold fold fun x => if x.run = .saved then x else x.land item thread)

/-- `STORE_PERFORMED`: a buffered effect becomes visible on its core, or, visible already, is performed at its home, with
those that go before it; a release or a rise of a phase is made. -/
def execStorePerformed (i : Nat) (s : State) : Host.Outcome State Fault Refusal :=
  .next <|
    match s.pend[i]? with
    | none => s
    | some e => if e.visible || e.isRelease then s.drain (· == e) else s.expose (· == e)

/-- `REPLICA_LOCK_TIMEOUT`: a storing lane whose lock another commit has held for 1 µs faults, and its commit is abandoned
(R107). -/
def Iss.commitTimeout (i : Iss) (atom red : Hdr → AtmOp → State) : State :=
  match i.g.park, i.g.current with
  | .commit _, some (.vst h o) => i.vst h o true
  | .commit _, some (.sst h o) => i.sst h o true
  | .commit _, some (.atom h o) => atom h o
  | .commit _, some (.red h o) => red h o
  | _, _ => i.s

/-- `REMOTE_TIMEOUT`: the next access of the party to a peer or the host is not answered within 1 ms, and faults (R408).
Flock number 64 names the fold's stream. -/
def execRemoteTimeout (fold fl fr : Nat) (s : State) : Host.Outcome State Fault Refusal :=
  .next <|
    match s.fold? fold with
    | none => s
    | some _ =>
      let p : Party := if fl = 64 then .stream fold else .frag fold fl fr
      { s with remoteDown := p :: s.remoteDown.filter (· ≠ p) }

end Sys2Proof.Machine
end

