-- ==== Sys2Proof/Machine/Atomic.lean ====
section
/-! DEFINITION. The `ATM` family: atomics, reductions, and waits on an address (R243 to R250). -/

namespace Sys2Proof.Machine

/-! ### A lane's atomic -/

/-- The exact address of a lane (R243). -/
def Iss.atmAddr (i : Iss) (o : AtmOp) (l : Nat) : Int := ((i.raw64 o.addr l : Nat) : Int) + o.disp.toInt

/-- The operands of a lane under the type (R245). -/
def Iss.atmA (i : Iss) (o : AtmOp) (l : Nat) : Nat := i.opnd o.ty.ty o.opa l
def Iss.atmB (i : Iss) (o : AtmOp) (l : Nat) : Nat := if aopTwo o.aop.toNat then i.opnd o.ty.ty o.opb l else 0

/-- One read-modify-write at the home: the state and the old value. Where it changes memory, the releases that hold the
flock's writes are made first. -/
def Iss.rmw (i : Iss) (s : State) (o : AtmOp) (k key : Nat) (managed replicated : Bool) (a b : Nat) : State × Nat :=
  let n := o.ty.bytes
  let v := s.homeValue k n key managed
  if atomNew o.aop.toNat o.ty v.2 a b = v.2 && !(o.ord = .rel || o.ord = .acqrel) then
    (v.1.modCore i.x.core fun c => c.dropLine (k / 64), v.2)
  else
    let w := (v.1.drain fun e => e.owner.meets i.owner && e.holds).homeValue k n key managed
    ((w.1.putAtomic k key replicated (leBytes n (atomNew o.aop.toNat o.ty w.2 a b))).modCore i.x.core fun c => c.dropLine (k / 64), w.2)

/-- A lane's atomic: its old value where it returns or commits, and whether it commits to a replicated line. A non-returning
one is buffered. -/
def Iss.atmLane (i : Iss) (o : AtmOp) (tmo : Bool) (grp : Nat) (s : State) (l : Nat) : State × Except FInfo (Bool × Nat) :=
  let r := i.resolve s .global (.atomic o.ret) l (i.atmAddr o l) o.ty.bytes
  let a := i.atmA o l
  let b := i.atmB o l
  match r.2 with
  | .error f => (r.1, .error f)
  | .ok sites =>
    match sites with
    | [t] =>
      match t.loc with
      | .mem k =>
        let late := if t.replicated && tmo then r.1.flip else (false, r.1)
        let bad (s : State) : State × Except FInfo (Bool × Nat) := (s, .error (i.named s .global l (i.atmAddr o l) [t] t.memError))
        if r.1.siteBad t then bad r.1
        else if late.1 then
          (late.2, .error { cause := .replicaTimeout, addr := i.recAddr .global l (i.atmAddr o l), aux := 0, page := none })
        else if o.ret || t.replicated then
          let s1 := late.2.drain fun e =>
            (e.seenBy i.owner i.x.core && e.overlaps t.loc t.n) || (e.isUpdate && e.grp == grp && e.owner.meets i.owner)
          let w := i.rmw s1 o k t.crypt t.managed t.replicated a b
          if w.1.siteBad t then bad w.1
          else (w.1, .ok (t.replicated, w.2))
        else
          ({ r.1 with pend := r.1.pend ++ [{ owner := i.owner, core := i.x.core, loc := t.loc,
                                             kind := .update o.aop.toNat o.ty (BitVec.ofNat 64 a) (BitVec.ofNat 64 b), grp := grp,
                                             visible := false, checked := false, mark := none, managed := t.managed, key := t.crypt }] },
            .ok (false, 0))
      | _ => (r.1, .ok (false, 0))
    | _ => (r.1, .ok (false, 0))

/-- The result of a returning lane: the old value, and the failure flag of `ADDB` (R245, R246). -/
def Iss.atmResult (i : Iss) (o : AtmOp) (x : Fold) (l old : Nat) : Fold :=
  let t := i.thread l
  let d := o.data.toNat
  let y := x.putV o.ty.ty d t old
  if o.aop = 11 then
    let fail := BitVec.ofNat 32 (bitOf (atomFail 11 old (i.atmA o l) (i.atmB o l)))
    if o.ty.bytes = 8 then (y.setV (d + 2) t fail).setV (d + 3) t 0 else y.setV (d + 1) t fail
  else y

/-- `ATOM` and `RED`: the lanes execute in rising order (R247); `comb` follows the last lane's update of a `RED`. -/
def Iss.atomic (i : Iss) (h : Hdr) (o : AtmOp) (tmo : Bool) (comb : Nat → State → State) : State :=
  let m := i.memLanes h
  let ls := lanes m
  if ls.isEmpty then i.endMem i.s []
  else
    let p := i.group (i.acquireIf o.ord o.scope m)
    let q := overLanes (i.atmLane o tmo p.1) ls (i.releaseIf p.2 p.1 o.ord o.scope)
    i.lockWait q.1 (q.2.1.any (·.2.1)) tmo fun t =>
      let t1 := if o.ret then i.modFold t fun x => q.2.1.foldl (fun y w => i.atmResult o y w.1 w.2.2) x else t
      i.endStore (i.raiseIf (comb p.1 (t1.settleIf o.ord m)) p.1 o.ord o.scope (!q.2.2.isEmpty)) p.1 q.2.2

def execAtom (h : Hdr) (o : AtmOp) (s : State) : Host.Outcome State Fault Refusal :=
  onFrag s fun i => i.atomic h o false fun _ t => t

/-! ### Combining at the issuing core (R248) -/

/-- The operand of the one request into which two lanes of an integer `RED` at one address combine; a `SUB` takes the sum. -/
def redJoin (aop : Nat) (ty : AtmTy) (a b : W64) : W64 := BitVec.ofNat 64 (atomNew (if aop = 1 then 0 else aop) ty a.toNat b.toNat 0)

/-- An update of instruction `grp`, of an integer operation (`FADD` is 12), with an earlier one at the same place. -/
def Pend.joins (grp : Nat) (e f : Pend) : Bool :=
  match e.kind, f.kind with
  | .update aop _ _ _, .update _ _ _ _ => decide (aop ≤ 6) && e.grp == grp && f.grp == grp && f.loc == e.loc
  | _, _ => false

/-- Entry `f` with the operand of `e` joined to its own. -/
def Pend.join (f e : Pend) : Pend :=
  match e.kind, f.kind with
  | .update aop ty a _, .update _ _ b c => { f with kind := .update aop ty (redJoin aop ty b a) c }
  | _, _ => f

/-- Joins entry `e` to the last of the entries that it may join. -/
def joinLast (grp : Nat) (e : Pend) : List Pend → List Pend
  | [] => []
  | f :: r => if e.joins grp f && !r.any (e.joins grp) then f.join e :: r else f :: joinLast grp e r

/-- A lane of instruction `grp` is combined with one before it that names the same address, or not (R248, log 2). -/
def redAdd (grp : Nat) (acc : State × List Pend) (e : Pend) : State × List Pend :=
  if acc.2.any (e.joins grp) then
    let b := acc.1.flip
    (b.2, if b.1 then joinLast grp e acc.2 else acc.2 ++ [e])
  else (acc.1, acc.2 ++ [e])

/-- The lanes of a `RED` of number `grp` that name the same address are combined, each with one before it or not at all (R248,
log 2). -/
def State.combine (grp : Nat) (s : State) : State :=
  let l := s.pend.foldl (redAdd grp) (s, [])
  { l.1 with pend := l.2 }

def execRed (h : Hdr) (o : AtmOp) (s : State) : Host.Outcome State Fault Refusal :=
  onFrag s fun i => i.atomic h o false State.combine

/-- `REPLICA_LOCK_TIMEOUT` (R107). -/
def execReplicaLockTimeout (fold fl fr : Nat) (s : State) : Host.Outcome State Fault Refusal :=
  .next <| s.eventFrag fold fl fr fun i => i.commitTimeout (fun h o => i.atomic h o true fun _ t => t) fun h o => i.atomic h o true State.combine

/-! ### `WAITA` (R97, R250) -/

/-- The conditions of Table 9.8 of memory value `m` against `a`, under a type. -/
def waitCond (cond : Nat) (t : Ty) (m a : Nat) : Bool :=
  let x := ival t.signed t.bits m
  let y := ival t.signed t.bits a
  match cond with
  | 0 => m == a
  | 1 => m != a
  | 2 => decide (x < y)
  | 3 => decide (x ≤ y)
  | 4 => decide (y < x)
  | 5 => decide (y ≤ x)
  | 6 => m &&& a != 0
  | _ => m &&& a == 0

/-- A lane's read at its address, with the line of its home: through logs and local replicas, after the flock's own writes
there. The core's copy of the line goes, so that no later load returns an older value (R324). -/
def Iss.waitRead (i : Iss) (o : AtmOp) (s : State) (l : Nat) (addr : Int) : State × Except FInfo (Nat × Nat) :=
  let r := i.resolve s .global .read l addr o.ty.bytes
  match r.2 with
  | .error f => (r.1, .error f)
  | .ok sites =>
    match sites with
    | [t] =>
      match t.loc with
      | .mem k =>
        let s1 := r.1.drain fun e => e.seenBy i.owner i.x.core && e.overlaps t.loc t.n
        let v := s1.homeValue k t.n t.crypt t.managed
        if v.1.siteBad t then (v.1, .error (i.named v.1 .global l addr [t] t.memError))
        else (v.1.modCore i.x.core fun c => c.dropLine (k / 64), .ok (k / 64, v.2))
      | _ => (r.1, .ok (0, 0))
    | _ => (r.1, .ok (0, 0))

/-- Lanes that complete with the value they read last. -/
def Iss.waitDone (i : Iss) (s : State) (o : AtmOp) (ws : List WaitLane) : State :=
  if o.ret then i.modFold s fun x => ws.foldl (fun y w => y.putV o.ty.ty o.data.toNat (i.thread w.lane) w.last) x else s

/-- The instruction is complete: it is an acquire at its scope. -/
def Iss.waitEnd (i : Iss) (s : State) (o : AtmOp) : State := i.endMem (s.acquire i.x.core o.scope) []

/-! ### The watch table (R97) -/

def Watch.ofFrag (w : Watch) (fold fl fr : Nat) : Bool := w.fold == fold && w.flock == fl && w.frag == fr

def Park.isWaita : Park → Bool
  | .waita _ _ => true
  | _ => false

/-- The waiter of an entry waits no more. -/
def State.deadWatch (s : State) (w : Watch) : Bool := w.lane.isNone && !((s.iss? w.fold w.flock w.frag).any (·.g.park.isWaita))

/-- The die whose engine executes atomics at a home line for a core; a peer's line is watched at the peer (R95, R250). -/
def watchDie (core line : Nat) : Nat :=
  if keyClass (line * 64) = 0 then line * 64 / dieBytes else if keyClass (line * 64) = 1 then 3 else dieOf core

/-- The entries in use in the table of a die: a line of a context is one, whatever waits on it. -/
def State.watchUsed (s : State) (d : Nat) : Nat :=
  ((s.watch.filter (·.die == d)).foldl (fun (acc : List (Nat × Nat)) w =>
    if acc.contains (w.ctx, w.line) then acc else (w.ctx, w.line) :: acc) []).length

/-- A lane's line enters the watch table, where its entry is there or one of the 4,096 is free; else the lane is polled. -/
def Iss.watchLine (i : Iss) (s : State) (line : Nat) : State :=
  let d := watchDie i.x.core line
  if s.watch.any fun w => w.ofFrag i.x.uid i.fl i.g.fid && w.line == line then s
  else if s.watch.any (fun w => w.die == d && w.ctx == i.x.ctx && w.line == line) || d == 3 || decide (s.watchUsed d < 4096) then
    { s with watch := s.watch ++ [{ die := d, ctx := i.x.ctx, line := line, fold := i.x.uid, flock := i.fl, frag := i.g.fid, due := false, lane := none }] }
  else s

/-- The fragment waits on with the lanes `left`: their lines are watched, and no others of it. -/
def Iss.watchLanes (i : Iss) (s : State) (left : List WaitLane) : State :=
  let keep := s.watch.filter fun w => !s.deadWatch w && (!w.ofFrag i.x.uid i.fl i.g.fid || left.any (·.line == w.line))
  left.foldl (fun t w => i.watchLine t w.line) { s with watch := keep }

/-- The lanes `ws` with values just read: the satisfied ones complete, the others wait on. -/
def Iss.waitSettle (i : Iss) (s : State) (o : AtmOp) (ws : List WaitLane) (dl : Option Nat) : State :=
  let ok (w : WaitLane) : Bool := waitCond o.aop.toNat o.ty.ty w.last w.a
  let s1 := i.waitDone s o (ws.filter ok)
  let left := ws.filter fun w => !ok w
  if left.isEmpty then i.waitEnd s1 o else i.watchLanes (i.park s1 (.waita left dl)) left

def execWaita (h : Hdr) (o : AtmOp) (s : State) : Host.Outcome State Fault Refusal :=
  onFrag s fun i =>
    let ls := lanes (i.memLanes h)
    if ls.isEmpty then i.endMem i.s []
    else
      let q := overLanes (fun t l => i.waitRead o t l (i.atmAddr o l)) ls i.s
      let ws := q.2.1.map fun p => ({ lane := p.1, addr := (i.atmAddr o p.1).toNat, line := p.2.1, a := i.atmA o p.1, last := p.2.2 } : WaitLane)
      if q.2.2.isEmpty then i.waitSettle q.1 o ws (if i.sval64 o.opb = 0 then none else some (q.1.heart + (i.sval64 o.opb).toNat))
      else
        let ok (w : WaitLane) : Bool := waitCond o.aop.toNat o.ty.ty w.last w.a
        let t := i.waitDone q.1 o (ws.filter ok)
        let open' := (ws.filter fun w => !ok w).foldl (fun m w => m ||| bitMask w.lane) (0 : Mask)
        let m := q.2.2.foldl (fun m p => m ||| bitMask p.1) open'
        i.take (i.modFlock t fun k => { k with replay := m, replayFid := none }) (groupFaults q.2.2) .replay

/-- The waiting lanes of a parked `WAITA` that `sel` picks are looked at again; an address that no longer answers keeps its
value. -/
def State.waitLook (s : State) (fold fl fr : Nat) (sel : WaitLane → Bool) : State :=
  s.eventFrag fold fl fr fun i =>
    match i.g.park, i.g.current with
    | .waita left dl, some (.waita _ o) =>
      let q := left.foldl (fun (acc : State × List WaitLane) w =>
        if !sel w then (acc.1, acc.2 ++ [w])
        else
          let r := i.waitRead o acc.1 w.lane w.addr
          match r.2 with
          | .ok v => (r.1, acc.2 ++ [{ w with line := v.1, last := v.2 }])
          | .error _ => (r.1, acc.2 ++ [w])) (s, [])
      i.waitSettle q.1 o q.2 dl
    | _, _ => s

/-- The entry of a waiting lane in the watch table. -/
def State.watchOf (s : State) (fold fl fr line : Nat) : Option Watch := s.watch.find? fun w => w.ofFrag fold fl fr && w.line == line

/-! ### Lanes of a peer (R250, R408) -/

/-- A peer's lane enters the watch table of the home die of its word, or is polled where the table is full. -/
def State.watchPeer (s : State) (p : PeerLane) : State :=
  let d := p.addr / dieBytes
  let fits := s.watch.any (fun w => w.die == d && w.ctx == 64 + p.peer && w.line == p.addr / 64) || decide (s.watchUsed d < 4096)
  { s with watch := s.watch ++ [{ die := if fits then d else 3, ctx := 64 + p.peer, line := p.addr / 64, fold := 0, flock := p.peer, frag := 0,
                                  due := false, lane := some p }] }

/-- The first waiting lane of a peer that `sel` picks is looked at again: it is answered where its condition holds or its word
cannot be read, else it waits on. -/
def State.peerLook (s : State) (peer : Nat) (sel : Watch → Bool) : State :=
  match s.watch.find? fun w => w.flock == peer && w.lane.isSome && sel w with
  | none => s
  | some w =>
    match w.lane with
    | none => s
    | some p =>
      let s1 := s.applyRange p.addr p.ty.bytes
      let bs := s1.readAs (s1.matOf p.key) p.addr p.ty.bytes
      let gone : State := { s1 with watch := s1.watch.erase w }
      if s1.rangeBad p.addr p.ty.bytes || !s1.homeOk p.key p.addr then { gone with answer := none }
      else if waitCond p.cond p.ty.ty (ofLe bs) p.a.toNat then { gone with answer := some bs }
      else { s1 with watch := gone.watch ++ [{ w with due := false }] }

/-- `WAITA_WAKE`: the lanes whose line has been written, or whose entry is a peer's, are looked at again. Fold 0 stands for the
lanes of peer `fl`. -/
def execWaitaWake (fold fl fr : Nat) (s : State) : Host.Outcome State Fault Refusal :=
  let due (w : WaitLane) : Bool := (s.watchOf fold fl fr w.line).any fun e => e.due || e.die == 3
  .next <|
    if fold = 0 then s.peerLook fl (·.due)
    else ({ s with watch := s.watch.map fun e => if e.ofFrag fold fl fr then { e with due := false } else e } : State).waitLook fold fl fr due

/-- `WATCH_POLL`: the lanes that found the table full are looked at again. -/
def execWatchPoll (fold fl fr : Nat) (s : State) : Host.Outcome State Fault Refusal :=
  .next (if fold = 0 then s.peerLook fl (·.die == 3) else s.waitLook fold fl fr fun w => (s.watchOf fold fl fr w.line).isNone)

/-- `WAITA_TIMEOUT`: the instruction completes with its lanes unsatisfied; they return the value they read last. -/
def execWaitaTimeout (fold fl fr : Nat) (s : State) : Host.Outcome State Fault Refusal :=
  .next <| s.eventFrag fold fl fr fun i =>
    match i.g.park, i.g.current with
    | .waita left (some d), some (.waita _ o) => if d ≤ s.heart then i.waitEnd (i.waitDone s o left) o else s
    | _, _ => s

end Sys2Proof.Machine
end

