-- ==== Sys2Proof/Machine/Branch.lean ====
section
/-! DEFINITION. The `BR` family (R175 to R184): uniform branches, splits with their split-table entries and serial
records (R24 to R26, R305), permitted-target tables (R180, R181), calls, and the exit of lanes (R33). -/

namespace Sys2Proof.Machine

/-- The pc at a signed offset from the issuing instruction (R136). -/
def Iss.rel (i : Iss) (off : Int) : Int := (i.g.pc.toNat : Int) + off

/-- A transfer to a signed target: a pc outside 55 bits faults (R175). -/
def Iss.jumpRel (i : Iss) (s : State) (tgt : Int) : State :=
  if 0 ≤ tgt then (if tgt.toNat < 2 ^ 55 then i.jump s (BitVec.ofNat 55 tgt.toNat) else i.fault .brTarget i.g.exec 0 0)
  else i.fault .brTarget i.g.exec 0 0

/-! ### Uniform branches -/

/-- The conditions of Table 7.5. -/
def braTaken (bc mb : Nat) (x : W64) : Bool :=
  match bc with
  | 0 => true
  | 1 => x != 0
  | 2 => x == 0
  | 3 => x.msb
  | 4 => !x.msb
  | 5 => x &&& BitVec.ofNat 64 mb != 0
  | _ => x &&& BitVec.ofNat 64 mb == 0

def execBra (h : Hdr) (o : BrOp) (s : State) : Host.Outcome State Fault Refusal :=
  onFrag s fun i => i.uniform h <|
    if braTaken o.bc.toNat o.mb.toNat (i.sreg o.ss) then i.jumpRel i.s (i.rel o.off.toInt) else i.next i.s

/-- The conditions of Table 7.6, over mask `m` and active set `a`. -/
def brmTaken (bc : Nat) (m a : Mask) : Bool :=
  match bc with
  | 0 => m &&& a != 0
  | 1 => a &&& ~~~m == 0
  | 2 => m &&& a == 0
  | _ => a &&& ~~~m != 0

def execBrm (h : Hdr) (o : BrOp) (s : State) : Host.Outcome State Fault Refusal :=
  onFrag s fun i => i.uniform h <|
    if brmTaken o.bc.toNat (i.mask o.mb.toNat) (i.active h) then i.jumpRel i.s (i.rel o.off.toInt) else i.next i.s

def execCall (h : Hdr) (o : BrOp) (s : State) : Host.Outcome State Fault Refusal :=
  onFrag s fun i => i.uniform h <|
    i.jumpRel (i.setS i.s o.ss (BitVec.ofNat 64 (i.g.pc.toNat + 1))) (i.rel o.off.toInt)

/-- The target is read before the link is written (R182). -/
def execCallx (h : Hdr) (o : BrOp) (s : State) : Host.Outcome State Fault Refusal :=
  onFrag s fun i => i.uniform h <|
    i.jumpTo (i.setS i.s o.ss (BitVec.ofNat 64 (i.g.pc.toNat + 1))) (i.k.sreg (o.off.toNat % 128)).toNat

def execRet (h : Hdr) (o : BrOp) (s : State) : Host.Outcome State Fault Refusal :=
  onFrag s fun i => i.uniform h (i.jumpTo i.s (i.sreg o.ss).toNat)

def execLoopd (h : Hdr) (o : BrOp) (s : State) : Host.Outcome State Fault Refusal :=
  onFrag s fun i => i.uniform h <|
    let n := i.sreg o.ss
    if n = 0 then i.next i.s
    else
      let s1 := i.setS i.s o.ss (n - 1)
      if n - 1 ≠ 0 then i.jumpRel s1 (i.rel o.off.toInt) else i.next s1

/-- `JOIN` (R179): at the join the fragment parks or fuses. -/
def execJoin (h : Hdr) (_o : BrOp) (s : State) : Host.Outcome State Fault Refusal :=
  onFrag s fun i => i.uniform h <|
    match i.k.joinOf i.g with
    | none => i.next i.s
    | some j => i.jump i.s j

/-! ### Splits -/

/-- Split-table entries in use on a core (R24). -/
def State.splitsUsed (s : State) (core : Nat) : Nat := sumNat ((s.foldsOnCore core).map Fold.splitEntries)

/-- The first free identity of a fragment and of a split of the flock. -/
def Flock.newFid (k : Flock) : Nat := k.frags.foldl (fun n g => max n (g.fid + 1)) 0
def Flock.newSid (k : Flock) : Nat := k.splits.foldl (fun n p => max n (p.sid + 1)) 0

/-- Pushes a record at depth `d` of the divergence stack; the stack grows as private memory does (R25). -/
def Iss.pushRecord (i : Iss) (s : State) (d : Nat) (pend : Mask) (resume join : Int) : Except FInfo State :=
  if i.k.privHwm < 16 * d + 16 then .error (plainFault .privGrow (16 * d : Nat))
  else i.putRecord s d (stackRec i.entryPc pend resume join)

/-- Takes the lanes `taken` of the issuing fragment into a new fragment at `target`, with join `join`: with a split-table
entry where one is free, else as a serial split whose pending half is the issuing fragment, to resume at `resume`
(R24, R25). -/
def Iss.splitOff (i : Iss) (s : State) (taken : Mask) (target join : Pc) (resume : Int) : Except FInfo State :=
  match s.iss? i.x.uid i.fl i.g.fid with
  | none => .ok s
  | some j =>
    let sid := j.k.newSid
    let depths := j.k.splits.filterMap (·.serial)
    let d := firstFree depths depths.length 0
    let free := decide (s.splitsUsed i.x.core < 256)
    let pushed : Except FInfo State :=
      if free then .ok s
      else if 256 ≤ d then .error (plainFault .privLimit (16 * d : Nat))
      else i.pushRecord s d (j.g.members &&& ~~~taken) resume join.toNat
    match pushed with
    | .error f => .error f
    | .ok s1 =>
      let new : Frag :=
        { fid := j.k.newFid, members := taken, exec := taken, pc := target, arriving := true, buf := none,
          path := sid :: j.g.path, pending := j.g.pending, park := .ready }
      .ok <| i.modFlock s1 fun k =>
        let k1 := k.modFrag i.g.fid fun g =>
          { g with members := g.members &&& ~~~taken, exec := g.exec &&& ~~~taken, path := sid :: g.path,
                   pending := g.pending || !free }
        { k1 with splits := k1.splits ++ [{ sid := sid, join := join, entries := if free then 1 else 0,
                                            serial := if free then none else some d,
                                            held := if free then 0 else j.g.members &&& ~~~taken, unrun := !free }],
                  frags := k1.frags ++ [new] }

/-- `SPLIT` (R178). A dividing one whose join lies outside 55 bits faults here, as for a target outside them; the spec does not say
when the join is checked (log 133, DESIGN CHOICE). -/
def execSplit (h : Hdr) (o : BrOp) (s : State) : Host.Outcome State Fault Refusal :=
  onFrag s fun i =>
    let act := i.active h
    let taken := if o.mb = 15 then act else act &&& i.mask o.mb.toNat
    if taken = act then i.jumpRel i.s (i.rel o.off.toInt)
    else if taken = 0 then i.next i.s
    else
      let target := i.rel o.off.toInt
      let join := i.rel o.joff.toInt
      if target < 0 ∨ (2 ^ 55 : Nat) ≤ target ∨ join < 0 ∨ (2 ^ 55 : Nat) ≤ join then i.fault .brTarget act 0 0
      else
        match i.splitOff i.s taken (BitVec.ofNat 55 target.toNat) (BitVec.ofNat 55 join.toNat) (i.g.pc.toNat + 1 : Nat) with
        | .error f => i.take i.s [(f, act)] .again
        | .ok s1 => i.next s1

/-! ### Permitted-target tables (R180, R181) -/

/-- A line of kind 10 at address 64 * `num`, read as a fetch (R133); none if it is of another kind. -/
def Iss.tableLine (i : Iss) (s : State) (num : Nat) : State × Except FInfo (Option Line) :=
  let r := s.fetchLine i.x.core i.x.ctx num
  match r.2 with
  | .error f => (r.1, .error f)
  | .ok d => (r.1, .ok (if lineKindCode d = 2 then some d else none))

/-- Word `n` of a table line. -/
def tableWord (d : Line) (n : Nat) : Nat := bits d.toNat (32 * n + 31) (32 * n)

/-- Words `ns` of the table whose first line is `num`; none where a line is of another kind. -/
def Iss.tableWords (i : Iss) (s : State) (num : Nat) : List Nat → State × Except FInfo (Option (List Nat))
  | [] => (s, .ok (some []))
  | n :: ns =>
    let r := i.tableLine s (num + n / 15)
    match r.2 with
    | .error f => (r.1, .error f)
    | .ok none => (r.1, .ok none)
    | .ok (some d) =>
      let q := i.tableWords r.1 num ns
      match q.2 with
      | .ok (some l) => (q.1, .ok (some (tableWord d (n % 15) :: l)))
      | e => (q.1, e)

/-- Splits off the groups `gs` (target and lanes) in order. -/
def Iss.splitGroups (i : Iss) (join : Pc) (resume : Int) : State → List (Pc × Mask) → Except FInfo State
  | s, [] => .ok s
  | s, (t, m) :: r =>
    match i.splitOff s m t join resume with
    | .error f => .error f
    | .ok s1 => i.splitGroups join resume s1 r

/-- The lanes that take each target, by rising target. -/
def groupTargets (l : List (Nat × Int)) : List (Int × Mask) :=
  let ts := l.foldl (fun (acc : List Int) p => if acc.contains p.2 then acc else p.2 :: acc) []
  (sortBy (fun a b => decide (a ≤ b)) ts).map fun t =>
    (t, l.foldl (fun m p => if p.2 = t then m ||| bitMask p.1 else m) (0 : Mask))

/-- `BRX` once its table words are read: `join` and the lanes' targets. One with several targets whose join lies outside 55 bits
faults here; the spec does not say when the join is checked (log 133, DESIGN CHOICE). -/
def Iss.branchTable (i : Iss) (s : State) (act : Mask) (join : Int) (targets : List (Nat × Int)) : State :=
  let inPc (t : Int) : Bool := decide (0 ≤ t) && decide (t < (2 ^ 55 : Nat))
  match targets with
  | [] => i.next s
  | (_, t0) :: _ =>
    if !(targets.all fun p => inPc p.2) then i.fault .brTarget act 0 0
    else
      let gs := groupTargets targets
      if gs.length ≤ 1 then i.jumpRel s t0
      else if !inPc join then i.fault .brTarget act 0 0
      else
        let rest := (gs.filter fun p => p.1 != t0).map fun p => (BitVec.ofNat 55 p.1.toNat, p.2)
        match i.splitGroups (BitVec.ofNat 55 join.toNat) t0 s rest with
        | .error f => i.take i.s [(f, act)] .again
        | .ok s1 => i.jumpRel s1 t0

/-- `BRX` (R181). With no active lane nothing is read and the fragment goes on. A later line of the table that is not of kind
10 takes the fault that R181 gives the first (log 96, DESIGN CHOICE). -/
def execBrx (h : Hdr) (o : BrOp) (s : State) : Host.Outcome State Fault Refusal :=
  onFrag s fun i =>
    let act := i.active h
    let base := i.rel o.off.toInt
    if act = 0 then i.next i.s
    else if base < 0 ∨ (2 ^ 55 : Nat) ≤ base ∨ base % 5 ≠ 0 then i.fault .brTarget act 0 0
    else
      let num := base.toNat / 5
      let idx := (lanes act).map fun l => (l, (i.vreg (o.joff.toNat % 256) l).toNat)
      let hd := i.tableWords i.s num [0, 1]
      match hd.2 with
      | .error f => i.take hd.1 [(f, act)] .again
      | .ok (some [w0, w1]) =>
        let n := w0 % 4096
        if w0 / 4096 ≠ 0 ∨ n = 0 ∨ idx.any (fun p => decide (n ≤ p.2)) then i.fault .brTarget act 0 0
        else
          let r := i.tableWords hd.1 num (idx.map fun p => 2 + p.2)
          match r.2 with
          | .error f => i.take r.1 [(f, act)] .again
          | .ok (some ws) =>
            i.branchTable r.1 act (base + sval 32 w1) ((idx.map (·.1)).zip (ws.map fun w => base + sval 32 w))
          | .ok none => i.fault .brTarget act 0 0
      | .ok _ => i.fault .brTarget act 0 0

/-! ### Exit (R33, R183) -/

/-- Lanes leave a fragment; a fragment without members is gone, and a flock without fragments has ended. -/
def Iss.exitLanes (i : Iss) (m : Mask) : State :=
  let left := i.g.members &&& ~~~m
  if left ≠ 0 then
    i.next (i.modFrag i.s fun g => { g with members := left, exec := g.exec &&& ~~~m })
  else
    let s1 := i.modFlock i.s fun k => { k with frags := k.frags.filter (·.fid ≠ i.g.fid) }
    if (i.k.frags.filter (·.fid ≠ i.g.fid)).isEmpty then s1.endFlock i.x.uid i.fl else s1.settle i.x.uid i.fl

def execExit (h : Hdr) (_o : BrOp) (s : State) : Host.Outcome State Fault Refusal :=
  onFrag s fun i => i.exitLanes (i.active h)

end Sys2Proof.Machine
end

