-- ==== Sys2Proof/Machine/Convert.lean ====
section
/-! DEFINITION. The `CV` family: conversions, quantisation, expansion, bit planes and `AMAXRD` (R221 to R227, R428). -/

namespace Sys2Proof.Machine

/-- The value of a constant in a floating-point operand (R141): exact for an integer, else rounded to the format, which R141
says for `F32`, `F16` and `BF16` (log 81). -/
def constVal (t : Ty) (c : Nat) : FVal :=
  if c ≤ 48 then FVal.ofInt (constInt c) else (fmtOf t).value (constFp (fmtOf t) c)

/-- The code of a constant as an element: in an 8-bit or 4-bit floating-point format that of its value (R141), and where the format
does not hold the value that of its nearest (log 81, DESIGN CHOICE). -/
def constElem (t : Ty) (c : Nat) : Nat :=
  match t with
  | .e4m3 | .e5m2 | .mxf4 => (convertTo t .rne true false (constVal t c)).1
  | _ => constOf t c

/-- Element `pos` of a source under its type (R222). An inline constant is the element itself, whatever `SPOS` holds
(log 81, DESIGN CHOICE). -/
def Iss.elem (i : Iss) (t : Ty) (x : Src) (pos l : Nat) : Nat :=
  match x with
  | .c n => constElem t n.toNat
  | _ => (if t.bits = 64 then i.raw64 x l else i.raw32 x l) / 2 ^ (t.bits * pos) % 2 ^ t.bits

/-- The exact value of an element of a source. -/
def Iss.elemValue (i : Iss) (t : Ty) (x : Src) (pos l : Nat) : FVal :=
  match x with
  | .c n => if t.isInt || t == .s4 then elemVal t (i.elem t x pos l) else constVal t n.toNat
  | _ => elemVal t (i.elem t x pos l)

/-- A register with bits of width `w` at position `pos` replaced (R222). -/
def insertAt (old w pos r : Nat) : Nat :=
  old % 2 ^ (w * pos) + r % 2 ^ w * 2 ^ (w * pos) + old / 2 ^ (w * pos + w) * 2 ^ (w * pos + w)

/-- A conversion: `pre` updates a lane's state first, `f` gives each active lane's result of type `o.to` and its flags; the
result is inserted at `DPOS`, or written under R65 (R222). -/
def Iss.convert (i : Iss) (h : Hdr) (o : CvOp) (pre : Nat → Fold → Fold) (f : Nat → Nat × W32) : State :=
  let ls := lanes (i.active h)
  let s1 := i.modFold i.s fun x => ls.foldl (fun y l => pre l y) x
  let val (l : Nat) : Nat := if o.ins then insertAt (i.vreg o.dst.toNat l).toNat o.dty.bits o.dpos (f l).1 else (f l).1
  let res := ls.map fun l => ({ lane := l, val := val l, flags := (f l).2 } : LaneRes)
  i.finish (i.put s1 (wbOf h (if o.ins then .b32 else o.dty) o.dst) res) (LaneRes.flagsOf res)

/-- The advanced stochastic-rounding state of a lane (R120). -/
def Iss.srNext (i : Iss) (l : Nat) : W32 := srStep (Map.get 0 i.x.srstate (i.thread l))

/-- Under SR the state of an active lane advances once (R120). -/
def Iss.stepSr (i : Iss) (rm : Rm) (ok : Bool) (l : Nat) (x : Fold) : Fold :=
  if ok && i.usesSr rm then { x with srstate := Map.set 0 x.srstate (i.thread l) (i.srNext l) } else x

/-- `SR.AMAX` and `NANSEEN` of a lane after an update (R125). -/
def Iss.stepAmax (i : Iss) (l : Nat) (v : FVal) (x : Fold) : Fold :=
  let u := amaxUpdate (Map.get 0 x.amax (i.thread l)) v
  ({ x with amax := Map.set 0 x.amax (i.thread l) u.1 } : Fold).orFlags (i.thread l) u.2

/-- The types to which a conversion accepts SR (R121). -/
def Ty.takesSr (t : Ty) : Bool :=
  match t with
  | .f16 | .bf16 | .e4m3 | .e5m2 | .mxf4 => true
  | _ => false

/-- The rounding of a conversion in a lane. -/
def Iss.cvMode (i : Iss) (o : CvOp) (l : Nat) : Mode := i.mode o.rm (if Ty.takesSr o.dty then some (i.srNext l) else none)

/-- The scale of a `VCVT` (R223). -/
def Iss.cvtScale (i : Iss) (o : CvOp) (l : Nat) : FVal :=
  if !o.scen then .pow2 0
  else if o.frm = .mxf4 then e8m0 (i.raw32 o.scl l % 256)
  else (fmtOf .f32).value (i.opnd .f32 o.scl l)

/-- `VCVT` (R223). -/
def execVcvt (h : Hdr) (o : CvOp) (s : State) : Host.Outcome State Fault Refusal :=
  onFrag s fun i => i.convert h o (i.stepSr o.rm (Ty.takesSr o.dty)) fun l =>
    let v := i.elemValue o.frm o.sa o.spos l
    if o.frm.isInt && o.dty.isInt then
      cvtIntInt o.sat o.dty.signed o.dty.bits (ival o.frm.signed o.frm.bits (i.elem o.frm o.sa o.spos l))
    else convertTo o.dty (i.cvMode o l) o.sat v.isSig (v.mul (i.cvtScale o l))

/-- The factor of a `VQNT` (R124, R224). -/
def Iss.qntScale (i : Iss) (o : CvOp) (l : Nat) : FVal :=
  if o.dty = .mxf4 then e8m0inv (i.raw32 o.scl l % 256) else (fmtOf .f32).value (i.opnd .f32 o.scl l)

/-- `VQNT` (R224). -/
def execVqnt (h : Hdr) (o : CvOp) (s : State) : Host.Outcome State Fault Refusal :=
  onFrag s fun i =>
    let src (l : Nat) : FVal := i.elemValue o.frm o.sa o.spos l
    let pre (l : Nat) (x : Fold) : Fold := i.stepSr o.rm true l (if o.amx then i.stepAmax l (src l) x else x)
    i.convert h o pre fun l =>
      convertTo o.dty (i.cvMode o l) o.sat (src l).isSig ((src l).mul (i.qntScale o l))

/-- `VEXPD`: exact, without flags (R118, R225). -/
def execVexpd (h : Hdr) (o : CvOp) (s : State) : Host.Outcome State Fault Refusal :=
  onFrag s fun i => i.convert h o (fun _ x => x) fun l =>
    ((convertTo o.dty .rne false false (i.elemValue o.frm o.sa o.spos l)).1, 0)

/-- The lane group of R226: its length, and the lanes of it that are members. -/
def Iss.planeGroup (i : Iss) : Nat := min i.w 32

/-- `VBPK` (R226). -/
def execVbpk (h : Hdr) (o : CvOp) (s : State) : Host.Outcome State Fault Refusal :=
  onFrag s fun i => i.convert h o (fun _ x => x) fun l =>
    let n := i.planeGroup
    let p := l % n
    let bitOf' (k : Nat) : Nat :=
      let j := l / n * n + k
      if i.g.members.getLsbD j && bit (i.elem o.frm o.sa o.spos j) p then 2 ^ k else 0
    (if p < o.frm.bits then sumNat ((List.range n).map bitOf') else 0, 0)

/-- `VBUNPK` (R226). -/
def execVbunpk (h : Hdr) (o : CvOp) (s : State) : Host.Outcome State Fault Refusal :=
  onFrag s fun i => i.convert h o (fun _ x => x) fun l =>
    let n := i.planeGroup
    let bitOf' (k : Nat) : Nat :=
      let j := l / n * n + k
      if i.g.members.getLsbD j && bit (i.raw32 o.sa j) (l % n) then 2 ^ k else 0
    (sumNat ((List.range o.dty.bits).map bitOf'), 0)

/-- `AMAXRD` reads and clears `SR.AMAX`, and with `.NAN` the flag as well (R227). -/
def execAmaxrd (h : Hdr) (o : CvOp) (s : State) : Host.Outcome State Fault Refusal :=
  onFrag s fun i =>
    let nan := o.md.toNat % 2 == 1
    let flags (l : Nat) : W32 := Map.get 0 i.x.flags (i.thread l)
    let pre (l : Nat) (x : Fold) : Fold :=
      { x with amax := Map.set 0 x.amax (i.thread l) 0,
               flags := if nan then Map.set 0 x.flags (i.thread l) (flags l &&& ~~~flNANSEEN) else x.flags }
    i.convert h { o with md := 0 } pre fun l =>
      let v := (Map.get 0 i.x.amax (i.thread l)).toNat
      (if nan then v % 2 ^ 31 + (if flags l &&& flNANSEEN != 0 then 2 ^ 31 else 0) else v, 0)

end Sys2Proof.Machine
end

