-- ==== Sys2Proof/Machine/Cross.lean ====
section
/-! DEFINITION. The `XL` family: how the fragments of a flock meet (R37, R38), and the results of shuffles, rotations,
broadcasts, votes, reductions and scans (R228 to R230). -/

namespace Sys2Proof.Machine

/-! ### The rendezvous (R37, R38) -/

/-- A fragment at a cross-lane instruction: its active lanes, the lanes it names, and the operands of its lanes. -/
structure Meet where
  g : Frag
  act : Mask
  named : Mask
  a : List Nat
  b : List Nat
  deriving DecidableEq, Repr

/-- The fragment as it is parked at a rendezvous. -/
def Frag.meet? (g : Frag) : Option Meet :=
  match g.park with
  | .rendezvous act named a b => some { g := g, act := act, named := named, a := a, b := b }
  | _ => none

/-- The issuing fragment at its rendezvous: as parked, or with its operands read now; `sel` gives the lane selector. With an
empty active set it waits for no lane (R42). A parked fragment counts with the guard, the member mask and the shared scalar
operands that it found when it parked, whatever a sibling writes to those registers before they meet (log 98, DESIGN
CHOICE). -/
def Iss.meet (i : Iss) (h : Hdr) (o : XlOp) (sel : Nat → Nat) : Meet :=
  match i.g.meet? with
  | some m => m
  | none =>
    { g := i.g, act := i.active h,
      named := if i.active h = 0 then 0 else if o.mmem = 15 then lowMask i.w else i.mask o.mmem.toNat,
      a := (List.range i.w).map fun l => if i.g.members.getLsbD l then i.opnd o.ty o.sa l else 0,
      b := (List.range i.w).map fun l => if i.g.members.getLsbD l then sel l else 0 }

/-- The innermost unfused split from which both fragments descend (R38). -/
def Frag.commonSplit (g f : Frag) : Option Nat := g.path.find? (f.path.contains ·)

/-- Fragment `f` is parked at its common join with `g`. -/
def Frag.atCommonJoin (g f : Frag) : Bool := f.park == .join && (g.commonSplit f).isSome && f.path.head? == g.commonSplit f

/-- The other live fragments that hold a lane of `named`. -/
def Flock.holders (k : Flock) (fid : Nat) (named : Mask) : List Frag :=
  k.frags.filter fun f => f.fid != fid && f.members &&& named != 0

/-- The meetings among `l` all of whose named lanes stand in fragments of `l`, taken until none is left out any more. -/
def Flock.complete (k : Flock) : Nat → List Meet → List Meet
  | 0, l => l
  | n + 1, l => k.complete n (l.filter fun m => (k.holders m.g.fid m.named).all fun f => l.any fun m' => m'.g.fid == f.fid)

/-- The contribution of lane `j` to the fragment of `m` (R229): none where it is not named, zero where it has exited. -/
def contrib (grp : List Meet) (m : Meet) (j : Nat) : Option Nat :=
  if m.named.getLsbD j then
    match grp.find? fun x => x.g.members.getLsbD j with
    | some x => some ((x.a[j]?).getD 0)
    | none => some 0
  else none

/-- Lanes that `m` names and that have exited. -/
def lostLanes (grp : List Meet) (m : Meet) : Bool :=
  (lanes m.named).any fun j => !grp.any fun x => x.g.members.getLsbD j

/-- A cross-lane instruction: it meets, faults, or waits; when it executes, `f` writes the results of the group and gives
each lane's flags, and every fragment of the group goes on. -/
def Iss.cross (i : Iss) (h : Hdr) (o : XlOp) (sel : Nat → Nat) (f : List Meet → State × List LaneRes) : State :=
  let m := i.meet h o sel
  if (i.k.holders i.g.fid m.named).any (i.g.atCommonJoin ·) then i.fault .xlSplit i.g.exec 0 0
  else
    let here := m :: (i.k.frags.filter fun x => x.fid != i.g.fid && x.pc == i.g.pc).filterMap (·.meet?)
    let grp := i.k.complete here.length here
    if grp.any fun x => x.g.fid == i.g.fid then
      let r := f grp
      let lost (l : Nat) : W32 := flIf (grp.any fun x => x.act.getLsbD l && lostLanes grp x) flLOST
      let fl := r.2.map fun q => (q.lane, q.flags ||| lost q.lane)
      let s1 := i.modFold r.1 fun x => fl.foldl (fun y q => y.orFlags (i.thread q.1) q.2) x
      let s2 := (grp.filter fun x => x.g.fid != i.g.fid).foldl (fun t x => ({ i with g := x.g } : Iss).next t) s1
      i.finish s2 fl
    else i.park i.s (.rendezvous m.act m.named m.a m.b)

/-- The lane results of a group: `f m l` is the result and the flags of lane `l` of the fragment of `m`. -/
def meetRes (grp : List Meet) (f : Meet → Nat → Nat × W32) : List LaneRes :=
  grp.flatMap fun m => (lanes m.act).map fun l => { lane := l, val := (f m l).1, flags := (f m l).2 }

/-- A cross-lane instruction that writes a vector register, and the latch of the fragment that goes on with the line. -/
def Iss.crossV (i : Iss) (h : Hdr) (o : XlOp) (sel : Nat → Nat) (f : List Meet → Meet → Nat → Nat × W32) : State :=
  i.cross h o sel fun grp =>
    let res := meetRes grp (f grp)
    let s1 := i.put i.s { wbOf h o.ty o.dst with len := false } res
    let own := res.filter fun r => i.g.members.getLsbD r.lane
    (if h.len then i.modFlock s1 fun k => k.putLatch i.w h.lat o.ty own else s1, res)

/-! ### Shuffles (Table 8.11) -/

def execVshuf (h : Hdr) (o : XlOp) (s : State) : Host.Outcome State Fault Refusal :=
  onFrag s fun i => i.crossV h o (i.raw32 o.sb) fun grp m l =>
    ((contrib grp m ((m.b[l]?).getD 0 % i.w)).getD 0, 0)

def execVrot (h : Hdr) (o : XlOp) (s : State) : Host.Outcome State Fault Refusal :=
  onFrag s fun i => i.crossV h o (i.raw32 o.sb) fun grp m l =>
    ((contrib grp m ((l + (m.b[l]?).getD 0) % i.w)).getD 0, 0)

def execVbcst (h : Hdr) (o : XlOp) (s : State) : Host.Outcome State Fault Refusal :=
  onFrag s fun i => i.crossV h o (i.raw32 o.sb) fun grp m l =>
    ((contrib grp m ((m.b[l]?).getD 0 % i.w)).getD 0, 0)

/-- A vote writes its mask once for each fragment with an active lane (R42). Where fragments with different member masks vote
into one mask register the last of them in the order of the group stands (log 99, DESIGN CHOICE). -/
def execVvote (h : Hdr) (o : XlOp) (s : State) : Host.Outcome State Fault Refusal :=
  onFrag s fun i => i.cross h o (fun _ => 0) fun grp =>
    let votes (m : Meet) : Mask := (lanes m.named).foldl (fun v j => if contrib grp m j != some 0 then v ||| bitMask j else v) 0
    (grp.foldl (fun t m => if m.act = 0 then t else ({ i with g := m.g } : Iss).setMask t o.dst.toNat (votes m)) i.s,
      meetRes grp fun _ _ => (0, 0))

/-! ### Reductions and scans (R230, Table 8.12) -/

/-- The combination of an `XOP`, with its flags. -/
def xopApply (xop : Nat) (t : Ty) (a b : Nat) : Nat × W32 :=
  match xop with
  | 0 => ((a + b) % 2 ^ t.bits, 0)
  | 1 => (if ival t.signed t.bits b < ival t.signed t.bits a then b else a, 0)
  | 2 => (if ival t.signed t.bits a < ival t.signed t.bits b then b else a, 0)
  | 3 => (a &&& b, 0)
  | 4 => (a ||| b, 0)
  | 5 => (a ^^^ b, 0)
  | 6 => fpAdd (fmtOf t) .rne a b
  | 7 => fpMinMax (fmtOf t) false a b
  | _ => fpMinMax (fmtOf t) true a b

/-- The identity of an `XOP`. -/
def xopUnit (xop : Nat) (t : Ty) : Nat :=
  match xop with
  | 1 => wrap t.bits (intMax t.signed t.bits)
  | 2 => wrap t.bits (intMin t.signed t.bits)
  | 3 => 2 ^ t.bits - 1
  | 6 => (fmtOf t).signBit
  | 7 => (fmtOf t).infCode
  | 8 => (fmtOf t).signed true (fmtOf t).infCode
  | _ => 0

/-- Neighbours combined: one level of the tree. -/
def pairUp (f : Nat → Nat → Nat × W32) : List Nat → List Nat × W32
  | a :: b :: r => let x := f a b; let y := pairUp f r; (x.1 :: y.1, x.2 ||| y.2)
  | l => (l, 0)

/-- The tree of R230. -/
def treeReduce (f : Nat → Nat → Nat × W32) : Nat → List Nat → W32 → Nat × W32
  | 0, l, fl => (l.headD 0, fl)
  | n + 1, l, fl => let x := pairUp f l; treeReduce f n x.1 (fl ||| x.2)

/-- The prefixes p(0), p(1), … of R230, each with the flags of the step that formed it. -/
def scanFrom (f : Nat → Nat → Nat × W32) (p : Nat) : List Nat → List (Nat × W32)
  | [] => []
  | t :: r => let x := f p t; x :: scanFrom f x.1 r

def prefixes (f : Nat → Nat → Nat × W32) : List Nat → List (Nat × W32)
  | [] => []
  | t :: r => (t, 0) :: scanFrom f t r

/-- The terms t(0) to t(W - 1). -/
def terms (w : Nat) (o : XlOp) (grp : List Meet) (m : Meet) : List Nat :=
  (List.range w).map fun j => (contrib grp m j).getD (xopUnit o.xop.toNat o.ty)

/-- Every active lane of a fragment takes the flags of all steps of its result. -/
def execVred (h : Hdr) (o : XlOp) (s : State) : Host.Outcome State Fault Refusal :=
  onFrag s fun i => i.crossV h o (fun _ => 0) fun grp m _ =>
    treeReduce (xopApply o.xop.toNat o.ty) 6 (terms i.w o grp m) 0

/-- The steps that form a fragment's result are those up to the prefix of its highest active lane. -/
def execVscan (h : Hdr) (o : XlOp) (s : State) : Host.Outcome State Fault Refusal :=
  onFrag s fun i => i.crossV h o (fun _ => 0) fun grp m l =>
    let ps := prefixes (xopApply o.xop.toNat o.ty) (terms i.w o grp m)
    let x := o.md.toNat % 2
    let used := (lanes m.act).getLast?.elim 0 (· + 1 - x)
    let fl := (ps.take used).foldl (fun f p => f ||| p.2) 0
    (if x = 1 ∧ l = 0 then xopUnit o.xop.toNat o.ty else (ps[l - x]?).elim 0 (·.1), fl)

end Sys2Proof.Machine
end

