-- ==== Sys2Proof/Machine/System.lean ====
section
/-! DEFINITION. The `SYS` family but for `MARK` and `CURVE`: `NOP`, traps, firmware calls, special registers, `LAUNCH`,
leases and checkpoints (R194 to R202, R66 to R68). -/

namespace Sys2Proof.Machine

/-- `NOP` of a flock or of a stream (R133, R158). -/
def execNop (s : State) : Host.Outcome State Fault Refusal :=
  match s.cur with
  | some (.stream u) => .next (s.streamNext u)
  | _ => onFrag s fun i => i.next i.s

/-- `TRAP` raises `USER_TRAP`; a resume continues at the next instruction (R195, R370). -/
def execTrap (h : Hdr) (o : SysOp) (s : State) : Host.Outcome State Fault Refusal :=
  onFrag s fun i => i.uniform h <|
    i.take (i.next i.s) [({ cause := .userTrap, addr := 0, aux := o.imm.toNat, page := none }, i.active h)] .past

/-! ### Firmware calls (R196, Table 19.5) -/

/-- `DCALL` is a release at device scope, and parks until the firmware core answers. -/
def execDcall (h : Hdr) (o : SysOp) (s : State) : Host.Outcome State Fault Refusal :=
  onFrag s fun i => i.uniform h <|
    i.park (i.s.release i.owner .device) (.firmware (o.imm.toNat % 2 ^ 16) (i.sval64 o.sa))

/-- A temperature in m°C in units of 0.25 °C, to the nearest, ties toward +∞. -/
def quarterDegrees (t : Int) : Int := (t + 125) / 250

/-- The status of a service for a fold on physical core `core`. -/
def State.service (s : State) (core svc : Nat) (arg : W64) : W64 :=
  match svc with
  | 0 => arg
  | 1 => BitVec.ofInt 64 (quarterDegrees (s.coreTemp core))
  | 2 => BitVec.ofNat 64 (5 * s.oper.ceil % 2 ^ 16 + (s.die (dieOf core)).grant % 2 ^ 16 * 2 ^ 16)
  | 3 => BitVec.ofNat 64 s.stepping
  | _ => BitVec.allOnes 64

/-- The destination scalar of the `SYS` word on which a fragment stands. -/
def Frag.sysDst (g : Frag) : Option (BitVec 7) :=
  match g.current with
  | some (.dcall _ o) | some (.launch _ o) | some (.leaseReq _ o) | some (.leaseRet _ o) | some (.curve _ o) => some o.sd
  | _ => none

/-- The firmware core answers a parked `DCALL`: the status is written, and it is an acquire at device scope. -/
def execFirmwareCoreAnswer (fold fl fr : Nat) (s : State) : Host.Outcome State Fault Refusal :=
  .next <| s.eventFrag fold fl fr fun i =>
    match i.g.park, i.g.sysDst with
    | .firmware svc arg, some sd => i.next (i.setS (s.acquire i.x.core .device) sd (s.service i.x.core svc arg))
    | _, _ => s

/-! ### Special registers (Tables 3.2 to 3.4) -/

/-- The array has made its last unit of progress on the operation (R290). -/
def ArrayOp.isDone (a : ArrayOp) : Bool :=
  match a.opc with
  | 2 | 3 => decide (a.o.k.toNat ≤ a.kdone)
  | 4 => decide (128 ≤ a.kdone)
  | _ => decide (0 < a.kdone)

/-- `SR.ROWPROG` shows the oldest array operation of the stream, until its last write (Table 10.5). -/
def Fold.rowProg (x : Fold) : Nat :=
  match x.stream.bind (·.queue.head?) with
  | some a => if 2 ≤ a.opc ∧ a.opc ≤ 4 ∧ !a.isDone then a.kdone + a.rgdone * 2 ^ 13 + a.o.bank.toNat * 2 ^ 16 + (a.opc - 1) * 2 ^ 18 else 0
  | none => 0

/-- The microseconds that a lease has left at heartbeat count `now`, of 125 half ticks each, a started one counted whole. -/
def Lease.left (l : Lease) (now : Nat) : Nat := if l.active then (l.until' - 2 * now + 124) / 125 else l.remain

/-- `SR.LEASE` (Table 16.11). -/
def Lease.word (l : Lease) (now : Nat) : Nat := l.left now + bitOf l.active * 2 ^ 12 + bitOf l.susp * 2 ^ 13 + bitOf l.dropped * 2 ^ 14

/-- The value of a register that is not of lane scope. -/
def Iss.sr (i : Iss) (r : Sr) : Nat :=
  match r with
  | .flock => i.fl
  | .foldx => i.x.x
  | .foldy => i.x.y
  | .foldz => i.x.z
  | .paddock => i.x.padIdx
  | .core => i.x.lcore % 144
  | .cluster => i.x.lcore % 144 / 8
  | .die => i.x.lcore / 144
  | .width => i.w
  | .curve => (i.s.cluster (clusterOf i.x.core)).point.toNat
  | .fmember => i.g.members.toNat
  | .tagmap => i.x.tagReady.toNat
  | .fpctl => i.x.fpctl.toNat
  | .accbase => i.k.accBase.toNat
  | .acclim => i.k.accLim.toNat
  | .rowprog => i.x.rowProg
  | .replay => i.k.replay.toNat
  | .privhwm => i.k.privHwm
  | .heart => i.s.heart
  | .cycle => (i.s.core i.x.core).cycle
  | .lease => i.x.lease.word i.s.heart
  | _ => 0

/-- A lane's copy of a register of lane scope. -/
def Iss.laneSr (i : Iss) (r : Sr) (l : Nat) : W32 :=
  let t := i.thread l
  match r with
  | .laneid => BitVec.ofNat 32 l
  | .thread => BitVec.ofNat 32 t
  | .amax => Map.get 0 i.x.amax t
  | .srstate => Map.get 0 i.x.srstate t
  | .flags => Map.get 0 i.x.flags t
  | _ => 0

/-- At a look at the cycle count of the core, a free number of cycles has passed since the last. -/
def Iss.passTime (i : Iss) (r : Sr) : Iss :=
  if r = .cycle then { i with s := i.s.draw.2.modCore i.x.core fun c => { c with cycle := c.cycle + i.s.draw.1 } } else i

def execRdsr (h : Hdr) (o : SysOp) (s : State) : Host.Outcome State Fault Refusal :=
  onFrag s fun i =>
    match Sr.ofId o.srid with
    | none => i.next i.s
    | some r =>
      if r.lane then
        i.next <| i.modFold i.s fun x => (lanes (i.active h)).foldl
          (fun y l => y.setV (o.imm.toNat % 256) (i.thread l) (i.laneSr r l)) x
      else i.uniform h <|
        let j := i.passTime r
        j.next (j.setS j.s o.sd (BitVec.ofNat 64 (j.sr r)))

/-- A value of `SR.AMAX` that is reserved: bit 31 set, or a NaN (R125). -/
def amaxBad (v : W32) : Bool := v.msb || decide (0x7F800000 < v.toNat)

/-- Writes a lane's copy; bits that read as zero stay zero (R66, R67). -/
def Fold.setLaneSr (x : Fold) (r : Sr) (t : Nat) (v : W32) : Fold :=
  match r with
  | .amax => { x with amax := Map.set 0 x.amax t v }
  | .srstate => { x with srstate := Map.set 0 x.srstate t v }
  | .flags => { x with flags := Map.set 0 x.flags t (v &&& 0x1FF) }
  | _ => x

def execWrsr (h : Hdr) (o : SysOp) (s : State) : Host.Outcome State Fault Refusal :=
  onFrag s fun i =>
    match Sr.ofId o.srid with
    | none => i.next i.s
    | some r =>
      if r.lane then
        let ls := lanes (i.active h)
        let val (l : Nat) : W32 := i.vreg (o.imm.toNat % 256) l
        let bad := if r == .amax then ls.filter (fun l => amaxBad (val l)) else if r == .srstate || r == .flags then [] else ls
        if bad.isEmpty then
          i.next <| i.modFold i.s fun x => ls.foldl (fun y l => y.setLaneSr r (i.thread l) (val l)) x
        else i.fault .srAccess (bad.foldl (fun m l => m ||| bitMask l) 0) 0 0
      else i.uniform h <|
        let v := i.sval64 o.sa
        if r == .fpctl && decide (v.toNat % 8 < 6) then
          i.next (i.modFold i.s fun x => { x with fpctl := BitVec.ofNat 32 (v.toNat % 2 ^ 15) &&& 0x7F07 })
        else i.fault .srAccess (i.active h) 0 0

/-! ### `LAUNCH`, leases, checkpoints -/

/-- `LAUNCH`: a release at device scope, then the packet is read as a global load; the flock parks until the command
processor holds the copy (R198). -/
def execLaunch (h : Hdr) (o : SysOp) (s : State) : Host.Outcome State Fault Refusal :=
  onFrag s fun i => i.uniform h <|
    let s1 := i.s.release i.owner .device
    let a := (i.sval64 o.sa).toNat
    let r := i.resolve s1 .global .read 0 a 64
    let stopWith (t : State) (f : FInfo) : State := i.take t [({ f with addr := a }, i.active h)] .again
    match r.2 with
    | .error f => stopWith r.1 f
    | .ok sites =>
      let d := r.1.readSites i.owner i.x.core true (i.checks .global) .deflt sites
      match d.2 with
      | .error f => stopWith d.1 f
      | .ok bs => i.park d.1 (.cmdproc (BitVec.ofNat 512 (ofLe bs)))

/-- A lease is asked for, or returned: the flock parks until the arbiter's next grant (R199). -/
def execLeaseReq (h : Hdr) (o : SysOp) (s : State) : Host.Outcome State Fault Refusal :=
  onFrag s fun i => i.uniform h <|
    i.park i.s (.lease (some (i.sval64 o.sa)))

def execLeaseRet (h : Hdr) (_o : SysOp) (s : State) : Host.Outcome State Fault Refusal :=
  onFrag s fun i => i.uniform h <|
    i.park i.s (.lease none)

/-- `CKPT`: a release at device scope, then the step is recorded when it is greater than the recorded one (R202). -/
def execCkpt (h : Hdr) (o : SysOp) (s : State) : Host.Outcome State Fault Refusal :=
  onFrag s fun i => i.uniform h <|
    let s1 := i.s.release i.owner .device
    let v := i.sval64 o.sa
    if i.k.ckpt.any fun c => decide (v.toNat ≤ c.toNat) then i.next (i.setS s1 o.sd 1)
    else i.next (i.setS (i.modFlock s1 fun k => { k with ckpt := some v }) o.sd 0)

end Sys2Proof.Machine
end

