-- ==== Sys2Proof/Machine/Curve.lean ====
section
/-! DEFINITION. `MARK` and `CURVE` (R50 to R62, R200, R201): arming, the checks of Table 2.6, the rendezvous, the commit of a
move with the regrouping of its flocks, and the events that end it. -/

namespace Sys2Proof.Machine

/-! ### Mark descriptors (Tables 2.4, 2.5) -/

def descWidth (d : BitVec 480) : Nat := bits d.toNat 1 0
def descMask (d : BitVec 480) (j : Nat) : Nat := bits d.toNat (18 + 3 * j) (16 + 3 * j)
def descScalar (d : BitVec 480) (j : Nat) : Nat := bits d.toNat (66 + 3 * j) (64 + 3 * j)

/-- No reserved code and no nonzero zero field (R51, R52). -/
def descOk (d : BitVec 480) : Bool :=
  bits d.toNat 15 2 == 0 && bits d.toNat 63 61 == 0 && bits d.toNat 479 448 == 0
    && (List.range 15).all (fun j => descMask d j == 0 || descMask d j == 5)
    && (List.range 128).all (fun j => decide (descScalar d j ≤ 4))

/-- The width after the move. -/
def Fold.newWidth (x : Fold) (d : BitVec 480) : Nat := if descWidth d = 0 then x.width else 8 * 2 ^ descWidth d

/-! ### The idle/busy table (R362) -/

/-- At the end of a phase of a fold its counts are added to the entry of its core and phase; how many cycles of each
kind passed is free. An entry that cannot be written is passed over. -/
def State.countPhase (s : State) (x : Fold) : State :=
  let ibt := (s.grid? x.gid).elim 0 (·.lrec.ibt)
  if ibt = 0 then s
  else
    let d1 := s.draw
    let d2 := d1.2.draw
    let d3 := d2.2.draw
    let base := ibt + 32 * (16 * x.lcore + min x.marks 15)
    ([(0, d1.1), (8, d2.1), (16, d3.1), (24, 1)]).foldl (fun t p =>
      match t.virt x.ctx (base + p.1) (.atomic false) with
      | .error _ => t
      | .ok (l, k) => t.homeUpdate k l.crypt l.ml l.rp 0 .n64 p.2 0) d3.2

/-! ### `MARK` (R50, R51, R200) -/

/-- The mark arms: its descriptor is held, the fold's phase ends, and a pending migration is honoured (R362, R383). -/
def Iss.arm (i : Iss) (s : State) (pc : Pc) (d : BitVec 480) : State :=
  let s1 := if i.x.marks < 15 then s.countPhase i.x else s
  let s2 := i.modFold s1 fun x => { x with marks := x.marks + 1 }
  let s3 := i.modFlock s2 fun k => { k with armed := some { pc := pc, desc := d, markPc := i.g.pc } }
  (i.next s3).honour i.x.uid

/-- `MARK` (R200). It arms with one fragment and an empty divergence stack (R50, R305). A bad descriptor faults also where the mark
could not arm because the flock is divided (log 101, DESIGN CHOICE). -/
def execMark (h : Hdr) (o : SysOp) (s : State) : Host.Outcome State Fault Refusal :=
  onFrag s fun i => i.uniform h <|
    let at' := i.rel o.imm.toInt
    let bad := i.fault .markDesc (i.active h) 0 0
    if at' < 0 ∨ (2 ^ 55 : Nat) ≤ at' ∨ at' % 5 ≠ 0 then bad
    else
      let r := i.tableLine i.s (at'.toNat / 5)
      match r.2 with
      | .error f => i.take r.1 [(f, i.active h)] .again
      | .ok none => bad
      | .ok (some line) =>
        let d := BitVec.ofNat 480 line.toNat
        if bits (lineWord line) 31 18 ≠ 0 || !descOk d then bad
        else if i.k.frags.length = 1 ∧ i.k.splits.all (·.serial.isNone) then i.arm r.1 (BitVec.ofNat 55 at'.toNat) d
        else i.next r.1

/-! ### The rendezvous (R53, R54) -/

def Park.isCurve : Park → Bool
  | .curve => true
  | _ => false

/-- The fragment that is parked in the open rendezvous of its cluster. -/
def Flock.curveFrag (k : Flock) : Option Frag := k.frags.find? (·.park.isCurve)

/-- A fold takes part in the open rendezvous when one of its flocks is parked there and its move is not committed. -/
def Fold.inRdv (x : Fold) : Bool := x.moveTo.isNone && x.flocks.any (·.curveFrag.isSome)

/-- The slot at which a fragment goes on after a `CURVE`: the `NOP`s that fill its line are passed over (R135). -/
def Frag.afterPc (g : Frag) : Pc :=
  let line := g.pc.toNat / 5
  let slot := g.pc.toNat % 5
  let rest := (List.range 5).filter (slot < ·)
  let stops (j : Nat) : Bool :=
    match g.buf with
    | some b => !(match decode .code (slotWord b.data j) with | .ok .nop => true | _ => false)
    | none => false
  BitVec.ofNat 55 (5 * line + ((rest.find? stops).getD 5))

/-- A parked `CURVE` ends with a status. -/
def Flock.endCurve (k : Flock) (code : Nat) : Flock :=
  match k.curveFrag with
  | none => k
  | some g =>
    let k1 := match g.sysDst with | some sd => k.setS sd.toNat (BitVec.ofNat 64 code) | none => k
    ({ (k1.modFrag g.fid fun f => { f with pc := g.afterPc, park := .ready }) with armed := none, last := none, latOk := 0 } : Flock).settle
      k.splits.length

/-- A refusal closes the rendezvous of a cluster: every parked `CURVE` resumes after its line with the code (R54). A change of the
die's rail and a sensor hold close it too, with `REFUSED_HELD`: no die hosts points of both rails (R44; log 102, DESIGN CHOICE). -/
def State.closeRdv (s : State) (c code : Nat) : State :=
  if (s.cluster c).rdv.isNone then s
  else
    let s1 := s.modCluster c fun x => { x with rdv := none }
    { s1 with folds := s1.folds.map fun x =>
        if clusterOf x.core = c ∧ x.resident ∧ x.inRdv then { x with flocks := x.flocks.map (·.endCurve code) } else x }

/-- A request for a fold that takes part in an open rendezvous closes it with `REFUSED_HELD` (R54, R390): one of its flocks is parked
there, or the point changes and the fold, resident on the cluster, has a live flock (R53). -/
def State.heldBy (s : State) (u : Nat) : State :=
  match s.fold? u with
  | none => s
  | some x =>
    let c := clusterOf x.core
    match (s.cluster c).rdv with
    | none => s
    | some r => if x.resident && (x.inRdv || (r.target != (s.cluster c).point && x.flocks.any (·.live))) then s.closeRdv c 2 else s

/-- The folds that take part in a move to `target` asked for by fold `x`: itself, and every fold of the cluster that has a
live flock when the point changes (R53). -/
def State.movers (s : State) (x : Fold) (target : BitVec 3) : List Fold :=
  let c := clusterOf x.core
  if target = (s.cluster c).point then [x] else (s.foldsOnCluster c).filter fun y => y.uid == x.uid || y.flocks.any (·.live)

/-- A request is pending for a fold until the fold has stopped for it: not while it is saved or transferred (log 109, DESIGN CHOICE),
unless a pre-emption waits for its start or for the end of the transfer (R372, R390). -/
def Fold.asked (x : Fold) : Bool := x.wants.isSome || x.run.stops || x.preqAfter

/-- R14 for a width. -/
def widthOk (size w : Nat) : Bool := size % w == 0 && decide (w ≤ size) && decide (size ≤ min 2048 (64 * w))

/-- The checks at issue, in the order of Table 2.6, of a marked `CURVE` that is no no-op: the code of the refusal. -/
def State.curveRefusal (s : State) (x : Fold) (target : BitVec 3) (d : BitVec 480) (belongs : Bool) : Option Nat :=
  let c := clusterOf x.core
  let die := s.die (c / 18)
  let ms := s.movers x target
  if (s.cluster c).held || die.railChanging || ms.any Fold.asked then some 2
  else if decide (4 ≤ target.toNat) != railL die.cur then some 3
  else if ms.any (fun y => (s.grid? y.gid).any fun g => decide (target.toNat < g.lrec.clo) || decide (g.lrec.chi < target.toNat)) then some 4
  else if !widthOk x.size (x.newWidth d) then some 5
  else if (s.cluster c).rdv.isSome && !belongs then some 6
  else none

/-! ### Regrouping (R56 to R60) -/

/-- The old flocks that hold the threads of new flock `j`, by index. -/
def constituents (w w' j : Nat) : List Nat :=
  if w ≤ w' then (List.range (w' / w)).map (j * (w' / w) + ·) else [j * w' / w]

/-- A lane mask of new flock `j`, from the bits that its threads have in the masks `f` of their old flocks. -/
def reslice (w w' j : Nat) (f : Nat → Mask) : Mask :=
  (List.range w').foldl (fun m l =>
    let t := j * w' + l
    if (f (t / w)).getLsbD (t % w) then m ||| bitMask l else m) 0

/-- The value of a scalar under a merge policy (Table 2.5), over the constituents that count. -/
def mergeScalar (pol : Nat) (vs : List W64) : W64 :=
  match pol, vs with
  | 0, _ => 0
  | _, [] => 0
  | 3, v :: r => r.foldl (· + ·) v
  | 4, v :: r => r.foldl (fun a b => if a.toInt < b.toInt then b else a) v
  | _, v :: _ => v

/-- The step of a merged flock: the smallest, or none where a live constituent holds none (R202). -/
def mergeStep (l : List (Option W64)) : Option W64 :=
  if l.any (·.isNone) then none
  else match l.filterMap id with
    | [] => none
    | v :: r => some (r.foldl (fun a b => if b.toNat < a.toNat then b else a) v)

/-- The step that a fold has: the smallest of its live flocks, or none while one of them has recorded none (R202, R315). -/
def Fold.step (x : Fold) : Option W64 := mergeStep ((x.flocks.filter (·.live)).map (·.ckpt))

/-- New flock `j` of fold `x` at width `w'` under a descriptor; its party is given later. Unfused splits whose other half has
exited stay (R62): a merged flock keeps those of its lowest live constituent, and the children of a split share the entries of
their parent, which its first child holds (log 103, DESIGN CHOICE). A flock within a kill scope stays there (R34). -/
def Fold.regrouped (x : Fold) (d : BitVec 480) (w' j : Nat) : Flock :=
  let old (n : Nat) : Flock := (x.flocks[n]?).getD (Flock.blank)
  let cons := (constituents x.width w' j).map old
  let live := cons.filter (·.live)
  let src := if live.isEmpty then cons else live
  let split := decide (w' < x.width)
  let pick (f : Flock → Mask) : Mask := reslice x.width w' j fun n => f (old n)
  let members := pick fun k => k.frags.foldl (fun m g => m ||| g.members) 0
  let execs := pick fun k => k.frags.foldl (fun m g => m ||| g.exec) 0
  let head := src.head?.getD (Flock.blank)
  { head with
    s := (List.range 128).foldl (fun m r =>
      Map.set 0 m r (mergeScalar (if split && descScalar d r != 0 then 1 else descScalar d r) (src.map (·.sreg r)))) []
    m := (List.range 15).foldl (fun m r => Map.set 0 m r (if descMask d r = 0 then 0 else pick fun k => Map.get 0 k.m r)) []
    lat := [], latOk := 0
    tkErr := cons.foldl (fun e k => e ||| k.tkErr) 0
    replay := 0, replayFid := none
    privHwm := src.foldl (fun n k => max n k.privHwm) 0
    ckpt := mergeStep (src.map (·.ckpt))
    passed := (List.range 25).foldl (fun m key =>
      Map.set 0 m key (pick fun k => if k.live then Map.get 0 k.passed key else 0)) []
    stop := none, last := none, armed := none, dying := cons.any (·.dying), behind := []
    splits := if j * w' % x.width = 0 then head.splits else head.splits.map fun sp => { sp with entries := 0 }
    frags := if members = 0 then []
      else match head.curveFrag with
        | some g => [{ g with fid := 0, members := members, exec := execs, pc := g.afterPc }]
        | none => [] }

/-- The bits of new flock `j` in a fold barrier's masks (R60). -/
def Fold.rebar (x : Fold) (w' : Nat) (b : BarSt) : BarSt :=
  let n := x.size / w'
  let bitsOf (f : Nat → Bool) : Mask := (List.range n).foldl (fun m j => if f j then m ||| bitMask j else m) 0
  let alive (k : Nat) : Bool := (x.flocks[k]?).any (·.live)
  let spread (m : Mask) (j : Nat) : Bool :=
    let cons := constituents x.width w' j
    let live := cons.filter alive
    (if live.isEmpty then cons else live).any fun k => m.getLsbD k
  { b with members := bitsOf (spread b.members), arrived := bitsOf (spread b.arrived), permanent := bitsOf (spread b.permanent) }

/-- A disagreement among live constituents that refuses a merge (R52, R57, R60). -/
def State.disagree (s : State) (x : Fold) (d : BitVec 480) (w' : Nat) : Bool :=
  (List.range (x.size / w')).any fun j =>
    let live := (constituents x.width w' j).filter fun n => (x.flocks[n]?).any (·.live)
    match live with
    | [] => false
    | a :: rest =>
      match x.flocks[a]? with
      | none => false
      | some ka =>
        rest.any fun n =>
          match x.flocks[n]? with
          | none => false
          | some kn =>
            kn.accBase != ka.accBase || kn.accLim != ka.accLim
              || (List.range 128).any (fun r => descScalar d r == 2 && kn.sreg r != ka.sreg r)
              || (List.range 17).any (fun key =>
                let b := s.bar x key
                b.members.getLsbD a != b.members.getLsbD n || b.arrived.getLsbD a != b.arrived.getLsbD n)
              || (List.range 8).any (fun q =>
                let b := s.bar x (17 + q)
                b.has (bitMask x.padIdx) && !b.arrived.getLsbD x.padIdx && ka.padArr.getLsbD q != kn.padArr.getLsbD q)

/-- Party numbers of the new flocks (R58): a merged flock keeps that of its lowest live constituent; the first child of a
split keeps its parent's, whose phase rises, and every other child takes a fresh one. -/
def State.regroupParties (s : State) (old : Fold) (w' : Nat) : State :=
  let n := old.size / w'
  let partyOf (k : Nat) : BitVec 16 := (old.flocks[k]?).elim 0xFFFF (·.party)
  let alive (k : Nat) : Bool := (old.flocks[k]?).any (·.live)
  (List.range n).foldl (fun t j =>
    let cons := constituents old.width w' j
    if old.width ≤ w' then
      match cons.filter alive with
      | [] => t
      | _ :: rest => rest.foldl (fun u k => u.retire (partyOf k)) t
    else if j * w' % old.width = 0 then
      let o : Owner := .flock old.uid (j * w') (j * w' + w')
      if (cons.filter alive).isEmpty then t else t.raise o
    else if (cons.filter alive).isEmpty then t
    else
      let p := t.newParty
      p.2.modFlock old.uid j fun k => { k with party := p.1 }) s

/-- The buffered writes of a fold's flocks bear the marks that they had before a change of width, and the releases of parties
that the change retires, or whose phase it raises, raise no phase any more (R58). -/
def State.sealFold (s : State) (x : Fold) (w' : Nat) : State :=
  let s1 := x.flocks.foldl (fun t k => t.seal k.party t.nextId) s
  let keeps (o : Owner) : Bool :=
    match o with
    | .flock u lo _ => u != x.uid || (decide (x.width ≤ w') && (x.flocks[lo / x.width]?).any (fun k =>
        ((constituents x.width w' (lo / w')).find? fun n => (x.flocks[n]?).any (·.live)).any fun n => (x.flocks[n]?).any (·.party == k.party)))
    | _ => true
  { s1 with pend := s1.pend.map fun e =>
      match e.kind with
      | .release sc h true => if keeps e.owner then e else { e with kind := .release sc h false }
      | _ => e }

/-- The regrouping of a fold at a committed move. -/
def State.regroup (s : State) (u : Nat) (d : BitVec 480) (w' : Nat) : State :=
  match s.fold? u with
  | none => s
  | some x =>
    let n := x.size / w'
    let s1 := (s.sealFold x w').modFold u fun y =>
      { y with width := w', flocks := (List.range n).map (x.regrouped d w'),
               bars := (List.range 17).foldl (fun m key =>
                 Map.set BarSt.none m key (x.rebar w' (Map.get BarSt.none x.bars key))) y.bars }
    let s2 := s1.regroupParties x w'
    (List.range n).foldl (fun t j =>
      let was := (constituents x.width w' j).any fun k => (x.flocks[k]?).any (·.live)
      match (t.fold? u).bind (·.flocks[j]?) with
      | some k => if was && !k.live then t.endFlock u j else t
      | none => t) s2

/-! ### The commit (R53 to R55) -/

/-- Fresh party numbers that a split of a fold takes (R58). -/
def Fold.freshParties (x : Fold) (w' : Nat) : Nat := if w' < x.width then (x.flocks.filter (·.live)).length * (x.width / w' - 1) else 0

/-- The descriptor of a fold that has wholly arrived: each of its live flocks is parked. Flocks that stand at one `CURVE` armed by
different `MARK`s move together under the descriptor of the lowest live flock (log 108, DESIGN CHOICE). -/
def Fold.arrivedDesc (x : Fold) : Option (BitVec 480) :=
  let live := x.flocks.filter (·.live)
  if live.isEmpty || !live.all (·.curveFrag.isSome) then none else (live.head?.bind (·.armed)).map (·.desc)

/-- One participating fold moves. -/
def State.moveFold (s : State) (u : Nat) : State :=
  match s.fold? u with
  | none => s
  | some x =>
    match x.arrivedDesc with
    | none => s
    | some d =>
      let w' := x.newWidth d
      let sd := (x.flocks.filterMap (·.curveFrag)).head?.bind (·.sysDst)
      let done (k : Flock) : Flock :=
        match sd with
        | some r => if k.live then k.setS r.toNat 0 else k
        | none => k
      let s1 :=
        if w' = x.width then
          s.modFold u fun y => { y with flocks := y.flocks.map fun k =>
            match k.curveFrag with
            | some g => { (k.modFrag g.fid fun f => { f with pc := g.afterPc }) with armed := none, last := none, latOk := 0 }
            | none => k }
        else s.regroup u d w'
      s1.modFold u fun y => { y with moveTo := some w', flocks := y.flocks.map done }

/-- The group of folds that can move now in the rendezvous of a cluster: with a change of point all of them together, else
those that have wholly arrived. -/
def State.moveGroup (s : State) (c : Nat) (target : BitVec 3) : List Fold :=
  let here := (s.foldsOnCluster c).filter fun x => x.flocks.any (·.live)
  let ready := here.filter fun x => x.moveTo.isNone && x.arrivedDesc.isSome
  if target = (s.cluster c).point then ready else if ready.length = here.length then here else []

/-- The checks once every participant has arrived: flock slots and merges (R54, R59). -/
def State.finalRefusal (s : State) (c : Nat) (group : List Fold) : Option Nat :=
  let flocksOf (x : Fold) : Nat :=
    match group.find? (·.uid == x.uid) with
    | some y => y.size / (y.arrivedDesc.elim y.width y.newWidth)
    | none => x.size / x.width
  if (List.range 8).any fun j => decide (64 < sumNat ((s.foldsOnCore (8 * c + j)).map flocksOf)) then some 5
  else if group.any fun x => match x.arrivedDesc with
      | some d => decide (x.width < x.newWidth d) && s.disagree x d (x.newWidth d)
      | none => false then some 7
  else none

/-- The last participant has arrived: the move is refused, waits for party numbers, or commits (R55, R58). -/
def State.tryMove (s : State) (c : Nat) : State :=
  match (s.cluster c).rdv with
  | none => s
  | some r =>
    let group := s.moveGroup c r.target
    if group.isEmpty then
      (if (s.foldsOnCluster c).any Fold.inRdv then s else s.modCluster c fun x => { x with rdv := none })
    else
      match s.finalRefusal c group with
      | some code => s.closeRdv c code
      | none =>
        if s.poolFree < sumNat (group.map fun x => x.freshParties (x.arrivedDesc.elim x.width x.newWidth)) then s
        else
          let s1 := group.foldl (fun t x => t.moveFold x.uid) s
          let s2 := s1.modCluster c fun x =>
            { x with point := r.target, settling := x.settling || x.point != r.target }
          if (s2.foldsOnCluster c).any Fold.inRdv then s2 else s2.modCluster c fun x => { x with rdv := none }

/-- `CURVE` (R53, R54, R201). -/
def execCurve (h : Hdr) (o : SysOp) (s : State) : Host.Outcome State Fault Refusal :=
  onFrag s fun i => i.uniform h <|
    let c := clusterOf i.x.core
    let target := BitVec.ofNat 3 o.imm.toNat
    let belongs := (i.s.cluster c).rdv.any fun r => r.target == target &&
      i.x.flocks.all fun k => k.curveFrag.all fun g => g.pc == i.g.pc
    let parked (s : State) : State := i.park s .curve
    let ends (code : Nat) (s : State) : State := i.modFlock (parked s) fun k => k.endCurve code
    let refuse (code : Nat) : State := if belongs then (ends code i.s).closeRdv c code else ends code i.s
    match i.k.armed with
    | none => refuse 1
    | some a =>
      if target = (i.s.cluster c).point ∧ i.x.newWidth a.desc = i.x.width then ends 0 i.s
      else
        match i.s.curveRefusal i.x target a.desc belongs with
        | some code => refuse code
        | none =>
          ((parked i.s).modCluster c fun x =>
            { x with rdv := some (x.rdv.getD { target := target, opened := i.s.heart }) }).tryMove c

/-! ### Events of a move -/

/-- A flock parked in a move is ready again. -/
def Flock.wakeCurve (k : Flock) : Flock :=
  ({ k with frags := k.frags.map fun g => if g.park.isCurve then { g with park := .ready } else g } : Flock).settle k.splits.length

/-- The end of a fold's move: it resumes at the new point and width (R55). -/
def State.endMove (s : State) (u : Nat) : State :=
  s.modFold u fun x => if x.moveTo.isSome then { x with moveTo := none, flocks := x.flocks.map (·.wakeCurve) } else x

/-- A fold's re-partition has ended, after the settling where the point changed; a kill that came after the commit is served now
(R55). -/
def execCurveMoveEnd (fold : Nat) (s : State) : Host.Outcome State Fault Refusal :=
  .next <|
    match s.fold? fold with
    | none => s
    | some x => 
      if (s.cluster (clusterOf x.core)).settling then s
      else if x.moveTo.isSome && x.killAfter then (s.endMove fold).killFold fold else s.endMove fold

/-- A rendezvous open for 4,000 heartbeat ticks closes with `REFUSED_TIMEOUT` (R54). -/
def execCurveTimeout (cl : Nat) (s : State) : Host.Outcome State Fault Refusal :=
  .next <|
    match (s.cluster cl).rdv with
    | none => s
    | some r => if r.opened + 4000 ≤ s.heart then s.closeRdv cl 8 else s

/-- The bias generator has settled and the clock relocked (R49, R55). -/
def execSettlingAndRelockEnd (cl : Nat) (s : State) : Host.Outcome State Fault Refusal :=
  .next (s.modCluster cl fun x => { x with settling := false })

end Sys2Proof.Machine
end

