-- ==== Sys2Proof/Machine/Sync.lean ====
section
/-! DEFINITION. Fences, tags and tokens of the `SYN` format (R251 to R253, R267 to R270), and the heartbeat. -/

namespace Sys2Proof.Machine

/-! ### Fences -/

/-- `FENCE` (R252): the acquire is complete at once, since every earlier value is fixed; the release holds the flock's later
writes until it is made, and raises the phase then. -/
def execFence (h : Hdr) (o : SynOp) (s : State) : Host.Outcome State Fault Refusal :=
  onFrag s fun i => i.uniform h <|
    let s1 := if o.fk.toNat % 2 = 1 then i.s.acquire i.x.core o.scope else i.s
    let p := s1.newId
    i.next (if 2 ≤ o.fk.toNat then i.pushRelease p.2 p.1 o.scope true true else s1)

/-- `FENCE_SC`: the drain and the release at once, then the wait for a tick (R253, R329, R330). -/
def execFenceSc (h : Hdr) (o : SynOp) (s : State) : Host.Outcome State Fault Refusal :=
  onFrag s fun i => i.uniform h <|
    i.park ((i.s.release i.owner o.scope).acquire i.x.core o.scope) (.fenceSc (o.scope == .domain))

/-- The destination scalar of the `FENCE.SC` on which a fragment stands. -/
def Frag.fenceDst (g : Frag) : Option (BitVec 7) :=
  match g.current with
  | some (.fenceSc _ o) => some o.sd
  | _ => none

/-- The fence ends with its tick: no line that the L1 held before serves a later access. -/
def Iss.fenceEnd (i : Iss) (s : State) (tick : Nat) : State :=
  match i.g.fenceDst with
  | some sd => i.next (i.setS (s.acquire i.x.core .device) sd (BitVec.ofNat 64 tick))
  | none => s

/-- The fragments whose fence a tick ends: of each flock one, since fences of one flock are never given equal ticks. A fence issues only
when no earlier one of its flock waits for the same kind of tick (`Iss.fenced`), so that ticks rise in the order of issue (R329). -/
def State.fenceWaiters (s : State) (dom : Bool) : List (Nat × Nat × Nat) :=
  s.folds.flatMap fun x => (x.flocks.zipIdx).filterMap fun p =>
    (p.1.frags.find? (·.park.isFence dom)).map fun g => (x.uid, p.2, g.fid)

/-- A device heartbeat tick ends the waiting device fences and lets an open rendezvous be looked at again; a domain tick
starts the last wait of the waiting domain fences. Records that wait for a later tick are written (R368). -/
def execHeartbeatTick (dom : Bool) (s : State) : Host.Outcome State Fault Refusal :=
  .next <|
    let ws := s.fenceWaiters dom
    let at' (t : State) (w : Nat × Nat × Nat) (f : Iss → State) : State :=
      match t.iss? w.1 w.2.1 w.2.2 with
      | some i => f i
      | none => t
    if dom then
      let s1 : State := { s with domTicks := s.domTicks + 1 }
      ws.foldl (fun t w => at' t w fun i => i.park t (.domDelay (s.domTicks + 1))) s1
    else
      let s1 := [0, 1, 2].foldl (fun t d => t.count 3 (8 * d + (t.die d).cur) 1) { s with heart := s.heart + 1 }
      let s2 := ws.foldl (fun t w => at' t w fun i => i.fenceEnd t (s.heart + 1)) s1.flushAll
      (List.range 54).foldl State.tryMove s2

/-- `DOMAIN_FENCE_SC_DELAY` (R330). -/
def execDomainFenceScDelay (fold fl fr : Nat) (s : State) : Host.Outcome State Fault Refusal :=
  .next <|
    match s.iss? fold fl fr with
    | none => s
    | some i =>
      match i.g.park with
      | .domDelay n => i.fenceEnd s n
      | _ => s

/-! ### Tags -/

/-- The tag mask of a `SYN` word. -/
def Iss.tagMask (i : Iss) (o : SynOp) : Mask := i.sval64 o.sa

/-- A mask bit at or above the fold's tag count faults (R267). -/
def Iss.withTags (i : Iss) (h : Hdr) (o : SynOp) (f : Mask → State) : State :=
  i.uniform h <|
    match i.g.park with
    | .tag m _ => f m
    | _ =>
      let m := i.tagMask o
      if m.toNat < 2 ^ i.x.tags then f m else i.fault .tagRange (i.active h) 0 0

/-- The scope at which finding the tags of a mask ready is an acquire. At fold scope it reaches a job that writes into the fold (Table
12.1), and so what another core had written before that job was issued: no older line of the L1 may serve what follows (R321, R323;
log 129, DEDUCED). -/
def Iss.tagScope (i : Iss) (sc : Scope) (m : Mask) : Scope :=
  if sc = .fold ∧ i.x.tagReady &&& m &&& i.x.tagFar ≠ 0 then .paddock else sc

/-- A `TAGW` looks at its tags, and waits or ends. -/
def Iss.tagw (i : Iss) (o : SynOp) (m : Mask) (dl : Option Nat) (late : Bool) : State :=
  let ends (t : State) : State := i.next (i.setS t o.sd (i.x.tagReady &&& m))
  if tagsReady (o.bar.toNat % 2 == 1) i.x.tagReady m then ends (i.s.acquire i.x.core (i.tagScope o.scope m))
  else if late then ends i.s
  else i.park i.s (.tag m dl)

def execTagw (h : Hdr) (o : SynOp) (s : State) : Host.Outcome State Fault Refusal :=
  onFrag s fun i => i.withTags h o fun m =>
    i.tagw o m (match i.g.park with | .tag _ dl => dl | _ => i.s.deadline o.tmo) false

/-- `TAGW_TIMEOUT`. -/
def execTagwTimeout (fold fl fr : Nat) (s : State) : Host.Outcome State Fault Refusal :=
  .next <| s.eventFrag fold fl fr fun i =>
    match i.g.park, i.g.synOp with
    | .tag m (some d), some o => if d ≤ s.heart then i.tagw o m (some d) true else s
    | _, _ => s

def execTagff (h : Hdr) (o : SynOp) (s : State) : Host.Outcome State Fault Refusal :=
  onFrag s fun i => i.withTags h o fun m =>
    let t := ffs (i.x.tagReady &&& m)
    let s1 := if t < 64 then i.s.acquire i.x.core (i.tagScope o.scope (bitMask t)) else i.s
    i.next (i.setS s1 o.sd (BitVec.ofNat 64 (t + if i.x.tagErr.getLsbD t then 2 ^ 8 else 0)))

/-- `TAGREL` (R269). What the flock, or another flock of its core before it, has written into the receiver is there before a
copy whose issue was held on the tag writes (R321). -/
def execTagrel (h : Hdr) (o : SynOp) (s : State) : Host.Outcome State Fault Refusal :=
  onFrag s fun i => i.withTags h o fun m =>
    let s0 := (i.s.release i.owner o.scope).drain fun e => e.inFold i.x.uid && (e.visible || e.owner.meets i.owner)
    let s1 := i.modFold s0 fun x => { x with tagReady := x.tagReady &&& ~~~m, tagErr := x.tagErr &&& ~~~m, tagFar := x.tagFar &&& ~~~m }
    i.next (i.setS s1 o.sd (i.x.tagErr &&& m))

/-! ### Tokens -/

/-- `TOKW` (R270). -/
def execTokw (h : Hdr) (o : SynOp) (s : State) : Host.Outcome State Fault Refusal :=
  onFrag s fun i => i.uniform h <|
    let m : BitVec 8 := match i.g.park with | .tokw m => m | _ => BitVec.ofNat 8 (i.sval64 o.sa).toNat
    if (List.range 8).any fun t => m.getLsbD t && i.tokCount t != 0 then i.park i.s (.tokw m)
    else
      let s1 := i.modFlock (i.s.acquire i.x.core .fold) fun k => { k with tkErr := k.tkErr &&& ~~~m }
      i.next (i.setS s1 o.sd (BitVec.ofNat 64 (i.k.tkErr &&& m).toNat))

end Sys2Proof.Machine
end

