-- ==== Sys2Proof/Machine/Tensor.lean ====
section
/-! DEFINITION. Tensor identifier records (R91 to R94): their fields and checks, where an element lies, boxes and footprints,
and how an engine or the matrix array reads and writes elements. -/

namespace Sys2Proof.Machine

/-! ### Fields of a record (Table 3.10) -/

def recBase (d : Line) : Nat := bits d.toNat 56 0
def recSBase (d : Line) : Nat := bits d.toNat 120 64
def recTy (d : Line) : Ty := (Ty.ofCode (bits d.toNat 132 128)).getD .b32
def recRank (d : Line) : Nat := bits d.toNat 135 133
def recPlane (d : Line) : Bool := d.getLsbD 136
def recManaged (d : Line) : Bool := d.getLsbD 137
def recGran (d : Line) : Nat :=
  match bits d.toNat 140 138 with
  | 0 => 64 | 1 => 256 | 2 => 2048 | _ => 65536
def recMx (d : Line) : Bool := bits d.toNat 142 141 == 1
def recValid (d : Line) : Bool := d.getLsbD 143
def recDim (d : Line) (i : Nat) : Nat := bits d.toNat (223 + 32 * i) (192 + 32 * i)
/-- The stride of dimension `i`; dimension 0 has stride 1 (R92). -/
def recStr (d : Line) (i : Nat) : Nat := if i = 0 then 1 else bits d.toNat (383 + 32 * i) (352 + 32 * i)
def recBits (d : Line) : Nat := (recTy d).bits

/-- The dimensions of a record, and the strides along them. -/
def recDims (d : Line) : List Nat := (List.range (recRank d)).map (recDim d)
def recStrs (d : Line) : List Nat := (List.range (recRank d)).map (recStr d)

/-- The form that a valid record has (R92). -/
def recFormOk (d : Line) : Bool :=
  let z (hi lo : Nat) : Bool := bits d.toNat hi lo == 0
  let r := recRank d
  let mult (n : Nat) : Bool := decide (recDim d 0 % n = 0) && ((List.range r).drop 1).all fun i => decide (recStr d i % n = 0)
  z 63 57 && z 127 121 && z 191 144 && z 383 352
    && (Ty.ofCode (bits d.toNat 132 128)).isSome && decide (1 ≤ r) && decide (r ≤ 5)
    && decide (bits d.toNat 140 138 ≤ 3) && decide (bits d.toNat 142 141 ≤ 1) && (recMx d || z 120 64)
    && (List.range 5).all (fun i => if i < r then recDim d i != 0 else recDim d i == 0 && (i == 0 || recStr d i == 0))
    && (!recPlane d || decide (recBits d ≤ 8)) && (recTy d == .mxf4) == recMx d
    && (!recMx d || mult 32) && (!recPlane d || mult 64)

/-- What an instruction that names a record meets at issue (R92); one whose guard selects no lane meets only `TID_INVALID`
(R41). -/
def recFault (active : Bool) (tid : Nat) (d : Line) : Option FInfo :=
  if !recValid d then some { cause := .tidInvalid, addr := 0, aux := tid, page := none }
  else if active && !recFormOk d then some { cause := .tidFormat, addr := 0, aux := tid, page := none }
  else none

/-! ### Elements (R93) -/

/-- The byte and the bit in it of bit `i` of element `e`, for elements of `b` bits from byte address `base` on. -/
def bitPlace (plane : Bool) (b base e i : Nat) : Nat × Nat :=
  if plane then (base + e / 64 * (8 * b) + 8 * i + e % 64 / 8, e % 8) else (base + (e * b + i) / 8, (e * b + i) % 8)

/-- The bytes that element `e` touches. -/
def elemBytes (plane : Bool) (b base e : Nat) : List Nat := nubNat ((List.range b).map fun i => (bitPlace plane b base e i).1)

/-- The bits of element `e` in the byte at address `a`: their mask, and their values for the code `c`. -/
def bitsIn (plane : Bool) (b base e a c : Nat) : Nat × Nat :=
  (List.range b).foldl (fun (p : Nat × Nat) i =>
    let q := bitPlace plane b base e i
    if q.1 = a then (p.1 + 2 ^ q.2, p.2 + if bit c i then 2 ^ q.2 else 0) else p) (0, 0)

/-- The code of element `e` from the bytes that it touches. -/
def codeFrom (plane : Bool) (b base e : Nat) (get : Nat → Nat) : Nat :=
  sumNat ((List.range b).map fun i => if bit (get (bitPlace plane b base e i).1) (bitPlace plane b base e i).2 then 2 ^ i else 0)

/-- The bytes that `n` packed elements of `b` bits take, and with their scales for MX (R258). -/
def packedElems (plane : Bool) (b n : Nat) : Nat := if plane then n / 64 * (8 * b) else (n * b + 7) / 8
def packedBytes (d : Line) (n : Nat) : Nat :=
  let e := packedElems (recPlane d) (recBits d) n
  if recMx d then roundUp 16 e + n / 32 else e

/-! ### Boxes (R256, R264) -/

/-- A start and an extent along each dimension. -/
abbrev Ranges := List (Nat × Nat)

def boxCount (x : Ranges) : Nat := x.foldl (fun n p => n * p.2) 1

/-- The element offset of the `k`-th element of a box, dimension 0 fastest. -/
def boxElem : Ranges → List Nat → Nat → Nat
  | (st, ex) :: r, str :: q, k => (st + k % ex) * str + boxElem r q (k / ex)
  | _, _, _ => 0

/-- A box is legal for a record (R256). -/
def boxOk (d : Line) (x : Ranges) : Bool :=
  let m (n : Nat) : Bool := match x with | p :: _ => decide (p.1 % n = 0) && decide (p.2 % n = 0) | [] => true
  (x.zip (recDims d)).all (fun p => p.1.2 != 0 && decide (p.1.1 + p.1.2 ≤ p.2)) && (!recMx d || m 32) && (!recPlane d || m 64)

/-- The lowest and the highest element offset of a box. -/
def boxEnds (d : Line) (x : Ranges) : Nat × Nat :=
  let z := x.zip (recStrs d)
  (z.foldl (fun n p => n + p.1.1 * p.2) 0, z.foldl (fun n p => n + (p.1.1 + p.1.2 - 1) * p.2) 0)

/-- A byte range rounded outward to a granule. -/
def grainBox (space fold g lo hi : Nat) : Box := { space := space, fold := fold, lo := lo / g * g, hi := roundUp g hi }

/-- The footprint of a box: its elements, and its scales for MX. -/
def boxFoot (d : Line) (x : Ranges) : Box :=
  let e := boxEnds d x
  let b := recBits d
  if recPlane d then grainBox 0 0 (recGran d) (recBase d + e.1 / 64 * (8 * b)) (recBase d + (e.2 / 64 + 1) * (8 * b))
  else grainBox 0 0 (recGran d) (recBase d + e.1 * b / 8) (recBase d + ((e.2 + 1) * b + 7) / 8)
def scaleFoot (d : Line) (x : Ranges) : Box :=
  let e := boxEnds d x
  grainBox 0 0 (recGran d) (recSBase d + e.1 / 32) (recSBase d + e.2 / 32 + 1)

def Box.meets (p q : Box) : Bool := p.space == q.space && p.fold == q.fold && decide (p.lo < q.hi) && decide (q.lo < p.hi)

/-- Job `q` starts no chunk before the earlier job `p` completes (R265). -/
def Card.holdsBack (p q : Card) : Bool :=
  p.ctx == q.ctx && p.core == q.core && (p.writes.any (fun w => (q.reads ++ q.writes).any w.meets) || p.reads.any fun r => q.writes.any r.meets)

/-- An earlier card of the same context and core holds the card back. -/
def State.heldBack (s : State) (c : Card) : Bool := (s.cards.takeWhile (·.cid != c.cid)).any (·.holdsBack c)

/-! ### Accesses of a unit -/

/-- A unit that accesses memory for a fold: its party, its core and context, whether the race detector checks it, whether it
reads through the L1, the issuer whose next remote access may not be answered, and whether its writes leave the race metadata as
they are (R91). -/
structure Agent where
  owner : Owner
  core : Nat
  ctx : Nat
  check : Bool
  l1 : Bool
  who : Option Party
  silent : Bool := false
  deriving DecidableEq, Repr

/-- A record as far as its accesses go: its identifier and whether its pages are managed (R94); none for other accesses. -/
abbrev Resid := Option (Nat × Bool)

/-- The pieces of `n` bytes at a virtual address, with the agreement of R94. -/
def Agent.sites (u : Agent) (s : State) (rs : Resid) (acc : Acc) (va n : Nat) : State × Except FInfo (List Site) :=
  let r := s.globalSites u.core u.ctx u.who acc va n
  match r.2, rs with
  | .ok l, some (tid, ml) =>
    if l.any (fun t => t.managed != ml) then (r.1, .error { cause := .tidResidency, addr := va, aux := tid, page := none }) else (r.1, .ok l)
  | _, _ => r

/-- Bytes read at a virtual address. -/
def Agent.read (u : Agent) (s : State) (rs : Resid) (va n : Nat) : State × Except FInfo (List Byte) :=
  let r := u.sites s rs .read va n
  match r.2 with
  | .error f => (r.1, .error f)
  | .ok l =>
    let q := r.1.readSites u.owner u.core u.l1 u.check .deflt l
    match q.2 with
    | .error f => (q.1, .error { f with addr := va })
    | .ok bs => (q.1, .ok bs)

/-- One piece written at its home, after the writes there that the unit's core has made visible, those into the fold that it
reaches that any core has (R317, R321), and those that were checked in its line before it (R325); the core's L1 keeps no older
copy. -/
def Agent.put (u : Agent) (s : State) (t : Site) (bs : List Byte) : State :=
  let first (e : Pend) : Bool :=
    (match t.loc with
      | .mem _ => e.seenBy u.owner u.core && e.overlaps t.loc t.n
      | .scr v _ | .win v _ _ => e.inFold v && (e.visible || e.owner.meets u.owner))
      || (u.check && e.checked && !e.owner.meets u.owner && e.sameLine t.loc t.n)
  let s0 := s.drain first
  let s1 := s0.writeSite u.owner u.core u.check t bs
  let s2 : State := if u.silent then { s1 with marks := s0.marks } else s1
  match t.loc with
  | .mem k => s2.modCore u.core fun c => c.dropLine (k / 64)
  | _ => s2

/-- The tile of a piece on a managed page, to which no unit of this kind writes through a log, is fetched (R99). -/
def State.fetchSite (s : State) (t : Site) : State :=
  match t.loc with
  | .mem k => if t.managed then s.applyRange k t.n else s
  | _ => s

/-- The home of a piece answers a write of a unit with an error (R105, R401, R420). -/
def State.refuses (s : State) (t : Site) : Bool :=
  match t.loc with
  | .mem k => !s.takes t.crypt k
  | _ => false

/-- Pieces checked, then written. A home that refuses one of them answers the unit, and so a `TIDW`, with an error (log 122, DESIGN
CHOICE). -/
def Agent.write (u : Agent) (s : State) (l : List Site) (va : Nat) (bs : List Byte) : State × Except FInfo Unit :=
  match l.findSome? (s.checkWrite u.owner u.check) with
  | some f => (s, .error { f with addr := va })
  | none =>
    let s1 := l.foldl State.fetchSite s
    match l.find? s1.refuses with
    | some t => (s1, .error { t.memError with addr := va, page := none })
    | none => ((spread l bs).foldl (fun t p => u.put t p.1 p.2) s1, .ok ())

/-- Bytes at addresses `as`, by address. -/
def Agent.readAll (u : Agent) (rs : Resid) : List Nat → State → State × Except FInfo (List (Nat × Nat))
  | [], s => (s, .ok [])
  | a :: r, s =>
    let p := u.read s rs a 1
    match p.2 with
    | .error f => (p.1, .error f)
    | .ok bs =>
      let q := u.readAll rs r p.1
      match q.2 with
      | .error f => (q.1, .error f)
      | .ok l => (q.1, .ok ((a, ofLe bs) :: l))

def findByte (l : List (Nat × Nat)) (a : Nat) : Nat := ((l.find? (·.1 == a)).map (·.2)).getD 0

def residOf (tid : Nat) (d : Line) : Resid := some (tid, recManaged d)

/-- The code of element `e` of a record. -/
def Agent.readElem (u : Agent) (s : State) (tid : Nat) (d : Line) (e : Nat) : State × Except FInfo Nat :=
  let as := elemBytes (recPlane d) (recBits d) (recBase d) e
  let r := u.readAll (residOf tid d) as s
  match r.2 with
  | .error f => (r.1, .error f)
  | .ok l => (r.1, .ok (codeFrom (recPlane d) (recBits d) (recBase d) e (findByte l)))

/-- Bit `i` of element `e` of a bit-plane record, in the place that it has in the code. -/
def Agent.readBit (u : Agent) (s : State) (tid : Nat) (d : Line) (e i : Nat) : State × Except FInfo Nat :=
  let q := bitPlace true (recBits d) (recBase d) e i
  let r := u.read s (residOf tid d) q.1 1
  match r.2 with
  | .error f => (r.1, .error f)
  | .ok bs => (r.1, .ok (if bit (ofLe bs) q.2 then 2 ^ i else 0))

/-- The scale byte of element `e` of an MX record. -/
def Agent.readScale (u : Agent) (s : State) (tid : Nat) (d : Line) (e : Nat) : State × Except FInfo Nat :=
  let r := u.read s (residOf tid d) (recSBase d + e / 32) 1
  match r.2 with
  | .error f => (r.1, .error f)
  | .ok bs => (r.1, .ok (ofLe bs))

/-- Bits of one byte written: the whole byte, or the bits of `mask` in it. -/
def Agent.writeBits (u : Agent) (s : State) (rs : Resid) (a mask val : Nat) : State × Except FInfo Unit :=
  let r := u.sites s rs .write a 1
  match r.2 with
  | .error f => (r.1, .error f)
  | .ok l =>
    if mask = 255 then u.write r.1 l a [BitVec.ofNat 8 val]
    else
      let q := r.1.readSites u.owner u.core false u.check .deflt l
      match q.2 with
      | .error f => (q.1, .error { f with addr := a })
      | .ok bs => u.write q.1 l a [BitVec.ofNat 8 ((ofLe bs &&& (255 - mask)) + val)]

/-- The code of element `e` of a record written. -/
def Agent.writeElem (u : Agent) (s : State) (tid : Nat) (d : Line) (e c : Nat) : State × Except FInfo Unit :=
  (elemBytes (recPlane d) (recBits d) (recBase d) e).foldl (fun (acc : State × Except FInfo Unit) a =>
    match acc.2 with
    | .error f => (acc.1, .error f)
    | .ok () =>
      let p := bitsIn (recPlane d) (recBits d) (recBase d) e a c
      u.writeBits acc.1 (residOf tid d) a p.1 p.2) (s, .ok ())

/-- Bit `i` of the code of element `e` of a bit-plane record written. -/
def Agent.writeBit (u : Agent) (s : State) (tid : Nat) (d : Line) (e i c : Nat) : State × Except FInfo Unit :=
  let q := bitPlace true (recBits d) (recBase d) e i
  u.writeBits s (residOf tid d) q.1 (2 ^ q.2) (if bit c i then 2 ^ q.2 else 0)

def Agent.writeScale (u : Agent) (s : State) (tid : Nat) (d : Line) (e c : Nat) : State × Except FInfo Unit :=
  u.writeBits s (residOf tid d) (recSBase d + e / 32) 255 c

/-! ### Reading a record (R91) -/

/-- The core's L1 keeps no copy of the line of a piece that has been read at its home (R324). -/
def Core.dropSite (c : Core) (t : Site) : Core :=
  match t.loc with
  | .mem k => c.dropLine (k / 64)
  | _ => c

/-- The virtual address of a record in the context's table. -/
def Agent.recAt (u : Agent) (s : State) (tid : Nat) : Nat := (s.ctx u.ctx).elim 0 (·.tidBase) + 64 * tid

/-- The core's cached copy of a record, where it serves the access. -/
def Agent.cached (u : Agent) (s : State) (tid : Nat) : Option Line × State :=
  match (s.core u.core).tids.find? fun x => x.ctx == u.ctx && x.tid == tid with
  | none => (none, s)
  | some e => let b := s.flip; (if b.1 then some e.data else none, b.2)

/-- A record as a core holds or reads it: a cached copy may serve it; else it is read from the context's table, at its home, and no
later load of the core returns an older value (R324). -/
def Agent.record (u : Agent) (s : State) (tid : Nat) : State × Except FInfo Line :=
  let va := u.recAt s tid
  let v : Agent := { u with check := false, l1 := false }
  let h := u.cached s tid
  match h.1 with
  | some d => (h.2, .ok d)
  | none =>
    let p := v.sites h.2 none .read va 64
    match p.2 with
    | .error f => (p.1, .error f)
    | .ok l =>
      let r := p.1.readSites v.owner v.core v.l1 v.check .deflt l
      match r.2 with
      | .error f => (r.1, .error { f with addr := va })
      | .ok bs =>
        let d : Line := BitVec.ofNat 512 (ofLe bs)
        let e : TidEnt := { ctx := u.ctx, tid := tid, data := d }
        (r.1.modCore u.core fun c =>
          { l.foldl Core.dropSite c with tids := (e :: c.tids.filter fun x => !(x.ctx == u.ctx && x.tid == tid)).take 64 }, .ok d)

/-- A record that an instruction names, checked under R92; `active` says that its guard selects a lane. -/
def Agent.named (u : Agent) (active : Bool) (s : State) (tid : Nat) : State × Except FInfo Line :=
  let r := u.record s tid
  match r.2 with
  | .error f => (r.1, .error f)
  | .ok d =>
    match recFault active tid d with
    | some f => (r.1, .error f)
    | none => (r.1, .ok d)

/-- The records of a list of identifiers; the first fault ends it. -/
def Agent.namedAll (u : Agent) (active : Bool) : List Nat → State → State × Except FInfo (List Line)
  | [], s => (s, .ok [])
  | t :: r, s =>
    let p := u.named active s t
    match p.2 with
    | .error f => (p.1, .error f)
    | .ok d =>
      let q := u.namedAll active r p.1
      match q.2 with
      | .error f => (q.1, .error f)
      | .ok l => (q.1, .ok (d :: l))

end Sys2Proof.Machine
end

