-- ==== Sys2Proof/Machine/Engine.lean ====
section
/-! DEFINITION. The copy, gather and collective engines (R254 to R266): the issue of a job, its chunks, its completion, and the
instructions on records `TIDW` and `TIDR` (R271, R272). -/

namespace Sys2Proof.Machine

/-! ### What an engine instruction reads at issue -/

/-- The issuing fragment as a unit that accesses memory; accesses to records are unchecked and record nothing (R91). -/
def Iss.agent (i : Iss) (check : Bool) : Agent :=
  { owner := i.owner, core := i.x.core, ctx := i.x.ctx, check := check && i.s.raceOn i.x.gid, l1 := true,
    who := some (.frag i.x.uid i.fl i.g.fid), silent := !check }

/-- The lanes of a record of a fault that is taken whatever the guard. -/
def Iss.anyLanes (i : Iss) (h : Hdr) : Mask := if i.active h = 0 then i.g.exec else i.active h

/-- A failed access to a record whose guard selects no lane: its translation and permission faults are taken, and errors of the access
itself are not (R41, R91). -/
def guardedOff (f : FInfo) : Bool := f.cause == .memError || f.cause == .remoteError

/-- As `agent`, for accesses to a record; an instruction that has no lane meets no error response. -/
def Iss.recAgent (i : Iss) (live : Bool) : Agent := { i.agent false with who := if live then (i.agent false).who else none }

/-- Reads records and checks them under R92, whatever the guard. -/
def Iss.withRecs (i : Iss) (h : Hdr) (tids : List Nat) (f : Iss → List Line → State) : State :=
  let live := i.active h != 0
  let r := (i.recAgent live).namedAll live tids i.s
  match r.2 with
  | .error e => if !live && guardedOff e then i.next r.1 else i.take r.1 [(e, i.anyLanes h)] .again
  | .ok l => f { i with s := r.1 } l

/-- The ranges that scalars `cb` to `cb` + `n` - 1 give. -/
def Iss.scalars (i : Iss) (cb n : Nat) : List W64 := (List.range n).map fun j => i.k.sreg (cb + j)
def rangesOf (l : List W64) : Ranges := l.map fun v => (v.toNat % 2 ^ 32, v.toNat / 2 ^ 32)

def plain (c : Cause) : FInfo := { cause := c, addr := 0, aux := 0, page := none }

/-- What a job card is to hold beside what every card holds (R263). -/
structure JobReq where
  kind : JobKind
  recs : List Line
  vals : List W64
  tagFolds : List Nat
  wins : List Nat := []
  reads : List Box
  writes : List Box
  total : Nat
  deriving DecidableEq, Repr

/-- The job issues: a release of the flock, the card with its party, and the token (R88, R263, R266). -/
def Iss.issueJob (i : Iss) (word : IWord) (o : EngOp) (idx : Nat) (q : JobReq) : State :=
  let s1 := i.s.release i.owner (if q.kind = .coll then .domain else .fold)
  let n := s1.newId
  let p := n.2.newParty
  let c : Card :=
    { cid := n.1, idx := idx, core := i.x.core, fold := i.x.uid, ctx := i.x.ctx, kind := q.kind, word := word, o := o, recs := q.recs,
      vals := q.vals, tagFolds := q.tagFolds, wins := q.wins, tok := if o.toke && decide (0 < q.total) then some o.tokn.toNat else none,
      lo := i.fl * i.x.width, hi := i.fl * i.x.width + i.x.width, party := p.1, reads := q.reads, writes := q.writes, done := 0, ahead := [], total := q.total, error := false, stop := none }
  let s2 : State := { p.2 with cards := p.2.cards ++ [c] }
  i.next (match c.tok with | some t => i.addTok s2 n.1 t | none => s2)

/-- The issue of an engine instruction (R254): nothing but the checks of R41 when no lane is active; a park while no card is free, or
no party number for it is left in the pool (R109; log 121, DESIGN CHOICE); the records, the window, the operands (`f`) and the tag; then the job. -/
def Iss.engine (i : Iss) (word : IWord) (h : Hdr) (o : EngOp) (tids : List Nat) (win : Option W64) (f : Iss → List Line → Option Fold → State × Except FInfo JobReq)
    (hold : JobReq → Bool) : State :=
  let checked (g : Iss → List Line → Option Fold → State) : State :=
    i.withRecs h tids fun j l =>
      match win with
      | none => g j l none
      | some w =>
        match j.s.window j.x.ctx w.toNat with
        | .error c => if c = .windowRange && j.active h == 0 then g j l none else j.fault c (j.anyLanes h) w.toNat 0
        | .ok y => g j l (some y)
  if i.active h = 0 then checked fun j _ _ => j.next j.s
  else
    match i.s.freeCard i.x.core with
    | none => i.park i.s .card
    | some idx =>
      if i.s.poolFree = 0 then i.park i.s .card
      else checked fun j l y =>
        let r := f j l y
        match r.2 with
        | .error e => j.take r.1 [(e, j.active h)] .again
        | .ok q =>
          if q.tagFolds.any (fun u => (r.1.fold? u).any fun z => decide (z.tags ≤ o.tag.toNat)) then
            j.take r.1 [(plain .tagRange, j.active h)] .again
          else if hold q then j.park r.1 .multicast
          else ({ j with s := r.1 } : Iss).issueJob word o idx q

/-! ### Steps of a job that may fault -/

/-- The next step of a job, unless a step before it has faulted. -/
def andThen {α β : Type} (r : State × Except FInfo α) (f : State → α → State × Except FInfo β) : State × Except FInfo β :=
  match r.2 with
  | .error e => (r.1, .error e)
  | .ok a => f r.1 a

/-- Runs `f` over a list in order; the first fault ends it. -/
def eachOf {α β : Type} (f : State → α → State × Except FInfo β) : List α → State → State × Except FInfo (List β)
  | [], s => (s, .ok [])
  | a :: r, s => andThen (f s a) fun t b => andThen (eachOf f r t) fun u l => (u, .ok (b :: l))

/-! ### Boxes and ranges -/

/-- The box that scalars from `cb` on give for a record (R256). -/
def Iss.boxAt (i : Iss) (d : Line) (cb : Nat) : Except Cause (List W64) :=
  let v := i.scalars cb (recRank d)
  if 128 < cb + recRank d then .error .engBox
  else if boxOk d (rangesOf v) then .ok v else .error .engBox

/-- `n` bytes of the scratchpad of a fold from offset `off` on, as an operand of a job (R257). -/
def scrRange (y : Fold) (off n : Nat) : Except Cause Box :=
  if off % 16 ≠ 0 then .error .engBox
  else if y.scrBytes < off + n then .error .scratchRange
  else .ok (grainBox 1 y.uid 32 off (off + n))

/-- `n` bytes of the window `w` of a fold as a destination (R257, R258). -/
def winRange (y : Fold) (w n : Nat) : Except Cause Box :=
  if n % 4 ≠ 0 then .error .engBox
  else if !y.winHas (winRegion w) (winOff w) (max 1 (n / 4)) then .error .windowRange
  else .ok { space := 3, fold := y.uid, lo := winRegion w * 2 ^ 18 + winOff w, hi := winRegion w * 2 ^ 18 + winOff w + n / 4 }

/-- The read boxes of a box of a record (R264). -/
def srcBoxes (d : Line) (v : List W64) : List Box :=
  boxFoot d (rangesOf v) :: if recMx d then [scaleFoot d (rangesOf v)] else []

def failWith (s : State) : Except Cause JobReq → State × Except FInfo JobReq
  | .ok q => (s, .ok q)
  | .error c => (s, .error (plain c))

/-! ### `CPY` and `CPYM` (R257 to R259) -/

/-- The operands of a `CPY`. -/
def Iss.cpyReq (i : Iss) (o : EngOp) (l : List Line) (y : Option Fold) : Except Cause JobReq := do
  let d := l.headD 0
  let cb := o.cb.toNat
  let off := o.dst.toNat
  let w := (i.k.sreg (o.dst.toNat % 128))
  match o.kind.toNat with
  | 0 =>
    let v ← i.boxAt d cb
    let b ← scrRange i.x off (packedBytes d (boxCount (rangesOf v)))
    .ok { kind := .cpy, recs := l, vals := v, tagFolds := [i.x.uid], reads := srcBoxes d v, writes := [b], total := boxCount (rangesOf v) }
  | 1 =>
    let v ← i.boxAt d cb
    let b ← scrRange i.x off (packedBytes d (boxCount (rangesOf v)))
    .ok { kind := .cpy, recs := l, vals := v, tagFolds := [i.x.uid], reads := [b], writes := [boxFoot d (rangesOf v)], total := boxCount (rangesOf v) }
  | 2 =>
    let e := (l[1]?).getD 0
    let v ← i.boxAt d cb
    let u ← i.boxAt e (cb + recRank d)
    if (rangesOf v).map (·.2) ≠ (rangesOf u).map (·.2) ∨ recTy d ≠ recTy e ∨ recPlane d ≠ recPlane e ∨ recMx d ≠ recMx e then .error .engBox
    else .ok { kind := .cpy, recs := l, vals := v ++ u, tagFolds := [i.x.uid], reads := srcBoxes d v, writes := [boxFoot e (rangesOf u)],
               total := boxCount (rangesOf v) }
  | 3 =>
    let v ← i.boxAt d cb
    let b ← match y with | some z => winRange z w.toNat (packedBytes d (boxCount (rangesOf v))) | none => .error .windowRange
    .ok { kind := .cpy, recs := l, vals := v ++ [w], tagFolds := [b.fold], reads := srcBoxes d v, writes := [b], total := boxCount (rangesOf v) }
  | _ =>
    let a := i.k.sreg cb
    let src := bits a.toNat 19 0
    let n := bits a.toNat 51 32
    if src % 4 ≠ 0 ∨ n % 4 ≠ 0 then .error .engBox
    else if i.x.scrBytes < src + n then .error .scratchRange
    else
      let b ← match y with | some z => winRange z w.toNat n | none => .error .windowRange
      .ok { kind := .cpy, recs := [], vals := [a, w], tagFolds := [b.fold], reads := [grainBox 1 i.x.uid 32 src (src + n)], writes := [b], total := n / 4 }

def execCpy (h : Hdr) (o : EngOp) (s : State) : Host.Outcome State Fault Refusal :=
  onFrag s fun i =>
    let tids := match o.kind.toNat with | 2 => [o.tid.toNat, o.dst.toNat % 4096] | 4 => [] | _ => [o.tid.toNat]
    let win := if 3 ≤ o.kind.toNat then some (i.k.sreg (o.dst.toNat % 128)) else none
    i.engine (encode (.cpy h o)) h o tids win (fun j l y => failWith j.s (j.cpyReq o l y)) fun _ => false

/-- The fold of the issuing paddock whose `SR.PADDOCK` is `p`. -/
def Iss.mate (i : Iss) (p : Nat) : Option Fold := i.s.folds.find? fun y => y.pad == i.x.pad && y.padIdx == p && y.resident

/-- The window address of word `off` of a region of a fold (Table 3.6). -/
def Fold.winBase (y : Fold) (region off : Nat) : Nat :=
  off + y.slot * 2 ^ 18 + region * 2 ^ 22 + y.lcore % 144 * 2 ^ 24 + y.lcore / 144 * 2 ^ 32

/-- The operands of a `CPYM`: its receivers' scratchpads take the box at one offset. -/
def Iss.cpymReq (i : Iss) (o : EngOp) (l : List Line) : Except Cause JobReq := do
  let d := l.headD 0
  let v ← i.boxAt d o.cb.toNat
  let n := packedBytes d (boxCount (rangesOf v))
  let ps := (List.range 8).filter o.mcg.getLsbD
  let ys := ps.filterMap i.mate
  if ys.length ≠ ps.length then .error .scratchRange
  else
    let bs ← ys.mapM fun y => scrRange y o.dst.toNat n
    let here := bs.filter fun b => ys.any fun y => y.uid == b.fold && y.core == i.x.core
    .ok { kind := .cpym, recs := l, vals := v, tagFolds := ys.map (·.uid), wins := ys.map (·.winBase 1 (o.dst.toNat / 4)), reads := srcBoxes d v, writes := here, total := boxCount (rangesOf v) }

/-- A receiver's tag is still ready: the multicast is held (R259). -/
def State.mcHeld (s : State) (tag : Nat) (us : List Nat) : Bool := us.any fun u => (s.fold? u).any (·.tagReady.getLsbD tag)

def Iss.cpym (i : Iss) (h : Hdr) (o : EngOp) : State :=
  i.engine (encode (.cpym h o)) h o [o.tid.toNat] none (fun j l _ => failWith j.s (j.cpymReq o l)) fun q => i.s.mcHeld o.tag.toNat q.tagFolds

def execCpym (h : Hdr) (o : EngOp) (s : State) : Host.Outcome State Fault Refusal :=
  onFrag s fun i => i.cpym h o

/-- The receivers of a held `CPYM` have released its tag: it issues. -/
def execCpymHoldRelease (fold fl fr : Nat) (s : State) : Host.Outcome State Fault Refusal :=
  .next <| s.eventFrag fold fl fr fun i =>
    match i.g.park, i.g.current with
    | .multicast, some (.cpym h o) => if i.outstanding then s else i.cpym h o
    | _, _ => s

/-! ### `GATH` (R260) -/

/-- The operands of a `GATH`. A list address that is not aligned, a count out of range and a declared range that is empty fault with
`ENG_BOX`, for which the spec names no cause (log 123, DESIGN CHOICE). -/
def Iss.gathReq (i : Iss) (o : EngOp) (l : List Line) (y : Option Fold) : Except Cause JobReq := do
  let d := l.headD 0
  let cb := o.cb.toNat
  let v := i.scalars cb 4
  let a (j : Nat) : Nat := ((v[j]?).getD 0).toNat
  let col := (a 2 % 2 ^ 32, a 2 / 2 ^ 32)
  let lo := a 3 % 2 ^ 32
  let hi := a 3 / 2 ^ 32
  let n := a 1
  if recRank d ≠ 2 ∨ recPlane d ∨ recMx d ∨ (o.kind ≠ 0 ∧ o.kind ≠ 3) ∨ 128 < cb + 4 then .error .engBox
  else if a 0 % 4 ≠ 0 ∨ n = 0 ∨ 4096 < n ∨ col.2 = 0 ∨ recDim d 0 < col.1 + col.2 ∨ hi ≤ lo ∨ recDim d 1 < hi then .error .engBox
  else
    let bytes := packedBytes d (n * col.2)
    let w := i.k.sreg (o.dst.toNat % 128)
    let b ← if o.kind = 0 then scrRange i.x o.dst.toNat bytes
            else match y with | some z => winRange z w.toNat bytes | none => .error .windowRange
    .ok { kind := .gath, recs := l, vals := v ++ (if o.kind = 0 then [] else [w]), tagFolds := [b.fold],
          reads := [grainBox 0 0 (recGran d) (a 0) (a 0 + 4 * n), boxFoot d [col, (lo, hi - lo)]], writes := [b], total := n * col.2 }

def execGath (h : Hdr) (o : EngOp) (s : State) : Host.Outcome State Fault Refusal :=
  onFrag s fun i =>
    i.engine (encode (.gath h o)) h o [o.tid.toNat] (if o.kind = 3 then some (i.k.sreg (o.dst.toNat % 128)) else none)
      (fun j l y => failWith j.s (j.gathReq o l y)) fun _ => false

/-! ### `COLL` (R261) -/

def wholeBox (d : Line) : Ranges := (recDims d).map fun n => (0, n)

def collTypes : List Ty := [.f32, .f16, .bf16, .s32, .n32]

/-- The destination count fits the kind (R261). -/
def collCounts (kind g n m : Nat) : Bool :=
  match kind with
  | 0 => m == n
  | 1 => m == g * n
  | _ => n % g == 0 && m == n / g

/-- The operands of a `COLL`: the number of ranks, the own rank, and the device number of each rank, which the flock reads at issue,
unchecked (R325). A group descriptor that is not aligned, or whose g or rank is out of range, faults with `ENG_BOX`, for which the
spec names no cause (log 123, DESIGN CHOICE). -/
def Iss.collReq (i : Iss) (o : EngOp) (l : List Line) : State × Except FInfo JobReq :=
  let d := l.headD 0
  let e := (l[1]?).getD 0
  let a := (i.k.sreg o.cb.toNat).toNat
  let bad : State × Except FInfo JobReq := (i.s, .error (plain .engBox))
  if a % 64 ≠ 0 then bad
  else
    let r := (i.agent false).read i.s none a 4
    match r.2 with
    | .error f => (r.1, .error f)
    | .ok bs =>
      let g := ofLe (bs.take 2)
      let rank := ofLe (bs.drop 2)
      let n := boxCount (wholeBox d)
      let m := boxCount (wholeBox e)
      if g < 2 ∨ 4096 < g then (r.1, .error (plain .engBox))
      else andThen (eachOf (fun t j => (i.agent false).read t none (a + 4 + 2 * j) 2) (List.range g) r.1) fun v devs =>
      if g ≤ rank ∨ recTy d ≠ recTy e ∨ !collTypes.contains (recTy d) ∨ recPlane d ∨ recPlane e ∨ !collCounts o.kind.toNat g n m then
        (v, .error (plain .engBox))
      else
        (v, .ok { kind := .coll, recs := l, vals := [g, rank].map (BitVec.ofNat 64 ·) ++ devs.map fun b => BitVec.ofNat 64 (ofLe b), tagFolds := [i.x.uid], reads := [boxFoot d (wholeBox d)],
                    writes := [boxFoot e (wholeBox e)], total := m })

def execColl (h : Hdr) (o : EngOp) (s : State) : Host.Outcome State Fault Refusal :=
  onFrag s fun i => i.engine (encode (.coll h o)) h o [o.tid.toNat, o.dst.toNat % 4096] none (fun j l _ => j.collReq o l) fun _ => false

/-! ### Packed data (R258) -/

/-- A place of packed bytes: the fold, the window region (1 for its scratchpad), and the byte offset there. -/
structure Place where
  fold : Nat
  region : Nat
  off : Nat
  deriving DecidableEq, Repr

/-- The element and its bit that bit `t` of packed byte `a` holds. -/
def packedBit (plane : Bool) (b a t : Nat) : Nat × Nat :=
  if plane then (a / (8 * b) * 64 + a % 8 * 8 + t, a % (8 * b) / 8) else ((8 * a + t) / b, (8 * a + t) % b)

/-- Packed byte `a` of the elements that `get` gives: the mask of the bits given, and their values. -/
def packByte (plane : Bool) (b : Nat) (get : Nat → Option Nat) (a : Nat) : Nat × Nat :=
  (List.range 8).foldl (fun (p : Nat × Nat) t =>
    let q := packedBit plane b a t
    match get q.1 with
    | none => p
    | some c => (p.1 + 2 ^ t, p.2 + if bit c q.2 then 2 ^ t else 0)) (0, 0)

/-- The packed bytes that elements `e0` to `e1` - 1 touch. -/
def packedSpan (plane : Bool) (b e0 e1 : Nat) : List Nat :=
  let lo := if plane then e0 / 64 * (8 * b) else e0 * b / 8
  let hi := if plane then (e1 + 63) / 64 * (8 * b) else (e1 * b + 7) / 8
  (List.range (hi - lo)).map (lo + ·)

/-- The piece that holds byte `a` of a place. -/
def Place.site (p : Place) (a : Nat) : Site :=
  if p.region = 1 then { loc := .scr p.fold (p.off + a), n := 1, leaf := none }
  else { loc := .win p.fold p.region ((p.off + a) / 4 * 4), n := 4, leaf := none }

/-- One packed byte read from a place. -/
def Agent.getPacked (u : Agent) (p : Place) (s : State) (a : Nat) : State × Except FInfo (Nat × Nat) :=
  andThen (s.readSites u.owner u.core false u.check .deflt [p.site a]) fun t bs =>
    (t, .ok (a, if p.region = 1 then ofLe (bs.take 1) else ((bs[(p.off + a) % 4]?).getD 0).toNat))

/-- The bits of `mask` of one packed byte written to a place. -/
def Agent.putPacked (u : Agent) (p : Place) (s : State) (v : Nat × Nat × Nat) : State × Except FInfo Unit :=
  let a := v.1
  let t := p.site a
  if v.2.1 = 0 then (s, .ok ())
  else if p.region = 1 ∧ v.2.1 = 255 then u.write s [t] (p.off + a) [BitVec.ofNat 8 v.2.2]
  else
    andThen (s.readSites u.owner u.core false u.check .deflt [t]) fun s1 bs =>
      let j := if p.region = 1 then 0 else (p.off + a) % 4
      u.write s1 [t] (p.off + a) (modNth (fun b => BitVec.ofNat 8 ((b.toNat &&& (255 - v.2.1)) + v.2.2)) j bs)

/-- The scale of packed element `k`, which stands behind `n` packed elements. -/
def scalePlace (d : Line) (n k : Nat) : Nat := roundUp 16 (packedElems (recPlane d) (recBits d) n) + k / 32

/-! ### One chunk (R262) -/

/-- A job card as a unit that accesses memory. -/
def State.cardAgent (s : State) (c : Card) : Agent :=
  { owner := .card c.cid, core := c.core, ctx := c.ctx, check := (s.fold? c.fold).any fun x => s.raceOn x.gid, l1 := false, who := none }

/-- Elements in a chunk of 4 KB, a multiple of 64. -/
def chunkElems (b : Nat) : Nat := 4096 * 8 / b / 64 * 64

/-- The elements among those given that carry a scale. -/
def scaled (d : Line) (ks : List Nat) : List Nat := if recMx d then ks.filter (· % 32 == 0) else []

/-- The places to which a job packs its box. -/
def Card.places (c : Card) : List Place :=
  let w := (c.vals.getLastD 0).toNat
  let win : List Place := c.tagFolds.map fun u => { fold := u, region := winRegion w, off := 4 * winOff w }
  match c.kind, c.o.kind.toNat with
  | .cpy, 0 | .gath, 0 => [{ fold := c.fold, region := 1, off := c.o.dst.toNat }]
  | .cpym, _ => c.tagFolds.map fun u => { fold := u, region := 1, off := c.o.dst.toNat }
  | _, _ => win

/-- Elements (by packed index) and scales written packed to every place. -/
def Agent.storePacked (u : Agent) (ps : List Place) (d : Line) (n : Nat) (els : List (Nat × Nat)) (e0 e1 : Nat) (scs : List (Nat × Nat)) (s : State) :
    State × Except FInfo Unit :=
  let get (k : Nat) : Option Nat := (els.find? (·.1 == k)).map (·.2)
  let bytes := (packedSpan (recPlane d) (recBits d) e0 e1).map fun a => (a, packByte (recPlane d) (recBits d) get a)
  let all := bytes ++ scs.map fun p => (scalePlace d n p.1, 255, p.2)
  andThen (eachOf (fun t p => andThen (eachOf (u.putPacked p) all t) fun v _ => (v, .ok ())) ps s) fun t _ => (t, .ok ())

/-- The elements of a box read from its record, by packed index. -/
def Agent.loadElems (u : Agent) (tid : Nat) (d : Line) (x : Ranges) (ks : List Nat) (s : State) : State × Except FInfo (List (Nat × Nat)) :=
  eachOf (fun t k => andThen (u.readElem t tid d (boxElem x (recStrs d) k)) fun v c => (v, .ok (k, c))) ks s

/-- The scales of elements of a box read from its record. -/
def Agent.loadScales (u : Agent) (tid : Nat) (d : Line) (x : Ranges) (ks : List Nat) (s : State) : State × Except FInfo (List (Nat × Nat)) :=
  eachOf (fun t k => andThen (u.readScale t tid d (boxElem x (recStrs d) k)) fun v c => (v, .ok (k, c))) ks s

/-- The elements of a box read from its record, by packed index, and its scales. -/
def Agent.loadBox (u : Agent) (tid : Nat) (d : Line) (x : Ranges) (ks : List Nat) (s : State) : State × Except FInfo (List (Nat × Nat) × List (Nat × Nat)) :=
  andThen (u.loadElems tid d x ks s) fun t els => andThen (u.loadScales tid d x (scaled d ks) t) fun v scs => (v, .ok (els, scs))

/-- Elements and scales written to a box of a record. -/
def Agent.storeBox (u : Agent) (tid : Nat) (d : Line) (x : Ranges) (els scs : List (Nat × Nat)) (s : State) : State × Except FInfo Unit :=
  let at' (k : Nat) : Nat := boxElem x (recStrs d) k
  andThen (eachOf (fun t p => u.writeElem t tid d (at' p.1) p.2) els s) fun t _ =>
    andThen (eachOf (fun t p => u.writeScale t tid d (at' p.1) p.2) scs t) fun v _ => (v, .ok ())

/-- The elements of a box read from its packed form. -/
def Agent.loadPacked (u : Agent) (p : Place) (d : Line) (ks : List Nat) (s : State) : State × Except FInfo (List (Nat × Nat)) :=
  andThen (eachOf (u.getPacked p) (packedSpan (recPlane d) (recBits d) (ks.headD 0) (ks.getLast?.elim 0 (· + 1))) s) fun t bs =>
    (t, .ok (ks.map fun k => (k, codeFrom (recPlane d) (recBits d) 0 k (findByte bs))))

/-- The scales of elements of a box read from its packed form, which has `n` elements. -/
def Agent.packedScales (u : Agent) (p : Place) (d : Line) (n : Nat) (ks : List Nat) (s : State) : State × Except FInfo (List (Nat × Nat)) :=
  eachOf (fun t k => andThen (u.getPacked p t (scalePlace d n k)) fun v b => (v, .ok (k, b.2))) ks s

/-- What a job has read of elements: the elements and their scales by packed index, and the address at which an index lay outside its
range (R260). -/
structure Taken where
  els : List (Nat × Nat)
  scs : List (Nat × Nat)
  out : Option Nat

/-- The source of a `CPY` or `CPYM` in a scratchpad, with the byte at which it begins: packed elements, or a copy of words (kind 4). -/
def Card.source (c : Card) : Option Place :=
  match c.kind, c.o.kind.toNat with
  | .cpy, 1 => some { fold := c.fold, region := 1, off := c.o.dst.toNat }
  | .cpy, 4 => some { fold := c.fold, region := 1, off := bits ((c.vals.headD 0).toNat) 19 0 }
  | _, _ => none

/-- A copy of words, which names no record. -/
def Card.ofWords (c : Card) : Bool := c.kind == .cpy && c.o.kind == 4

/-- The box of the record that a job reads. -/
def Card.box (c : Card) : Ranges := rangesOf (c.vals.take (recRank (c.recs.headD 0)))

/-- The elements `ks` of a `CPY` or `CPYM` read: of a copy of words, their bytes. -/
def State.cpyElems (s : State) (c : Card) (ks : List Nat) : State × Except FInfo (List (Nat × Nat)) :=
  let u := s.cardAgent c
  let d := c.recs.headD 0
  match c.source with
  | some p => if c.ofWords then eachOf (u.getPacked p) (ks.flatMap fun k => (List.range 4).map (4 * k + ·)) s else u.loadPacked p d ks s
  | none => u.loadElems c.o.tid.toNat d c.box ks s

/-- The scales of elements `ks` of a `CPY` or `CPYM` read. -/
def State.cpyScales (s : State) (c : Card) (ks : List Nat) : State × Except FInfo (List (Nat × Nat)) :=
  let u := s.cardAgent c
  let d := c.recs.headD 0
  match c.source with
  | some p => u.packedScales p d c.total ks s
  | none => u.loadScales c.o.tid.toNat d c.box ks s

/-- Bit `i` of element `k` of a bit-plane box read. -/
def State.cpyBit (s : State) (c : Card) (k i : Nat) : State × Except FInfo Nat :=
  let u := s.cardAgent c
  let d := c.recs.headD 0
  match c.source with
  | some p =>
    let q := bitPlace true (recBits d) 0 k i
    andThen (u.getPacked p s q.1) fun t b => (t, .ok (if bit b.2 q.2 then 2 ^ i else 0))
  | none => u.readBit s c.o.tid.toNat d (boxElem c.box (recStrs d) k) i

/-- The elements `ks` of a `CPY` or `CPYM` read, with their scales. -/
def State.cpyRead (s : State) (c : Card) (ks : List Nat) : State × Except FInfo Taken :=
  andThen (s.cpyElems c ks) fun t els =>
    andThen (t.cpyScales c (scaled (c.recs.headD 0) ks)) fun v scs => (v, .ok { els := els, scs := scs, out := none })

/-- The record, and the box of it, that a job writes, where it writes one. -/
def Card.target (c : Card) : Option (Nat × Line × Ranges) :=
  let d := c.recs.headD 0
  let e := (c.recs[1]?).getD 0
  match c.kind, c.o.kind.toNat with
  | .cpy, 1 => some (c.o.tid.toNat, d, c.box)
  | .cpy, 2 => some (c.o.dst.toNat % 4096, e, rangesOf (c.vals.drop (recRank d)))
  | .coll, _ => some (c.o.dst.toNat % 4096, e, wholeBox e)
  | _, _ => none

/-- What was read of elements between `e0` and `e1` written to the destination of a job, of packed data to the places `ps`. -/
def State.putElems (s : State) (c : Card) (ps : List Place) (e0 e1 : Nat) (els scs : List (Nat × Nat)) : State × Except FInfo Unit :=
  let u := s.cardAgent c
  match c.target with
  | some (tid, d, x) => u.storeBox tid d x els scs s
  | none =>
    if c.ofWords then
      andThen (eachOf (fun t p => andThen (eachOf (u.putPacked p) (els.map fun b => (b.1, 255, b.2)) t) fun v _ => (v, .ok ())) ps s)
        fun v _ => (v, .ok ())
    else u.storePacked ps (c.recs.headD 0) c.total els e0 e1 scs s

/-- Bit `i` of the code `v` of element `k` of a bit-plane box written to the destination of a job, of packed data to the place `p`. -/
def State.putBit (s : State) (c : Card) (p : Place) (k i v : Nat) : State × Except FInfo Unit :=
  let u := s.cardAgent c
  match c.target with
  | some (tid, d, x) => u.writeBit s tid d (boxElem x (recStrs d) k) i v
  | none =>
    let q := bitPlace true (recBits (c.recs.headD 0)) 0 k i
    u.putPacked p s (q.1, 2 ^ q.2, if bit v i then 2 ^ q.2 else 0)

/-- The elements `ks` of a `GATH` read: those of rows whose index is in range. An index is read with the elements of its row that are
read, and so again for each that is read alone (log 124, DESIGN CHOICE). -/
def State.gathRead (s : State) (c : Card) (ks : List Nat) : State × Except FInfo Taken :=
  let u := s.cardAgent c
  let d := c.recs.headD 0
  let a (j : Nat) : Nat := ((c.vals[j]?).getD 0).toNat
  let st := a 2 % 2 ^ 32
  let ex := a 2 / 2 ^ 32
  let r0 := ks.headD 0 / ex
  let rows := (List.range (ks.getLast?.elim 0 (· / ex + 1) - r0)).map (r0 + ·)
  let inRange (i : Nat) : Bool := decide (a 3 % 2 ^ 32 ≤ i) && decide (i < a 3 / 2 ^ 32)
  andThen (eachOf (fun t k => andThen (u.read t none (a 0 + 4 * k) 4) fun v bs => (v, .ok (k, ofLe bs))) rows s) fun t idx =>
    let live := ks.filterMap fun k => ((idx.find? (·.1 == k / ex)).filter fun p => inRange p.2).map fun p => (k, p.2)
    andThen (eachOf (fun t p => andThen (u.readElem t c.o.tid.toNat d (p.2 * recStr d 1 + st + p.1 % ex)) fun v e => (v, .ok (p.1, e))) live t) fun t els =>
      (t, .ok { els := els, scs := [], out := (idx.find? fun p => !inRange p.2).map fun p => a 0 + 4 * p.1 })

/-- One step of a reduction (R261). -/
def collCombine (t : Ty) (op x y : Nat) : Nat :=
  if t.isFp then (if op = 0 then (fpAdd (fmtOf t) .rne x y).1 else (fpMinMax (fmtOf t) (op == 2) x y).1)
  else
    match op with
    | 0 => (x + y) % 2 ^ t.bits
    | 1 => if ival t.signed t.bits y < ival t.signed t.bits x then y else x
    | _ => if ival t.signed t.bits x < ival t.signed t.bits y then y else x

/-- The devices that a `COLL` job lists, in rank order. -/
def Card.devices (c : Card) : List W64 := c.vals.drop 2

/-- The collective engine matches the jobs that list the same devices in the same order in the order of their issue: one waits for
those issued before it (R261). -/
def State.unmatched (s : State) (c : Card) : Bool :=
  c.kind == .coll && (s.cards.takeWhile (·.cid != c.cid)).any fun b =>
    b.kind == .coll && b.devices == c.devices && b.done == 0 && b.ahead.isEmpty && b.part.isEmpty && !b.error

/-- The elements `ks` of the destination of a `COLL` computed, with the elements of the other ranks: what the matched job of each other
device gives. -/
def State.collRead (s : State) (c : Card) (inp : ChunkIn) (ks : List Nat) : State × Except FInfo Taken :=
  let u := s.cardAgent c
  let d := c.recs.headD 0
  let g := (c.vals.headD 0).toNat
  let rank := ((c.vals[1]?).getD 0).toNat
  let n := boxCount (wholeBox d)
  let op := c.o.dst.toNat / 4096 % 4
  let own (t : State) (k : Nat) : State × Except FInfo Nat := u.readElem t c.o.tid.toNat d (boxElem (wholeBox d) (recStrs d) k)
  let theirs (i k : Nat) : Nat := ((inp.peers[i]?).bind (·[k]?)).getD 0 % 2 ^ recBits d
  let src (t : State) (i k : Nat) : State × Except FInfo Nat := if i = rank then own t k else (t, .ok (theirs i k))
  let reduce (t : State) (k : Nat) : State × Except FInfo Nat :=
    andThen (eachOf (fun v i => src v i k) (List.range g) t) fun v l =>
      (v, .ok (match l with | [] => 0 | x :: r => r.foldl (collCombine (recTy d) op) x))
  let value (t : State) (k : Nat) : State × Except FInfo (Nat × Nat) :=
    andThen (match c.o.kind.toNat with
      | 0 => reduce t k
      | 1 => src t (k / n) (k % n)
      | _ => reduce t (rank * (n / g) + k)) fun v x => (v, .ok (k, x))
  andThen (eachOf value ks s) fun t els => (t, .ok { els := els, scs := [], out := none })

/-! ### The accesses of a job (R316)

Access `j` of a job: one element of its box, of a bit-plane record one bit of one element, and behind them one scale. -/

/-- The bits of an element that lie in bytes of their own. -/
def Card.planes (c : Card) : Nat :=
  let d := c.recs.headD 0
  if !c.ofWords && recPlane d then recBits d else 1

/-- How many accesses a job has. -/
def Card.items (c : Card) : Nat := c.total * c.planes + if !c.ofWords && recMx (c.recs.headD 0) then c.total / 32 else 0

/-- The element to which access `j` belongs. -/
def Card.elemOf (c : Card) (j : Nat) : Nat := if j < c.total * c.planes then j / c.planes else 32 * (j - c.total * c.planes)

/-- The accesses of element `k`. -/
def Card.itemsOf (c : Card) (k : Nat) : List Nat :=
  (List.range c.planes).map (k * c.planes + ·) ++ if c.total * c.planes < c.items ∧ k % 32 = 0 then [c.total * c.planes + k / 32] else []

/-- Access `j` of a job read. -/
def State.takeItem (s : State) (c : Card) (inp : ChunkIn) (j : Nat) : State × Except FInfo Taken :=
  let k := c.elemOf j
  if c.total * c.planes ≤ j then andThen (s.cpyScales c [k]) fun t l => (t, .ok { els := [], scs := l, out := none })
  else if 1 < c.planes then andThen (s.cpyBit c k (j % c.planes)) fun t v => (t, .ok { els := [(k, v)], scs := [], out := none })
  else
    match c.kind with
    | .gath => s.gathRead c [k]
    | .coll => s.collRead c inp [k]
    | _ => andThen (s.cpyElems c [k]) fun t l => (t, .ok { els := l, scs := [], out := none })

/-- Elements `ks` of a job read, with their scales. -/
def State.takeElems (s : State) (c : Card) (inp : ChunkIn) (ks : List Nat) : State × Except FInfo Taken :=
  match c.kind with
  | .gath => s.gathRead c ks
  | .coll => s.collRead c inp ks
  | _ => s.cpyRead c ks

/-- What access `m` of a job has read written to place `q` of its destination. -/
def State.putItem (s : State) (c : Card) (m : Moved) (q : Nat) : State × Except FInfo Unit :=
  let k := c.elemOf m.item
  match c.places[q]? with
  | none => (s, .ok ())
  | some p =>
    if m.item < c.total * c.planes ∧ 1 < c.planes then s.putBit c p k (m.item % c.planes) ((m.els.map (·.2)).headD 0)
    else s.putElems c [p] k (if m.els.isEmpty then k else k + 1) m.els m.scs

/-- The places to which what an access has read is still to be written. -/
def Card.unwritten (c : Card) (m : Moved) : List Nat := (List.range c.places.length).filter fun q => !m.wrote.contains q

/-- What accesses have read written wherever it is still to be. -/
def State.putItems (s : State) (c : Card) (ms : List Moved) : State × Except FInfo Unit :=
  andThen (eachOf (fun t m => eachOf (fun v q => v.putItem c m q) (c.unwritten m) t) ms s) fun t _ => (t, .ok ())

/-! ### Errors and completion (R262) -/

/-- A record of a job card. -/
def State.cardRec (s : State) (c : Card) (cause : Cause) (addr aux : Nat) : State × Nat :=
  match s.fold? c.fold with
  | none => (s, 0)
  | some x => s.pushRec { s.recOf x cause 2 with card := c.idx, addr := addr, aux := aux }

/-- The token of a job counts no more. -/
def State.dropJobTok (s : State) (c : Card) : State := s.modFold c.fold (·.dropTok c.cid)

/-- The token of a job shows an error, unless the job's fold has been killed (R34, R88). -/
def State.tokFails (s : State) (c : Card) : State := if c.dying then s else s.modFold c.fold (·.tokError c)

/-- The job ends with error: what it has written stays, and its tag and token will show the error. -/
def State.jobFails (s : State) (c : Card) : State :=
  (((s.modCard c.cid fun d => { d with error := true, done := d.total, part := [], stop := none }).tokFails c)).dropJobTok c

/-- A fault in a chunk: an error response or a conflict ends the job with error, a translation fault stalls it with a
record, and a fatal cause ends the job and kills. -/
def State.jobFault (s : State) (c : Card) (f : FInfo) : State :=
  match f.cause with
  | .memError | .remoteError | .walkError => s.jobFails c
  | .mmConflict => (s.cardRec c f.cause f.addr f.aux).1.jobFails c
  | .pageAbsent | .pagePerm =>
    let r := s.cardRec c f.cause f.addr f.aux
    r.1.modCard c.cid fun d => { d with stop := some { awaits := [r.2].filter (· ≠ 0), resume := .again, frag := 0, grow := false } }
  | _ => ((s.cardRec c f.cause f.addr f.aux).1.dropCard c).killScope c.fold

/-- The elements of a chunk of the job. -/
def Card.chunk (c : Card) : Nat :=
  chunkElems (if c.kind == .cpy && c.o.kind == 4 then 32 else recBits (c.recs.headD 0))

/-- The elements of the chunk that begins at `c.done`. -/
def Card.elems (c : Card) : List Nat := (List.range (min c.chunk (c.total - c.done))).map (c.done + ·)

/-- Elements up to `n` are done, and further as far as the chunks done ahead reach. -/
def Card.reach (c : Card) (n : Nat) : Nat → Card
  | 0 => { c with done := n }
  | f + 1 => if c.ahead.contains n then ({ c with ahead := c.ahead.filter (· ≠ n) } : Card).reach (min c.total (n + c.chunk)) f else { c with done := n }

/-- The chunk that begins at element `k` and ends before `n` is done. -/
def Card.ran (c : Card) (k n : Nat) : Card :=
  let d : Card := { c with part := c.part.filter fun m => decide (c.elemOf m.item < k) || decide (n ≤ c.elemOf m.item) }
  if k = c.done then d.reach n d.ahead.length else { d with ahead := k :: d.ahead }

/-- The chunk of element `k` is done. -/
def Card.past (c : Card) (k : Nat) : Bool := decide (k < c.done) || c.ahead.any fun a => decide (a ≤ k) && decide (k < a + c.chunk)

/-- The job has read its whole source, and is written to no register of its own fold. -/
def Card.allRead (c : Card) : Bool :=
  let own := c.kind != .cpym && decide (3 ≤ c.o.kind.toNat) && c.places.any fun p => p.fold == c.fold && p.region == 0
  !own && (List.range c.items).all fun j => c.past (c.elemOf j) || c.part.any (·.item == j)

/-- A fold's state while it is moved or saved: nobody writes to it (R385). -/
def FoldRun.away : FoldRun → Bool
  | .stopping (some _) | .moving _ => true
  | _ => false

/-- A fold stops for a migration: what a job has begun of a chunk is completed first (R373, R384). -/
def FoldRun.leaving : FoldRun → Bool
  | .stopping (some _) => true
  | _ => false

/-- A job begins no chunk any more: its fold has been killed, or it, or a fold to which it writes, stops for a migration (R34, R384,
R385). -/
def State.ending (s : State) (c : Card) : Bool := c.dying || (c.fold :: c.tagFolds).any fun u => (s.fold? u).any (·.run.leaving)

/-- The element at which the chunk of element `k` begins. -/
def Card.chunkAt (c : Card) (k : Nat) : Nat := k / c.chunk * c.chunk

/-- A job has begun the chunk of element `k`. -/
def Card.begun (c : Card) (k : Nat) : Bool := c.part.any fun m => c.chunkAt (c.elemOf m.item) == c.chunkAt k

/-- Where the chunk begins that a job runs next: the accesses of a card are not ordered among themselves (R316), so it is any
that is left (log 2), and of a job that begins none any more, one that it has begun. -/
def State.nextChunk (s : State) (c : Card) : Nat × State :=
  let n := c.chunk
  if s.ending c then (((c.part.map fun m => c.chunkAt (c.elemOf m.item)).headD c.done), s)
  else if c.total ≤ c.done + n then (c.done, s)
  else
    let d := s.draw
    let k := c.done + n * (d.1 % ((c.total - c.done + n - 1) / n))
    (if c.ahead.contains k then c.done else k, d.2)

/-- The chunk that begins at element `k` and ends before `n` is done: the progress, and the token, once the last is, or all that is left
has been read, counts no more. -/
def State.jobProgress (s : State) (c : Card) (k n : Nat) : State :=
  let s1 := s.modCard c.cid fun d => d.ran k n
  let d := c.ran k n
  if decide (c.total ≤ d.done) || (!d.part.isEmpty && d.allRead) then s1.dropJobTok c else s1

/-- A job may go on: it is not complete, stopped or held back, its fold runs, and no fold that it writes to is being
moved (R265, R385); a job whose fold was killed completes the chunk that it has begun (R34). -/
def State.chunkReady (s : State) (c : Card) : Bool :=
  let ending (x : Fold) : Bool := !c.part.isEmpty && x.run.leaving
  c.kind != .arr && c.stop.isNone && decide (c.done < c.total)
    && (c.dying || !s.heldBack c && !s.unmatched c && (s.fold? c.fold).any (fun x => x.run == .running || x.run == .stopping none || ending x))
    && c.tagFolds.all fun u => (s.fold? u).all fun y => !y.run.away || ending y

/-- The jobs of the folds that `who` takes stand at chunk boundaries, or are stopped by a fault (R373). -/
def State.atChunk (s : State) (who : Card → Bool) : Bool := s.cards.all fun c => !who c || !c.inChunk

/-- Fold `u`, to which a job writes, has left its slot or is being killed (R76, R390, R404). -/
def State.leftSlot (s : State) (c : Card) (u : Nat) : Bool := u != c.fold && (s.fold? u).all fun y => !y.resident || y.run == .dying

def State.targetGone (s : State) (c : Card) : Bool := c.tagFolds.any (s.leftSlot c)

/-- The window address at which a job meets a slot that is no longer its context's: the destination in the first such fold, which a
multicast has from its issue on, and any other job from its operand. -/
def State.windowMet (s : State) (c : Card) : Nat :=
  if c.kind = .cpym then ((c.tagFolds.zip c.wins).find? fun p => s.leftSlot c p.1).elim 0 (·.2) else (c.vals.getLastD 0).toNat

/-- The elements of one chunk moved, or combined, but for the accesses that have been made alone: where it ends, and the address of a row
index of `GATH` out of range. -/
def State.chunkWork (s : State) (c : Card) (inp : ChunkIn) : State × Except FInfo (Nat × Option Nat) :=
  let ks := c.elems
  let mine := c.part.filter fun m => ks.contains (c.elemOf m.item)
  let split (k : Nat) : Bool := mine.any fun m => c.elemOf m.item == k
  let rest := (ks.filter split).flatMap fun k => (c.itemsOf k).filter fun j => !mine.any (·.item == j)
  andThen (s.takeElems c inp (ks.filter (!split ·))) fun t p =>
    andThen (eachOf (fun t j => andThen (t.takeItem c inp j) fun v q => (v, .ok (j, q))) rest t) fun v qs =>
      andThen (v.putElems c c.places c.done (c.done + ks.length) p.els p.scs) fun w _ =>
        andThen (w.putItems c (mine ++ qs.map fun q => { item := q.1, els := q.2.els, scs := q.2.scs, wrote := [] })) fun z _ =>
          (z, .ok (c.done + ks.length, (p.out :: qs.map (·.2.out)).findSome? id))

/-- An index of `GATH` lay out of range at address `a`: the job goes on, and shows the error (R260). -/
def State.outOfRange (s : State) (c : Card) : Option Nat → State
  | none => s
  | some a =>
    let s1 := if c.error then s else (s.cardRec c .gathRange a 0).1
    (s1.modCard c.cid fun d => { d with error := true }).tokFails c

/-- A chunk of a job, any that is left. -/
def State.wholeChunk (s : State) (c : Card) (inp : ChunkIn) : State :=
  let p := s.nextChunk c
  let r := p.2.chunkWork { c with done := p.1 } inp
  match r.2 with
  | .error f => (p.2.undo r.1).jobFault c f
  | .ok (n, o) => (r.1.outOfRange c o).jobProgress c p.1 n

/-- Access `j` of a chunk that is left is made: it is read, and, once it has been read, written to one place of the destination, any that is
left (log 2); the token counts no more once the whole source has been read (R262). -/
def State.oneItem (s : State) (c : Card) (inp : ChunkIn) (j : Nat) : State :=
  let k := c.elemOf j
  if c.items ≤ j || c.past k || (s.ending c && !c.begun k) then s
  else
    match c.part.find? (·.item == j) with
    | none =>
      let r := s.takeItem c inp j
      match r.2 with
      | .error f => (s.undo r.1).jobFault c f
      | .ok p =>
        let d : Card := { c with part := c.part ++ [{ item := j, els := p.els, scs := p.scs, wrote := [] }] }
        let t := (r.1.outOfRange c p.out).modCard c.cid fun e => { e with part := d.part }
        if d.allRead then t.dropJobTok c else t
    | some m =>
      match c.unwritten m with
      | [] => s
      | a :: l =>
        let d := if l.isEmpty then (a, s) else let b := s.draw; (((a :: l)[b.1 % (l.length + 1)]?).getD a, b.2)
        let r := d.2.putItem c m d.1
        match r.2 with
        | .error f => (d.2.undo r.1).jobFault c f
        | .ok _ => r.1.modCard c.cid fun e => { e with part := e.part.map fun n => if n.item = j then { n with wrote := d.1 :: n.wrote } else n }

/-- A job goes on by a chunk, whose accesses then take effect together, or by one access alone: its accesses are not ordered among
themselves (R316). -/
def State.runChunk (s : State) (c : Card) (inp : ChunkIn) : State :=
  if s.targetGone c then
    (((s.logViol (dieOf c.core) c.ctx 1 255 (s.windowMet c)).cardRec c .windowViolation (s.windowMet c) 0).1).jobFails c
  else if inp.error then s.jobFails c
  else if c.kind == .coll && inp.disagree then (s.cardRec c .collMismatch 0 0).1.jobFails c
  else
    match inp.only with
    | none => s.wholeChunk c inp
    | some j => s.oneItem c inp j

/-- A job whose fold was killed is gone once it is at a chunk boundary, or a fault has stopped it (R34). -/
def State.endDying (s : State) (card : Nat) : State :=
  match s.card? card with
  | none => s
  | some c => if c.dying && !c.inChunk then s.dropCard c else s

/-- `JOB_CHUNK`: a chunk of a job, or, where the record that stalls it is not serviced, its end with error (R262). -/
def execJobChunk (card : Nat) (inp : ChunkIn) (s : State) : Host.Outcome State Fault Refusal :=
  .next <|
    match s.card? card with
    | none => s
    | some c =>
      if s.chunkReady c then (s.runChunk c inp).endDying card
      else if c.kind != .arr && c.stop.isSome && inp.error then s.jobFails c else s

/-- The completion of a job: its tag, its phase, its card. -/
def State.completeJob (s : State) (c : Card) : State :=
  let s1 := c.tagFolds.foldl (fun t u => t.modFold u fun y => y.setTag c.o.tag.toNat c.error (y.core != c.core)) s
  let s2 := if c.error then (s1.cardRec c .jobError 0 0).1 else s1
  let s3 := (s2.raise (.card c.cid))
  let s4 := s3.retire (s3.partyOf (.card c.cid))
  { s4 with cards := s4.cards.filter (·.cid ≠ c.cid) }

/-- A job that sets a tag of another fold has yet to see performed what its own fold had made visible on the core before its issue: the
completion is ordered after that too, and may be waited for on another core (R321, R322, R323). -/
def State.owed (s : State) (c : Card) : Bool :=
  c.tagFolds.any (· != c.fold) && s.pend.any fun e => e.owner.fold? == some c.fold && e.visible && !e.isRelease && decide (e.grp < c.cid)

/-- `JOB_COMPLETE`: every destination byte is performed at its home. -/
def execJobComplete (card : Nat) (s : State) : Host.Outcome State Fault Refusal :=
  .next <|
    match s.card? card with
    | none => s
    | some c =>
      if c.kind ≠ .arr ∧ c.total ≤ c.done ∧ c.stop.isNone ∧ c.tagFolds.all (fun u => (s.fold? u).all fun y => !y.run.away) ∧ !s.heldBack c ∧ !s.owed c
      then s.completeJob c else s

/-! ### `TIDW` and `TIDR` (R271, R272) -/

/-- Every core's cached copy of a record is dropped. -/
def State.dropTid (s : State) (ctx tid : Nat) : State :=
  s.cores.foldl (fun t p => t.modCore p.1 fun c => { c with tids := c.tids.filter fun e => !(e.ctx == ctx && e.tid == tid) }) s

/-- `TIDW`. A fault of translation or permission comes before the check of the new record (log 122, DESIGN CHOICE). -/
def execTidw (h : Hdr) (o : EngOp) (s : State) : Host.Outcome State Fault Refusal :=
  onFrag s fun i =>
    let tid := o.tid.toNat
    let d : Line := BitVec.ofNat 512 (ofLe ((i.scalars o.cb.toNat 8).flatMap fun v => leBytes 8 v.toNat))
    let u := i.recAgent (i.executes h)
    let va := u.recAt i.s tid
    let r := u.sites i.s none .write va 64
    let failed (t : State) (f : FInfo) : State := if !i.executes h && guardedOff f then i.next t else i.take t [(f, i.anyLanes h)] .again
    match r.2 with
    | .error f => failed r.1 f
    | .ok l =>
      if !i.executes h then i.next r.1
      else if recValid d && !recFormOk d then failed r.1 { cause := .tidFormat, addr := 0, aux := tid, page := none }
      else
        let q := u.write (r.1.release i.owner .device) l va (leBytes 64 d.toNat)
        match q.2 with
        | .error f => failed q.1 f
        | .ok _ => i.next (q.1.dropTid i.x.ctx tid)

/-- `TIDR`. One whose guard selects no lane is translated and checked, unless the core holds the record, and reads nothing (R91, R164). -/
def execTidr (h : Hdr) (o : EngOp) (s : State) : Host.Outcome State Fault Refusal :=
  onFrag s fun i =>
    let tid := o.tid.toNat
    let u := i.recAgent (i.executes h)
    let failed (t : State) (f : FInfo) : State := if !i.executes h && guardedOff f then i.next t else i.take t [(f, i.anyLanes h)] .again
    if !i.executes h then
      let b := u.cached i.s tid
      let r := u.sites b.2 none .read (u.recAt b.2 tid) 64
      match b.1, r.2 with
      | some _, _ => i.next b.2
      | none, .error f => failed r.1 f
      | none, .ok _ => i.next r.1
    else
      let r := u.record i.s tid
      match r.2 with
      | .error f => failed r.1 f
      | .ok d => i.next (i.modFlock r.1 fun k => (List.range 8).foldl (fun a j => a.setS (o.cb.toNat + j) (BitVec.ofNat 64 (d.toNat / 2 ^ (64 * j)))) k)

end Sys2Proof.Machine
end

