-- ==== Sys2Proof/Machine/Place.lean ====
section
/-! DEFINITION. The creation of a fold (R14, R15, R20, R58, R72, R300), and the placing of one instruction word where the
next step fetches it. -/

namespace Sys2Proof.Machine

/-! ### Creation (R20) -/

/-- A flock at creation: one fragment of all its lanes at the flock entry, everything else clear. -/
def Flock.create (w : Nat) (entry : Pc) (hwm : Nat) : Flock :=
  { s := [], m := [], lat := [], latOk := 0, tkErr := 0, accBase := 0, accLim := 0, replay := 0, replayFid := none,
    privHwm := hwm, frags := [{ fid := 0, members := lowMask w, exec := lowMask w, pc := entry, arriving := true, buf := none,
                                path := [], pending := false, park := .ready }],
    splits := [], stop := none, last := none, armed := none, ckpt := none, passed := [], padArr := 0, party := 0xFFFF,
    dying := false }

/-- A matrix stream at creation (Table 10.1). -/
def Stream.create (entry : Pc) : Stream :=
  { pc := entry, arriving := true, buf := none, q := [], qamax := 0, qnan := false, qsr := 1, party := 0xFFFF, queue := [],
    lastArr := [], waiting := none, ended := false, stop := none }

/-- The stochastic-rounding state of a thread at creation (R300). -/
def srSeed (seed : W32) (f t : Nat) : W32 :=
  let x := seed ^^^ BitVec.ofNat 32 ((f * 2048 + t + 1) * 0x9E3779B9)
  if x = 0 then 1 else x

/-- A fold at creation, with its resources; its flocks hold no party numbers and no arguments yet. -/
def Fold.create (uid size width regs scrBytes accRows tags hwm : Nat) (entry : Pc) (mentry : Option Pc) : Fold :=
  { uid := uid, ctx := 0, gid := 0, pad := 0, x := 0, y := 0, z := 0, lin := 0, padIdx := 0, core := 0, pslot := 0, lcore := 0, slot := 0,
    pidx := 0, size := size, width := width, regs := regs, scrBytes := scrBytes, accRows := accRows, tags := tags,
    run := .placed, flocks := List.replicate (size / width) (Flock.create width entry hwm), v := [], flags := [],
    srstate := [], amax := [], tagReady := 0, tagErr := 0, fpctl := 0,
    lease := { remain := 0, until' := 0, active := false, susp := false, dropped := false }, scr := [], scrMark := [], acc := [],
    bars := Map.set BarSt.none [] 16 { BarSt.none with declared := true, members := lowMask (size / width) }, stream := mentry.map Stream.create, loads := [], toks := [], marks := 0, moveTo := none, wants := none, preqAfter := false, killAfter := false, lateKill := false, roll := none, argFault := none }

/-- Gives every flock from `l` on a party number of its own (R109). -/
def State.giveParties (s : State) (u : Nat) : Nat → Nat → State
  | 0, _ => s
  | f + 1, l =>
    let p := s.newParty
    (p.2.modFlock u l fun k => { k with party := p.1 }).giveParties u f (l + 1)

/-- Gives the stream of a fold its party number. -/
def State.giveStreamParty (s : State) (u : Nat) : State :=
  match (s.fold? u).bind (·.stream) with
  | none => s
  | some _ =>
    let p := s.newParty
    p.2.modStream u fun m => { m with party := p.1 }

/-! ### Placing one word -/

/-- A fetch line of kind `kind` that holds `words` from slot 0 on, with the branch-target bits `btm` (Table 5.1). -/
def makeLine (kind btm : Nat) (words : List IWord) : Line :=
  let slot (i : Nat) : Nat := ((words[i]?).getD 0).toNat
  let five := List.range 5
  let tpl := sumNat (five.map fun i => if slot i / 2 ^ 91 = 31 then 2 ^ (5 + i) else 0)
  let par := sumNat (five.map fun i => popc 96 (slot i) % 2 * 2 ^ (10 + i))
  let lw := btm + tpl + par + kind * 2 ^ 16
  let lw := lw + popc 32 lw % 2 * 2 ^ 15
  BitVec.ofNat 512 (sumNat (five.map fun i => slot i * 2 ^ (96 * i)) + lw * 2 ^ 480)

/-- Page tables that map the first gigabyte of context 0 with every right, and a code line at address 0. -/
def State.placeLine (s : State) (d : Line) : State :=
  let s1 := s.setCtx 0 (some { root := 0x10000, privBase := 0, tidBase := 0x1000, fblk := 0, recs := 0, unwritten := [], fwRead := 0, full := false, error := false })
  let s2 := s1.writeAs none 0x10000 (leBytes 8 (1 + 0x20000))
  let s3 := s2.writeAs none 0x20000 (leBytes 8 (1 + 0x30000))
  let s4 := s3.writeAs none 0x30000 (leBytes 8 (31 + 0x40000000))
  (s4.writeAs none 0x40000000 (leBytes 64 d.toNat)).modCore 0 fun c => { c with tlb := [], ic := [] }

/-- One running fold of one flock, with a stream where the word is a stream instruction, stands at that line, and the
next turn is its issue. -/
def State.placeWord (s : State) (nbits w : Nat) : State :=
  let x := BitVec.ofNat 96 (w % 2 ^ nbits)
  let mtx := x.toNat / 2 ^ 91 == 12
  let s1 := s.placeLine (makeLine (if mtx then 1 else 0) 1 [x])
  let u := s1.nextId
  let f := { Fold.create u 16 16 256 65536 512 64 65536 0 (if mtx then some 0 else none) with run := .running }
  let s2 := { s1 with nextId := u + 1, folds := f :: s1.folds }
  let s3 := (s2.giveParties u 1 0).giveStreamParty u
  { s3 with agenda := [if mtx then .stream u else .issue u 0 0] }

end Sys2Proof.Machine
end

