-- ==== Sys2Proof/Machine/Matrix.lean ====
section
/-! DEFINITION. The matrix stream (R273 to R296): the sequencer's instructions, the array's progress through an operation, and
the accumulator access of flocks (R297, R298). -/

namespace Sys2Proof.Machine

/-! ### The issuing stream -/

/-- The issuing stream with its fold and state. -/
structure Seq where
  s : State
  x : Fold
  m : Stream
  deriving DecidableEq, Repr

def State.seq? (s : State) (u : Nat) : Option Seq :=
  match s.fold? u with
  | none => none
  | some x => x.stream.map fun m => { s := s, x := x, m := m }

/-- The stream that holds the turn. -/
def State.sequencer (s : State) : Option Seq :=
  match s.cur with
  | some (.stream u) => s.seq? u
  | _ => none

/-- Runs an instruction of a stream for the stream that holds the turn. -/
def onStream (s : State) (f : Seq → State) : Host.Outcome State Fault Refusal :=
  match s.sequencer with
  | some i => .next (f i)
  | none => .fault .noIssuer

def Seq.q (i : Seq) (n : Nat) : W64 := Map.get 0 i.m.q n
def Seq.mod (i : Seq) (s : State) (f : Stream → Stream) : State := s.modStream i.x.uid f
def Seq.setQ (i : Seq) (s : State) (n : Nat) (v : W64) : State := i.mod s fun m => { m with q := Map.set 0 m.q n v }
def Seq.next (i : Seq) (s : State) : State := s.streamNext i.x.uid
def Seq.fault (i : Seq) (s : State) (f : FInfo) : State := s.faultStream i.x.uid f
def Seq.owner (i : Seq) : Owner := .stream i.x.uid

/-- The stream as a unit that accesses memory. -/
def Seq.agent (i : Seq) (check : Bool) : Agent :=
  { owner := i.owner, core := i.x.core, ctx := i.x.ctx, check := check && i.s.raceOn i.x.gid, l1 := true,
    who := some (.stream i.x.uid) }

/-! ### Coordinates (R288) -/

/-- Start, size and stride along dimension `n`; a dimension past the rank is one element wide. -/
def startAt (regs : List W64) (d : Line) (n : Nat) : Nat := if n < recRank d then ((regs[n]?).getD 0).toNat % 2 ^ 32 else 0
def sizeAt (d : Line) (n : Nat) : Nat := if n < recRank d then recDim d n else 1

/-- The element offset of index `a` along dimension 0 and `b` along dimension 1, at the starts of the others. -/
def tileElem (regs : List W64) (d : Line) (a b : Nat) : Nat :=
  sumNat ((List.range (recRank d)).map fun n => (if n = 0 then a else if n = 1 then b else startAt regs d n) * recStr d n)

/-- The starts along dimensions 2 and above lie in the record. -/
def highOk (regs : List W64) (d : Line) : Bool := ((List.range (recRank d)).drop 2).all fun n => decide (startAt regs d n < recDim d n)

/-- The footprint of a tile of `w` by `h` elements, clipped to the record (R296). -/
def tileFoot (regs : List W64) (d : Line) (w h : Nat) : List Box :=
  let a := startAt regs d 0
  let b := startAt regs d 1
  let w' := min w (sizeAt d 0 - a)
  let h' := min h (sizeAt d 1 - b)
  if w' = 0 ∨ h' = 0 then []
  else [boxFoot d ((List.range (recRank d)).map fun n => if n = 0 then (a, w') else if n = 1 then (b, h') else (startAt regs d n, 1))]

/-! ### The issue of an array operation (R275) -/

/-- What an array operation copies into its card. -/
structure ArrayReq where
  recs : List Line
  regs : List W64
  reads : List Box
  writes : List Box
  deriving DecidableEq, Repr

/-- A buffered window write into a row of bank `b` of a fold's accumulators. -/
def Pend.inBank (e : Pend) (u b : Nat) : Bool :=
  match e.loc with
  | .win v 2 off => v == u && off / 131072 == b && !e.isRelease
  | _ => false

/-- The issue: the sequencer waits for a card, for a party number for it (R109; log 121, DESIGN CHOICE) and for room in its queue; a failing check faults and nothing is issued. The writes
into its bank that have issued are performed before it owns the bank (R276, R322). -/
def Seq.array (i : Seq) (word : IWord) (opc : Nat) (o : MtxOp) (tids : List Nat) (f : List Line → Except FInfo ArrayReq) : State :=
  match (if i.m.queue.length < 4 ∧ 0 < i.s.poolFree then i.s.freeCard i.x.core else none) with
  | none => i.s
  | some idx =>
    let r := (i.agent false).namedAll true tids i.s
    match r.2 with
    | .error e => i.fault r.1 e
    | .ok l =>
      match f l with
      | .error e => i.fault r.1 e
      | .ok q =>
        if i.x.accRows < (o.bank.toNat + 1) * 128 then i.fault r.1 (plain .accWindow)
        else
          let n := r.1.newId
          let p := n.2.newParty
          let e : EngOp := { tid := o.tida, cb := 0, tag := 0, tokn := 0, toke := false, kind := 0, dst := 0, mcg := 0 }
          let c : Card :=
            { cid := n.1, idx := idx, core := i.x.core, fold := i.x.uid, ctx := i.x.ctx, kind := .arr, word := word, o := e, recs := q.recs,
              vals := q.regs, tagFolds := [], tok := none, party := p.1, reads := q.reads, writes := q.writes, done := 0, ahead := [], total := 1,
              error := false, stop := none }
          let a : ArrayOp := { opc := opc, o := o, regs := q.regs, recs := q.recs, card := n.1, kdone := 0, rgdone := 0, stop := none }
          let s1 : State := { (p.2.drain fun e => e.inBank i.x.uid o.bank.toNat) with cards := p.2.cards ++ [c] }
          i.next (i.mod s1 fun m => { m with queue := m.queue ++ [a] })

/-- Stream registers `cb` to `cb` + `n` - 1, which have to exist (R288). -/
def Seq.regs (i : Seq) (cb n : Nat) : Except FInfo (List W64) :=
  if 64 < cb + n then .error (plain .mtxOperand) else .ok ((List.range n).map fun j => i.q (cb + j))

def mtxBad {α : Type} : Except FInfo α := .error (plain .mtxOperand)

/-- The expand-only formats, which no matrix instruction takes (R118). -/
def expandOnly (t : Ty) : Bool := t == .s4 || t == .e3m2 || t == .e2m3

def formatBad (tid : Nat) : FInfo := { cause := .tidFormat, addr := 0, aux := tid, page := none }

def execMzero (o : MtxOp) (s : State) : Host.Outcome State Fault Refusal :=
  onStream s fun i => i.array (encode (.mzero o)) 1 o [] fun _ => .ok { recs := [], regs := [], reads := [], writes := [] }

/-- The depth of a k-step by element type (R128). -/
def depth (t : Ty) : Nat := match t with | .bf16 | .f16 => 1 | .mxf4 => 4 | _ => 2

def isFp8 (t : Ty) : Bool := t == .e4m3 || t == .e5m2

/-- The planes dropped from A and from B (R289). -/
def dropA (o : MtxOp) : Nat := o.md.toNat % 8
def dropB (o : MtxOp) : Nat := o.md.toNat / 8 % 8

/-- The checks of `MMA` and `MMAX` (R287 to R289). -/
def Seq.mmaReq (i : Seq) (mx : Bool) (o : MtxOp) (l : List Line) : Except FInfo ArrayReq := do
  let a := l.headD 0
  let b := (l[1]?).getD 0
  let ta := recTy a
  let tb := recTy b
  if expandOnly ta then .error (formatBad o.tida.toNat)
  else if expandOnly tb then .error (formatBad o.tidb.toNat)
  else if !(if mx then ta == .mxf4 && tb == .mxf4 else (ta == .bf16 && tb == .bf16) || (ta == .f16 && tb == .f16) || (isFp8 ta && isFp8 tb)) then mtxBad
  else
    let q ← i.regs o.cb.toNat (recRank a + recRank b)
    let qa := q.take (recRank a)
    let qb := q.drop (recRank a)
    let n := o.k.toNat * depth ta
    let mult (d : Line) (r : List W64) : Bool :=
      (!mx || startAt r d 0 % 32 == 0 && n % 32 == 0) && (!recPlane d || startAt r d 0 % 64 == 0 && n % 64 == 0)
    if !highOk qa a || !highOk qb b || !mult a qa || !mult b qb || (recPlane a && decide (recBits a ≤ dropA o)) || (recPlane b && decide (recBits b ≤ dropB o)) then mtxBad
    else .ok { recs := l, regs := q, reads := tileFoot qa a n 128 ++ tileFoot qb b n 256, writes := [] }

def execMma (o : MtxOp) (s : State) : Host.Outcome State Fault Refusal :=
  onStream s fun i => i.array (encode (.mma o)) 2 o [o.tida.toNat, o.tidb.toNat] (i.mmaReq false o)

def execMmax (o : MtxOp) (s : State) : Host.Outcome State Fault Refusal :=
  onStream s fun i => i.array (encode (.mmax o)) 3 o [o.tida.toNat, o.tidb.toNat] (i.mmaReq true o)

def stTypes : List Ty := [.f32, .f16, .bf16, .e4m3, .e5m2, .mxf4]

/-- The checks of `MST` (R294, R295); its scale register is copied behind the coordinates. -/
def Seq.mstReq (i : Seq) (o : MtxOp) (l : List Line) : Except FInfo ArrayReq := do
  let d := l.headD 0
  if expandOnly (recTy d) then .error (formatBad o.tida.toNat)
  else if !stTypes.contains (recTy d) then mtxBad
  else
    let q ← i.regs o.cb.toNat (recRank d)
    let w := min 256 (recDim d 0 - startAt q d 0)
    if !highOk q d || (recMx d && (startAt q d 0 % 32 != 0 || w % 32 != 0)) then mtxBad
    else .ok { recs := l, regs := q ++ [i.q (o.tidb.toNat % 64)], reads := [], writes := tileFoot q d 256 128 }

def execMst (o : MtxOp) (s : State) : Host.Outcome State Fault Refusal :=
  onStream s fun i => i.array (encode (.mst o)) 4 o [o.tida.toNat] (i.mstReq o)

/-- The checks of `MSCALE` and `MBIAS` (R293). -/
def Seq.vecReq (i : Seq) (o : MtxOp) (l : List Line) : Except FInfo ArrayReq := do
  let d := l.headD 0
  if expandOnly (recTy d) then .error (formatBad o.tida.toNat)
  else if !([Ty.f32, .f16, .bf16].contains (recTy d)) || recPlane d then mtxBad
  else
    let q ← i.regs o.cb.toNat (recRank d)
    if !highOk q d then mtxBad
    else .ok { recs := l, regs := q, reads := tileFoot q d (if o.md = 0 then 256 else 128) 1, writes := [] }

def execMscale (o : MtxOp) (s : State) : Host.Outcome State Fault Refusal :=
  onStream s fun i => i.array (encode (.mscale o)) 5 o [o.tida.toNat] (i.vecReq o)

def execMbias (o : MtxOp) (s : State) : Host.Outcome State Fault Refusal :=
  onStream s fun i => i.array (encode (.mbias o)) 6 o [o.tida.toNat] (i.vecReq o)

/-! ### Loops, stream registers and barriers (R281 to R285) -/

/-- `MLOOP` (R282). -/
def execMloop (o : MtxOp) (s : State) : Host.Outcome State Fault Refusal :=
  onStream s fun i =>
    let c := i.q o.cb.toNat
    if c = 0 then i.next i.s
    else
      let tgt := (i.m.pc.toNat : Int) + o.k.toInt
      if c = 1 then i.next (i.setQ i.s o.cb.toNat 0)
      else if tgt < 0 ∨ (2 ^ 55 : Nat) ≤ tgt then i.fault i.s (plain .brTarget)
      else i.mod (i.setQ i.s o.cb.toNat (c - 1)) fun m => { m with pc := BitVec.ofNat 55 tgt.toNat, arriving := true, buf := none }

/-- The scratchpad words of `MPROG.LD` and `.ST`, as pieces, or the fault. -/
def Seq.words (i : Seq) (o : MtxOp) : Except FInfo (List Site) :=
  let off := 128 * o.k.toNat
  let n := 8 * o.progCount
  if i.x.scrBytes < off + n then .error { cause := .scratchRange, addr := off, aux := 0, page := none }
  else .ok ((List.range o.progCount).map fun j => { loc := .scr i.x.uid (off + 8 * j), n := 8, leaf := none })

/-- `MPROG` (R281). -/
def execMprog (o : MtxOp) (s : State) : Host.Outcome State Fault Refusal :=
  onStream s fun i =>
    let d := o.cb.toNat
    let check := i.s.raceOn i.x.gid
    match o.progOp with
    | 0 =>
      match i.words o with
      | .error f => i.fault i.s f
      | .ok l =>
        let r := i.s.readSites i.owner i.x.core false check .deflt l
        match r.2 with
        | .error f => i.fault r.1 f
        | .ok bs =>
          i.next ((List.range o.progCount).foldl (fun t j => i.setQ t (d + j) (BitVec.ofNat 64 (ofLe ((bs.drop (8 * j)).take 8)))) r.1)
    | 1 =>
      match i.words o with
      | .error f => i.fault i.s f
      | .ok l =>
        match l.findSome? (fun t => (i.s.checkWrite i.owner check t).map fun f => { f with addr := match t.loc with | .scr _ off => off | _ => 0 }) with
        | some f => i.fault i.s f
        | none => i.next (l.zipIdx.foldl (fun t p => t.bufferWrite i.owner i.x.core check 0 p.1 (leBytes 8 (i.q (d + p.2)).toNat)) i.s)
    | 2 => i.next (i.setQ i.s d (i.q (o.tida.toNat % 64)))
    | 3 => i.next (i.setQ i.s d ((i.q d).extractLsb' 32 32 ++ ((i.q d).truncate 32 + o.k.signExtend 32)))
    | 4 =>
      if !i.m.queue.isEmpty then i.s
      else i.next (i.mod (i.setQ i.s d (BitVec.ofNat 64 (i.m.qamax.toNat + bitOf i.m.qnan * 2 ^ 32))) fun m => { m with qamax := 0, qnan := false })
    | _ =>
      if !i.m.queue.isEmpty then i.s
      else i.next (i.mod i.s fun m => { m with qsr := (i.q d).truncate 32 })

/-- Runs `f` where the stream is a member of the fold barrier that the word names; else it faults (R285). -/
def Seq.asMember (i : Seq) (o : MtxOp) (f : State) : State :=
  let b := i.s.bar i.x o.mbar.toNat
  if b.declared && b.stream then f else i.fault i.s { cause := .barMember, addr := 0, aux := o.mbar.toNat, page := none }

/-- The stream's arrival: a release at fold scope; `then'` is applied before the phase is looked at (R283). -/
def Seq.arrive (i : Seq) (b : Nat) (then' : State → State) : State :=
  let ph := (i.s.bar i.x b).phase
  let s1 := i.s.release i.owner .fold
  let s2 := i.mod s1 fun m => { m with lastArr := Map.set 0 m.lastArr b (ph.toNat + 1) }
  let s3 := s2.modBar i.x b fun y => { y with streamArrived := true }
  ((then' s3).completeBar i.x.uid b).honour i.x.uid

/-- The stream may arrive: its array operations are complete, and it has not arrived in this phase (R32, R283). -/
def Seq.mayArrive (i : Seq) (b : Nat) : Bool := i.m.queue.isEmpty && !(i.s.bar i.x b).streamArrived

def execMarr (o : MtxOp) (s : State) : Host.Outcome State Fault Refusal :=
  onStream s fun i => i.asMember o (if i.mayArrive o.mbar.toNat then i.arrive o.mbar.toNat i.next else i.s)

/-- `MWAITB` continues once its phase has completed, as an acquire at fold scope (R284). -/
def Seq.waitPhase (i : Seq) (b : Nat) (ph : BitVec 16) : State :=
  if (i.s.bar i.x b).phase ≠ ph then i.next (i.mod (i.s.acquire i.x.core .fold) fun m => { m with waiting := none }) else i.s

/-- `MWAITB`. One that finds no recorded arrival continues at once, and acquires as one that waits (R284). -/
def execMwaitb (o : MtxOp) (s : State) : Host.Outcome State Fault Refusal :=
  onStream s fun i => i.asMember o <|
    let b := o.mbar.toNat
    if o.md.toNat % 2 = 1 then
      let last := Map.get 0 i.m.lastArr b
      if last = 0 then i.next (i.s.acquire i.x.core .fold) else i.waitPhase b (BitVec.ofNat 16 (last - 1))
    else
      match i.m.waiting with
      | some (_, ph) => i.waitPhase b ph
      | none =>
        if i.mayArrive b then i.arrive b fun t => i.mod t fun m => { m with waiting := some (b, (i.s.bar i.x b).phase) } else i.s

/-- `MEND` (R277). -/
def execMend (_o : MtxOp) (s : State) : Host.Outcome State Fault Refusal :=
  onStream s fun i => if i.m.queue.isEmpty then i.s.endStream i.x.uid else i.s

/-! ### The array at work (R286 to R295) -/

/-- The top planes of element `e` of a bit-plane record, or all of a row-major one (R127). -/
def Agent.readTop (u : Agent) (s : State) (tid : Nat) (d : Line) (e drop : Nat) : State × Except FInfo Nat :=
  let b := recBits d
  let from' := if recPlane d then drop else 0
  let bitsOf := (List.range b).drop from'
  let as := nubNat (bitsOf.map fun i => (bitPlace (recPlane d) b (recBase d) e i).1)
  andThen (u.readAll (residOf tid d) as s) fun t l =>
    (t, .ok (sumNat (bitsOf.map fun i =>
      if bit (findByte l (bitPlace (recPlane d) b (recBase d) e i).1) (bitPlace (recPlane d) b (recBase d) e i).2 then 2 ^ i else 0)))

/-- The value of an element at index `a` along dimension 0 and `b` along dimension 1, with its scale; +0 past an edge. -/
def Agent.tileVal (u : Agent) (s : State) (tid : Nat) (d : Line) (regs : List W64) (drop a b : Nat) : State × Except FInfo FVal :=
  if sizeAt d 0 ≤ a ∨ sizeAt d 1 ≤ b then (s, .ok (.fin false 0 0))
  else
    let e := tileElem regs d a b
    andThen (u.readTop s tid d e drop) fun t c =>
      let v := (fmtOf (recTy d)).value c
      if recMx d then andThen (u.readScale t tid d e) fun w k => (w, .ok (v.mul (e8m0 k))) else (t, .ok v)

/-- The narrow sum over `n` k-steps of depth `d` of a list of products (R128). -/
def narrowSum (d : Nat) : Nat → FVal → List FVal → FVal
  | 0, acc, _ => acc
  | n + 1, acc, l => narrowSum d n (narrowRound (acc.add false (groupSum (l.take d)))) (l.drop d)

/-- The array operation as a unit that accesses memory: through the L1 of the core (R285). -/
def State.arrayAgent (s : State) (x : Fold) (a : ArrayOp) : Agent :=
  { owner := .card a.card, core := x.core, ctx := x.ctx, check := s.raceOn x.gid, l1 := true, who := some (.stream x.uid) }

/-- One row group of the current block of a multiplication (R290). -/
def State.mmaGroup (s : State) (x : Fold) (a : ArrayOp) : State × Except FInfo (ArrayOp × List (Nat × W32)) :=
  let u := s.arrayAgent x a
  let ra := a.recs.headD 0
  let rb := (a.recs[1]?).getD 0
  let qa := a.regs.take (recRank ra)
  let qb := a.regs.drop (recRank ra)
  let d := depth (recTy ra)
  let n := min (2 ^ a.o.plog.toNat) (a.o.k.toNat - a.kdone)
  let ks := (List.range (n * d)).map (a.kdone * d + ·)
  let rows := (List.range 16).map (16 * a.rgdone + ·)
  andThen (eachOf (fun t i => eachOf (fun v k => u.tileVal v a.o.tida.toNat ra qa (dropA a.o) (startAt qa ra 0 + k) (startAt qa ra 1 + i)) ks t) rows s) fun t as =>
    andThen (eachOf (fun t j => eachOf (fun v k => u.tileVal v a.o.tidb.toNat rb qb (dropB a.o) (startAt qb rb 0 + k) (startAt qb rb 1 + j)) ks t) (List.range 256) t) fun v bs =>
      let out := (rows.zip as).flatMap fun p => (bs.zipIdx).map fun q =>
        let key := (128 * a.o.bank.toNat + p.1) * 256 + q.2
        (key, accAdd (Map.get 0 x.acc key) (narrowSum d n (.fin false 0 0) ((p.2.zip q.1).map fun w => w.1.mul w.2)))
      let a' : ArrayOp := if a.rgdone = 7 then { a with kdone := a.kdone + n, rgdone := 0 } else { a with rgdone := a.rgdone + 1 }
      (v, .ok (a', out))

/-- The mode of an `MST` (R294), with the advanced state under SR. Code 6 reads `SR.FPCTL` as each row is stored (log 126, DESIGN
CHOICE). -/
def mstMode (x : Fold) (rm : Nat) (sr : W32) : Mode :=
  match (if rm = 6 then x.fpctl.toNat % 8 else rm) with
  | 1 => .rz | 2 => .ru | 3 => .rd | 4 => .rna | 5 => .sr sr.toNat | _ => .rne

def mstUsesSr (x : Fold) (rm : Nat) : Bool := (if rm = 6 then x.fpctl.toNat % 8 else rm) == 5

/-- The scale of a block of an `MXF4` destination (R295); none where it holds a NaN. -/
def blockScale (l : List FVal) : Option Nat :=
  let exp (v : FVal) : Nat :=
    match v with
    | .inf _ => 254
    | .fin _ m e => if m = 0 then 0 else (min 254 (max 0 (e + bitLen m - 1 - 2 + 127)) : Int).toNat
    | .nan _ => 0
  if l.any FVal.isNan then none else some (l.foldl (fun n v => max n (exp v)) 0)

/-- The codes of one row's elements, and the stochastic-rounding state after it. -/
def rowCodes (x : Fold) (t : Ty) (rm : Nat) (sat : Bool) : List (Nat × FVal) → W32 → List (Nat × Nat) × W32
  | [], r => ([], r)
  | (j, y) :: l, r =>
    let r1 := if mstUsesSr x rm then srStep r else r
    let c := (cvtToFp (fmtOf t) (mstMode x rm r1) sat false y).1
    let q := rowCodes x t rm sat l r1
    ((j, c) :: q.1, q.2)

/-- The elements of a row of an `MXF4` destination by block, with the scale of each block. -/
def rowBlocks (ys : List (Nat × FVal)) : List (Nat × Option Nat × List (Nat × FVal)) :=
  (List.range 8).filterMap fun b =>
    let l := ys.filter fun p => p.1 / 32 == b
    if l.isEmpty then none else some (b, blockScale (l.map (·.2)), l)

/-- One row of an `MST` (R294, R295). -/
def State.mstRow (s : State) (x : Fold) (m : Stream) (a : ArrayOp) : State × Except FInfo (ArrayOp × Stream) :=
  let u := s.arrayAgent x a
  let d := a.recs.headD 0
  let rm := a.o.md.toNat % 8
  let sat := bit a.o.md.toNat 3
  let i := a.kdone
  let s0 := startAt a.regs d 0
  let s1 := startAt a.regs d 1
  let js := if sizeAt d 1 ≤ s1 + i then [] else (List.range 256).filter fun j => decide (s0 + j < sizeAt d 0)
  let c : FVal := if bit a.o.md.toNat 5 then (fmtOf .f32).value ((a.regs.getLastD 0).toNat % 2 ^ 32) else .pow2 0
  let xs := js.map fun j => (j, (fmtOf .f32).value (x.accW (128 * a.o.bank.toNat + i) j).toNat)
  let m1 : Stream := if bit a.o.md.toNat 4 then xs.foldl (fun n p =>
      let r := amaxUpdate n.qamax p.2
      { n with qamax := r.1, qnan := n.qnan || r.2 != 0 }) m else m
  let ys := xs.map fun p => (p.1, p.2.mul c)
  let scaledYs := if recMx d then (rowBlocks ys).flatMap fun b => match b.2.1 with
      | some e => b.2.2.map fun p => (p.1, p.2.mul (e8m0inv e))
      | none => b.2.2.map fun p => (p.1, .fin false 0 0)
    else ys
  let r := rowCodes x (recTy d) rm sat scaledYs m.qsr
  let at' (j : Nat) : Nat := tileElem a.regs d (s0 + j) (s1 + i)
  let tid := a.o.tida.toNat
  andThen (eachOf (fun t p => u.writeElem t tid d (at' p.1) p.2) r.1 s) fun t _ =>
    andThen (eachOf (fun t b => u.writeScale t tid d (at' (32 * b.1)) (b.2.1.getD 255)) (if recMx d then rowBlocks ys else []) t) fun v _ =>
      (v, .ok ({ a with kdone := i + 1 }, { m1 with qsr := r.2 }))

/-- The vector of an `MSCALE` or `MBIAS`: the elements that lie in the record (R293). -/
def State.vecVals (s : State) (x : Fold) (a : ArrayOp) : State × Except FInfo (List (Nat × FVal)) :=
  let d := a.recs.headD 0
  let s0 := startAt a.regs d 0
  let n := if a.o.md = 0 then 256 else 128
  eachOf (fun t j => andThen ((s.arrayAgent x a).tileVal t a.o.tida.toNat d a.regs 0 (s0 + j) (startAt a.regs d 1)) fun v y => (v, .ok (j, y)))
    ((List.range n).filter fun j => decide (s0 + j < sizeAt d 0)) s

/-- Every element of a bank updated from the vector. -/
def vecUpdate (x : Fold) (a : ArrayOp) (vs : List (Nat × FVal)) : List (Nat × W32) :=
  let f := fmtOf .f32
  (List.range 128).flatMap fun i => (List.range 256).filterMap fun j =>
    let key := (128 * a.o.bank.toNat + i) * 256 + j
    (vs.find? (·.1 == (if a.o.md = 0 then j else i))).map fun p =>
      let c := f.value (Map.get 0 x.acc key).toNat
      (key, BitVec.ofNat 32 (f.deliver .rne (if a.opc = 5 then c.mul p.2 else c.add false p.2)).1)

/-- The head of the array's queue replaced. -/
def Stream.setHead (m : Stream) (a : ArrayOp) : Stream := { m with queue := a :: m.queue.tail }

/-- A fault of the array (R291): the record names the stream; a translation fault or a conflict stalls the array, every
other cause is fatal and ends the operation, and the physical address at which an operand was answered with an error is logged (Table
21.4). -/
def State.arrayFault (s : State) (x : Fold) (m : Stream) (a : ArrayOp) (f : FInfo) : State :=
  let p := s.pushRec { s.recOf x f.cause 1 with addr := f.addr, pc := m.pc.toNat, aux := f.aux }
  let halt (l : List Nat) : State := p.1.modStream x.uid fun n => n.setHead { a with stop := some { awaits := l, resume := .again, frag := 0, grow := false } }
  match f.cause with
  | .pageAbsent | .pagePerm | .mmConflict => halt ([p.2].filter (· ≠ 0))
  | .memError | .remoteError =>
    ((halt []).logErr (dieOf x.core) f.cause.code 255 false (x.core % 144) (f.phys.getD 0) 0).fatalStream x.uid
  | _ => (halt []).fatalStream x.uid

/-- One unit of progress of the array of a fold: a row group, a row of a store, or a whole operation of another kind. -/
def State.arrayWork (s : State) (x : Fold) (m : Stream) (a : ArrayOp) : State :=
  let failed (t : State) (f : FInfo) : State := (s.undo t).arrayFault x m a f
  let put (t : State) (l : List (Nat × W32)) (b : ArrayOp) : State :=
    (t.modFold x.uid fun y => { y with acc := l.foldl (fun c p => Map.set 0 c p.1 p.2) y.acc }).modStream x.uid (·.setHead b)
  match a.opc with
  | 1 =>
    (s.modFold x.uid fun y => { y with acc := y.acc.filter fun p => p.1 / 32768 != a.o.bank.toNat }).modStream x.uid (·.setHead { a with kdone := 1 })
  | 2 | 3 =>
    let r := s.mmaGroup x a
    match r.2 with
    | .error f => failed r.1 f
    | .ok (b, l) => put r.1 l b
  | 4 =>
    let r := s.mstRow x m a
    match r.2 with
    | .error f => failed r.1 f
    | .ok (b, n) => r.1.modStream x.uid fun y => ({ y with qamax := n.qamax, qnan := n.qnan, qsr := n.qsr } : Stream).setHead b
  | _ =>
    let r := s.vecVals x a
    match r.2 with
    | .error f => failed r.1 f
    | .ok vs => put r.1 (vecUpdate x a vs) { a with kdone := 1 }

/-- The array of a fold takes its turn on the oldest operation of the queue. -/
def State.arrayStep (s : State) (u : Nat) : State :=
  match s.seq? u with
  | none => s
  | some i =>
    match i.m.queue with
    | [] => s
    | a :: _ =>
      if i.x.run == .running && a.stop.isNone && !a.isDone && (s.card? a.card).all (fun c => !s.heldBack c) then s.arrayWork i.x i.m a else s

/-- `ARRAY_OP_COMPLETE`: the card's phase rises and the card and the bank are free (R275, R276). -/
def execArrayOpComplete (fold : Nat) (s : State) : Host.Outcome State Fault Refusal :=
  .next <|
    match (s.fold? fold).bind (·.stream) with
    | none => s
    | some m =>
      match m.queue with
      | [] => s
      | a :: rest =>
        if a.isDone && a.stop.isNone then
          let o : Owner := .card a.card
          let s1 := s.raise o
          let s2 := s1.retire (s1.partyOf o)
          ({ s2 with cards := s2.cards.filter (·.cid ≠ a.card) } : State).modStream fold fun n => { n with queue := rest }
        else s

/-! ### Accumulator access from flocks (R297, R298) -/

/-- The leader of a fold: its lowest live flock. -/
def Fold.leader (x : Fold) : Option Nat := (List.range x.flocks.length).find? fun l => (x.flocks[l]?).any (·.live)

def execMwin (h : Hdr) (o : ScOp) (s : State) : Host.Outcome State Fault Refusal :=
  onFrag s fun i => i.uniform h <|
    let t := i.scA o
    let w := i.scB o
    let base := bits w 9 0
    let lim := bits w 25 16
    if i.x.leader ≠ some i.fl ∨ i.x.flocks.length ≤ t ∨ lim < base ∨ i.x.accRows < lim ∨ bits w 15 10 ≠ 0 ∨ bits w 63 26 ≠ 0 then
      i.fault .accWindow (i.active h) 0 0
    else i.next (i.s.modFlock i.x.uid t fun k => { k with accBase := BitVec.ofNat 10 base, accLim := BitVec.ofNat 10 lim })

/-- The row, the column and the piece of a lane's accumulator element. -/
def Iss.accRow (i : Iss) (o : VrOp) (l : Nat) : Nat := i.raw32 o.sa l
def Iss.accCol (i : Iss) (o : VrOp) (l : Nat) : Nat := i.raw32 o.sb l
def Iss.accSite (i : Iss) (o : VrOp) (l : Nat) : Site :=
  { loc := .win i.x.uid 2 (4 * (i.accRow o l * 256 + i.accCol o l)), n := 4, leaf := none }

/-- An accumulator access: a lane outside the window faults and no lane acts; it waits for a bank that is owned. -/
def Iss.accumulator (i : Iss) (h : Hdr) (o : VrOp) (f : List Nat → State) : State :=
  let ls := lanes (i.active h)
  let out (l : Nat) : Bool := decide (i.accRow o l < i.k.accBase.toNat) || decide (i.k.accLim.toNat ≤ i.accRow o l) || decide (256 ≤ i.accCol o l)
  let bad := ls.filter out
  if !bad.isEmpty then i.fault .accWindow (bad.foldl (fun m l => m ||| bitMask l) 0) 0 0
  else if ls.any fun l => i.x.bankOwned (i.accRow o l / 128) then i.park i.s (.busy i.held)
  else f ls

def execMrd (h : Hdr) (o : VrOp) (s : State) : Host.Outcome State Fault Refusal :=
  onFrag s fun i => i.accumulator h o fun ls =>
    let q := overLanes (fun t l => t.readSites i.owner i.x.core false false .deflt [i.accSite o l]) ls i.s
    let words := q.2.1.map fun p => (o.dst.toNat * i.x.size + i.thread p.1, BitVec.ofNat 32 (ofLe p.2))
    if words.isEmpty then i.next q.1
    else
      let n := q.1.newId
      let it : LoadItem := { id := n.1, lo := i.thread 0, hi := i.thread 0 + i.w, words := words, tok := none, counts := false }
      i.next (i.modFold n.2 fun x => { x with loads := x.loads ++ [it] })

/-- `MWR`: a constant stands under the type, as `F32` in a floating-point operand (R141, R298). -/
def execMwr (h : Hdr) (o : VrOp) (s : State) : Host.Outcome State Fault Refusal :=
  onFrag s fun i => i.accumulator h o fun ls =>
    i.next (ls.foldl (fun t l => (i.clearWay t false [i.accSite o l]).writeSite i.owner i.x.core false (i.accSite o l) (leBytes 4 (i.opnd o.ty o.sc l))) i.s)

end Sys2Proof.Machine
end

