-- ==== Sys2Proof/Machine/Units.lean ====
section
/-! DEFINITION. Memory as the units of the package other than cores reach it (the command processor, firmware and the copy
engines of saves): virtual addresses of a context, through logs and replicas, unchecked (R111, R351, R375). -/

namespace Sys2Proof.Machine

/-- `n` bytes (at most one page) at a virtual address as the pieces that lie in one page of 64 KB each. -/
def pagePieces (va n : Nat) : List (Nat × Nat) :=
  let a := min n (65536 - va % 65536)
  if a = n then [(va, n)] else [(va, a), (va + a, n - a)]

def State.unitPiece (s : State) (ctx va n : Nat) : State × Except Cause (List Byte) :=
  match s.virt ctx va .read with
  | .error c => (s, .error c)
  | .ok (l, k) =>
    let t := if l.ml then s.applyRange k n else s
    if t.rangeBad k n then (t, .error .memError) else (t, .ok (t.readAs (t.matOf l.crypt) k n))

/-- Reads `n` bytes at a virtual address of a context. -/
def State.unitRead (s : State) (ctx va n : Nat) : State × Except Cause (List Byte) :=
  (pagePieces va n).foldl (fun acc p =>
    match acc.2 with
    | .error c => (acc.1, .error c)
    | .ok l =>
      let r := acc.1.unitPiece ctx p.1 p.2
      match r.2 with
      | .error c => (r.1, .error c)
      | .ok bs => (r.1, .ok (l ++ bs))) (s, .ok [])

/-- Writes bytes at a virtual address of a context, within one page of 64 KB, with `PARTY` none. -/
def State.unitWrite (s : State) (ctx va : Nat) (bs : List Byte) : Except Cause State := s.writeVirt ctx va bs

/-- A list of bytes from an address aligned to 64, in lines; the first that cannot be written ends it with its address. -/
def State.writeLines (s : State) (ctx va : Nat) : Nat → List Byte → Except (Cause × Nat) State
  | 0, _ => .ok s
  | f + 1, bs =>
    if bs.isEmpty then .ok s
    else
      match s.unitWrite ctx va (bs.take 64) with
      | .error c => .error (c, va)
      | .ok t => t.writeLines ctx (va + 64) f (bs.drop 64)

/-- Reads a number of `n` bytes at a virtual address, 0 where it cannot be read; the tiles that it meets are applied (R104, R105). -/
def State.readNum (s : State) (ctx va n : Nat) : State × Nat :=
  let r := s.unitRead ctx va n
  (r.1, match r.2 with | .ok bs => ofLe bs | .error _ => 0)

/-- The number alone. -/
def State.num (s : State) (ctx va n : Nat) : Nat := (s.readNum ctx va n).2

/-- A free choice among the numbers below `n` that are not in `used` (log 2); `n` where there is none. -/
def State.pick (s : State) (used : List Nat) (n : Nat) : Nat × State :=
  let d := s.draw
  let a := firstFree used n (d.1 % n)
  if a < n then (a, d.2) else (firstFree used n 0, d.2)

/-! ### The driver's mailbox (R405) -/

/-- The device is in recovery: the mailbox and the operator block cannot be reached (R399). -/
def State.inRecovery (s : State) : Bool := s.firm.boot == .recovery

/-- A command `num` is written with its arguments, and `f` runs it: what `f` answers is the status with the words of the result, or
none while the command has not ended, which reads as 0xFF. While one runs, a second one is ignored; the same again stands for
its next attempt (log 87). -/
def State.command (s : State) (num : Nat) (args : List Nat) (f : State → State × Option (Nat × List Nat)) : State :=
  let words := (args ++ List.replicate 7 0).take 7 |>.map (BitVec.ofNat 64)
  if s.inRecovery || (s.firm.mbStatus == 255 && !(s.firm.mbCmd == num && s.firm.mbValue == words)) then s
  else
    let r := f s
    let put (status : Nat) (l : List W64) : State :=
      { r.1 with firm := { r.1.firm with mbCmd := num, mbStatus := status, mbValue := l ++ words.drop l.length } }
    match r.2 with
    | none => put 255 []
    | some a => put a.1 (a.2.map (BitVec.ofNat 64))

end Sys2Proof.Machine
end

