-- ==== Sys2Proof/Machine/Save.lean ====
section
/-! DEFINITION. The save image of a fold (R375 to R378, Tables 16.6 to 16.8): its bytes, and the restore of a fold from them. -/

namespace Sys2Proof.Machine

/-! ### The image -/

def le8 (x : Nat) : List Byte := leBytes 8 x
def zeros (n : Nat) : List Byte := List.replicate n 0

/-- A section, filled to the next 256-byte boundary. -/
def section256 (l : List Byte) : List Byte := l ++ zeros (roundUp 256 l.length - l.length)

def widthCode (w : Nat) : Nat := if w = 16 then 1 else if w = 32 then 2 else 3

/-- The record of flock `l`. -/
def saveFlock (x : Fold) (l : Nat) (k : Flock) : List Byte :=
  let lo := l * x.width
  let tok (t : Nat) : Nat := x.tokCount lo (lo + x.width) t % 512 + if k.tkErr.getLsbD t then 2 ^ 15 else 0
  (List.range 128).flatMap (fun r => le8 (k.sreg r).toNat) ++ (List.range 15).flatMap (fun r => le8 (Map.get 0 k.m r).toNat) ++ zeros 8
    ++ (List.range 8).flatMap (fun t => leBytes 2 (tok t)) ++ leBytes 2 k.accBase.toNat ++ leBytes 2 k.accLim.toNat ++ leBytes 4 k.privHwm
    ++ le8 k.replay.toNat ++ leBytes 2 k.party.toNat ++ zeros 6 ++ le8 (k.ckpt.getD 0).toNat
    ++ [BitVec.ofNat 8 (bitOf k.ckpt.isSome + bitOf k.armed.isSome * 2), k.padArr] ++ zeros 6
    ++ le8 (k.armed.elim 0 (·.pc.toNat)) ++ zeros 64

/-- The record of a fragment of flock `l`. -/
def saveFrag (l : Nat) (k : Flock) (g : Frag) : List Byte :=
  le8 g.members.toNat ++ le8 g.exec.toNat ++ le8 (g.pc.toNat + bitOf (!g.park.isReady) * 2 ^ 55)
    ++ le8 (((k.joinOf g).elim (2 ^ 55 - 1) (·.toNat)) + l * 2 ^ 55)

def saveLane (x : Fold) (t : Nat) : List Byte :=
  leBytes 4 (Map.get 0 x.flags t).toNat ++ leBytes 4 (Map.get 0 x.srstate t).toNat ++ leBytes 4 (Map.get 0 x.amax t).toNat ++ zeros 4

def saveBar (b : BarSt) : List Byte :=
  leBytes 2 b.phase.toNat
    ++ [BitVec.ofNat 8 (bitOf b.declared + bitOf b.broken * 2 + bitOf b.stream * 4 + bitOf b.streamArrived * 8)] ++ zeros 5
    ++ le8 b.arrived.toNat ++ le8 b.permanent.toNat ++ le8 b.members.toNat

/-- The image of a job card. -/
def State.saveCard (s : State) (c : Card) : List Byte :=
  let recs := (c.recs ++ [0, 0]).take 2
  let vals := (c.vals ++ List.replicate 10 0).take 10
  let bitsEach := if c.recs.isEmpty then 32 else recBits (c.recs.headD 0)
  recs.flatMap (fun d => leBytes 64 d.toNat) ++ vals.flatMap (fun v => le8 v.toNat) ++ leBytes 12 c.word.toNat
    ++ leBytes 4 (c.o.tag.toNat + c.o.tokn.toNat * 2 ^ 6 + bitOf c.o.toke * 2 ^ 9 + bitOf c.error * 2 ^ 10)
    ++ leBytes 2 c.party.toNat ++ leBytes 2 (s.phaseOf c.party).toNat ++ le8 (c.done * bitsEach / 8) ++ zeros 20

def packMark (m : RaceMark) : List Byte := leBytes 2 m.party.toNat ++ leBytes 2 m.phase.toNat

def State.saveStream (s : State) (x : Fold) (m : Stream) : List Byte :=
  let images := m.queue.flatMap fun a => (s.card? a.card).elim (zeros 256) s.saveCard
  let body := le8 m.pc.toNat ++ (List.range 64).flatMap (fun r => le8 (Map.get 0 m.q r).toNat) ++ leBytes 4 m.qamax.toNat ++ leBytes 4 m.qsr.toNat
    ++ leBytes 4 x.rowProg ++ [BitVec.ofNat 8 (bitOf m.qnan)]
  body ++ zeros (1024 - body.length) ++ images ++ zeros (1024 - images.length)

/-- The engine cards of a fold, in allocation order. -/
def State.jobsOf (s : State) (u : Nat) : List Card := s.cards.filter fun c => c.fold == u && c.kind != .arr

/-- The fold with `SR.PADDOCK` 0 saves the paddock barriers of its launch (Table 16.6). -/
def State.padLead (s : State) (x : Fold) : Bool := x.padIdx == 0 && (s.grid? x.gid).any (·.bars.any (·.paddock))

def Fold.fragList (x : Fold) : List (Nat × Flock × Frag) := x.flocks.zipIdx.flatMap fun p => p.1.frags.map fun g => (p.2, p.1, g)

/-- The header of an image. -/
def State.saveHeader (s : State) (x : Fold) : List Byte :=
  let g := s.grid? x.gid
  let n := packFields
    [(1680, 0), (16, (x.stream.elim 0 (·.party.toNat))), (32, x.lease.word s.heart), (7, 0), (57, g.elim 0 (·.lrecAddr)), (32, x.fpctl.toNat),
     (18, 0), (14, x.pidx), (1, 0), (3, x.padIdx), (20, x.z % 2 ^ 20), (20, x.y % 2 ^ 20), (20, x.x % 2 ^ 20), (21, 0), (7, (s.jobsOf x.uid).length), (7, x.tags),
     (3, x.accRows / 128), (9, x.scrBytes / 4096), (5, x.regs / 8 - 1), (12, x.size), (9, x.fragList.length), (1, bitOf (s.padLead x)),
     (1, bitOf x.stream.isSome), (3, (s.cluster (clusterOf x.core)).point.toNat), (2, widthCode x.width), (8, s.stepping % 256), (8, 1), (32, 0x56415346)]
  leBytes 256 n

/-- The sections of a save area one behind another, each from the next address that is aligned to 256 on (R376). -/
def joinSections : List (List Byte) → List Byte
  | [] => []
  | [a] => a
  | a :: r => section256 a ++ joinSections r

/-- The sections of an image (Table 16.7). -/
def State.saveImage (s : State) (x : Fold) : List Byte :=
  let words (n : Nat) (f : Nat → Nat) : List Byte := (List.range n).flatMap fun k => leBytes 4 (f k)
  let padBars := (List.range 8).flatMap fun q => saveBar (s.bar x (17 + q))
  joinSections
    [s.saveHeader x,
     x.flocks.zipIdx.flatMap fun p => saveFlock x p.2 p.1,
     x.fragList.flatMap fun p => saveFrag p.1 p.2.1 p.2.2,
     (List.range x.size).flatMap (saveLane x),
     words (x.size * x.regs) fun k => (Map.get 0 x.v k).toNat,
     (List.range 17).flatMap (fun b => saveBar (Map.get BarSt.none x.bars b)) ++ if s.padLead x then padBars else [],
     le8 x.tagReady.toNat ++ le8 x.tagErr.toNat,
     (s.jobsOf x.uid).flatMap s.saveCard,
     (List.range x.scrBytes).map (fun i => Map.get 0 x.scr i) ++ (List.range (x.scrBytes / 32)).flatMap fun i => packMark (Map.get RaceMark.clear x.scrMark i),
     words (x.accRows * 256) fun k => (Map.get 0 x.acc k).toNat,
     x.stream.elim [] (s.saveStream x),
     x.flocks.flatMap fun k => (List.range 25).flatMap fun key => le8 (Map.get 0 k.passed key).toNat]

/-- The virtual address of a fold's save area (R375). -/
def State.saveArea (s : State) (x : Fold) : Nat := (s.ctx x.ctx).elim 0 (·.saveBase) + x.pidx * 2 ^ 22

/-! ### Restore (R378) -/

/-- Where the sections begin: flock records, fragments, lanes, registers, barriers, tags, cards, scratchpad, accumulators,
stream and passed sets. -/
def State.saveOffsets (s : State) (x : Fold) : List Nat :=
  let sizes := [256, x.size / x.width * 1280, x.fragList.length * 32, x.size * 16, x.size * x.regs * 4, 544 + (if s.padLead x then 256 else 0), 16,
    (s.jobsOf x.uid).length * 256, x.scrBytes / 4096 * 4608, x.accRows * 1024, (if x.stream.isSome then 2048 else 0)]
  (sizes.foldl (fun (acc : List Nat × Nat) n => (acc.1 ++ [acc.2 + roundUp 256 n], acc.2 + roundUp 256 n)) ([], 0)).1

/-- The lines of a save area, which ends with the passed sets. -/
def State.saveLines (s : State) (x : Fold) : Nat := ((s.saveOffsets x).getLastD 0 + x.size / x.width * 200 + 63) / 64

/-- Every line of the image can be read, and its header is that of this device (R378). -/
def State.imageOk (s : State) (x : Fold) : Bool :=
  let a := s.saveArea x
  (List.range (s.saveLines x)).all (fun i => match (s.unitRead x.ctx (a + 64 * i) 64).2 with | .ok _ => true | .error _ => false)
    && s.num x.ctx a 4 == 0x56415346 && s.num x.ctx (a + 4) 1 == 1 && s.num x.ctx (a + 5) 1 == s.stepping % 256

/-- A map read from `n` numbers, `f` giving each. -/
def readMap {w : Nat} (n : Nat) (f : Nat → Nat) : Map (BitVec w) :=
  (List.range n).foldr (fun k m => if BitVec.ofNat w (f k) = 0 then m else (k, BitVec.ofNat w (f k)) :: m) []

/-- A flock from its record. `rd` reads `n` bytes at an offset in it. What has been done to the flock since the save stands: a raise of
`SR.PRIVHWM` (R369), and the end of a phase, which empties its passed set and its held arrival (R32). -/
def restoreFlock (rd : Nat → Nat → Nat) (pass : Nat → Nat) (k : Flock) : Flock :=
  { k with s := readMap 128 fun r => rd (8 * r) 8
           m := readMap 15 fun r => rd (1024 + 8 * r) 8
           tkErr := BitVec.ofNat 8 (sumNat ((List.range 8).map fun t => rd (1152 + 2 * t) 2 / 2 ^ 15 * 2 ^ t))
           accBase := BitVec.ofNat 10 (rd 1168 2), accLim := BitVec.ofNat 10 (rd 1170 2), privHwm := max (rd 1172 4) k.privHwm
           replay := BitVec.ofNat 64 (rd 1176 8)
           ckpt := if rd 1200 1 % 2 = 1 then some (BitVec.ofNat 64 (rd 1192 8)) else none
           padArr := BitVec.ofNat 8 (rd 1201 1) &&& k.padArr
           passed := readMap 25 fun key => if Map.get 0 k.passed key = 0 then 0 else pass key
           lat := [], latOk := 0, last := none, behind := [] }

/-- A parked instruction re-executes from issue (R373); a wait keeps the phase in which its flock has arrived (R32), and no deadline. -/
def Park.resumed : Park → Park
  | .join => .join
  | .barrier k p _ | .rebar k p => .rebar k p
  | .rearrive k p => .rearrive k p
  | _ => .ready

/-- A fragment from its record; its fetch buffer is clear (R381), and its resumption is no transfer of control (R135). -/
def restoreFrag (rd : Nat → Nat → Nat) (g : Frag) : Frag :=
  { g with members := BitVec.ofNat 64 (rd 0 8), exec := BitVec.ofNat 64 (rd 8 8), pc := BitVec.ofNat 55 (rd 16 8), arriving := false, buf := none,
           park := g.park.resumed }

def restoreBar (rd : Nat → Nat → Nat) (b : BarSt) : BarSt :=
  { b with phase := BitVec.ofNat 16 (rd 0 2), declared := bit (rd 2 1) 0, broken := bit (rd 2 1) 1, stream := bit (rd 2 1) 2,
           streamArrived := bit (rd 2 1) 3, arrived := BitVec.ofNat 64 (rd 8 8), permanent := BitVec.ofNat 64 (rd 16 8),
           members := BitVec.ofNat 64 (rd 24 8) }

/-- The fragments of flocks from `n` fragments on, in the order of the image. -/
def restoreFrags (rd : Nat → Nat → Nat → Nat) : Nat → List Flock → List Flock
  | _, [] => []
  | n, k :: r =>
    { k with frags := k.frags.zipIdx.map fun p => restoreFrag (rd (n + p.2)) p.1 } :: restoreFrags rd (n + k.frags.length) r

/-- The fold as its image in memory gives it. -/
def State.restored (s : State) (x : Fold) : Fold :=
  let a := s.saveArea x
  let at' (n : Nat) : Nat := a + ((s.saveOffsets x)[n]?).getD 0
  let rd (base off n : Nat) : Nat := s.num x.ctx (base + off) n
  let fl := x.flocks.zipIdx.map fun p =>
    restoreFlock (rd (at' 0 + 1280 * p.2)) (fun key => rd (at' 10) (200 * p.2 + 8 * key) 8) p.1
  { x with
    fpctl := BitVec.ofNat 32 (rd a 28 4)
    flocks := restoreFrags (fun n => rd (at' 1 + 32 * n)) 0 fl
    flags := readMap x.size fun t => rd (at' 2) (16 * t) 4
    srstate := readMap x.size fun t => rd (at' 2) (16 * t + 4) 4
    amax := readMap x.size fun t => rd (at' 2) (16 * t + 8) 4
    v := readMap (x.size * x.regs) fun k => rd (at' 3) (4 * k) 4
    bars := (List.range 17).foldl (fun m b => Map.set BarSt.none m b (restoreBar (rd (at' 4 + 32 * b)) (Map.get BarSt.none m b))) x.bars
    tagReady := BitVec.ofNat 64 (rd (at' 5) 0 8), tagErr := BitVec.ofNat 64 (rd (at' 5) 8 8)
    scr := readMap x.scrBytes fun i => rd (at' 7) i 1
    scrMark := (List.range (x.scrBytes / 32)).foldl (fun m i =>
      Map.set RaceMark.clear m i { party := BitVec.ofNat 16 (rd (at' 7) (x.scrBytes + 4 * i) 2), phase := BitVec.ofNat 16 (rd (at' 7) (x.scrBytes + 4 * i + 2) 2) }) []
    acc := readMap (x.accRows * 256) fun k => rd (at' 8) (4 * k) 4
    stream := x.stream.map fun m =>
      { m with pc := BitVec.ofNat 55 (rd (at' 9) 0 8), q := readMap 64 fun r => rd (at' 9) (8 + 8 * r) 8
               qamax := BitVec.ofNat 32 (rd (at' 9) 520 4), qsr := BitVec.ofNat 32 (rd (at' 9) 524 4), qnan := bit (rd (at' 9) 532 1) 0
               arriving := false, buf := none } }

/-- Free job cards of a core for the cards of a fold: a number for each, or none where they do not suffice. -/
def State.cardNumbers (s : State) (core n : Nat) : Option (List Nat) :=
  let free := (List.range 64).filter fun j => !(s.cards.any fun c => c.core == core && c.idx == j)
  if n ≤ free.length then some (free.take n) else none

/-- The cards of a fold stand on a core, or on none (432) while it is saved: they count as allocated there now, in their order,
behind every card that the core has (R412). -/
def State.moveCards (s : State) (u core : Nat) (nums : List Nat) : State :=
  let mine := s.cards.filter (·.fold == u)
  { s with cards := s.cards.filter (·.fold != u) ++ mine.zipIdx.map fun p => { p.1 with core := core, idx := (nums[p.2]?).getD 0 } }

/-- The fold leaves what its core holds of it: fetch buffers, latches, the parks of R373 and the order of issue; its resumption is
no transfer of control (R135). -/
def Fold.stopClear (x : Fold) : Fold :=
  { x with flocks := x.flocks.map fun k =>
      { k with latOk := 0, last := none, behind := []
               frags := k.frags.map fun g => { g with arriving := false, buf := none, park := g.park.resumed } }
           stream := x.stream.map fun m => { m with arriving := false, buf := none } }

end Sys2Proof.Machine
end

