-- ==== Sys2Proof/Machine/Fold.lean ====
section
/-! DEFINITION. The life of folds and grids (R21 to R23, R299, R350): the start of a unit, the end of a fold, and the completion
of a grid. -/

namespace Sys2Proof.Machine

/-! ### Completion of a grid (R23, R350) -/

/-- Completion statuses (Table 15.4). -/
inductive GridStatus where
  | ok | foldKilled | gridKilled | unplaceable | contextGone
  deriving DecidableEq, Repr

def GridStatus.code : GridStatus → Nat
  | .ok => 0 | .foldKilled => 1 | .gridKilled => 2 | .unplaceable => 3 | .contextGone => 4

/-- A record of the command processor: a queue of a context, and the packet's address (Table 16.2); for a page, the kind of
the access (R366). -/
def State.cpRec (s : State) (ctx qnum : Nat) (cause : Cause) (addr kind : Nat) (coid : W64) : State :=
  (s.pushRec { cause := cause, src := 3, ctx := ctx, qnum := qnum, lcore := 0, slot := 0, flock := 0, card := 0, lanes := 0, addr := addr,
               pc := 0, aux := if cause = .pageAbsent ∨ cause = .pagePerm then kind else 0, coid := coid, more := false,
               phys := false }).1

/-- The completion word is written with release, then the interrupt is raised; a word that cannot be written leaves a record of
its fault (R353). -/
def State.completionWord (s : State) (ctx qnum cword : Nat) (st : GridStatus) (irq : Option Nat) (paddr : Nat) (coid : W64) : State :=
  let s1 := match s.unitWrite ctx cword (leBytes 8 (st.code + s.heart % 2 ^ 56 * 2 ^ 8)) with
    | .ok t => t
    | .error c => (s.unitMet ctx cword 8 .write).cpRec ctx qnum c paddr 1 coid
  match irq with
  | some v => s1.raiseMsix v
  | none => s1

def State.queueNum (s : State) (q : Nat) : Nat := (s.queue q).elim 0 (·.qnum)

/-- A grid leaves, and its queue has another head. -/
def State.leaveGrid (s : State) (g : Grid) : State :=
  let s1 : State := { s with grids := s.grids.filter (·.gid ≠ g.gid), paddocks := s.paddocks.filter (·.gid ≠ g.gid) }
  if (s.headGrid g.queue).map (·.gid) = some g.gid then s1.newHead g.queue else s1

/-- A grid ends with a status and leaves. -/
def State.finishGrid (s : State) (g : Grid) (st : GridStatus) : State :=
  (s.completionWord g.ctx (s.queueNum g.queue) g.cword st (if g.irq then some g.msix else none) g.paddr g.lrec.coid).leaveGrid g

/-- A grid whose folds have all ended completes; unplaced folds of a killed grid count as ended (R23). -/
def State.tryComplete (s : State) (gid : Nat) : State :=
  match s.grid? gid with
  | none => s
  | some g =>
    if s.folds.any (·.gid == gid) then s
    else if g.killed then s.finishGrid g .gridKilled
    else if g.total ≤ g.ended then s.finishGrid g (if g.foldKilled then .foldKilled else .ok)
    else s

/-! ### A fold leaves -/

/-- A request to migrate a fold that has not begun is dropped (R390, R411). -/
def State.dropMove (s : State) (x : Fold) : State :=
  let c := s.core x.core
  if (c.mig = 1 ∨ c.mig = 2) ∧ c.migFold = x.uid then s.modCore x.core fun c => { c with mig := 3, migDropped := true } else s

/-- The accesses of a fold's flocks and stream. -/
def Fold.owns (x : Fold) : Owner → Bool
  | .flock u _ _ => u == x.uid
  | .stream u => u == x.uid
  | .card _ => false

/-- The window address of the place that a buffered write reaches in fold `x` (Table 3.6). -/
def Fold.metAt (x : Fold) (e : Pend) : Nat :=
  match e.loc with
  | .scr _ off => x.winBase 1 (off / 4)
  | .win _ r off => x.winBase r (off / 4)
  | .mem _ => 0

/-- A buffered write of another fold that meets a slot whose fold `x` has ended is a violation: an entry in the log of its die, and
a record of its fold (R404). -/
def State.strayWrite (x : Fold) (s : State) (e : Pend) : State :=
  match e.owner with
  | .flock u lo _ =>
    match s.fold? u with
    | none => s
    | some y =>
      let t := s.logViol (dieOf y.core) y.ctx 0 (y.core % 144) (x.metAt e)
      (t.pushRec { t.recOf y .windowViolation 0 with flock := lo / y.width, addr := x.metAt e }).1
  | _ => s

/-- The buffered writes of other folds into a fold that has ended: each instruction of them meets one error response, and has no effect
(R404; log 120, DEDUCED). -/
def State.strayWrites (s : State) (x : Fold) : State :=
  let stray (e : Pend) : Bool := e.inFold x.uid && !x.owns e.owner
  let firsts := (s.pend.filter stray).foldl (fun (acc : List Pend) e => if acc.any (·.grp == e.grp) then acc else acc ++ [e]) []
  if firsts.isEmpty then s
  else
    let t := firsts.foldl (State.strayWrite x) s
    ({ t with pend := t.pend.filter (!stray ·) } : State).sweepGroups

/-- A fold leaves: its writes are performed, its party numbers retired, and its resources free. -/
def State.removeFold (s : State) (x : Fold) : State :=
  let s1 := (s.drain fun e => x.owns e.owner).strayWrites x
  let s2 := (x.flocks.map (·.party) ++ (x.stream.map (·.party)).toList).foldl State.retire s1
  let s3 : State := { s2 with folds := s2.folds.filter (·.uid ≠ x.uid), groups := s2.groups.filter (·.fold ≠ x.uid) }
  let s4 : State := { s3 with paddocks := s3.paddocks.filter fun p => p.pid != x.pad || s3.folds.any (·.pad == x.pad) }
  ((s4.modGrid x.gid fun g => { g with ended := g.ended + 1 }).updPreq x.core).dropMove x

/-! ### Start (R21, R299) -/

/-- The folds of the unit of a fold: its paddock, or its grid when the grid is resident (R31, R355). -/
def State.unitOf (s : State) (x : Fold) : List Fold :=
  if (s.grid? x.gid).any (·.lrec.resident) then s.folds.filter (·.gid == x.gid) else s.folds.filter (·.pad == x.pad)

/-- Argument words 0 to 6: bytes at and above `ARGSZ` read as zero (R299). -/
def State.argWords (s : State) (g : Grid) : State × Except (Cause × Nat) (List W64) :=
  let n := min 56 g.lrec.argsz
  let r := if n = 0 then (s, .ok []) else s.unitRead g.ctx g.args n
  match r.2 with
  | .error c =>
    let bad := (List.range n).find? fun i => match (s.unitRead g.ctx (g.args + i) 1).2 with | .error _ => true | .ok _ => false
    (r.1, .error (c, g.args + bad.getD 0))
  | .ok bs => (r.1, .ok ((List.range 7).map fun i => BitVec.ofNat 64 (ofLe ((bs.drop (8 * i)).take 8))))

/-- The scalars of a flock at the start of its fold: the argument words (R299), and after a rollback the step in `s1` and 1 in `s2`
(R314). -/
def Flock.loadArgs (k : Flock) (args : Nat) (ws : List W64) (roll : Option W64) : Flock :=
  let a := (ws.zipIdx.foldl (fun a p => a.setS (1 + p.2) p.1) (k.setS 0 (BitVec.ofNat 64 args))).setS 29 4096
  match roll with
  | some n => (a.setS 1 n).setS 2 1
  | none => a

/-- The flocks of a fold take their argument words, or the fold waits for the service of its fault, which is one of its
flock 0 (R299). -/
def State.readArgs (s : State) (u : Nat) : State :=
  match s.fold? u with
  | none => s
  | some x =>
    match s.grid? x.gid with
    | none => s
    | some g =>
      let r := s.argWords g
      match r.2 with
      | .error (c, a) =>
        let p := r.1.pushRec { r.1.recOf x c 0 with addr := a, pc := g.lrec.fentry.toNat }
        let s1 := p.1.modFold u fun y => { y with argFault := some { awaits := [p.2].filter (· ≠ 0), resume := .again, frag := 0, grow := false } }
        if c.fatal then s1.fatalFlock u 0 else s1
      | .ok ws =>
        r.1.modFold u fun y => { y with argFault := none, flocks := y.flocks.map (·.loadArgs g.args ws y.roll) }

/-- A fold placed again is restored from its image, or is killed with `RESTORE_ERROR` (R378); its new core's L1 holds no
line (R335). One that was acknowledged while it was saved, before it had its argument words, reads them now (R299, R390). -/
def State.restoreFold (s : State) (x : Fold) : State :=
  if s.imageOk x then
    match s.cardNumbers x.core (s.cards.filter (·.fold == x.uid)).length with
    | none => s
    | some nums =>
      let t := ((s.modFold x.uid fun _ => { s.restored x with run := .running }).moveCards x.uid x.core nums).modCore x.core fun c => { c with l1 := [] }
      if x.argFault.any (·.awaits.isEmpty) then t.readArgs x.uid else t
  else
    let t := (List.range (s.saveLines x)).foldl (fun t i => t.unitMet x.ctx (s.saveArea x + 64 * i) 64 .read) s
    let p := t.pushRec { s.recOf x .restoreError 4 with addr := s.saveArea x }
    (p.1.modFold x.uid fun y => { y with run := .running }).killScope x.uid

/-- A fold that a rollback starts at step `n`: its flocks and its stream begin at the resume entries, and every flock holds the step
as recorded (R202, R314). -/
def Fold.rolled (x : Fold) (l : LaunchRec) (n : W64) : Fold :=
  match l.rentry with
  | none => x
  | some e =>
    { x with roll := some n
             flocks := x.flocks.map fun k => { k with ckpt := some n, frags := k.frags.map fun g => { g with pc := e } }
             stream := match l.rmentry, x.stream with
               | some q, some m => some { m with pc := q }
               | _, _ => none }

/-- A placed fold starts, by rollback where `roll` holds a step (R314, R315): the acquire that placement makes (R299), its entries
and its argument words. A rollback without a stream entry starts no stream. -/
def State.beginFold (s : State) (x : Fold) (roll : Option W64) : State :=
  let s1 : State := (s.acquire x.core .device).modFold x.uid fun y => { y with run := .running }
  let s2 := match roll, s.grid? x.gid with
    | some n, some g =>
      let t : State := s1.modFold x.uid fun y => y.rolled g.lrec n
      match x.stream with
      | some m => if g.lrec.rentry.isSome && g.lrec.rmentry.isNone then t.retire m.party else t
      | none => t
    | _, _ => s1
  s2.readArgs x.uid

/-- The grid's count of a fold that was already complete on the device that a rollback comes from: it ends at once, and runs nothing
(R314). -/
def State.skipFold (s : State) (x : Fold) : State :=
  let t := ((List.range x.flocks.length).foldl (fun t l => t.endFlock x.uid l) s).endStream x.uid
  match t.fold? x.uid with
  | none => t
  | some y => (t.removeFold y).tryComplete x.gid

/-- A fold of a unit starts; one that was killed by an acknowledgement while it was saved dies as it resumes (R390), and one that a
request to pre-empt has reached stops (R372). -/
def State.startFold (s : State) (u : Nat) (roll : Option W64) (done : Bool) : State :=
  match s.fold? u with
  | none => s
  | some x =>
    match x.run with
    | .placed =>
      if done then s.skipFold x
      else if x.preqAfter then (s.beginFold x roll).modFold u fun y => { y with run := if y.run = .running then .stopping none else y.run, preqAfter := false }
      else s.beginFold x roll
    | .restoring =>
      let t := s.restoreFold x
      if x.lateKill && (t.fold? u).any (·.run == .running) then t.killScope u else t
    | _ => s

/-- A whole unit has been placed and waits to start. -/
def FoldRun.waits : FoldRun → Bool
  | .placed | .restoring => true
  | _ => false

/-- A unit has been placed whole, and the cores of saved folds of it have free job cards for all of their cards: a unit is resumed
as one (R31). -/
def State.unitReady (s : State) (x : Fold) : Bool :=
  let back := (s.unitOf x).filter (·.run == .restoring)
  back.all fun y =>
    let mine := s.cards.filter fun c => back.any fun z => z.core == y.core && c.fold == z.uid
    (s.cardNumbers y.core mine.length).isSome

/-- The folds of a unit start together, each by rollback where the start holds a step for it, but for those that a rollback finds
complete (R314). -/
def State.startUnit (s : State) (x : Fold) (u : UnitStart) : State :=
  ((s.unitOf x).zipIdx).foldl (fun t p => t.startFold p.1.uid ((u.rolls[p.2]?).getD none) ((u.done[p.2]?).getD false)) s

/-- `FOLD_START`: the folds of a placed unit start together, after the settling of their clusters (R21, R47). It gives the
steps at which the runtime starts folds again on a target device, and the folds that were complete (R314), in the order of the unit. -/
def execFoldStart (u : UnitStart) (s : State) : Host.Outcome State Fault Refusal :=
  .next <|
    match s.fold? u.fold with
    | none => s
    | some x =>
      if x.run.waits && s.unitReady x && !(s.unitOf x).any (fun y => (s.cluster (clusterOf y.core)).settling) then s.startUnit x u
      else s

/-! ### End (R22) -/

/-- A fold has ended: its flocks, its stream and its jobs are done. -/
def State.foldDone (s : State) (x : Fold) : Bool := x.allEnded && x.streamGone && !s.cards.any (·.fold == x.uid)

/-- The entries of a context leave every TLB and every cache of records (R379). -/
def State.dropCtxCaches (s : State) (ctx : Nat) : State :=
  let s1 := s.cores.foldl (fun t p => t.modCore p.1 fun c => { c with tlb := c.tlb.filter (·.ctx != ctx), tids := c.tids.filter (·.ctx != ctx) }) s
  s1.clusters.foldl (fun t p => t.modCluster p.1 fun c => { c with tlb := c.tlb.filter (·.ctx != ctx) }) s1

/-- A context of which no fold is left on a core has been switched (R379). -/
def State.switched (s : State) (ctx : Nat) : State :=
  if s.folds.any (fun z => z.ctx == ctx && z.resident) then s else s.dropCtxCaches ctx

/-- `FOLD_END`: the last phase of the fold is counted (R362), its resources are released, and its grid may complete. -/
def execFoldEnd (fold : Nat) (s : State) : Host.Outcome State Fault Refusal :=
  .next <|
    match s.fold? fold with
    | none => s
    | some x =>
      if s.foldDone x && (x.run == .running || x.run == .dying || x.run == .saved || x.run == .stopping none || x.run == .saving) then
        let t := ((s.countPhase x).removeFold x).tryComplete x.gid
        if x.run == .running then t else t.switched x.ctx
      else s

end Sys2Proof.Machine
end

