-- ==== Sys2Proof/Machine/Queue.lean ====
section
/-! DEFINITION. Queues and packets (R344 to R354): descriptors, the write index, prefetch, the packets, `LAUNCH` from a kernel,
and the end of a context. -/

namespace Sys2Proof.Machine

def State.qCtx (s : State) (x : Queue) : Option Ctx := s.ctx x.ctx

/-- A queue fetches: it is enabled and not in error, and neither is its context (R36, R352). -/
def State.fetches (s : State) (x : Queue) : Bool := x.enable && !x.err && (s.qCtx x).any (!·.error)

/-- A queue enters error state with a cause; prefetched packets are discarded and a record names the address (R352). -/
def State.queueErr (s : State) (q : Nat) (cause : Cause) (addr kind : Nat) (coid : W64) : State :=
  match s.queue q with
  | none => s
  | some x =>
    (s.modQueue q fun y => { y with err := true, ecause := cause.code, pre := [], waits := false, waiting := none }).cpRec x.ctx x.qnum cause addr kind coid

def Queue.slotAddr (x : Queue) (n : Nat) : Nat := x.base + 64 * (n % 2 ^ x.logn)

/-! ### Prefetch (R347) -/

/-- Reads up to `n` ready packets more. -/
def State.prefetch (s : State) (q : Nat) : Nat → State
  | 0 => s
  | f + 1 =>
    match s.queue q with
    | none => s
    | some x =>
      let n := x.read + x.pre.length
      if !s.fetches x || decide (x.wseen ≤ n) || decide (16 ≤ x.pre.length) then s
      else
        let r := s.unitRead x.ctx (x.slotAddr n) 64
        match r.2 with
        | .error _ => r.1.queueErr q .queueUnmapped (x.slotAddr n) 0 0
        | .ok bs => (r.1.modQueue q fun y => { y with pre := y.pre ++ [BitVec.ofNat 512 (ofLe bs)] }).prefetch q f

/-- How far the command processor has read ahead is free (R347). -/
def State.readAhead (s : State) (q : Nat) : State := let d := s.draw; d.2.prefetch q (d.1 % 17)

/-- `WRITE_INDEX_WAKE`: the index is read again; a value at or below what is processed is ignored, and one more than the ring
holds is an overflow (R345, R346, R363). The record names the address of the next packet (R352). -/
def execWriteIndexWake (q : Nat) (s : State) : Host.Outcome State Fault Refusal :=
  .next <|
    match s.queue q with
    | none => s
    | some x =>
      if !s.fetches x then s
      else if x.devq then s.readAhead q
      else
        let r := s.unitRead x.ctx x.widx 8
        match r.2 with
        | .error _ => r.1.queueErr q .queueUnmapped (x.slotAddr x.read) 0 0
        | .ok bs =>
          let v := ofLe bs
          if 2 ^ x.logn < v - x.read then r.1.queueErr q .queueOverflow (x.slotAddr x.read) 0 0
          else if v ≤ x.read then r.1.readAhead q
          else (r.1.modQueue q fun y => { y with wseen := max v (y.read + y.pre.length) }).readAhead q

/-! ### The head packet -/

def pktKind (p : Line) : Nat := bits p.toNat 7 0
def pktBar (p : Line) : Bool := p.getLsbD 8
def pktZero (p : Line) (l : List (Nat × Nat)) : Bool := l.all fun r => bits p.toNat r.1 r.2 == 0

/-- The layout of a packet (Tables 15.3 and 15.5); `NOP` and `FETCHFENCE` have only their kind and `BAR`. -/
def pktOk (p : Line) : Bool :=
  match pktKind p with
  | 0 | 3 => true
  | 1 | 2 => pktZero p [(15, 11), (31, 27), (127, 95), (191, 185), (255, 249), (319, 313), (511, 352), (135, 128), (194, 192)]
  | 4 =>
    pktZero p [(11, 9), (15, 13), (26, 19), (63, 27), (127, 121), (511, 224)] && decide (bits p.toNat 120 64 % (if p.getLsbD 12 then 8 else 4) = 0)
      && (p.getLsbD 12 || bits p.toNat 191 160 == 0)
  | 5 =>
    pktZero p [(26, 13), (63, 38), (127, 121), (511, 192)] && decide (bits p.toNat 120 64 % (if p.getLsbD 12 then 8 else 4) = 0)
      && (p.getLsbD 12 || bits p.toNat 191 160 == 0)
  | 6 => pktZero p [(63, 9), (127, 121), (511, 128)] && decide (bits p.toNat 120 64 % 8 = 0)
  | _ => false

/-- Every earlier packet of the queue has completed (R348). -/
def State.earlierDone (s : State) (q : Nat) : Bool := !s.grids.any (·.queue == q)

/-- The packet has been processed: the read index is written with release, and the next may be read ahead (R345). -/
def State.popPacket (s : State) (q : Nat) : State :=
  match s.queue q with
  | none => s
  | some x =>
    let s1 := s.modQueue q fun y => { y with read := y.read + 1, pre := y.pre.drop 1, waits := false, waiting := none }
    match s1.unitWrite x.ctx x.ridx (le8 (x.read + 1)) with
    | .ok t => t.readAhead q
    | .error _ => (s1.unitMet x.ctx x.ridx 8 .write).queueErr q .queueUnmapped (x.slotAddr x.read) 0 0

/-- Runs `f` on the head packet of a queue, with its address, when the queue fetches, the packet is of a kind that `kinds`
takes, and its `BAR` lets it; a malformed one is an error (R348). -/
def State.packet (s : State) (q : Nat) (kinds : Nat → Bool) (f : State → Queue → Line → Nat → State) : State :=
  match s.queue q with
  | none => s
  | some x =>
    if !s.fetches x || decide (x.wseen ≤ x.read) then s
    else
      let s1 := if x.pre.isEmpty then s.prefetch q 1 else s
      match s1.queue q with
      | none => s1
      | some y =>
        match y.pre with
        | [] => s1
        | p :: _ =>
          let addr := y.slotAddr y.read
          if !kinds (pktKind p) then s1
          else if (pktBar p || pktKind p == 3) && !s1.earlierDone q then s1
          else if !pktOk p then s1.queueErr q .queuePacket addr 0 0
          else f s1 y p addr

/-- `PACKET_NOP`; a packet of a reserved kind is refused in its stead. -/
def execPacketNop (q : Nat) (s : State) : Host.Outcome State Fault Refusal :=
  .next (s.packet q (fun k => k == 0 || decide (7 ≤ k)) fun t _ _ _ => t.popPacket q)

/-- `FETCHFENCE`: behind it every prefetched packet is read again. -/
def execFetchfence (q : Nat) (s : State) : Host.Outcome State Fault Refusal :=
  .next (s.packet q (· == 3) fun t _ _ _ => (t.modQueue q fun y => { y with pre := y.pre.take 1 }).popPacket q)

/-! ### The launch record (R353, R354, R429) -/

/-- Numbers of a little-endian block. -/
def fieldOf (b : List Byte) : Nat → Nat → Nat := bits (ofLe b)

def entryPc (v : Nat) : Option Pc := if v = 2 ^ 64 - 1 then none else some (BitVec.ofNat 55 v)
def entryOk (v : Nat) : Bool := v == 2 ^ 64 - 1 || decide (v < 2 ^ 55)

def parseRecord (b : List Byte) : LaunchRec :=
  let f := fieldOf b
  { width := 8 * 2 ^ f 1 0, resident := f 2 2 == 1, contain := f 3 3 == 1, race := f 4 4 == 1, prio := f 6 5, clo := f 10 8, chi := f 14 12,
    regs := 8 * (f 20 16 + 1), fold := f 35 24, scr := 4096 * f 44 36, acc := 128 * f 47 45, pad := f 51 48, tags := f 58 52,
    fentry := BitVec.ofNat 55 (f 118 64), mentry := entryPc (f 191 128), rentry := entryPc (f 255 192), rmentry := entryPc (f 319 256),
    cbase := f 376 320, badr := f 440 384, nbar := f 452 448, tidlo := f 475 464, tidn := f 487 476,
    hw := (List.range 8).map fun k => f (527 + 16 * k) (512 + 16 * k), pmap := f 696 640, pmapn := f 716 704, argsz := f 751 720,
    ibt := f 808 752, coid := BitVec.ofNat 64 (f 879 816), priv := 4096 * f 892 880 }

/-- The fields of a record in their ranges, and its zero fields (Table 15.6). -/
def recordOk (b : List Byte) (qprio : Nat) : Bool :=
  let f := fieldOf b
  let l := parseRecord b
  let zeroed := [(7, 7), (11, 11), (15, 15), (23, 21), (63, 59), (127, 119), (383, 377), (447, 441), (463, 453), (511, 488), (703, 697), (719, 717),
    (815, 809), (2047, 893)]
  zeroed.all (fun r => f r.1 r.2 == 0) && f 1 0 != 0 && decide (l.prio ≤ qprio) && decide (l.clo ≤ l.chi) && f 20 16 != 0
    && decide (16 ≤ l.fold) && widthOk l.fold l.width && decide (f 44 36 ≤ 256) && decide (f 47 45 ≤ 4) && decide (1 ≤ l.pad) && decide (l.pad ≤ 8)
    && decide (l.tags ≤ 64) && entryOk (f 191 128) && entryOk (f 255 192) && entryOk (f 319 256) && decide (l.nbar ≤ 24)
    && decide (l.pmap % 16 = 0) && decide (l.pmapn ≤ 4096) && decide (l.ibt % 64 = 0) && decide (1 ≤ f 892 880) && decide (f 892 880 ≤ 4096)

def parseBar (b : List Byte) : BarDecl :=
  let f := fieldOf b
  { paddock := f 0 0 == 1, num := f 4 1, matrix := f 5 5 == 1, mask := BitVec.ofNat 64 (f 127 64) }

/-- One declaration against R429. -/
def barOk (l : LaunchRec) (b : List Byte) : Bool :=
  let d := parseBar b
  bits (ofLe b) 63 6 == 0
    && (if d.paddock then decide (d.num ≤ 7) && decide (d.mask.toNat < 2 ^ l.pad) && !d.matrix && d.mask != 0
        else decide (d.mask.toNat < 2 ^ (l.fold / l.width)) && (d.matrix || d.mask != 0))

def barsDistinct : List BarDecl → Bool
  | [] => true
  | d :: r => r.all (fun e => !(e.paddock == d.paddock && e.num == d.num)) && barsDistinct r

def parseEntry (b : List Byte) : MapEntry := { lo := fieldOf b 31 0, hi := fieldOf b 63 32, cluster := fieldOf b 69 64 }

/-- The cluster to which a placement map binds fold `f`. -/
def mapOf (m : List MapEntry) (f : Nat) : Option Nat := (m.find? fun e => decide (e.lo ≤ f) && decide (f < e.hi)).map (·.cluster)

def mapDisjoint : List MapEntry → Bool
  | [] => true
  | e :: r => r.all (fun g => decide (e.hi ≤ e.lo) || decide (g.hi ≤ g.lo) || decide (e.hi ≤ g.lo) || decide (g.hi ≤ e.lo)) && mapDisjoint r

/-- The clusters to which the folds of paddock `p` are bound. -/
def padBound (m : List MapEntry) (pad total p : Nat) : List Nat :=
  nubNat (((List.range pad).map (pad * p + ·)).filterMap fun f => if f < total then mapOf m f else none)

/-- No paddock's folds map to different clusters: only paddocks at the ends of an entry could. -/
def mapPads (m : List MapEntry) (pad total : Nat) : Bool :=
  m.all fun e => decide (e.hi ≤ e.lo) || ([e.lo, e.hi - 1].all fun f => decide ((padBound m pad total (f / pad)).length ≤ 1))

def mapEntryOk (b : List Byte) : Bool := bits (ofLe b) 127 70 == 0 && decide (bits (ofLe b) 69 64 ≤ 53)

/-- `n` entries of 16 bytes from an address on; the first that cannot be read ends it. -/
def State.readEntries (s : State) (ctx va : Nat) : Nat → State × Except Cause (List (List Byte))
  | 0 => (s, .ok [])
  | n + 1 =>
    let r := s.unitRead ctx va 16
    match r.2 with
    | .error c => (r.1, .error c)
    | .ok b =>
      let q := r.1.readEntries ctx (va + 16) n
      match q.2 with
      | .error c => (q.1, .error c)
      | .ok l => (q.1, .ok (b :: l))

/-! ### `UNPLACEABLE` (R357) -/

/-- The most folds with some resources that an empty core holds. -/
def coreCap (n : Need) : Nat := (List.range 17).foldl (fun m k => if 0 < k ∧ decide (k * n.flocks ≤ 64) && decide (k * n.regs ≤ 131072)
  && decide (k * n.scr ≤ 2 ^ 20) && decide (k * n.acc ≤ 512) && decide (k * n.tags ≤ 64) then max m k else m) 0

/-- Paddocks of `p` folds placed on empty clusters of capacity `cap`, the bound ones first: what is left of each cluster, or none
where one does not fit. -/
def packPads (cap : Nat) : List (Option Nat × Nat) → List Nat → Option (List Nat)
  | [], left => some left
  | (b, p) :: r, left =>
    let c := match b with | some c => some c | none => left.findIdx? fun n => decide (p ≤ n)
    match c with
    | none => none
    | some c => if p ≤ (left[c]?).getD 0 then packPads cap r (modNth (· - p) c left) else none

/-- The grid can never be placed: a fold, a paddock, or a whole resident grid exceeds the device when it is empty. -/
def unplaceable (l : LaunchRec) (m : List MapEntry) (total : Nat) : Bool :=
  let cap := 8 * coreCap l.need
  if cap < min l.pad total then true
  else if !l.resident then false
  else if 54 * cap < total then true
  else
    let pads := (List.range ((total + l.pad - 1) / l.pad)).map fun p => ((padBound m l.pad total p).head?, min l.pad (total - l.pad * p))
    (packPads cap (pads.filter (·.1.isSome) ++ pads.filter (·.1.isNone)) (List.replicate 54 cap)).isNone

/-! ### `LAUNCH` and `LAUNCHC` packets (R349, R353) -/

/-- What a launch packet says (Table 15.3). -/
structure LaunchPkt where
  irq : Bool
  dom : Bool
  msix : Nat
  gx : Nat
  gy : Nat
  gz : Nat
  lrec : Nat
  cword : Nat
  args : Nat
  seed : W32
  deriving DecidableEq, Repr

def parsePkt (p : Line) : LaunchPkt :=
  let f := bits p.toNat
  { irq := f 9 9 == 1, dom := f 10 10 == 1, msix := f 26 16, gx := f 52 32, gy := f 73 53, gz := f 94 74, lrec := f 184 128,
    cword := f 248 192, args := f 312 256, seed := BitVec.ofNat 32 (f 351 320) }

/-- A launch is refused: the queue is in error with the cause, and the completion word receives `GRID_KILLED`. -/
def State.refuseLaunch (s : State) (q : Nat) (x : Queue) (k : LaunchPkt) (cause : Cause) (addr : Nat) (coid : W64) : State :=
  (s.queueErr q cause addr 0 coid).completionWord x.ctx x.qnum k.cword .gridKilled (if k.irq then some k.msix else none) addr coid

/-- A launch is processed: its record, declarations and map are read once and checked, and the grid is handed over (R353). -/
def State.launch (s : State) (q : Nat) (x : Queue) (p : Line) (addr : Nat) (chained : Bool) : State :=
  let k := parsePkt p
  let dims := [k.gx, k.gy, k.gz].all fun n => decide (1 ≤ n) && decide (n ≤ 2 ^ 20)
  let refuse (t : State) (c : Cause) (coid : W64) : State := t.refuseLaunch q x k c addr coid
  let r := s.unitRead x.ctx k.lrec 256
  if !dims then refuse s .launchInvalid 0
  else
    match r.2 with
    | .error c => refuse r.1 c 0
    | .ok b =>
      let l := parseRecord b
      if !recordOk b x.prio then refuse r.1 .launchInvalid l.coid
      else
        let rb := r.1.readEntries x.ctx l.badr l.nbar
        match rb.2 with
        | .error c => refuse rb.1 c l.coid
        | .ok bs =>
          let rm := rb.1.readEntries x.ctx l.pmap (if l.pmap = 0 then 0 else l.pmapn)
          match rm.2 with
          | .error c => refuse rm.1 c l.coid
          | .ok ms =>
            let bars := bs.map parseBar
            let m := ms.map parseEntry
            let total := k.gx * k.gy * k.gz
            if !(bs.all (barOk l) && barsDistinct bars && ms.all mapEntryOk && mapDisjoint m && mapPads m l.pad total) then refuse rm.1 .launchInvalid l.coid
            else if unplaceable l m total then
              ((rm.1.completionWord x.ctx x.qnum k.cword .unplaceable (if k.irq then some k.msix else none) addr l.coid).modQueue q
                fun y => { y with prevLaunch := none }).popPacket q
            else
              let n := rm.1.newId
              let g : Grid :=
                { gid := n.1, ctx := x.ctx, queue := q, lrec := l, lrecAddr := k.lrec, paddr := addr, bars := bars, pmap := m, gx := k.gx, gy := k.gy,
                  gz := k.gz, cword := k.cword, irq := k.irq, msix := k.msix, dom := k.dom, args := k.args, seed := k.seed,
                  prev := if chained then x.prevLaunch else none, nextF := 0, ended := 0, foldKilled := false, killed := false,
                  since := n.2.heart, order := n.1, age := 0, failed := none, reserved := [], resumes := [] }
              (({ n.2 with grids := n.2.grids ++ [g] } : State).modQueue q fun y => { y with prevLaunch := some n.1 }).popPacket q

def execPacketLaunch (q : Nat) (s : State) : Host.Outcome State Fault Refusal :=
  .next (s.packet q (· == 1) fun t x p a => t.launch q x p a false)

def execLaunchc (q : Nat) (s : State) : Host.Outcome State Fault Refusal :=
  .next (s.packet q (· == 2) fun t x p a => t.launch q x p a true)

/-! ### `WAITMEM`, `SIGNAL` and `STAMP` (R351) -/

def pktAddr (p : Line) : Nat := bits p.toNat 120 64
def pktBytes (p : Line) : Nat := if p.getLsbD 12 then 8 else 4
def pktValue (p : Line) : Nat := bits p.toNat 191 128 % 2 ^ (8 * pktBytes p)

/-- `WAITMEM` looks at its word: it goes on when the condition holds, else it waits. -/
def execWaitmem (q : Nat) (s : State) : Host.Outcome State Fault Refusal :=
  .next <| s.packet q (· == 4) fun t x p a =>
    let r := t.unitRead x.ctx (pktAddr p) (pktBytes p)
    match r.2 with
    | .error c => r.1.queueErr q c a 0 0
    | .ok bs =>
      if waitCond (bits p.toNat 18 16) (if p.getLsbD 12 then .n64 else .n32) (ofLe bs) (pktValue p) then r.1.popPacket q
      else if x.waits then r.1
      else
        let tmo := bits p.toNat 223 192
        r.1.modQueue q fun y => { y with waits := true, waiting := if tmo = 0 then none else some (t.heart + tmo) }

/-- `WAITMEM_TIMEOUT`. -/
def execWaitmemTimeout (q : Nat) (s : State) : Host.Outcome State Fault Refusal :=
  .next <|
    match s.queue q with
    | none => s
    | some x =>
      match x.waiting with
      | some d => if d ≤ s.heart then s.queueErr q .queueTimeout (x.slotAddr x.read) 0 0 else s
      | none => s

/-- `SIGNAL`: a store, or an atomic addition at the address's engine, then the interrupt. -/
def execSignal (q : Nat) (s : State) : Host.Outcome State Fault Refusal :=
  .next <| s.packet q (· == 5) fun t x p a =>
    let n := pktBytes p
    let irq (u : State) : State := if p.getLsbD 9 then u.raiseMsix (bits p.toNat 37 27) else u
    let add := p.getLsbD 11
    let done : Except Cause State :=
      if !add then t.unitWrite x.ctx (pktAddr p) (leBytes n (pktValue p))
      else
        match t.virt x.ctx (pktAddr p) (.atomic false) with
        | .error c => .error c
        | .ok (l, k) => .ok (t.homeUpdate k l.crypt l.ml l.rp 0 (if n = 8 then .n64 else .n32) (pktValue p) 0)
    match done with
    | .error c => (t.unitMet x.ctx (pktAddr p) n .write).queueErr q c a (if add then 2 else 1) 0
    | .ok u => (irq u).popPacket q

def execStamp (q : Nat) (s : State) : Host.Outcome State Fault Refusal :=
  .next <| s.packet q (· == 6) fun t x p a =>
    match t.unitWrite x.ctx (pktAddr p) (le8 (t.heart % 2 ^ 64)) with
    | .error c => (t.unitMet x.ctx (pktAddr p) 8 .write).queueErr q c a 1 0
    | .ok u => u.popPacket q

/-! ### `LAUNCH` from a kernel (R198, R345) -/

/-- The queue of a context by its number. -/
def State.queueByNum (s : State) (ctx n : Nat) : Option Nat := (s.queues.find? fun p => p.2.any fun x => x.enable && x.ctx == ctx && x.qnum == n).map (·.1)

/-- The command processor holds the copy: it is appended behind every packet of the queue, and the write index advances. A slot or an
index that cannot be written puts the queue in error state with `QUEUE_UNMAPPED`, and answers status 3 (log 104, DESIGN
CHOICE). -/
def State.appendPacket (s : State) (ctx num : Nat) (p : Line) : State × Nat :=
  match s.queueByNum ctx num with
  | none => (s, 1)
  | some q =>
    match s.queue q with
    | none => (s, 1)
    | some x =>
      if !x.devq then (s, 1)
      else if x.err then (s, 3)
      else if 2 ^ x.logn ≤ x.wseen - x.read then (s, 2)
      else
        match s.unitWrite ctx (x.slotAddr x.wseen) (leBytes 64 p.toNat) with
        | .error _ => ((s.unitMet ctx (x.slotAddr x.wseen) 64 .write).queueErr q .queueUnmapped (x.slotAddr x.wseen) 0 0, 3)
        | .ok t =>
          match t.unitWrite ctx x.widx (le8 (x.wseen + 1)) with
          | .error _ => ((t.unitMet ctx x.widx 8 .write).queueErr q .queueUnmapped (x.slotAddr x.wseen) 0 0, 3)
          | .ok u => (u.modQueue q fun y => { y with wseen := y.wseen + 1 }, 0)

/-- The queue that the `LAUNCH` on which a fragment stands names. -/
def Frag.launchQueue (g : Frag) : Nat :=
  match g.current with
  | some (.launch _ o) => o.imm.toNat % 64
  | _ => 0

/-- `COMMAND_PROCESSOR_COPY_HELD`. -/
def execCommandProcessorCopyHeld (fold fl fr : Nat) (s : State) : Host.Outcome State Fault Refusal :=
  .next <| s.eventFrag fold fl fr fun i =>
    match i.g.park, i.g.sysDst with
    | .cmdproc p, some sd =>
      let r := s.appendPacket i.x.ctx i.g.launchQueue p
      i.next (i.setS r.1 sd (BitVec.ofNat 64 r.2))
    | _, _ => s

/-! ### Queue descriptors (R344) and the end of a context (R104, R363, R390) -/

/-- The descriptor of a queue from its 64 bytes, where it is legal (Table 15.1). -/
def parseQueue (b : List Byte) : Option Queue :=
  let f := fieldOf b
  let zeroed := [(63, 57), (71, 69), (79, 76), (127, 92), (191, 185), (255, 250), (511, 264)]
  let n := f 68 64
  if zeroed.all (fun r => f r.1 r.2 == 0) && decide (4 ≤ n) && decide (n ≤ 16) && decide (f 56 0 % 2 ^ (n + 6) = 0) && decide (f 184 128 % 64 = 0)
      && decide (f 248 192 % 8 = 0) then
    some { base := f 56 0, logn := n, prio := f 73 72, devq := f 74 74 == 1, enable := f 75 75 == 1, ctx := f 85 80, qnum := f 91 86, widx := f 184 128,
           ridx := f 248 192, err := false, ecause := 0, wseen := 0, read := 0, pre := [], waiting := none, waits := false, prevLaunch := none }
  else none

/-- A queue that is enabled takes its indices from memory; the reads apply the tiles that they meet (R105). -/
def State.loadIndices (s : State) (x : Queue) : State × Queue :=
  let r := s.readNum x.ctx x.ridx 8
  let w := if x.devq then r.1.readNum x.ctx x.widx 8 else r
  (w.1, { x with read := r.2, wseen := max r.2 w.2 })

/-- The launch that goes before the next one of a queue whose descriptor is written again: the queue is still the same one if its
context and its number stand (R18, R348, R352; log 131, DEDUCED). -/
def State.launchBefore (s : State) (q : Nat) (x : Queue) : Option Nat :=
  (s.queue q).bind fun y => if y.ctx = x.ctx ∧ y.qnum = x.qnum then y.prevLaunch else none

/-- `WRITE_QUEUE_DESCRIPTOR`: the 64 bytes at a host address become the descriptor; one that breaks R344 is not enabled. A
queue whose entry is cleared stops fetching, and its prefetched packets are discarded (R363). -/
def execWriteQueueDescriptor (q addr : Nat) (s : State) : Host.Outcome State Fault Refusal :=
  .next <|
    s.command 1 [q, addr] fun s =>
      if 1024 ≤ q ∨ 2 ^ 51 ≤ addr + 63 then (s, some (1, []))
      else
        match parseQueue (s.bytes (2 * classKey + addr) 64) with
        | none => (s.modQueue q fun y => { y with enable := false, pre := [], waits := false, waiting := none }, some (1, []))
        | some y =>
          let x := { y with prevLaunch := s.launchBefore q y }
          let twice := s.queues.any fun p => p.1 != q && p.2.any fun y => y.enable && y.ctx == x.ctx && y.qnum == x.qnum
          if !x.enable then (s.setQueue q (some x), some (0, []))
          else if twice then (s.setQueue q (some { x with enable := false }), some (1, []))
          else
            let r := s.loadIndices x
            (r.1.setQueue q (some r.2), some (0, []))

/-- Every log is applied. -/
def State.applyLogs (s : State) : State := (nubNat (s.logs.map (·.tile))).foldl State.applyTile s

/-- `CONTEXT_TEARDOWN`: every fold of the context ends, with its last phase counted (R362), and every grid of it completes: with
`CONTEXT_GONE` where no fold of it was placed, else with `GRID_KILLED`. The context's queues stop, the logs are applied (R104), save
areas and resources are given up, and the context is gone. Of a context that the runtime has moved to another device the grids end
without completion words (R314; log 44). -/
def execContextTeardown (ctx : Nat × Bool) (s : State) : Host.Outcome State Fault Refusal :=
  let n := ctx.1
  .next <|
    match s.ctx n with
    | none => s
    | some _ =>
      if !s.atChunk (·.ctx == n) then s
      else
      let mine := s.folds.filter (·.ctx == n)
      let s1 := mine.foldl (fun t x => t.dropCards x.uid) s
      let s2 := mine.foldl (fun t x => (t.countPhase x).removeFold x) s1
      let s3 := (s2.grids.filter (·.ctx == n)).foldl (fun t g =>
        if ctx.2 then t.leaveGrid g else t.finishGrid g (if g.nextF = 0 then .contextGone else .gridKilled)) s2
      let s4 := s3.queues.foldl (fun t p => if p.2.any (·.ctx == n) then t.setQueue p.1 none else t) s3
      let s5 := s4.applyLogs.setCtx n none
      let s6 := s5.dropCtxCaches n
      s6.cores.foldl (fun t p => t.modCore p.1 fun c => { c with ic := c.ic.filter (·.ctx != n) }) s6

end Sys2Proof.Machine
end

