-- ==== Sys2Proof/Machine/Placement.lean ====
section
/-! DEFINITION. The dispatcher (R355 to R361): the test of a unit against a tentative state, its placement, ageing and
reservation, and the rotation of the cluster maps. -/

namespace Sys2Proof.Machine

/-! ### One fold of a unit -/

/-- A fold to be placed: a new one by its linear index, or a saved one by its identity. -/
inductive Cand where
  | fresh (f : Nat)
  | saved (uid : Nat)
  deriving DecidableEq, Repr

/-- What the dispatcher has chosen for a fold. -/
structure Spot where
  cluster : Nat
  core : Nat
  point : Nat
  deriving DecidableEq, Repr

/-- The best cluster of those in `cs` where a fold fits (R356): an occupied one before an empty one, then the lowest predicted
share, then the lowest logical index. No fold is placed on a cluster while a rendezvous is open on it (R53). -/
def State.bestSpot (s : State) (l : LaunchRec) (n : Need) (cs : List Nat) : Option Spot :=
  let spots := cs.filterMap fun c =>
    match (if (s.cluster c).rdv.isSome then none else s.fits l n c) with
    | none => none
    | some pt => (s.coreFor c n).map fun k => ({ cluster := c, core := k, point := pt } : Spot)
  minBy (fun p => (((if (s.foldsOnCluster p.cluster).isEmpty then 1 else 0) * 2 ^ 40 + s.shareKey l p.cluster p.point) * 64) + s.logical p.cluster) spots

/-- The point of a cluster that has been chosen: an empty one is set to it, and its folds start after the settling where it
differs (R47). -/
def State.takePoint (s : State) (p : Spot) : State :=
  s.modCluster p.cluster fun c =>
    let pt := BitVec.ofNat 3 p.point
    { c with point := pt, settling := c.settling || c.point != pt }

/-- The barriers of a fold as its launch declares them (R32). -/
def foldBars (l : LaunchRec) (bs : List BarDecl) : Map BarSt :=
  (bs.filter (!·.paddock)).foldl (fun m d =>
    Map.set BarSt.none m d.num { BarSt.none with declared := true, stream := d.matrix, members := d.mask })
    (Map.set BarSt.none [] 16 { BarSt.none with declared := true, members := lowMask (l.fold / l.width) })

/-- The paddock barriers of a paddock of `n` folds: absent members count as arrived permanently (R429). -/
def padBars (bs : List BarDecl) (n : Nat) : Map BarSt :=
  (bs.filter (·.paddock)).foldl (fun m d =>
    Map.set BarSt.none m d.num { BarSt.none with declared := true, members := d.mask, permanent := d.mask &&& ~~~(lowMask n) }) []

/-- The records that a launch binds are read into the core's cache; one whose read faults loads nothing (R91, R353). -/
def State.preload (s : State) (core ctx lo n : Nat) : State :=
  let base := (s.ctx ctx).elim 0 (·.tidBase)
  ((List.range n).map (lo + ·)).foldl (fun t tid =>
    let r := t.unitRead ctx (base + 64 * tid) 64
    match r.2 with
    | .error _ => r.1
    | .ok bs => r.1.modCore core fun c =>
        { c with tids := (({ ctx := ctx, tid := tid, data := BitVec.ofNat 512 (ofLe bs) } : TidEnt)
                    :: c.tids.filter fun e => !(e.ctx == ctx && e.tid == tid)).take 64 }) s

/-- A new fold of a grid at a spot, as member `k` of paddock `pad` (R20, R71, R300). -/
def State.createFold (s : State) (g : Grid) (pad k f : Nat) (p : Spot) : State :=
  let l := g.lrec
  let id := s.newId
  let lcore := s.logCore p.core
  let px := id.2.pick ((id.2.folds.filter (·.ctx == g.ctx)).map (·.pidx)) 16384
  let ps := px.2.pick ((px.2.foldsOnCore p.core).map (·.pslot)) 16
  let sl := ps.2.pick (ps.2.slotsOf lcore) 16
  let x := Fold.create id.1 l.fold l.width l.regs l.scr l.acc l.tags l.priv l.fentry l.mentry
  let y : Fold := { x with
    ctx := g.ctx, gid := g.gid, pad := pad, x := f % g.gx, y := f / g.gx % g.gy, z := f / (g.gx * g.gy), lin := f, padIdx := k, core := p.core
    pslot := ps.1, lcore := lcore, slot := sl.1, pidx := px.1, bars := foldBars l g.bars
    srstate := (List.range l.fold).foldr (fun t m => (t, srSeed g.seed f t) :: m) [] }
  let s1 : State := { sl.2 with folds := sl.2.folds ++ [y] }
  let s2 := (s1.giveParties id.1 (l.fold / l.width) 0).giveStreamParty id.1
  (s2.takePoint p).preload p.core g.ctx l.tidlo l.tidn

/-- A saved fold is placed again, with the resources it held (R378). Wherever it resumes it keeps its logical core and its fold slot there, so
that `SR.CORE`, `SR.CLUSTER`, `SR.DIE` and its window addresses stay as they were (R49, R61; log 45). -/
def State.replaceFold (s : State) (x : Fold) (p : Spot) : State :=
  let ps := s.pick ((s.foldsOnCore p.core).map (·.pslot)) 16
  (ps.2.modFold x.uid fun y => { y with run := .restoring, core := p.core, pslot := ps.1 }).takePoint p

/-! ### A unit -/

/-- A paddock to be placed: its new identity or the saved one, and its folds. -/
structure PadPlan where
  pid : Nat
  cands : List Cand
  deriving DecidableEq, Repr

/-- The paddocks of the next unit of a grid (R355): the saved ones that are to be resumed first (R378). -/
def State.nextUnit (s : State) (g : Grid) : List PadPlan :=
  let savedPad (pid : Nat) : PadPlan := { pid := pid, cands := (s.folds.filter fun x => x.pad == pid && x.run == .saved).map fun x => .saved x.uid }
  match g.resumes with
  | pid :: _ =>
    if g.lrec.resident then (s.paddocks.filter (·.gid == g.gid)).map fun p => savedPad p.pid else [savedPad pid]
  | [] =>
    let pads := (g.total + g.lrec.pad - 1) / g.lrec.pad
    let first := g.nextF / g.lrec.pad
    ((List.range (if g.lrec.resident then pads - first else 1)).map (first + ·)).map fun p =>
      { pid := 0, cands := ((List.range g.lrec.pad).map (p * g.lrec.pad + ·)).filterMap fun f => if f < g.total then some (.fresh f) else none }

/-- The folds of a paddock placed one after another: all on the cluster chosen for the first (R355, R356). While the pool of R109
lacks the numbers that a fold's parties need, the fold is not placed (log 121, DESIGN CHOICE). -/
def State.placeCands (s : State) (g : Grid) (pad : Nat) (free : List Nat) : Option Nat → Nat → List Cand → Option State
  | _, _, [] => some s
  | at', k, c :: r =>
    let need := match c with
      | .fresh _ => g.lrec.need
      | .saved u => (s.fold? u).elim g.lrec.need Fold.need
    match s.bestSpot g.lrec need (match at' with | some cl => [cl] | none => free) with
    | none => none
    | some p =>
      let parties := g.lrec.fold / g.lrec.width + 1
      let placed : Option State := match c with
        | .fresh f => if s.poolFree < parties then none else some (s.createFold g pad k f p)
        | .saved u => (s.fold? u).map fun x => s.replaceFold x p
      match placed with
      | none => none
      | some t => t.placeCands g pad free (some p.cluster) (k + 1) r

/-- The linear indices of a paddock's folds. -/
def State.linOf (s : State) : Cand → Option Nat
  | .fresh f => some f
  | .saved u => (s.fold? u).map (·.lin)

/-- The physical clusters on which a paddock may stand: the one its map entry binds it to, or any that is not reserved. -/
def State.padClusters (s : State) (g : Grid) (blocked : List Nat) (cs : List Cand) : List Nat :=
  let all := match (cs.filterMap s.linOf).findSome? (mapOf g.pmap) with
    | some i => [s.physical i]
    | none => List.range 54
  all.filter (!blocked.contains ·)

/-- A paddock of a unit placed against the tentative state. -/
def State.placePad (s : State) (g : Grid) (blocked : List Nat) (p : PadPlan) : Option State :=
  let free := s.padClusters g blocked p.cands
  if p.pid ≠ 0 then s.placeCands g p.pid free none 0 p.cands
  else
    let n := s.newId
    let pad : Paddock := { pid := n.1, gid := g.gid, bars := padBars g.bars p.cands.length }
    ({ n.2 with paddocks := n.2.paddocks ++ [pad] } : State).placeCands g n.1 free none 0 p.cands

/-- A unit is placed whole, or not at all (R355). -/
def State.placeUnit (s : State) (g : Grid) (blocked : List Nat) : Option State :=
  let plans := s.nextUnit g
  match plans.foldl (fun (t : Option State) p => t.bind fun u => u.placePad g blocked p) (some s) with
  | none => none
  | some t =>
    let t1 := t.modGrid g.gid fun x =>
      match x.resumes with
      | _ :: r => { x with resumes := if x.lrec.resident then [] else r }
      | [] => { x with nextF := if x.lrec.resident then x.total else min x.total (x.nextF + x.lrec.pad) }
    let t2 := t1.modGrid g.gid fun x => { x with age := 0, failed := none, reserved := [] }
    some (t2.newHead g.queue)

/-! ### One dispatcher cycle (R358, R359) -/

/-- The heads of the queues that may be placed, in the order of R358, those of one tick in the order in which they became heads: one for
each queue, none whose chain has to wait (R18). -/
def State.heads (s : State) : List Grid :=
  let queues := nubNat (s.grids.map (·.queue))
  let hs := queues.filterMap s.headGrid
  let ready := hs.filter fun g => g.prev.all fun p => (s.grid? p).isNone
  sortBy (fun a b => decide (b.lrec.prio < a.lrec.prio) || (a.lrec.prio == b.lrec.prio && (decide (a.since < b.since) || (a.since == b.since && (decide (a.order < b.order) || (a.order == b.order && decide (a.gid ≤ b.gid))))))) ready

/-- The clusters that head `j` of the order may not take: what the others reserve, but for what an earlier reserver shares. -/
def blockedFor (hs : List Grid) (j : Nat) : List Nat :=
  if j = 0 then []
  else
    let mine := ((hs[j]?).map (·.reserved)).getD []
    hs.zipIdx.flatMap fun p => if p.2 = j then [] else p.1.reserved.filter fun c => decide (p.2 < j) || !mine.contains c

/-- The heads are tested in order until one is placed; those that fail begin to age. -/
def State.dispatch (s : State) (hs : List Grid) : List (Grid × Nat) → State
  | [] => s
  | (g, j) :: r =>
    match s.placeUnit g (blockedFor hs j) with
    | some t => t
    | none => (s.modGrid g.gid fun x => { x with failed := some (x.failed.getD s.heart) }).dispatch hs r

/-- The clusters that pass the die and point tests of R355. -/
def State.openClusters (s : State) (l : LaunchRec) : List Nat :=
  (List.range 54).filter fun c => !(s.die (c / 18)).closed && (s.pointFor c l.clo l.chi).isSome

/-- The free vector registers of a cluster. -/
def State.freeRegs (s : State) (c : Nat) : Nat := 8 * 131072 - sumNat ((s.foldsOnCluster c).map fun x => x.need.regs)

/-- The best-fit clusters of a head (R359): for a resident grid all that are open, else the one with the most free registers. -/
def State.bestFit (s : State) (g : Grid) : List Nat :=
  let os := s.openClusters g.lrec
  if g.lrec.resident then os
  else (minBy (fun c => (8 * 131072 - s.freeRegs c) * 64 + s.logical c) os).toList

/-- Ticks in 10 µs at 16 ns each (R359). -/
def ageTicks : Nat := 625

/-- The age points that a grid has earned since it first failed. -/
def State.agePoints (s : State) (g : Grid) : Nat := g.failed.elim 0 fun t => (s.heart - t) / ageTicks

/-- A grid has `a` age points; as it reaches age 8 it reserves. -/
def State.ageTo (s : State) (g : Grid) (a : Nat) : State :=
  s.modGrid g.gid fun x => { x with age := a, reserved := if g.age < 8 ∧ 8 ≤ a then s.bestFit g else x.reserved }

/-- `AGE_POINT`: 10 µs more have passed since the head first failed. -/
def execAgePoint (grid : Nat) (s : State) : Host.Outcome State Fault Refusal :=
  .next <|
    match s.grid? grid with
    | none => s
    | some g => if g.age < s.agePoints g then s.ageTo g (g.age + 1) else s

/-- Heads take the age points that are due, in the order of R358. -/
def State.ageHeads (s : State) (hs : List Grid) : State := hs.foldl (fun t g => if g.age < t.agePoints g then t.ageTo g (t.agePoints g) else t) s

/-- `DISPATCHER_CYCLE`: the heads that fail in it are those to which no age point is still due. -/
def execDispatcherCycle (s : State) : Host.Outcome State Fault Refusal :=
  .next (let t := s.ageHeads s.heads; t.dispatch t.heads t.heads.zipIdx)

/-! ### Rotation (R361) -/

/-- The map with the clusters at `idx` (logical, rising) taking what the next of them held, the last what the first held. -/
def rotateMap (m : List Nat) (idx : List Nat) : List Nat :=
  m.zipIdx.map fun p =>
    match idx.idxOf? p.2 with
    | none => p.1
    | some j => (m[(idx[(j + 1) % idx.length]?).getD 0]?).getD p.1

/-- `CLUSTER_MAP_ROTATION` of a running die, where rotation is not disabled; a parked die is skipped (R420). With `ROTBUSY` every
logical cluster of the die takes the physical cluster of the next, an occupied one by a migration of every fold resident on it (log 51). -/
def execClusterMapRotation (die : Nat) (s : State) : Host.Outcome State Fault Refusal :=
  .next <|
    let d := s.die die
    if 3 ≤ die ∨ d.rotms = 0 ∨ 6 ≤ d.cur then s
    else
      let busy (i : Nat) : Bool := !(s.foldsOnCluster (s.physical (18 * die + i))).isEmpty
      let ring := (List.range 18).filter fun i => d.rotbusy || !busy i
      let s1 := (s.modDie die fun x => { x with map := rotateMap d.map ring }).count 13 1 1
      (ring.filter busy).foldl (fun t i =>
        let old := s.physical (18 * die + i)
        let new := t.physical (18 * die + i)
        (s.foldsOnCluster old).foldl (fun u x =>
          if old = new ∨ x.wants.isSome ∨ x.run.stops then u
          else (u.heldBy x.uid).modFold x.uid fun y => { y with wants := some (8 * new + x.core % 8) }) t) s1

end Sys2Proof.Machine
end

