-- ==== Sys2Proof/Machine/Preempt.lean ====
section
/-! DEFINITION. Pre-emption, save and resumption (R31, R372 to R379), and the thermal migration of a fold (R382 to R386, R410
to R413). -/

namespace Sys2Proof.Machine

/-! ### `PREQ` (R372, Table 16.5) -/

/-- The fold in a fold slot of a physical core. -/
def State.inSlot (s : State) (core slot : Nat) : Option Fold := (s.foldsOnCore core).find? (·.pslot == slot)

/-- The core has a request in progress. -/
def State.askCore (s : State) (core : Nat) : State :=
  s.modCore core fun c => { c with preq := 1, saveFault := false, killed := false }

/-- A request to pre-empt reaches one fold: a migration in state 1 is dropped, one in state 2 goes first (R390). A fold that has been
placed stops when it has started, and one that has been placed again and not yet restored is as it was, saved. -/
def State.askStop (s : State) (u : Nat) : State :=
  match s.fold? u with
  | none => s
  | some x =>
    match x.run with
    | .running => ((s.dropMove x).askCore x.core).modFold u fun y => { y with run := .stopping none, wants := none }
    | .placed => ((s.dropMove x).askCore x.core).modFold u fun y => { y with preqAfter := true, wants := none }
    | .stopping (some _) | .moving _ => (s.askCore x.core).modFold u fun y => { y with preqAfter := true }
    | .restoring => s.modFold u fun y => { y with run := .saved }
    | _ => s

/-- A request names one fold, and extends to its unit (R31, R372). An open rendezvous of a fold is closed before the request is
served (R54). -/
def State.preempt (s : State) (x : Fold) : State :=
  ((s.unitOf x).map (·.uid)).foldl (fun t u => (t.heldBy u).askStop u) s

/-- `KILL`: the grid of a fold is killed, and the cores of its folds report it. As a request of `PREQ` it closes an open rendezvous in
which the fold takes part (R54; log 111, DESIGN CHOICE). -/
def State.killBy (s : State) (x : Fold) : State :=
  let cores := nubNat ((s.folds.filter fun y => y.gid == x.gid && y.resident).map (·.core))
  cores.foldl (fun t c => t.modCore c fun y => { y with killed := true, saveFault := false, preq := if y.preq = 0 then 3 else y.preq })
    ((s.heldBy x.uid).killGrid x.gid)

/-- A `PREQ` value is written at a physical core; fields that have to be zero and are not leave it without effect. A context that is
pre-empted with no fold on a core has been switched (R379). -/
def State.writePreq (s : State) (core : Nat) (v : W32) : State :=
  let n := v.toNat
  let busy := (s.core core).preq == 1 || (s.core core).preq == 2
  if 432 ≤ core ∨ busy ∨ bits n 7 6 ≠ 0 ∨ bits n 31 14 ≠ 0 then s
  else
    let named := if bit n 5 then s.folds.filter (·.ctx == bits n 13 8) else (s.inSlot core (bits n 3 0)).toList
    let s1 := s.askCore core
    let s2 := (named.foldl (fun t x => if bit n 4 then t.killBy x else t.preempt x) s1).updPreq core
    if bit n 5 && !bit n 4 then s2.switched (bits n 13 8) else s2

def execPreqPreempt (core slot : Nat) (s : State) : Host.Outcome State Fault Refusal :=
  .next (if slot < 16 then s.writePreq core (BitVec.ofNat 32 slot) else s)

def execPreqKill (core slot : Nat) (s : State) : Host.Outcome State Fault Refusal :=
  .next (if slot < 16 then s.writePreq core (BitVec.ofNat 32 (slot + 16)) else s)

def execPreqCtxall (core ctx : Nat) (kill : Bool) (s : State) : Host.Outcome State Fault Refusal :=
  .next (if ctx < 64 then s.writePreq core (BitVec.ofNat 32 (32 + 256 * ctx + if kill then 16 else 0)) else s)

/-- Mailbox command 4 (Table 19.5). -/
def execPreEmptOrKill (core : Nat) (v : W32) (s : State) : Host.Outcome State Fault Refusal :=
  .next (s.command 4 [core, v.toNat] fun s => if 432 ≤ core then (s, some (1, [])) else (s.writePreq core v, some (0, [])))

/-! ### The stop (R373) -/

/-- A park at which a fold may stop. -/
def Park.stoppable : Park → Bool
  | .join | .barrier _ _ _ | .rebar _ _ | .rearrive _ _ | .rendezvous _ _ _ _ | .tag _ _ | .token | .tokw _ | .card | .multicast | .waita _ _ | .busy _ => true
  | _ => false

/-- A fragment that stands at a line boundary, or at an instruction on which it is parked. -/
def Frag.atStop (g : Frag) : Bool := (g.park.isReady && g.enters) || g.park.stoppable

/-- The fold counts as stopped: its fragments stand, or wait for the service of a fault, and its loads have landed. Its
stores are performed with the stop. The stream and the array are at their boundaries between two turns (R292). -/
def Fold.canStop (x : Fold) : Bool :=
  x.flocks.all (fun k => k.stop.isSome || k.frags.all Frag.atStop) && x.loads.isEmpty && x.moveTo.isNone

/-- `FOLD_STOPPED`: the save begins, or the transfer. The fold's writes are performed, and so are those of other folds that it may have
read on its core, so that it reads nothing older elsewhere (R324). -/
def execFoldStopped (fold : Nat) (s : State) : Host.Outcome State Fault Refusal :=
  .next <|
    match s.fold? fold with
    | none => s
    | some x =>
      if !x.canStop || !s.atChunk (·.fold == fold) then s
      else
        let s1 := s.drain fun e => x.owns e.owner || (e.core == x.core && e.visible) || e.inFold x.uid
        match x.run with
        | .stopping none => (s1.modFold fold fun y => { y with run := .saving }).updPreq x.core
        | .stopping (some t) => s1.modFold fold fun y => { y with run := .moving t }
        | _ => s

/-! ### The save (R375 to R379) -/

/-- A lease is held over a pre-emption (Table 16.12); one that has reached 0 ends (R390). -/
def Lease.suspend (l : Lease) (now : Nat) : Lease :=
  { l with remain := l.left now, until' := 0, active := false, susp := (l.active && decide (0 < l.left now)) || l.susp }

/-- Jobs that are saved go on from the elements that they have done without a gap, which is what their images hold (R377). -/
def State.tidyCards (s : State) (u : Nat) : State := { s with cards := s.cards.map fun c => if c.fold = u then { c with ahead := [], part := [] } else c }

/-- The image is written, or the save is abandoned and the fold goes on (R375): one that waited for its argument words, and whose fault was
acknowledged meanwhile, reads them now (R299). -/
def State.finishSave (s : State) (x : Fold) : State :=
  let y := { x with lease := x.lease.suspend s.heart }
  let image := s.saveImage y
  match s.writeLines x.ctx (s.saveArea x) image.length image with
  | .error (_, a) =>
    let s1 := ((s.unitMet x.ctx a 64 .write).pushRec { s.recOf x .saveFault 4 with addr := a }).1
    let s2 := ((s1.modFold x.uid fun z => { z with run := .running }).modCore x.core fun c => { c with saveFault := true }).updPreq x.core
    if x.argFault.any (·.awaits.isEmpty) then s2.readArgs x.uid else s2
  | .ok t =>
    let t1 := ((t.modFold x.uid fun _ => { y with run := .saved }).moveCards x.uid 432 []).tidyCards x.uid
    (t1.updPreq x.core).switched x.ctx

/-- `SAVE_COMPLETE`. -/
def execSaveComplete (fold : Nat) (s : State) : Host.Outcome State Fault Refusal :=
  .next <|
    match s.fold? fold with
    | none => s
    | some x => if x.run = .saving then s.finishSave x else s

/-- `RESUME_SAVED_FOLD`, mailbox command 5: the saved unit of a fold re-enters placement at the head of its queue (R378). -/
def execResumeSavedFold (ctx pidx : Nat) (s : State) : Host.Outcome State Fault Refusal :=
  .next <|
    s.command 5 [ctx, pidx] fun s =>
      match s.folds.find? fun x => x.ctx == ctx && x.pidx == pidx && x.run == .saved with
      | none => (s, some (1, []))
      | some x =>
        match s.grid? x.gid with
        | none => (s, some (2, []))
        | some g =>
          if g.killed || (s.unitOf x).any (fun y => y.run != .saved && y.run != .running) then (s, some (2, []))
          else if g.resumes.contains x.pad then (s, some (0, []))
          else
            let was := (s.headGrid g.queue).map (·.gid)
            let s1 := s.modGrid g.gid fun h => { h with resumes := h.resumes ++ [x.pad] }
            (if (s1.headGrid g.queue).map (·.gid) = was then s1 else s1.newHead g.queue, some (0, []))

/-! ### Migration (R382 to R386, R411 to R413) -/

/-- `MIGREQ` is written at a physical core. A request in state 1 or 2 stands; a fold that is being pre-empted or killed, and an
empty slot, drop the request (R382, R390). -/
def State.writeMigreq (s : State) (core : Nat) (v : W32) : State :=
  let c := s.core core
  if 432 ≤ core ∨ c.mig = 1 ∨ c.mig = 2 ∨ bits v.toNat 31 13 ≠ 0 then s
  else
    let dropped (t : State) : State := t.modCore core fun c => { c with mig := 3, migDropped := true, migRefused := false }
    match s.inSlot core (bits v.toNat 3 0) with
    | none => dropped s
    | some x =>
      match x.run with
      | .running | .placed | .restoring =>
        ((s.heldBy x.uid).modFold x.uid fun y => { y with wants := some (bits v.toNat 12 4) }).modCore core fun c =>
          { c with mig := 1, migDropped := false, migRefused := false, migFold := x.uid, migTarget := bits v.toNat 12 4 }
      | _ => dropped s

def execMigreq (core : Nat) (v : W32) (s : State) : Host.Outcome State Fault Refusal := .next (s.writeMigreq core v)

/-- A lease across a migration (Table 16.12): within the die unchanged; to another die it moves where that die's grant covers
it, which the arbiter's estimate decides, else it is dropped (R389). -/
def State.dropLease (s : State) (u : Nat) : State :=
  match s.fold? u with
  | none => s
  | some x =>
    let s1 := s.modFold u fun y => { y with lease := { y.lease with remain := 0, until' := 0, active := false, susp := false, dropped := true } }
    (s1.pushRec (s1.recOf x .leaseDropped 4)).1.count 12 1 1

def State.moveLease (s : State) (x : Fold) (t : Nat) : State :=
  if dieOf x.core = dieOf t ∨ !(x.lease.active || x.lease.susp) then s
  else
    let b := s.flip
    if b.1 then b.2 else b.2.dropLease x.uid

/-- The fold has reached physical core `t`: the maps name the target, the L1 there holds no line of an earlier fold (R335), the
cards go on there behind those that the core has (R412), and a record tells of it (R384, R413). -/
def State.landOn (s : State) (x : Fold) (t : Nat) (nums : List Nat) : State :=
  let asked := (s.core x.core).mig == 2 && (s.core x.core).migFold == x.uid
  let rest : State := { s with folds := s.folds.filter (·.uid ≠ x.uid) }
  let lim := (s.grid? x.gid).elim (0, 7) fun g => (g.lrec.clo, g.lrec.chi)
  let s1 := if clusterOf t = clusterOf x.core then s
    else match rest.pointFor (clusterOf t) lim.1 lim.2 with
      | some pt => s.takePoint { cluster := clusterOf t, core := t, point := pt }
      | none => s
  let sl := s1.pick ((rest.foldsOnCore t).map (·.pslot)) 16
  let run : FoldRun := if x.preqAfter then .stopping none else .running
  let s2 := sl.2.modFold x.uid fun y => { y.stopClear with run := run, core := t, pslot := sl.1, preqAfter := false }
  let s3 := ((s2.moveCards x.uid t nums).modCore t fun c => { c with l1 := [] }).moveLease x t
  let s5 := (s3.pushRec { s3.recOf x .thermalMigrate 4 with addr := x.core + t * 2 ^ 16 }).1.count 13 0 1
  let s6 := if asked then s5.modCore x.core fun c => { c with mig := 3 } else s5
  if x.preqAfter then (s6.updPreq x.core).askCore t else s6

/-- `MIGRATION_TRANSFER_DONE`: a target that cannot take the fold any more refuses it, and the fold runs on where it is. -/
def execMigrationTransferDone (fold : Nat) (s : State) : Host.Outcome State Fault Refusal :=
  .next <|
    match s.fold? fold with
    | none => s
    | some x =>
      match x.run with
      | .moving t =>
        let asked := (s.core x.core).mig == 2 && (s.core x.core).migFold == x.uid
        if s.canMove x t then
          match s.cardNumbers t (s.cards.filter (·.fold == x.uid)).length with
          | some nums => s.landOn x t nums
          | none => s
        else
          let s1 := s.modFold fold fun y => { y with run := if y.preqAfter then .stopping none else .running, preqAfter := false }
          let s2 := if asked then s1.modCore x.core fun c => { c with mig := 3, migDropped := true, migRefused := true } else s1
          if x.preqAfter then s2.updPreq x.core else s2
      | _ => s

/-! ### `MIGRATION_SAMPLE` (R410) -/

/-- The fold of a core with the largest heat weight at its point; ties to the lowest slot. -/
def State.hottestFold (s : State) (core : Nat) : Option Fold :=
  let pt := (s.cluster (clusterOf core)).point.toNat
  minBy (fun x => (2 ^ 20 - s.heat x pt) * 16 + x.pslot) (s.foldsOnCore core)

/-- The coolest core of the die that can take a fold of core `k`; ties to the lowest index. The cluster's point is that at which it
stands with all its folds, and the resources and the heat are those beside the fold that would move. -/
def State.coolTarget (s : State) (k : Nat) (x : Fold) : Option Nat :=
  let thr : Int := (s.die (dieOf k)).migthr * 1000
  let rest : State := { s with folds := s.folds.filter (·.uid ≠ x.uid) }
  let several := decide (1 < (s.folds.filter fun y => y.pad == x.pad && y.gid == x.gid).length)
  match s.grid? x.gid with
  | none => none
  | some g =>
    let cand := ((List.range 144).map (144 * dieOf k + ·)).filter fun c =>
      c != k && decide (s.coreTemp c ≤ thr - 10000) && (!several || clusterOf c == clusterOf k) && rest.roomOn c x.need
        && (s.pointFor (clusterOf c) g.lrec.clo g.lrec.chi).any (rest.fitsAt g.lrec (clusterOf c))
    minBy (fun c => (s.coreTemp c + 1000000).toNat * 512 + c) cand

/-- `MIGRATION_SAMPLE` of a die, with the readings of its cores' sensors in m°C that firmware takes in it; a core without one keeps
its last. -/
def execMigrationSample (die : Nat × List (Nat × Int)) (s : State) : Host.Outcome State Fault Refusal :=
  .next <|
    let d := die.1
    if 3 ≤ d ∨ !(s.die d).auto then s
    else
      let mine := (List.range 144).map (144 * d + ·)
      let thr : Int := (s.die d).migthr * 1000
      mine.foldl (fun t k =>
        if thr < t.coreTemp k ∧ ((t.core k).mig = 0 ∨ (t.core k).mig = 3) then
          match t.hottestFold k with
          | none => t
          | some x =>
            match t.coolTarget k x with
            | some c => t.writeMigreq k (BitVec.ofNat 32 (x.pslot + 16 * c))
            | none => t
        else t) (s.readCores mine die.2)

end Sys2Proof.Machine
end

