-- ==== Sys2Proof/Machine/Service.lean ====
section
/-! DEFINITION. The service of faults (R369, R370, R393, R394): the acknowledgement of a record, and what firmware does with a
record of a context's ring. -/

namespace Sys2Proof.Machine

/-! ### `FLTACK` (R370) -/

/-- A stop waits for a record, by the low 32 bits of its `SEQ`. -/
def Stop.waitsFor (p : Stop) (sq : Nat) : Bool := p.awaits.any fun a => a % 2 ^ 32 == sq % 2 ^ 32
def Stop.heard (p : Stop) (sq : Nat) : Stop := { p with awaits := p.awaits.filter fun a => a % 2 ^ 32 != sq % 2 ^ 32 }

/-- A stop after an acknowledgement with resume: none when every record of it has been acknowledged. -/
def Stop.after (sq : Nat) (p : Option Stop) : Option Stop :=
  match p with
  | none => none
  | some q => if (q.heard sq).awaits.isEmpty then none else some (q.heard sq)

/-- Parties of a fold, or jobs of it, wait for the record. -/
def State.awaitsIn (s : State) (x : Fold) (sq : Nat) : Bool :=
  x.flocks.any (fun k => k.stop.any (·.waitsFor sq)) || x.argFault.any (·.waitsFor sq)
    || x.stream.any (fun m => m.stop.any (·.waitsFor sq) || m.queue.any fun a => a.stop.any (·.waitsFor sq))
    || s.cards.any fun c => c.fold == x.uid && c.stop.any (·.waitsFor sq)

/-- The full number of a record that a flock waits for. -/
def Flock.ackLow (k : Flock) (sq : Nat) : Flock :=
  match k.stop.bind fun p => p.awaits.find? fun a => a % 2 ^ 32 == sq % 2 ^ 32 with
  | some a => k.ackResume a
  | none => k

/-- RETURN FROM A FAULT: the record is acknowledged with resume for the parties of a fold (R370). A fold whose arguments could
not be read reads them again, a saved one when it resumes (R390). -/
def State.ackFold (s : State) (x : Fold) (sq : Nat) : State :=
  let held := x.run == .saving || x.run == .saved || x.run == .restoring
  let s1 := s.modFold x.uid fun y =>
    { y with flocks := y.flocks.map (·.ackLow sq), argFault := if held then y.argFault.map (·.heard sq) else Stop.after sq y.argFault,
             stream := y.stream.map fun m => { m with stop := Stop.after sq m.stop, queue := m.queue.map fun a => { a with stop := Stop.after sq a.stop } } }
  let s2 : State := { s1 with cards := s1.cards.map fun c => if c.fold = x.uid then { c with stop := Stop.after sq c.stop } else c }
  if x.argFault.isSome && (s2.fold? x.uid).any (·.argFault.isNone) then s2.readArgs x.uid else s2

/-- An acknowledgement of record `sq` for the first of the folds that `who` takes whose parties wait for it: with kill, R34
applies within the launch's kill scope, for a saved fold when it resumes (R390). -/
def State.acknowledge (s : State) (who : Fold → Bool) (sq : Nat) (kill : Bool) : State :=
  match s.folds.find? fun x => who x && s.awaitsIn x sq with
  | none => s
  | some x =>
    if !kill then s.ackFold x sq
    else if x.run == .saved || x.run == .restoring then s.modFold x.uid fun y => { y with lateKill := true }
    else s.killScope x.uid

/-- The core control registers `FLTACK` word 0 and word 1 of the core that a record names, by its logical number: writing word 1
applies action 0 or 2 (Table 16.4). -/
def State.fltack0 (s : State) (core : Nat) (v : W32) : State :=
  s.modCore (8 * s.physical (core / 8) + core % 8) fun c => { c with fltack := v }
def State.fltack1 (s : State) (core : Nat) (v : W32) : State :=
  let sq := (s.core (8 * s.physical (core / 8) + core % 8)).fltack.toNat
  match v.toNat % 4 with
  | 0 => s.acknowledge (·.lcore == core) sq false
  | 2 => s.acknowledge (·.lcore == core) sq true
  | _ => s

/-- The driver services a record of `PRIV_GROW` before it resumes the flocks that wait for it: it maps the pages in the context's
tables, which lie in memory, and raises `SR.PRIVHWM` by a free amount of whole pages, up to 16 MB (R72; log 60). -/
def State.driverGrow (s : State) (core sq : Nat) : State :=
  match s.folds.find? fun x => x.lcore == core && s.awaitsIn x sq with
  | none => s
  | some x =>
    let d := s.draw
    let grow (k : Flock) : Flock :=
      if k.stop.any fun p => p.grow && p.waitsFor sq then { k with privHwm := min (2 ^ 24) (k.privHwm + 4096 * (1 + d.1 % 4096)) } else k
    d.2.modFold x.uid fun y => { y with flocks := y.flocks.map grow }

/-- `FLTACK` with action 0 by the driver. -/
def execFltackResume (core sq : Nat) (s : State) : Host.Outcome State Fault Refusal :=
  .next (((s.driverGrow core sq).fltack0 core (BitVec.ofNat 32 sq)).fltack1 core 0)

def execFltackKill (core sq : Nat) (s : State) : Host.Outcome State Fault Refusal :=
  .next ((s.fltack0 core (BitVec.ofNat 32 sq)).fltack1 core 2)

/-! ### The page pool (R369, R393, R394) -/

/-- The lowest valid entry of the pool from entry `i` on, of `n` more: its index and what it holds. -/
def State.poolEntry (s : State) (ctx pool i : Nat) : Nat → State × Option (Nat × Nat)
  | 0 => (s, none)
  | n + 1 =>
    let r := s.readNum ctx (pool + 8 * i) 8
    if r.2 % 2 = 1 then (r.1, some (i, r.2)) else r.1.poolEntry ctx pool (i + 1) n

/-- The lowest valid entry of the pool is taken: its page, and the state in which it is no longer valid. -/
def State.takePool (s : State) (ctx : Nat) : Option (Nat × State) :=
  match s.ctx ctx with
  | none => none
  | some c =>
    if c.pool = 0 then none
    else
      let r := s.poolEntry ctx c.pool 0 4096
      match r.2 with
      | none => none
      | some (i, e) =>
        match r.1.unitWrite ctx (c.pool + 8 * i) (le8 (e - 1)) with
        | .error _ => none
        | .ok t => some (bits e 50 16 * 2 ^ 16, t)

/-- From a table on: missing tables come from the pool, and so does the page, which is mapped with `V`, `LEAF`, `R` and `W`. -/
def State.mapFrom (s : State) (ctx va : Nat) : List (Nat × Nat × Nat) → Nat → Option State
  | [], _ => none
  | (level, lo, n) :: r, tbl =>
    let a := tbl + 8 * (va / 2 ^ lo % 2 ^ n)
    let p := BitVec.ofNat 64 (ofLe (s.readAs none a 8))
    if level = 0 then
      match s.takePool ctx with
      | none => none
      | some (pa, t) => some (t.writeAs none a (le8 (15 + pa + (t.ctx ctx).elim 0 (·.fkey) * 2 ^ 51)))
    else if p.getLsbD 0 then s.mapFrom ctx va r (ptePa p)
    else
      match s.takePool ctx with
      | none => none
      | some (pa, t) => (t.writeAs none a (le8 (1 + pa))).mapFrom ctx va r pa

/-- Firmware makes a page of a context mapped: one that is takes nothing (R393); an entry that is illegal is not its to mend. -/
def State.mapPage (s : State) (ctx va : Nat) : Option State :=
  match s.walk ctx va with
  | .ok _ => some s
  | .error .pageAbsent => (s.ctx ctx).bind fun c => s.mapFrom ctx va walkLevels c.root
  | .error _ => none

/-- The pages of private offsets `lo` to `lo` + 65,535 of a fold's threads, below 16 MB (R71): up to 2,048
pages of 64 KB. -/
def State.mapPrivate (s : State) (ctx pidx lo : Nat) : Option State :=
  let base := (s.ctx ctx).elim 0 (·.privBase)
  (List.range (min 2048 ((2 ^ 24 - lo) / 32))).foldl (fun t i => t.bind fun u => u.mapPage ctx (privAddr base pidx 0 lo + 65536 * i)) (some s)

/-! ### `FAULT_RECORD_SERVICE` -/

/-- The record is forwarded to the driver, with an interrupt for each where the context asks for it (R369, Table 16.3). -/
def State.forwardRec (s : State) (c : Ctx) : State := if c.fqIrq then s.raiseMsix c.fqMsix else s

/-- What firmware does with a record (R369), in the order of R393; it resumes the party through `FLTACK` of the core that the record
names. -/
def State.serviceRec (s : State) (ctx : Nat) (c : Ctx) (r : Nat) : State :=
  let sq := bits r 447 384
  let addr := bits r 191 128
  let lcore := bits r 33 32 * 144 + bits r 41 34
  let resume (t : State) : State := (t.fltack0 lcore (BitVec.ofNat 32 sq)).acknowledge (·.ctx == ctx) sq false
  let forward := s.forwardRec c
  let short := (s.unitMet ctx c.pool 32768 .read).forwardRec c
  let cause := bits r 7 0
  if cause = Cause.privGrow.code then
    let fl := bits r 51 46
    match s.folds.find? fun x => x.ctx == ctx && x.lcore == lcore && x.slot == bits r 45 42 && s.awaitsIn x sq with
    | none => forward
    | some x =>
      let hwm := (x.flocks[fl]?).elim 0 (·.privHwm)
      match s.mapPrivate ctx x.pidx hwm with
      | none => short
      | some t => resume (t.modFlock x.uid fl fun k => { k with privHwm := min (2 ^ 24) (k.privHwm + 65536) })
  else if cause = Cause.pageAbsent.code ∧ c.fillLo ≤ addr ∧ addr < c.fillHi then
    match s.mapPage ctx addr with
    | none => short
    | some t => resume t
  else if cause = Cause.replicaTimeout.code then resume s
  else forward

/-- `FAULT_RECORD_SERVICE`: records that waited for room are written first, then the next record is read. -/
def execFaultRecordService (ctx : Nat) (s : State) : Host.Outcome State Fault Refusal :=
  .next <|
    let s1 := s.flushRecs ctx ((s.ctx ctx).elim 0 (·.unwritten.length) + 1)
    match s1.ctx ctx with
    | none => s1
    | some c =>
      if c.recs - c.unwritten.length ≤ c.fwRead then s1
      else
        let s2 := s1.modCtx ctx fun y => { y with fwRead := y.fwRead + 1 }
        match s2.readVirt ctx (c.fqBase + 64 * (c.fwRead % 2 ^ c.fqLogn)) 64 with
        | .error _ => s2.unitMet ctx (c.fqBase + 64 * (c.fwRead % 2 ^ c.fqLogn)) 64 .read
        | .ok bs => s2.serviceRec ctx c (ofLe bs)

end Sys2Proof.Machine
end

