-- ==== Sys2Proof/Machine/Firmware.lean ====
section
/-! DEFINITION. The core control region and the driver's mailbox (R105, R360, R371, R380, R382, R404, R405). -/

namespace Sys2Proof.Machine

/-! ### Die-wide registers (Tables 15.8 and 16.10): a reserved value leaves its field unchanged -/

def Die.setDsp (d : Die) (v : Nat) : Die :=
  { d with rotms := if bits v 4 0 ≤ 16 then bits v 4 0 else d.rotms
           rflim := if 4 ≤ bits v 11 8 ∧ bits v 11 8 ≤ 12 then bits v 11 8 else d.rflim
           rotbusy := bit v 16 }

def Die.setMig (d : Die) (v : Nat) : Die :=
  { d with migthr := if 70 ≤ bits v 7 0 ∧ bits v 7 0 ≤ 105 then bits v 7 0 else d.migthr, auto := bit v 8 }

def Die.dspcfg (d : Die) : Nat := d.rotms + d.rflim * 2 ^ 8 + bitOf d.rotbusy * 2 ^ 16
def Die.migcfg (d : Die) : Nat := d.migthr + bitOf d.auto * 2 ^ 8

/-! ### `TILECLR` (R105) -/

/-- A tile is cleared: its log is discarded, its contents become zero, it answers again, and its address goes to the error log of
its home die (Table 16.4, R424). -/
def State.clearTile (s : State) (pa : Nat) : State :=
  let t := pa / tileBytes
  if dramBytes ≤ pa then s
  else
    let s1 : State := { s with logs := s.logs.filter (·.tile != t), badTiles := s.badTiles.filter (· != t)
                               poison := s.poison.filter fun n => n * 64 / tileBytes != t }
    let s2 := if (s.die (pa / dieBytes)).cur = 7 then s1 else (s1.setBytes (t * tileBytes) (List.replicate tileBytes 0)).notify (t * tileBytes) tileBytes
    s2.logErr (pa / dieBytes) Cause.logTileError.code 2 false 255 (t * tileBytes) 0

/-- Writing `0x0061` clears the tile whose address the two words hold. -/
def State.writeTileclr (s : State) (core : Nat) (hi : W32) : State := s.clearTile ((s.core core).tileclr.toNat + hi.toNat * 2 ^ 32)

def execTileclr (core : Nat) (hi : W32) (s : State) : Host.Outcome State Fault Refusal :=
  .next (if core < 432 then s.writeTileclr core hi else s)

/-! ### The core control region (Table 16.4) -/

def Core.pstat (c : Core) : Nat := c.preq + bitOf c.saveFault * 4 + bitOf c.killed * 8
def Core.migstat (c : Core) : Nat := c.mig + bitOf c.migDropped * 4 + bitOf c.migRefused * 8

/-- A fold that has stopped for a save or a transfer (R411). -/
def FoldRun.stopped : FoldRun → Bool
  | .saving | .moving _ => true
  | _ => false

/-- `SLOTST` of a fold slot of a physical core. -/
def State.slotst (s : State) (core slot : Nat) : Nat :=
  match s.inSlot core slot with
  | none => 0
  | some x => x.ctx + 2 ^ 6 + bitOf x.run.stopped * 2 ^ 7 + x.pidx * 2 ^ 8

/-- The word at an offset; the spec states no value for a read of a register that is only written: it is free (log 2). -/
def State.readControl (s : State) (core off : Nat) : State × Nat :=
  if off = 0 then (s, core / 144 + core % 144 * 2 ^ 2 + s.stepping % 256 * 2 ^ 10)
  else if 0x10 ≤ off ∧ off ≤ 0x1F then (s, s.slotst core (off - 0x10))
  else if off = 0x21 then (s, (s.core core).pstat)
  else if off = 0x41 then (s, (s.core core).migstat)
  else if off = 0x42 then (s, (s.die (dieOf core)).migcfg)
  else if off = 0x50 then (s, (s.die (dieOf core)).dspcfg)
  else if [0x20, 0x30, 0x31, 0x40, 0x60, 0x61].contains off then let d := s.draw; (d.2, d.1 % 2 ^ 32)
  else (s, 0)

/-- A write at an offset, but for `FLTACK`. -/
def State.writeControl (s : State) (core off : Nat) (v : W32) : State :=
  if off = 0x20 then s.writePreq core v
  else if off = 0x40 then s.writeMigreq core v
  else if off = 0x42 then s.modDie (dieOf core) (·.setMig v.toNat)
  else if off = 0x50 then s.modDie (dieOf core) (·.setDsp v.toNat)
  else if off = 0x60 then s.modCore core fun c => { c with tileclr := v }
  else if off = 0x61 then s.writeTileclr core v
  else s

/-- Mailbox command 6: `FLTACK` is refused. -/
def execWriteCoreControl (core off : Nat) (v : W32) (s : State) : Host.Outcome State Fault Refusal :=
  .next <| s.command 6 [core, off, v.toNat] fun s =>
    if 432 ≤ core ∨ 2 ^ 22 ≤ off then (s, some (1, []))
    else if off = 0x30 ∨ off = 0x31 then (s, some (2, []))
    else (s.writeControl core off v, some (0, []))

/-- Mailbox command 7. -/
def execReadCoreControl (core off : Nat) (s : State) : Host.Outcome State Fault Refusal :=
  .next <| s.command 7 [core, off] fun s =>
    if 432 ≤ core ∨ 2 ^ 22 ≤ off then (s, some (1, []))
    else let r := s.readControl core off; (r.1, some (0, [r.2]))

/-! ### Mailbox command 8 (R404) -/

/-- The 16 bytes of an entry of the violation log (Table 19.4). -/
def VioEnt.word (e : VioEnt) : Nat :=
  packFields [(64, e.addr % 2 ^ 64), (32, e.seq % 2 ^ 32), (13, 0), (8, e.core % 256), (2, e.die % 4), (3, e.cls % 8), (6, e.ctx % 64)]

/-- Entry `i` of the ring of 1,024; one that has not been written, or whose die is at PS7, reads as zero (log 119, DESIGN CHOICE). -/
def Die.violAt (d : Die) (i : Nat) : Nat := if 7 ≤ d.cur then 0 else (d.viol.find? fun e => (e.seq - 1) % 1024 == i).elim 0 VioEnt.word

def execReadViolationLog (die i : Nat) (s : State) : Host.Outcome State Fault Refusal :=
  .next <| s.command 8 [die, i] fun s =>
    if 3 ≤ die ∨ 1024 ≤ i then (s, some (1, []))
    else
      let w := (s.die die).violAt i
      (s, some (0, [w % 2 ^ 64, w / 2 ^ 64]))

/-! ### Context descriptors (mailbox command 2) -/

/-- The fault block has its zero fields zero and its addresses aligned (Table 16.3). -/
def fblkOk (b : BitVec 512) : Bool :=
  let f := bits b.toNat
  let zeroed := [(63, 57), (127, 81), (191, 185), (255, 249), (319, 313), (383, 377), (447, 441), (511, 461)]
  zeroed.all (fun r => f r.1 r.2 == 0) && decide (4 ≤ f 68 64) && decide (f 68 64 ≤ 16) && decide (f 56 0 % 2 ^ (f 68 64 + 6) = 0)
    && decide (f 184 128 % 8 = 0) && decide (f 248 192 % 2 ^ 36 = 0) && decide (f 312 256 % 2 ^ 15 = 0)

/-- `WRITE_CONTEXT_DESCRIPTOR`: refused while a fold of the context is placed or saved. The count of its records goes on. -/
def execWriteContextDescriptor (ctx : Nat) (d : CtxDesc) (s : State) : Host.Outcome State Fault Refusal :=
  .next <| s.command 2 [ctx, d.addr] fun s =>
    if 64 ≤ ctx ∨ !fblkOk d.fblk then (s, some (1, []))
    else if s.folds.any (·.ctx == ctx) then (s, some (2, []))
    else
      let old := (s.ctx ctx).getD
        { root := 0, privBase := 0, tidBase := 0, fblk := 0, recs := 0, unwritten := [], fwRead := 0, full := false, error := false }
      (s.setCtx ctx (some { old with root := d.root, privBase := d.privBase, tidBase := d.tidBase, fblk := d.fblk }), some (0, []))

/-! ### Shootdown (R380, R381, mailbox command 3) -/

def FoldRun.moves : FoldRun → Bool
  | .moving _ => true
  | _ => false

/-- Two ranges of addresses meet. -/
def rangesMeet (a n b m : Nat) : Bool := decide (a < b + m) && decide (b < a + n)

/-- A TLB entry of the context that lies in the range. -/
def TlbEnt.hit (e : TlbEnt) (ctx va len : Nat) : Bool := e.ctx == ctx && rangesMeet (e.vpn * 2 ^ e.bits) (2 ^ e.bits) va len

/-- Every TLB entry and every instruction-cache line of the range is dropped. -/
def Core.shoot (c : Core) (ctx va len : Nat) : Core :=
  { c with tlb := c.tlb.filter fun e => !e.hit ctx va len
           ic := c.ic.filter fun e => !(e.ctx == ctx && rangesMeet (e.num * 64) 64 va len) }

/-- `SHOOTDOWN` of `len` units of 64 KB: translations are dropped, the accesses of the context that are under way are performed,
the logs are applied, and the command is acknowledged. It runs on while a fold of the context is being transferred (R390), and while
a job of the context has begun a chunk. -/
def execShootdown (ctx va len : Nat) (s : State) : Host.Outcome State Fault Refusal :=
  .next <| s.command 3 [ctx, va, len] fun s =>
    if 64 ≤ ctx ∨ (s.ctx ctx).isNone ∨ 2 ^ 57 < va + len * 65536 then (s, some (1, []))
    else if s.folds.any (fun x => x.ctx == ctx && x.run.moves) || !s.atChunk (·.ctx == ctx) then (s, none)
    else
      let s1 := s.cores.foldl (fun t p => t.modCore p.1 (·.shoot ctx va (len * 65536))) s
      let s2 := s1.clusters.foldl (fun t p => t.modCluster p.1 fun c => { c with tlb := c.tlb.filter fun e => !e.hit ctx va (len * 65536) }) s1
      let mine := s2.folds.filter (·.ctx == ctx)
      ((s2.drain fun e => mine.any (·.owns e.owner)).applyLogs, some (0, []))

end Sys2Proof.Machine
end

