-- ==== Sys2Proof/Machine/Power.lean ====
section
/-! DEFINITION. The operator's block (R415), the arbiter and boost leases (R199, R388, R389, R416), P-states (R49, R417 to R420),
heat (R421), sensors (R422, R423), and the package lease (R396, R397). -/

namespace Sys2Proof.Machine

/-! ### P-states (R419, R420) -/

/-- The point that a cluster takes when its die's rail changes (Table 2.3). -/
def railPoint (p : BitVec 3) (toL : Bool) : BitVec 3 := if toL then (if p < 4 then p + 4 else p) else (if p < 4 then p else p - 4)

/-- Every cluster of a die follows its rail; vector issue stops for the settling (R49), and an open rendezvous closes (R44, log 102). -/
def State.railChange (s : State) (d : Nat) (toL : Bool) : State :=
  ((List.range 18).map (18 * d + ·)).foldl (fun t c => (t.closeRdv c 2).modCluster c fun x =>
    { x with point := railPoint x.point toL, settling := x.settling || x.point != railPoint x.point toL }) s

/-- A write of `TARGET`: 7 is accepted only from PS6 and with another die below PS7 (R420). -/
def State.writeTarget (s : State) (d p : Nat) : State :=
  if p = 7 ∧ ((s.die d).cur ≠ 6 ∨ !([0, 1, 2].any fun e => e != d && decide ((s.die e).cur < 7))) then s
  else s.modDie d fun x => { x with target := p }

def execPstateTargetWrite (bmc : Bool) (die : Nat) (v : W32) (s : State) : Host.Outcome State Fault Refusal :=
  .next (if 3 ≤ die ∨ ((s.oper.oob ∨ s.inRecovery) ∧ !bmc) then s else s.writeTarget die (bits v.toNat 2 0))

/-- Folds are resident on a die. -/
def State.foldsOnDie (s : State) (d : Nat) : Bool := s.folds.any fun x => dieOf x.core == d && x.resident

/-- The memory of a die is lost: its cells, what belongs to its lines, and the logs that are rings in it (R404, R420, R424). -/
def State.loseDie (s : State) (d : Nat) : State :=
  let lost (k : Nat) : Bool := decide (d * dieBytes ≤ k) && decide (k < (d + 1) * dieBytes)
  { s with mem := s.mem.filter fun p => !lost p.1, marks := s.marks.filter fun p => !lost (p.1 * 64), lineKey := s.lineKey.filter fun p => !lost (p.1 * 64),
           logs := s.logs.filter fun e => !lost (e.tile * tileBytes), resident := s.resident.filter fun t => !lost (t * tileBytes),
           badTiles := s.badTiles.filter fun t => !lost (t * tileBytes), poison := s.poison.filter fun n => !lost (n * 64)
           dies := (s.modDie d fun x => { x with errlog := [], viol := [] }).dies }

/-- A die reaches a state. One that goes to PS7 loses its memory, and one that leaves it finds its memory initialised to zero (R420). -/
def State.setPs (s : State) (d p : Nat) : State :=
  let old := (s.die d).cur
  let s1 := s.modDie d fun x => { x with cur := p }
  let s2 := if p < 6 && old < 6 && railL p != railL old then s1.railChange d (railL p)
    else if p < 6 && 6 ≤ old then
      s1.railChange d (railL p)
    else s1
  if p = 7 ∨ (old = 7 ∧ p < 7) then s2.loseDie d else s2

/-- The lowest state of a rail. -/
def railLow (p : Nat) : Nat := if railL p then 5 else 2

/-- `PSTATE_TRANSITION_DONE`: the die reaches the state that it is to be at. A park waits until no fold is on the die (R420). Within its
rail a die goes back up toward that state one at a time; while its grant is below its demand it may step down or up or stay, as
far as the grant allows, which the spec gives no power of a state for (R417): a free choice (log 2). -/
def execPstateTransitionDone (die : Nat) (s : State) : Host.Outcome State Fault Refusal :=
  .next <|
    let d := s.die die
    let g := d.goal
    if 3 ≤ die then s
    else if 6 ≤ g ∧ d.cur < 6 ∧ s.foldsOnDie die then s
    else if g < 6 ∧ d.cur < 6 ∧ railL g = railL d.cur ∧ g ≤ d.cur then
      if d.grant < d.demand then
        let b := s.draw
        if b.1 % 3 = 1 ∧ d.cur < railLow d.cur then b.2.setPs die (d.cur + 1)
        else if b.1 % 3 = 2 ∧ g < d.cur then b.2.setPs die (d.cur - 1)
        else b.2
      else if g = d.cur then s
      else s.setPs die (d.cur - 1)
    else if g = d.cur then s
    else s.setPs die g

/-! ### The operator's registers (R415) -/

/-- A write of `SCLUS` or `SALL` restarts the window of the suspect sensors of the clusters named (R422). -/
def Sensor.restart (now : Nat) (x : Sensor) : Sensor := if x.suspect then { x with okSince := some now } else x

def State.retest (s : State) (v : W32) : State :=
  let cs := if bit v.toNat 6 then List.range 54 else [bits v.toNat 5 0].filter (· < 54)
  cs.foldl (fun t c =>
    let t1 := t.modCluster c fun x => { x with vault := x.vault.map (·.restart s.heart) }
    ((List.range 8).map (8 * c + ·)).foldl (fun u k => u.modCore k fun y => { y with temp := y.temp.restart s.heart }) t1) s

def execSensorRetest (v : W32) (s : State) : Host.Outcome State Fault Refusal := .next (s.retest v)

/-- The fields of `DSPOP` and `MIGOP` that firmware copies into every die (R415). -/
def State.copyDsp (s : State) (v : Nat) : State :=
  let ok := decide (4 ≤ bits v 11 8) && decide (bits v 11 8 ≤ 12)
  let o := { s.oper with rotms := if bits v 4 0 ≤ 16 then bits v 4 0 else s.oper.rotms, rflim := if ok then bits v 11 8 else s.oper.rflim }
  [0, 1, 2].foldl (fun t d => t.modDie d fun x => { x with rotms := o.rotms, rflim := o.rflim }) { s with oper := o }

def State.copyMig (s : State) (v : Nat) : State :=
  let ok := decide (70 ≤ bits v 7 0) && decide (bits v 7 0 ≤ 105)
  let o := { s.oper with migthr := if ok then bits v 7 0 else s.oper.migthr, auto := bit v 8 }
  [0, 1, 2].foldl (fun t d => t.modDie d fun x => { x with migthr := o.migthr, auto := o.auto }) { s with oper := o }

/-- A write to a word of the operator block by the host or the baseboard controller. -/
def State.operWrite (s : State) (bmc : Bool) (off : Nat) (v : W32) : State :=
  let n := v.toNat
  let shut := s.oper.oob && !bmc
  if off = 0 then
    if shut then s
    else
      { s with oper := { s.oper with ceil := if 50 ≤ bits n 7 0 ∧ bits n 7 0 ≤ 240 then bits n 7 0 else s.oper.ceil
                                     oob := if bmc then bit n 8 else s.oper.oob } }
  else if off = 0x10 ∨ off = 0x14 ∨ off = 0x18 then (if shut then s else s.writeTarget ((off - 0x10) / 4) (bits n 2 0))
  else if off = 0x20 then (if shut then s else s.copyDsp n)
  else if off = 0x24 then (if shut then s else s.copyMig n)
  else if off = 0x30 then s.retest v
  else if off = 0x40 then { s with oper := { s.oper with elidx := bits n 11 0, eldie := bits n 13 12 } }
  else if off = 0xA0 then { s with oper := { s.oper with tlidx := bits n 7 0, tlsub := bits n 15 8 } }
  else s

/-- `REGISTER_WRITE`. Of two writes of `PKGPWR` in one cycle only the baseboard's comes about (R427); the host reaches no operator
register in recovery (R399). -/
def execRegisterWrite (bmc : Bool) (off : Nat) (v : W32) (s : State) : Host.Outcome State Fault Refusal :=
  .next (if s.inRecovery && !bmc then s else s.operWrite bmc off v)

/-- The 32 bytes of an entry of an error log (Table 21.4). -/
def ErrEnt.word (die : Nat) (e : ErrEnt) : Nat :=
  packFields [(64, e.detail % 2 ^ 64), (64, e.heart % 2 ^ 64), (64, e.addr % 2 ^ 64), (32, e.seq % 2 ^ 32), (5, 0), (8, e.core % 256), (2, die), (1, bitOf e.corr),
    (8, e.unit % 256), (8, e.cause % 256)]

/-- Entry `i` of the ring of 4,096; one that has not been written, or whose die is at PS7, reads as zero (log 119, DESIGN CHOICE). -/
def Die.errAt (d : Die) (die i : Nat) : Nat := if 7 ≤ d.cur then 0 else (d.errlog.find? fun e => (e.seq - 1) % 4096 == i).elim 0 (·.word die)

/-- The current that firmware uses for a cluster: a suspect sensor reads as the rail less the other clusters (R423). -/
def State.currentUsed (s : State) (c : Nat) : Int :=
  let x := (s.cluster c).current
  if x.suspect then
    (s.die (c / 18)).rail - (((List.range 18).map (c / 18 * 18 + ·)).filter (· ≠ c)).foldl (fun a e => a + (s.cluster e).current.now) 0
  else x.now

/-- Suspect sensors of a cluster, of any kind (R423, Table 21.5). -/
def State.suspects (s : State) (c : Nat) : Nat :=
  let cl := s.cluster c
  (((List.range 8).map (8 * c + ·)).filter fun k => (s.core k).temp.suspect).length + (cl.vault.filter (·.suspect)).length + bitOf cl.current.suspect

/-- 200 times 2 to the power (T - 85 °C) / 10 °C, raised to the power 10,000, for T in m°C. -/
def sharePower (t : Int) : Nat := 200 ^ 10000 * 2 ^ (t - 85000).toNat

/-- 2 % times 2 to the power (T - 85 °C) / 10 °C in units of 0.01 %, rounded down, for T in m°C (R355): the largest `n` with
`n`^10000 at most 200^10000 times 2^(T - 85,000). -/
def shareFloor (t : Int) : Nat :=
  let bound := sharePower t
  ((List.range 24).reverse).foldl (fun n b => if (n + 2 ^ b) ^ 10000 ≤ bound then n + 2 ^ b else n) 0

/-- A refresh share in units of 0.01 %: exact, or rounded in a way that the spec leaves open (log 2). -/
def State.share (s : State) (t : Int) : State × Nat :=
  let n := shareFloor t
  if n ^ 10000 = sharePower t then (s, n) else let b := s.flip; (b.2, n + bitOf b.1)

/-- `TLVAL`: a telemetry item (R426, Table 21.5). The power of one die is a measurement that the spec states no value for: it is
free, but no more than the package's, and none of a die at PS7 (log 2). -/
def State.telemetry (s : State) (idx sub : Nat) : State × Nat :=
  let temp (t : Int) : Nat := wrap 64 (quarterDegrees t)
  match idx with
  | 0 => (s, s.oper.pavg * 1000)
  | 1 => if sub < 3 ∧ (s.die sub).cur < 7 then let d := s.draw; (d.2, d.1 % (s.oper.pavg * 1000 + 1)) else (s, 0)
  | 2 => (s, if sub < 3 then (s.die sub).grant * 1000 else 0)
  | 3 => (s, Map.get 0 s.telem (3 * 256 + sub) * 2 / 125)
  | 6 => (s, temp (s.coreTemp sub))
  | 7 => (s, if sub < 176 then temp (s.coreTemp (256 + sub)) else 0)
  | 8 => (s, if sub < 216 then temp (s.vaultTemp (sub / 4) (sub % 4)) else 0)
  | 9 => if sub < 54 then s.share (s.tNow sub) else (s, 0)
  | 14 => (s, Map.get 0 s.telem (14 * 256))
  | 15 => (s, if sub < 54 then s.suspects sub else 0)
  | n => (s, if n = 4 ∨ n = 5 ∨ (10 ≤ n ∧ n ≤ 13) then Map.get 0 s.telem (n * 256 + sub) else 0)

/-- The holder of the package lease as its register reads: none once the expiry has passed (R396). -/
def State.leader (s : State) : Nat := if s.expiry ≤ s.heart then 3 else s.holder

/-- The word at an offset of the operator block. -/
def State.operRead (s : State) (off : Nat) : State × Nat :=
  let o := s.oper
  let dieps (d : Nat) : Nat :=
    let x := s.die d
    x.target + x.cur * 2 ^ 3 + bitOf (x.cur != x.target) * 2 ^ 6 + bitOf x.fsafe * 2 ^ 7 + bitOf x.hot * 2 ^ 8 + bitOf x.shold * 2 ^ 9
  let part (w k : Nat) : Nat := w / 2 ^ (32 * k) % 2 ^ 32
  if off = 0 then (s, o.ceil + bitOf o.oob * 2 ^ 8)
  else if off = 4 then (s, o.pavg % 2 ^ 12 + s.leader * 2 ^ 12)
  else if off = 0x10 ∨ off = 0x14 ∨ off = 0x18 then (s, dieps ((off - 0x10) / 4))
  else if off = 0x20 then (s, o.rotms + o.rflim * 2 ^ 8)
  else if off = 0x24 then (s, o.migthr + bitOf o.auto * 2 ^ 8)
  else if off = 0x40 then (s, o.elidx + o.eldie * 2 ^ 12)
  else if 0x80 ≤ off ∧ off < 0xA0 ∧ off % 4 = 0 then (s, part ((s.die o.eldie).errAt o.eldie o.elidx) ((off - 0x80) / 4))
  else if off = 0xA0 then (s, o.tlidx + o.tlsub * 2 ^ 8)
  else if off = 0xA8 ∨ off = 0xAC then let r := s.telemetry o.tlidx o.tlsub; (r.1, part r.2 ((off - 0xA8) / 4))
  else (s, 0)

/-! ### The arbiter (R416) -/

def Die.floorW (d : Die) : Nat := if d.cur < 6 then 60 else if d.cur = 6 then 20 else 0

/-- The grants of the dies, and the headroom that they leave, for a ceiling in units of 5 W. -/
def grants (ceil : Nat) (ds : List Die) (demand : List Nat) : List Nat × Nat :=
  let avail := 5 * ceil - 30 - sumNat (ds.map Die.floorW)
  let wants := ds.zipIdx.map fun p => if p.1.cur < 6 then (demand[p.2]?).getD 0 - p.1.floorW else 0
  let total := sumNat wants
  let gs := wants.map fun w => if total ≤ avail then w else avail * w / total
  ((ds.zip gs).map fun p => p.1.floorW + p.2, avail - sumNat gs)

/-- The arbiter's estimate for a lease of a fold. -/
def leaseCost (x : Fold) : Nat := 2 + Config.leaseWatts (clusterOf x.core)

def Lease.held (l : Lease) : Bool := l.active || l.susp

/-- Leases that run or are held, against the headroom. Those on a die `above` whose granted power a lowered ceiling has fallen below
are dropped, and, where the ceiling is `lowered`, those that run and that the headroom no longer covers (R389, R416): the folds are
gone through in their order of placement (log 68). A held lease of a fold that is back on a core runs when the grant covers it
(Table 16.12). -/
def State.keepLeases (s : State) (lowered : Bool) (above : Nat → Bool) : List Fold → Nat → State × Nat
  | [], h => (s, h)
  | x :: r, h =>
    let c := leaseCost x
    if x.lease.held && x.resident && above (dieOf x.core) then (s.dropLease x.uid).keepLeases lowered above r h
    else if x.lease.active then
      if lowered && decide (h < c) then (s.dropLease x.uid).keepLeases lowered above r h else s.keepLeases lowered above r (h - c)
    else if x.lease.susp && x.run == .running && decide (c ≤ h) then
      (s.modFold x.uid fun y => { y with lease := { y.lease with active := true, susp := false, until' := 2 * s.heart + 125 * y.lease.remain } }).keepLeases
        lowered above r (h - c)
    else s.keepLeases lowered above r h

/-- The answer to one parked request (R199): its status, the fold's lease, and the headroom left. -/
def leaseAnswer (x : Fold) (us : Option W64) (now h : Nat) : Nat × Lease × Nat :=
  let l := x.lease
  match us with
  | none => if l.held then (0, { l with remain := 0, until' := 0, active := false, susp := false }, h) else (3, l, h)
  | some v =>
    if v.toNat < 1 ∨ 4000 < v.toNat then (4, l, h)
    else if l.held then (2, l, h)
    else if leaseCost x ≤ h then
      (0, { remain := v.toNat, until' := 2 * now + 125 * v.toNat, active := true, susp := false, dropped := false }, h - leaseCost x)
    else (1, l, h)

/-- The fragments parked for the arbiter. -/
def State.leaseWaiters (s : State) : List (Nat × Nat × Nat) :=
  s.folds.flatMap fun x => x.flocks.zipIdx.flatMap fun p =>
    (p.1.frags.filter fun g => match g.park with | .lease _ => true | _ => false).map fun g => (x.uid, p.2, g.fid)

def State.answerLeases (s : State) : List (Nat × Nat × Nat) → Nat → State × Nat
  | [], h => (s, h)
  | w :: r, h =>
    match s.iss? w.1 w.2.1 w.2.2 with
    | none => s.answerLeases r h
    | some i =>
      match i.g.park, i.g.sysDst with
      | .lease us, some sd =>
        if (i.x.run = .running || i.x.run.stops) && i.k.stop.isNone then
          let a := leaseAnswer i.x us s.heart h
          let s1 := s.modFold i.x.uid fun y => { y with lease := a.2.1 }
          let s2 := if us.isSome && a.1 == 0 then s1.count 12 0 1 else s1
          (i.next (i.setS s2 sd (BitVec.ofNat 64 a.1))).answerLeases r a.2.2
        else s.answerLeases r h
      | _, _ => s.answerLeases r h

/-- The boost leases of a die, or of all dies, are dropped (Table 16.12). -/
def State.dropLeases (s : State) (on : Nat → Bool) : State :=
  (s.folds.filter fun x => x.lease.held && on (dieOf x.core)).foldl (fun t x => t.dropLease x.uid) s

/-- A package lease that has run out has no holder, and every boost lease is dropped (R396, R397). -/
def State.lapse (s : State) : State :=
  if s.holder ≠ 3 ∧ s.expiry ≤ s.heart then ({ s with holder := 3 } : State).dropLeases fun _ => true else s

/-- The time for which a limiter stretched the clock of each die in a period, up to the whole of it, is a free value (log 2). -/
def State.countStretch (s : State) : State := [0, 1, 2].foldl (fun t d => let b := t.draw; b.2.count 5 d (b.1 % 101)) s

/-- `ARBITER_PERIOD`, with the dies' own estimates of their draw and the package's average, which is within the ceiling that is in
force until this grant (R416): without a leader, or with one whose die is off at PS7, nothing is granted (R397, R427). A die that
receives a grant leaves the fail-safe state (R418). -/
def execArbiterPeriod (demand : List Nat) (pavg : Nat) (s : State) : Host.Outcome State Fault Refusal :=
  .next <|
    let s0 : State := { s.lapse.countStretch with oper := { s.oper with pavg := min pavg (5 * s.oper.granted) } }
    if s.leader = 3 ∨ 7 ≤ (s.die s.leader).cur then s0
    else
      let g := grants s.oper.ceil [s.die 0, s.die 1, s.die 2] demand
      let s1 := [0, 1, 2].foldl (fun t d => t.modDie d fun x =>
        { x with grant := (g.1[d]?).getD 0, demand := (demand[d]?).getD 0, lastGrant := s.heart, fsafe := false }) s0
      let k := s1.keepLeases (decide (s.oper.ceil < s.oper.granted)) (fun d => decide (5 * s.oper.ceil < (s.die d).grant)) s1.folds g.2
      let a := k.1.answerLeases k.1.leaseWaiters k.2
      { a.1 with headroom := a.2, oper := { a.1.oper with granted := s.oper.ceil } }

/-- `LEASE_EXPIRY` (R388). -/
def execLeaseExpiry (fold : Nat) (s : State) : Host.Outcome State Fault Refusal :=
  .next <|
    match s.fold? fold with
    | none => s
    | some x =>
      if x.lease.active ∧ x.lease.until' ≤ 2 * s.heart then
        s.modFold fold fun y => { y with lease := { y.lease with remain := 0, until' := 0, active := false } }
      else s

/-! ### The package lease (R396, R397) -/

/-- A die's compare-and-swap on the register finds it without holder: it leads (R396), and tells every die's error log (R397). -/
def State.claim (s : State) (die : Nat) : State :=
  let s1 : State := { s.lapse with holder := die, expiry := (s.heart + 500000) % 2 ^ 62, claimed := some s.heart }
  [0, 1, 2].foldl (fun t d => t.logErr d Cause.leaderChange.code 255 false 255 0 die) (s1.count 14 0 1)

/-- A lower die's claim reaches the register in the tick of the claim that it holds, and wins: the change that the logs tell of is
its own (R396, R409). -/
def State.outbid (s : State) (die : Nat) : State :=
  let mine (e : ErrEnt) : ErrEnt := if e.cause = Cause.leaderChange.code ∧ e.heart = s.heart then { e with detail := die } else e
  [0, 1, 2].foldl (fun t d => t.modDie d fun x => { x with errlog := x.errlog.map mine }) { s with holder := die }

/-- `LEADER_CLAIM` of a die whose firmware core is on: PS6 keeps it on, PS7 does not (R396, R420; log 132, DEDUCED). -/
def execLeaderClaim (die : Nat) (s : State) : Host.Outcome State Fault Refusal :=
  .next <|
    if 3 ≤ die ∨ 7 ≤ (s.die die).cur ∨ s.firm.boot ≠ .running then s
    else if s.leader = 3 then s.claim die
    else if s.claimed = some s.heart ∧ die < s.holder then s.outbid die
    else s

/-- A renewal in the tick of the expiry fails (R409); a die at PS7 renews nothing (R427). -/
def execLeaderLeaseRenew (die : Nat) (s : State) : Host.Outcome State Fault Refusal :=
  .next (if s.leader = die ∧ die < 3 ∧ (s.die die).cur < 7 then { s with expiry := (s.heart + 500000) % 2 ^ 62 } else s)

def execLeaderLeaseLapse (s : State) : Host.Outcome State Fault Refusal := .next s.lapse

/-- `FAILSAFE_ENTRY`: 150 µs, of 62.5 ticks each, after the last grant (R418). -/
def execFailsafeEntry (die : Nat) (s : State) : Host.Outcome State Fault Refusal :=
  .next <|
    let d := s.die die
    if die < 3 ∧ !d.fsafe ∧ d.lastGrant + 9375 ≤ s.heart then
      (((s.modDie die fun x => { x with fsafe := true }).logErr die Cause.failsafe.code 13 false 255 0 0).count 4 die 1).dropLeases (· == die)
    else s

/-! ### Heat (R421) -/

def execVaultHot (cl : Nat) (s : State) : Host.Outcome State Fault Refusal :=
  .next <|
    if cl < 54 ∧ 110000 ≤ s.tNow cl ∧ !(s.cluster cl).wasHot then
      ((s.modCluster cl fun c => { c with wasHot := true }).modDie (cl / 18) fun d => { d with hot := true }).logErr (cl / 18) Cause.vaultHot.code 12 false 255 0 0
    else s

def execVaultCool (die : Nat) (s : State) : Host.Outcome State Fault Refusal :=
  .next <|
    if die < 3 ∧ (s.die die).hot ∧ ((List.range 18).all fun c => decide (s.tNow (18 * die + c) < 100000)) then s.modDie die fun d => { d with hot := false }
    else s

/-! ### Sensor tests (R422, R423) -/

def sortInts (l : List Int) : List Int := sortBy (fun a b => decide (a ≤ b)) l

/-- The median of an odd number of readings; of an even number the mean of the middle two. -/
def median (l : List Int) : Int :=
  let m := sortInts l
  let n := m.length
  if n % 2 = 1 then (m[n / 2]?).getD 0 else (((m[n / 2 - 1]?).getD 0) + ((m[n / 2]?).getD 0)) / 2

def absI (x : Int) : Int := if x < 0 then -x else x

/-- The first test that a temperature sensor fails: 1 stuck, 2 out of range, 3 disagreeing. -/
def Sensor.fails (x : Sensor) (others : List Sensor) : Option Nat :=
  let m := median (others.map (·.now))
  if absI (x.now - x.before) < 250 ∧ 2000 < absI (m - median (others.map (·.before))) then some 1
  else if x.now < -40000 ∨ 150000 < x.now then some 2
  else if 15000 < absI (x.now - m) then some 3
  else none

/-- Ticks in 1 s. -/
def secondTicks : Nat := 62500000

/-- A temperature sensor after a test at heartbeat count `now` that it has passed or failed; the next test compares with its
reading at this one. -/
def Sensor.tested (x : Sensor) (now : Nat) (failed : Bool) : Sensor :=
  let y := { x with before := x.now }
  if failed then { y with suspect := true, okSince := none }
  else if x.suspect then
    let since := x.okSince.getD now
    { y with suspect := decide (now < since + secondTicks), okSince := some since }
  else y

/-- A mark writes `SENSOR_SUSPECT` to the die's error log (R422, Table 21.4). -/
def State.markSensor (s : State) (die core idx test : Nat) : State :=
  s.logErr die Cause.sensorSuspect.code 12 false core 0 (Config.suspectDetail idx test)

/-- The new readings reach firmware. -/
def State.readSensors (s : State) (obs : SensorObs) : State :=
  let s1 := s.readCores (List.range 432) obs.core
  let s2 := (List.range 54).foldl (fun t c => t.modCluster c fun x =>
    { x with vault := x.vault.zipIdx.map fun p => p.1.read (lookup obs.vault (4 * c + p.2)), current := x.current.read (lookup obs.current c) }) s1
  [0, 1, 2].foldl (fun t d => t.modDie d fun x => { x with rail := (lookup obs.rail d).getD x.rail }) s2

/-- The current sensor of a cluster is suspect (R423): out of range, or the furthest from the median of a die whose readings do
not sum to the rail's within 15 %. -/
def State.currentBad (s : State) (c : Nat) : Option Nat :=
  let d := c / 18
  let l := (List.range 18).map fun j => (s.cluster (18 * d + j)).current.now
  let x := (s.cluster c).current.now
  let sum := l.foldl (· + ·) 0
  let rail := (s.die d).rail
  if x < 0 ∨ 120000 < x then some 2
  else if 15 * absI rail < 100 * absI (sum - rail) ∧ (l.all fun y => decide (absI (y - median l) ≤ absI (x - median l))) then some 3
  else none

/-- The tests of the sensors of a cluster, on readings that all stand. -/
def State.testCluster (s : State) (c : Nat) : State :=
  let d := c / 18
  let cores := (List.range 8).map (8 * c + ·)
  let temps := cores.map fun k => (k, (s.core k).temp)
  let s1 := temps.foldl (fun t p =>
    let f := p.2.fails ((temps.filter (·.1 ≠ p.1)).map (·.2))
    let t1 := t.modCore p.1 fun y => { y with temp := y.temp.tested s.heart f.isSome }
    if f.isSome && !p.2.suspect then t1.markSensor d (p.1 % 144) p.1 (f.getD 0) else t1) s
  let vs := (s.cluster c).vault.zipIdx
  let s2 := vs.foldl (fun t p =>
    let f := p.1.fails ((vs.filter (·.2 ≠ p.2)).map (·.1))
    let t1 := t.modCluster c fun y => { y with vault := modNth (fun z => z.tested s.heart f.isSome) p.2 y.vault }
    if f.isSome && !p.1.suspect then t1.markSensor d 255 (432 + 4 * c + p.2) (f.getD 0) else t1) s1
  let f := s.currentBad c
  let s3 := s2.modCluster c fun y => { y with current := { y.current with before := y.current.now, suspect := f.isSome } }
  if f.isSome && !(s.cluster c).current.suspect then s3.markSensor d 255 (648 + c) (f.getD 0) else s3

/-- A cluster with more than two suspect sensors is held at `CP3` or `CP7` (R423, Table 2.3), and an open rendezvous of it closes
(log 102). -/
def State.holdCluster (s : State) (c : Nat) : State :=
  let pt : BitVec 3 := if railL (s.die (c / 18)).cur then 7 else 3
  if 2 < s.suspects c then
    (s.closeRdv c 2).modCluster c fun x => { x with held := true, point := pt, settling := x.settling || x.point != pt }
  else s.modCluster c fun x => { x with held := false }

/-- `SENSOR_TEST`. -/
def execSensorTest (obs : SensorObs) (s : State) : Host.Outcome State Fault Refusal :=
  .next <|
    let s1 := s.readSensors obs
    let s2 := (List.range 54).foldl State.testCluster s1
    let s3 := (List.range 54).foldl State.holdCluster s2
    let s4 := (List.range 54).foldl (fun t c => t.modCluster c fun x => { x with wasHot := x.wasHot && decide (110000 ≤ t.tNow c) }) s3
    [0, 1, 2].foldl (fun t d => t.modDie d fun x =>
      { x with shold := (List.range 18).any fun c => (t.cluster (18 * d + c)).held }) s4

end Sys2Proof.Machine
end

