-- ==== Sys2Proof/Machine/Links.lean ====
section
/-! DEFINITION. The host port and the peer ports (R404, R406 to R408), link errors and the patrol scrub (R425), the boot and the
recovery (R398, R399), measurements and SPDM (R400), and key slots (R401, R402, R409). -/

namespace Sys2Proof.Machine

/-! ### Accesses from outside (R406 to R408) -/

/-- What a request finds at its home: an error response, or the bytes that it returns. -/
def State.respond (s : State) (a : Option (List Byte)) : State := { s with answer := a }

/-- The bytes that a request reads or writes. -/
def reqBytes (r : Request) : Nat :=
  match r.kind with
  | .read => r.size
  | .write => r.data.length
  | .atomic _ _ | .waita _ => r.ty.bytes

/-- A request is served at the home of a class-0 address under a key, by a party without number (R111): it finds the logs of a
managed tile applied (R101). An atomic or a lane of `WAITA` executes at the engine of the home (R95, R408). -/
def State.serveHome (s : State) (key : Nat) (r : Request) : State :=
  let n := reqBytes r
  let ends := [r.addr, r.addr + n - 1]
  if n = 0 ∨ 64 < n ∨ dramBytes < r.addr + n ∨ !ends.all (s.homeOk key) then s.respond none
  else
    let s1 := s.applyRange r.addr n
    let bs := s1.readAs (s1.matOf key) r.addr n
    let unread := s1.rangeBad r.addr n
    let shut := !ends.all (s1.takes key)
    match r.kind with
    | .read => s1.respond (if unread then none else some bs)
    | .write => if shut then s1.respond none else (s1.directWrite r.addr key false false r.data none).respond (some [])
    | .atomic aop ret =>
      if r.addr % n ≠ 0 ∨ unread ∨ shut then s1.respond none
      else
        let new := atomNew aop r.ty (ofLe bs) (r.opa.toNat % 2 ^ (8 * n)) (r.opb.toNat % 2 ^ (8 * n))
        (s1.putAtomic r.addr key false (leBytes n new)).respond (some (if ret then bs else []))
    | .waita cond =>
      if r.addr % n ≠ 0 ∨ unread then s1.respond none
      else if waitCond cond r.ty.ty (ofLe bs) r.opa.toNat then s1.respond (some bs)
      else s1.watchPeer { peer := r.peer, key := key, addr := r.addr, cond := cond, ty := r.ty, a := r.opa }

/-- `PEER_REQUEST`: a disabled peer is refused, which is a violation (R407). A package that has not booted serves no peer, and its
memory is not initialised (R399). -/
def execPeerRequest (r : Request) (s : State) : Host.Outcome State Fault Refusal :=
  .next <|
    if s.firm.boot ≠ .running then s.respond none
    else match Map.get none s.firm.peers r.peer with
    | none => (s.logViol (r.addr / dieBytes % 3) 0 0 255 r.addr).respond none
    | some key => s.serveHome key r

/-- The registers of BAR0 that the host reads: `RCVGO`, the mailbox, and the operator block (R399, R405, R415). -/
def State.bar0Read (s : State) (off : Nat) : State × Nat :=
  if off = 0 then (s, s.firm.rcvgo)
  else if off = 0x100 then (s, s.firm.mbCmd)
  else if off = 0x140 then (s, s.firm.mbStatus)
  else if 0x108 ≤ off ∧ off < 0x140 ∧ off % 8 = 0 then (s, ((s.firm.mbValue[(off - 0x108) / 8]?).getD 0).toNat)
  else if 0x2000 ≤ off then s.operRead (off - 0x2000)
  else (s, 0)

/-- A register of BAR0 that the host writes: an argument word of the mailbox while no command runs, or a word of the operator block.
The command word, `RCVGO` and the block's `DIEPS` and `SENSRT` words have events of their own. -/
def State.bar0Write (s : State) (off v : Nat) : State :=
  if 0x2000 ≤ off then s.operWrite false (off - 0x2000) (BitVec.ofNat 32 v)
  else if 0x108 ≤ off ∧ off < 0x140 ∧ off % 8 = 0 ∧ s.firm.mbStatus ≠ 255 then
    let l := (s.firm.mbValue ++ List.replicate 7 0).take 7
    { s with firm := { s.firm with mbValue := modNth (fun _ => BitVec.ofNat 64 v) ((off - 0x108) / 8) l } }
  else s

/-- `HOST_ACCESS`: class 0 is the stacked memory through HDM, plaintext (log 12); class 2 is the host's own memory; class 3 is
BAR0; class 4 is the recovery window, of which a write is an event of its own. In recovery only `RCVGO` and the window answer, and the
window reads as ones (R399). -/
def execHostAccess (r : Request) (s : State) : Host.Outcome State Fault Refusal :=
  .next <|
    if r.cls = 0 then (if s.firm.boot = .running then s.serveHome 0 r else s.respond none)
    else if r.cls = 2 then
      let k := 2 * classKey + r.addr
      if 2 ^ 51 < r.addr + reqBytes r ∨ 64 < reqBytes r then s.respond none
      else
        match r.kind with
        | .read => s.respond (some (s.bytes k r.size))
        | .write => ((s.setBytes k r.data).notify k (reqBytes r)).respond (some [])
        | .atomic _ _ | .waita _ => s.respond none
    else if r.cls = 3 then
      if s.inRecovery && r.addr != 0 then s.respond none
      else
        match r.kind with
        | .read => let v := s.bar0Read r.addr; v.1.respond (some (leBytes r.size v.2))
        | .write => (s.bar0Write r.addr (ofLe r.data)).respond (some [])
        | .atomic _ _ | .waita _ => s.respond none
    else if r.cls = 4 then
      match r.kind with
      | .read => s.respond (if s.inRecovery && decide (r.addr + r.size ≤ 2 ^ 26) then some (List.replicate r.size 255) else none)
      | _ => s.respond none
    else s.respond none

/-- `PEER_ACCESS_TABLE_WRITE`: an entry by domain number; firmware may write the device's own number first (R407). -/
def execPeerAccessTableWrite (r : PeerRow) (en : Bool) (key : Nat) (s : State) : Host.Outcome State Fault Refusal :=
  .next <|
    if s.firm.boot ≠ .running then s
    else
    let s1 : State := { s with domNum := r.own.elim s.domNum (· % 4096) }
    if 4096 ≤ r.domain ∨ 8192 ≤ key then s1
    else { s1 with firm := { s.firm with peers := Map.set none s.firm.peers r.domain (if en then some key else none) } }

/-! ### Errors (R425) -/

/-- Ticks in 24 h. -/
def dayTicks : Nat := 86400 * secondTicks

/-- An error of a memory array is entered in the error log of its die, with the core of a core's array. -/
def spotDie (p : ArraySpot) : Nat := if p.core < 432 then dieOf p.core else p.addr / dieBytes % 3
def State.logArray (s : State) (p : ArraySpot) (corr : Bool) : State :=
  s.logErr (spotDie p) (if p.unit = 0 then Cause.dramError.code else Cause.sramError.code) p.unit corr (if p.core < 432 then p.core % 144 else 255) p.addr 0

/-- A correctable error of a DRAM line or an SRAM row is counted, and entered when the place has been corrected before within
24 h. -/
def State.correctable (s : State) (p : ArraySpot) : State :=
  let place := (p.unit * 512 + p.core % 512) * 2 ^ 64 + p.addr
  let again := s.corrected.any fun q => q.1 == place && decide (s.heart ≤ q.2 + dayTicks)
  let s1 : State := { s.count 10 p.unit 1 with corrected := (place, s.heart) :: s.corrected.filter (·.1 != place) }
  if again then s1.logArray p true else s1

/-- An uncorrectable error in a core's array that holds state of a fold: a record, and the kill scope of the fold (R364). -/
def State.sramKill (s : State) (u addr : Nat) : State :=
  match s.fold? u with
  | none => s
  | some x => ((s.pushRec { s.recOf x .sramError 4 with addr := addr }).1).killScope u

/-- An uncorrectable error is counted and entered. It stands in the memory or L2 line at a physical address from then on, and stops
the apply of a log of its tile, as one in the log store does (R105, log 106). -/
def State.uncorrectable (s : State) (p : ArraySpot) : State :=
  let t := p.addr / tileBytes
  let s1 := (s.count 11 p.unit 1).logArray p false
  if p.unit ≤ 1 then
    let s2 : State := { s1 with poison := nubNat (p.addr / 64 :: s1.poison) }
    if s.logs.any (·.tile == t) then s2.cutTile t 0 else s2
  else if p.unit = 2 then (if s.logs.any (·.tile == t) then s1.cutTile t 2 else s1)
  else if 3 ≤ p.unit ∧ p.unit ≤ 5 then p.fold.elim s1 fun u => s1.sramKill u p.addr
  else s1

/-- `PATROL_SCRUB` of a line of DRAM, or an access to an array in which an error is found: no error, a corrected one, or an
uncorrectable one. An error of the instruction cache is found by the fetch (R132). -/
def execPatrolScrub (spot : ArraySpot) (err : Option Bool) (s : State) : Host.Outcome State Fault Refusal :=
  .next <|
    let p : ArraySpot := if spot.unit ≤ 1 then { spot with addr := spot.addr / 64 * 64, core := 432 } else spot
    if 8 < spot.unit ∨ (spot.unit ≤ 2 ∧ dramBytes ≤ spot.addr) then s
    else
      match err with
      | none => s
      | some true => s.correctable p
      | some false => s.uncorrectable p

/-- `LINK_ERROR` of a die bridge, the host link or a peer link (units 9 to 11 of Table 21.4). -/
def execLinkError (unit die addr port : Nat) (corrected : Bool) (s : State) : Host.Outcome State Fault Refusal :=
  .next <|
    if unit < 9 ∨ 11 < unit ∨ 3 ≤ die then s
    else if corrected then s.count 10 unit 1
    else (s.count 11 unit 1).logErr die Cause.linkError.code unit false 255 addr (if unit = 11 then port % 8 else 0)

/-! ### Boot and recovery (R398, R399) -/

/-- The measurement of a slot. -/
def flashMeasure (f : FlashSlot) : BitVec 512 := Config.sha3 (f.header ++ f.image)

/-- The first check that a slot fails (Table 19.2): 0 none, 1 header, 2 signature, 3 security version, 4 flash read. -/
def flashFailure (f : FlashSlot) : Nat :=
  if !f.readable then 4
  else if 2 ^ 25 < Config.headerSize f.header ∨ f.image.length ≠ Config.headerSize f.header then 1
  else if !Config.mldsaOk (flashMeasure f) f.sig then 2
  else if Config.headerVersion f.header < Config.fusedMin then 3
  else 0

/-- The package at its reset: what stands outside it, in flash or in fuses, stays. -/
def State.restart (s : State) : State :=
  { State.reset with
    mem := s.mem.filter fun p => decide (classKey ≤ p.1), msix := s.msix, stepping := s.stepping
    firm := { State.reset.firm with slotA := s.firm.slotA, slotB := s.firm.slotB }
    agenda := s.agenda, draws := s.draws, fresh := s.fresh, nextId := s.nextId }

/-- The boot with the self-tests of the dies as they came out. -/
def State.bootWith (s : State) (pass : List Bool) : State :=
  let a := flashFailure s.firm.slotA
  let b := flashFailure s.firm.slotB
  let f := { s.firm with failA := a, failB := b }
  match (List.range 3).find? fun d => (pass[d]?).getD false with
  | none => { s with firm := { f with boot := .recovery, active := 2 } }
  | some d =>
    if a = 0 then ({ s with firm := { f with boot := .running, active := 0 } } : State).claim d
    else if b = 0 then ({ s with firm := { f with boot := .running, active := 1 } } : State).claim d
    else { s with firm := { f with boot := .recovery, active := 2 } }

/-- `RESET`. -/
def execReset (pass : List Bool) (s : State) : Host.Outcome State Fault Refusal := .next (s.restart.bootWith pass)

/-- `RECOVERY_WINDOW_WRITE`. -/
def execRecoveryWindowWrite (off : Nat) (b : Byte) (s : State) : Host.Outcome State Fault Refusal :=
  .next <|
    if s.firm.boot = .recovery ∧ off < 2 ^ 26 then { s with firm := { s.firm with window := Map.set 0 s.firm.window off b } }
    else s

/-- `RCVGO`: the window is verified; on success both slots take the image and the device resets, and waits for its boot. -/
def execRcvgo (v : W32) (s : State) : Host.Outcome State Fault Refusal :=
  .next <|
    if s.firm.boot ≠ .recovery ∨ v ≠ 1 then s
    else
      let f := Config.windowSlot s.firm.window
      if flashFailure f = 0 then ({ s with firm := { s.firm with slotA := f, slotB := f } } : State).restart
      else { s with firm := { s.firm with rcvgo := 2 } }

/-! ### SPDM over DOE (R399, R400, Table 19.2) -/

def State.doe (s : State) (l : List Byte) : State := { s with firm := { s.firm with doe := l } }

def execGetVersion (s : State) : Host.Outcome State Fault Refusal := .next (s.doe (Config.spdmAnswer 0))
def execGetCapabilities (s : State) : Host.Outcome State Fault Refusal := .next (s.doe (Config.spdmAnswer 1))
def execNegotiateAlgorithms (s : State) : Host.Outcome State Fault Refusal := .next (s.doe (Config.spdmAnswer 2))

/-- The certificate chain of the device identity key. -/
def execGetCertificate (s : State) : Host.Outcome State Fault Refusal := .next (s.doe (Config.spdmAnswer 3))

/-- The contents of a measurement block, its numbers in 8 bytes each (log 13). -/
def State.measurementBlock (s : State) (idx : Nat) : List Byte :=
  let digest (d : BitVec 512) : List Byte := leBytes 64 d.toNat
  let active := if s.firm.active = 1 then s.firm.slotB else s.firm.slotA
  match idx with
  | 1 => digest Config.romDigest
  | 2 => digest (flashMeasure s.firm.slotA)
  | 3 => digest (flashMeasure s.firm.slotB)
  | 4 => le8 s.firm.active ++ le8 s.firm.failA ++ le8 s.firm.failB
  | 5 => le8 (if s.firm.active = 2 then 0 else Config.headerVersion active.header) ++ le8 Config.fusedMin
  | 6 => le8 s.stepping
  | _ => []

/-- `GET_MEASUREMENTS` of a block, or of all of them in order (255): their contents, and in a signed response the signature of the
device identity key over them. -/
def execGetMeasurements (m : MeasureAsk) (s : State) : Host.Outcome State Fault Refusal :=
  .next <|
    let l := if m.block = 255 then ((List.range 6).map (· + 1)).flatMap s.measurementBlock else s.measurementBlock m.block
    s.doe (if m.signed then l ++ Config.identitySign l else l)

def execSpdmSessionOpen (s : State) : Host.Outcome State Fault Refusal :=
  .next (if s.firm.boot = .running then { s with firm := { s.firm with spdm := true } } else s)

/-- A key load that has not come about leaves its slot as it was (R409). -/
def execSpdmSessionEnd (s : State) : Host.Outcome State Fault Refusal := .next { s with firm := { s.firm with spdm := false } }

/-! ### Key slots (R401, R402) -/

/-- A change of a slot takes effect once every access under way has completed; slot 0 stands for plaintext and holds no key. -/
def State.setKey (s : State) (slot : Nat) (k : Option (BitVec 512)) : State :=
  if !s.firm.spdm ∨ slot = 0 ∨ 8192 ≤ slot then s
  else
    let t := s.drain fun _ => true
    { t with firm := { t.firm with keys := Map.set none t.firm.keys slot k } }

def execKeySlotLoad (slot : Nat) (key : BitVec 512) (s : State) : Host.Outcome State Fault Refusal := .next (s.setKey slot (some key))
def execKeySlotClear (slot : Nat) (s : State) : Host.Outcome State Fault Refusal := .next (s.setKey slot none)

/-! ### The background sweep (R110) -/

def clearMarks (dead : List Nat) (m : Map RaceMark) : Map RaceMark := m.filter fun p => !dead.contains p.2.party.toNat

/-- `BACKGROUND_SWEEP_DONE`: no line bears a retired number any more, and the numbers return to the pool, but for those that a
buffered write has still to record, and those that the image of a saved fold bears, whose marks are the fold's again when it is
restored (R110, R375, log 75). -/
def execBackgroundSweepDone (s : State) : Host.Outcome State Fault Refusal :=
  .next <|
    let late := s.retired.filter fun p => (s.pend.any fun e => e.mark.any (·.party.toNat == p)) ||
      s.folds.any fun x => (x.run == .saved || x.run == .restoring) && x.scrMark.any (·.2.party.toNat == p)
    let dead := s.retired.filter (!late.contains ·)
    let line (l : L1Line) : L1Line := if dead.contains l.mark.party.toNat then { l with mark := RaceMark.clear } else l
    let s1 := s.cores.foldl (fun t p => t.modCore p.1 fun c => { c with l1 := c.l1.map line }) s
    { s1 with marks := clearMarks dead s1.marks, folds := s1.folds.map fun x => { x with scrMark := clearMarks dead x.scrMark }, retired := late }

end Sys2Proof.Machine
end

