-- ==== Sys2Proof/Machine/Mask.lean ====
section
/-! DEFINITION. The `MSK` family (R172 to R174). -/

namespace Sys2Proof.Machine

/-- A mask operation: `f` of the two mask sources goes to `m[MD]` (R172, R173). -/
def Iss.maskOp (i : Iss) (h : Hdr) (o : MskOp) (f : Mask → Mask → Mask) : State :=
  i.uniform h (i.next (i.setMask i.s o.md.toNat (f (i.mask o.ma.toNat) (i.mask o.mb.toNat))))

/-- A mask single with a scalar destination, which stands in `OPND` (R174). -/
def Iss.maskToS (i : Iss) (h : Hdr) (o : MskOp) (f : Mask → W64) : State :=
  i.uniform h <|
    match o.opnd with
    | .s d => i.next (i.setS i.s d (f (i.mask o.ma.toNat)))
    | _ => i.next i.s

def execMand (h : Hdr) (o : MskOp) (s : State) : Host.Outcome State Fault Refusal :=
  onFrag s fun i => i.maskOp h o fun a b => a &&& b

def execMor (h : Hdr) (o : MskOp) (s : State) : Host.Outcome State Fault Refusal :=
  onFrag s fun i => i.maskOp h o fun a b => a ||| b

def execMxor (h : Hdr) (o : MskOp) (s : State) : Host.Outcome State Fault Refusal :=
  onFrag s fun i => i.maskOp h o fun a b => a ^^^ b

def execMandn (h : Hdr) (o : MskOp) (s : State) : Host.Outcome State Fault Refusal :=
  onFrag s fun i => i.maskOp h o fun a b => a &&& ~~~b

def execMnot (h : Hdr) (o : MskOp) (s : State) : Host.Outcome State Fault Refusal :=
  onFrag s fun i => i.maskOp h o fun a _ => ~~~a

def execMmov (h : Hdr) (o : MskOp) (s : State) : Host.Outcome State Fault Refusal :=
  onFrag s fun i => i.maskOp h o fun a _ => a

def execMpop (h : Hdr) (o : MskOp) (s : State) : Host.Outcome State Fault Refusal :=
  onFrag s fun i => i.maskToS h o fun a => BitVec.ofNat 64 (popc 64 a.toNat)

def execMffs (h : Hdr) (o : MskOp) (s : State) : Host.Outcome State Fault Refusal :=
  onFrag s fun i => i.maskToS h o fun a => BitVec.ofNat 64 (ffs a)

/-- `MFROMS`: a scalar or constant as 64 bits, shifted left by `MOP` (R174). -/
def execMfroms (h : Hdr) (o : MskOp) (s : State) : Host.Outcome State Fault Refusal :=
  onFrag s fun i => i.uniform h (i.next (i.setMask i.s o.md.toNat (i.sval64 o.opnd <<< o.mop.toNat)))

def execMtos (h : Hdr) (o : MskOp) (s : State) : Host.Outcome State Fault Refusal :=
  onFrag s fun i => i.maskToS h o fun a => a

end Sys2Proof.Machine
end

