-- ==== Sys2Proof/Machine/Scalar.lean ====
section
/-! DEFINITION. The `SC` family: scalar arithmetic, comparison, selection and moves (R166 to R171). `MWIN` stands with the
matrix stream. -/

namespace Sys2Proof.Machine

/-- The write of a scalar result unless `NWB` suppresses it (R139). -/
def Iss.putS (i : Iss) (h : Hdr) (s : State) (sd : BitVec 7) (v : W64) : State := if h.nwb then s else i.setS s sd v

/-! ### Table 7.2 -/

def execSadd (h : Hdr) (o : ScOp) (s : State) : Host.Outcome State Fault Refusal :=
  onFrag s fun i => i.scalar h o fun a b => a + b

def execSsub (h : Hdr) (o : ScOp) (s : State) : Host.Outcome State Fault Refusal :=
  onFrag s fun i => i.scalar h o fun a b => a + 2 ^ o.ty.bits - b

def execSmul (h : Hdr) (o : ScOp) (s : State) : Host.Outcome State Fault Refusal :=
  onFrag s fun i => i.scalar h o fun a b => a * b

/-- The high half of the double-width product. -/
def execSmulh (h : Hdr) (o : ScOp) (s : State) : Host.Outcome State Fault Refusal :=
  onFrag s fun i => i.scalar h o fun a b =>
    let w := o.ty.bits
    wrap (2 * w) (ival o.ty.signed w a * ival o.ty.signed w b) / 2 ^ w

def execSdiv (h : Hdr) (o : ScOp) (s : State) : Host.Outcome State Fault Refusal :=
  onFrag s fun i => i.scalarDiv h o divQ

def execSrem (h : Hdr) (o : ScOp) (s : State) : Host.Outcome State Fault Refusal :=
  onFrag s fun i => i.scalarDiv h o divR

def execSand (h : Hdr) (o : ScOp) (s : State) : Host.Outcome State Fault Refusal :=
  onFrag s fun i => i.scalar h o fun a b => a &&& b

def execSor (h : Hdr) (o : ScOp) (s : State) : Host.Outcome State Fault Refusal :=
  onFrag s fun i => i.scalar h o fun a b => a ||| b

def execSxor (h : Hdr) (o : ScOp) (s : State) : Host.Outcome State Fault Refusal :=
  onFrag s fun i => i.scalar h o fun a b => a ^^^ b

def execSshl (h : Hdr) (o : ScOp) (s : State) : Host.Outcome State Fault Refusal :=
  onFrag s fun i => i.scalar h o fun a b => a * 2 ^ (b % o.ty.bits)

def execSshr (h : Hdr) (o : ScOp) (s : State) : Host.Outcome State Fault Refusal :=
  onFrag s fun i => i.scalar h o fun a b => a / 2 ^ (b % o.ty.bits)

/-- Copies of bit w - 1 shift in, whatever the type. -/
def execSsra (h : Hdr) (o : ScOp) (s : State) : Host.Outcome State Fault Refusal :=
  onFrag s fun i => i.scalar h o fun a b => wrap o.ty.bits (sval o.ty.bits a / (2 ^ (b % o.ty.bits) : Nat))

def execSmin (h : Hdr) (o : ScOp) (s : State) : Host.Outcome State Fault Refusal :=
  onFrag s fun i => i.scalar h o fun a b => if ival o.ty.signed o.ty.bits b < ival o.ty.signed o.ty.bits a then b else a

def execSmax (h : Hdr) (o : ScOp) (s : State) : Host.Outcome State Fault Refusal :=
  onFrag s fun i => i.scalar h o fun a b => if ival o.ty.signed o.ty.bits a < ival o.ty.signed o.ty.bits b then b else a

def execSclz (h : Hdr) (o : ScOp) (s : State) : Host.Outcome State Fault Refusal :=
  onFrag s fun i => i.scalar h o fun a _ => clz o.ty.bits a

def execSpop (h : Hdr) (o : ScOp) (s : State) : Host.Outcome State Fault Refusal :=
  onFrag s fun i => i.scalar h o fun a _ => popc o.ty.bits a

/-! ### Comparison, selection, moves -/

/-- The outcome bits of a comparison (R168). -/
def cmpBits (a b : Int) : Nat := if a < b then 1 else if a = b then 2 else 4

def execScmp (h : Hdr) (o : ScOp) (s : State) : Host.Outcome State Fault Refusal :=
  onFrag s fun i => i.uniform h <|
    let v (x : Nat) : Int := ival o.ty.signed o.ty.bits x
    i.next (i.putS h i.s o.sd (BitVec.ofNat 64 (cmpBits (v (i.scA o)) (v (i.scB o)))))

/-- The destination's old value is the condition (R169). -/
def execSsel (h : Hdr) (o : ScOp) (s : State) : Host.Outcome State Fault Refusal :=
  onFrag s fun i => i.uniform h <|
    i.next (i.putS h i.s o.sd (BitVec.ofNat 64 (if i.sreg o.sd ≠ 0 then i.scA o else i.scB o)))

def execSmov (h : Hdr) (o : ScOp) (s : State) : Host.Outcome State Fault Refusal :=
  onFrag s fun i => i.scalar h o fun a _ => a

def execSmovi (h : Hdr) (o : ScOp) (s : State) : Host.Outcome State Fault Refusal :=
  onFrag s fun i => i.uniform h <|
    i.next (i.putS h i.s o.sd (if o.ty.signed then o.imm.signExtend 64 else o.imm.zeroExtend 64))

def execSmovh (h : Hdr) (o : ScOp) (s : State) : Host.Outcome State Fault Refusal :=
  onFrag s fun i => i.uniform h <|
    i.next (i.putS h i.s o.sd (BitVec.ofNat 64 ((i.sreg o.sd).toNat % 2 ^ 32 + o.imm.toNat * 2 ^ 32)))

/-- `SLEA`: the base as 64 bits whatever the type, plus an index scaled by the element's bytes (R171). -/
def execSlea (h : Hdr) (o : ScOp) (s : State) : Host.Outcome State Fault Refusal :=
  onFrag s fun i => i.uniform h <|
    i.next (i.putS h i.s o.sd (BitVec.ofNat 64 (i.scA o + i.scB o * (o.ty.bits / 8))))

end Sys2Proof.Machine
end

