-- ==== Sys2Proof/Machine/Vector.lean ====
section
/-! DEFINITION. The `VR` and `VI` families but for special functions, `MRD` and `MWR`: integer arithmetic, comparison,
selection, moves and floating-point arithmetic (R203 to R219). -/

namespace Sys2Proof.Machine

/-- A vector instruction of one, two or three sources whose result raises no flag. -/
def Iss.vec1 (i : Iss) (h : Hdr) (o : VrOp) (f : Nat → Nat) : State :=
  i.vector h o.ty o.dst fun l => (f (i.opnd o.ty o.sa l), 0)
def Iss.vec2 (i : Iss) (h : Hdr) (o : VrOp) (f : Nat → Nat → Nat) : State :=
  i.vector h o.ty o.dst fun l => (f (i.opnd o.ty o.sa l) (i.opnd o.ty o.sb l), 0)
def Iss.vec3 (i : Iss) (h : Hdr) (o : VrOp) (f : Nat → Nat → Nat → Nat) : State :=
  i.vector h o.ty o.dst fun l => (f (i.opnd o.ty o.sa l) (i.opnd o.ty o.sb l) (i.opnd o.ty o.sc l), 0)

/-- A vector instruction of two sources whose result raises flags. -/
def Iss.vecF (i : Iss) (h : Hdr) (o : VrOp) (f : Nat → Nat → Nat × W32) : State :=
  i.vector h o.ty o.dst fun l => f (i.opnd o.ty o.sa l) (i.opnd o.ty o.sb l)

/-- A shift: the amount is a 32-bit operand in every type, of which the value mod w counts (R209). -/
def Iss.vecShift (i : Iss) (h : Hdr) (o : VrOp) (f : Nat → Nat → Nat) : State :=
  i.vector h o.ty o.dst fun l => (f (i.opnd o.ty o.sa l) (i.raw32 o.sb l % o.ty.bits), 0)

/-! ### Results of the integer family under a type (Table 8.3) -/

def addOf (t : Ty) (a b : Nat) : Nat := (a + b) % 2 ^ t.bits
def subOf (t : Ty) (a b : Nat) : Nat := (a + 2 ^ t.bits - b) % 2 ^ t.bits
def mulOf (t : Ty) (a b : Nat) : Nat := a * b % 2 ^ t.bits
def mulhOf (t : Ty) (a b : Nat) : Nat := wrap (2 * t.bits) (ival t.signed t.bits a * ival t.signed t.bits b) / 2 ^ t.bits
def madOf (t : Ty) (a b c : Nat) : Nat := (a * b + c) % 2 ^ t.bits
def minOf (t : Ty) (a b : Nat) : Nat := if ival t.signed t.bits b < ival t.signed t.bits a then b else a
def maxOf (t : Ty) (a b : Nat) : Nat := if ival t.signed t.bits a < ival t.signed t.bits b then b else a
def absOf (t : Ty) (a : Nat) : Nat := wrap t.bits (sval t.bits a).natAbs
def notOf (t : Ty) (a : Nat) : Nat := 2 ^ t.bits - 1 - a
def shlOf (t : Ty) (a n : Nat) : Nat := a * 2 ^ n % 2 ^ t.bits
def shrOf (_t : Ty) (a n : Nat) : Nat := a / 2 ^ n
def sraOf (t : Ty) (a n : Nat) : Nat := wrap t.bits (sval t.bits a / (2 ^ n : Nat))

def execVadd (h : Hdr) (o : VrOp) (s : State) : Host.Outcome State Fault Refusal :=
  onFrag s fun i => i.vec2 h o (addOf o.ty)

def execVsub (h : Hdr) (o : VrOp) (s : State) : Host.Outcome State Fault Refusal :=
  onFrag s fun i => i.vec2 h o (subOf o.ty)

def execVmul (h : Hdr) (o : VrOp) (s : State) : Host.Outcome State Fault Refusal :=
  onFrag s fun i => i.vec2 h o (mulOf o.ty)

def execVmulh (h : Hdr) (o : VrOp) (s : State) : Host.Outcome State Fault Refusal :=
  onFrag s fun i => i.vec2 h o (mulhOf o.ty)

def execVmad (h : Hdr) (o : VrOp) (s : State) : Host.Outcome State Fault Refusal :=
  onFrag s fun i => i.vec3 h o (madOf o.ty)

def execVmin (h : Hdr) (o : VrOp) (s : State) : Host.Outcome State Fault Refusal :=
  onFrag s fun i => i.vec2 h o (minOf o.ty)

def execVmax (h : Hdr) (o : VrOp) (s : State) : Host.Outcome State Fault Refusal :=
  onFrag s fun i => i.vec2 h o (maxOf o.ty)

def execVabs (h : Hdr) (o : VrOp) (s : State) : Host.Outcome State Fault Refusal :=
  onFrag s fun i => i.vec1 h o (absOf o.ty)

def execVand (h : Hdr) (o : VrOp) (s : State) : Host.Outcome State Fault Refusal :=
  onFrag s fun i => i.vec2 h o fun a b => a &&& b

def execVor (h : Hdr) (o : VrOp) (s : State) : Host.Outcome State Fault Refusal :=
  onFrag s fun i => i.vec2 h o fun a b => a ||| b

def execVxor (h : Hdr) (o : VrOp) (s : State) : Host.Outcome State Fault Refusal :=
  onFrag s fun i => i.vec2 h o fun a b => a ^^^ b

def execVnot (h : Hdr) (o : VrOp) (s : State) : Host.Outcome State Fault Refusal :=
  onFrag s fun i => i.vec1 h o (notOf o.ty)

def execVshl (h : Hdr) (o : VrOp) (s : State) : Host.Outcome State Fault Refusal :=
  onFrag s fun i => i.vecShift h o (shlOf o.ty)

def execVshr (h : Hdr) (o : VrOp) (s : State) : Host.Outcome State Fault Refusal :=
  onFrag s fun i => i.vecShift h o (shrOf o.ty)

def execVsra (h : Hdr) (o : VrOp) (s : State) : Host.Outcome State Fault Refusal :=
  onFrag s fun i => i.vecShift h o (sraOf o.ty)

def execVclz (h : Hdr) (o : VrOp) (s : State) : Host.Outcome State Fault Refusal :=
  onFrag s fun i => i.vec1 h o fun a => clz o.ty.bits a

def execVpop (h : Hdr) (o : VrOp) (s : State) : Host.Outcome State Fault Refusal :=
  onFrag s fun i => i.vec1 h o fun a => popc o.ty.bits a

def execVdiv (h : Hdr) (o : VrOp) (s : State) : Host.Outcome State Fault Refusal :=
  onFrag s fun i => i.vecF h o (divQ o.ty.signed o.ty.bits)

def execVrem (h : Hdr) (o : VrOp) (s : State) : Host.Outcome State Fault Refusal :=
  onFrag s fun i => i.vecF h o (divR o.ty.signed o.ty.bits)

/-! ### Comparison, selection and moves -/

/-- The conditions of `VCMP` (Table 8.4). -/
def intCmp (cc : Nat) (a b : Int) : Bool :=
  match cc with
  | 0 => decide (a = b)
  | 1 => decide (a ≠ b)
  | 2 => decide (a < b)
  | 3 => decide (a ≤ b)
  | 4 => decide (b < a)
  | _ => decide (b ≤ a)

def execVcmp (h : Hdr) (o : VrOp) (s : State) : Host.Outcome State Fault Refusal :=
  onFrag s fun i =>
    let v (x : Src) (l : Nat) : Int := ival o.ty.signed o.ty.bits (i.opnd o.ty x l)
    i.vectorMask h o.dst fun l => (intCmp (o.md.toNat % 16) (v o.sa l) (v o.sb l), 0)

def execVfcmp (h : Hdr) (o : VrOp) (s : State) : Host.Outcome State Fault Refusal :=
  onFrag s fun i =>
    i.vectorMask h o.dst fun l => fpCmp (fmtOf o.ty) (o.md.toNat % 16) (i.opnd o.ty o.sa l) (i.opnd o.ty o.sb l)

/-- `VSEL` by a mask, or by a nonzero third source (R214). -/
def execVsel (h : Hdr) (o : VrOp) (s : State) : Host.Outcome State Fault Refusal :=
  onFrag s fun i =>
    let takes (l : Nat) : Bool :=
      if o.md.toNat % 16 = 15 then i.opnd o.ty o.sc l != 0 else (i.mask (o.md.toNat % 16)).getLsbD l
    i.vector h o.ty o.dst fun l => (if takes l then i.opnd o.ty o.sa l else i.opnd o.ty o.sb l, 0)

def execVmov (h : Hdr) (o : VrOp) (s : State) : Host.Outcome State Fault Refusal :=
  onFrag s fun i => i.vec1 h o fun a => a

/-- `VMOVI` (R211). -/
def execVmovi (h : Hdr) (o : ViOp) (s : State) : Host.Outcome State Fault Refusal :=
  onFrag s fun i =>
    let v := if o.ty = .s64 then (o.imm.signExtend 64).toNat else o.imm.toNat % 2 ^ o.ty.bits
    i.vector h o.ty o.dst fun _ => (v, 0)

/-- `VIOTA`, by lane number or compact (R212). -/
def execViota (h : Hdr) (o : ViOp) (s : State) : Host.Outcome State Fault Refusal :=
  onFrag s fun i =>
    let place (l : Nat) : Nat := if o.md.toNat % 2 = 0 then l else popc 64 (i.active h &&& lowMask l).toNat
    i.vector h o.ty o.dst fun l => ((o.imm.toNat + place l) % 2 ^ 32, 0)

/-! ### Floating-point arithmetic (Table 8.5) -/

def execVfadd (h : Hdr) (o : VrOp) (s : State) : Host.Outcome State Fault Refusal :=
  onFrag s fun i => i.vecF h o (fpAdd (fmtOf o.ty) (i.mode o.rm none))

def execVfsub (h : Hdr) (o : VrOp) (s : State) : Host.Outcome State Fault Refusal :=
  onFrag s fun i => i.vecF h o (fpSub (fmtOf o.ty) (i.mode o.rm none))

def execVfmul (h : Hdr) (o : VrOp) (s : State) : Host.Outcome State Fault Refusal :=
  onFrag s fun i => i.vecF h o (fpMul (fmtOf o.ty) (i.mode o.rm none))

def execVfmin (h : Hdr) (o : VrOp) (s : State) : Host.Outcome State Fault Refusal :=
  onFrag s fun i => i.vecF h o (fpMinMax (fmtOf o.ty) false)

def execVfmax (h : Hdr) (o : VrOp) (s : State) : Host.Outcome State Fault Refusal :=
  onFrag s fun i => i.vecF h o (fpMinMax (fmtOf o.ty) true)

def execVfma (h : Hdr) (o : VrOp) (s : State) : Host.Outcome State Fault Refusal :=
  onFrag s fun i => i.vector h o.ty o.dst fun l =>
    fpFma (fmtOf o.ty) (i.mode o.rm none) (i.opnd o.ty o.sa l) (i.opnd o.ty o.sb l) (i.opnd o.ty o.sc l)

/-- The class is an `N32` value (R219). -/
def execVfclass (h : Hdr) (o : VrOp) (s : State) : Host.Outcome State Fault Refusal :=
  onFrag s fun i => i.vector h .n32 o.dst fun l => (fpClass (fmtOf o.ty) (i.opnd o.ty o.sa l), 0)

end Sys2Proof.Machine
end

