-- ==== Sys2Proof/Machine/Pair.lean ====
section
/-! DEFINITION. The pair word: two class-A operations that read before either writes (R150, R151, R161, R207). -/

namespace Sys2Proof.Machine

/-- The result of a half in lane `l`, as the `VR` instruction of its operation gives it, with RNE (R161, R207). -/
def Iss.halfRes (i : Iss) (x : PairHalf) (l : Nat) : Nat × W32 :=
  let t := x.ty.ty
  let a := i.opnd t x.sa l
  let b := i.opnd t x.sb l
  let d := i.opnd t (.v x.dst) l
  let n := i.raw32 x.sb l % t.bits
  match x.op with
  | .add => (addOf t a b, 0)
  | .sub => (subOf t a b, 0)
  | .mul => (mulOf t a b, 0)
  | .mad => (madOf t a b d, 0)
  | .min => (minOf t a b, 0)
  | .max => (maxOf t a b, 0)
  | .abs => (absOf t a, 0)
  | .and => (a &&& b, 0)
  | .or => (a ||| b, 0)
  | .xor => (a ^^^ b, 0)
  | .not => (notOf t a, 0)
  | .shl => (shlOf t a n, 0)
  | .shr => (shrOf t a n, 0)
  | .sra => (sraOf t a n, 0)
  | .sel => (if d ≠ 0 then a else b, 0)
  | .mov => (a, 0)
  | .fadd => fpAdd (fmtOf t) .rne a b
  | .fsub => fpSub (fmtOf t) .rne a b
  | .fmul => fpMul (fmtOf t) .rne a b
  | .fma => fpFma (fmtOf t) .rne a b d

/-- The lane results of a half in its own active set. -/
def Iss.halfLanes (i : Iss) (x : PairHalf) : List LaneRes :=
  (lanes (i.guardSet x.grd false)).map fun l => { lane := l, val := (i.halfRes x l).1, flags := (i.halfRes x l).2 }

def wbHalf (x : PairHalf) : Wb := { nwb := x.nwb, len := x.len, lat := x.lat, t := x.ty.ty, dst := x.dst }

def execPairWord (a b : PairHalf) (s : State) : Host.Outcome State Fault Refusal :=
  onFrag s fun i =>
    let ra := i.halfLanes a
    let rb := i.halfLanes b
    i.finish (i.put (i.put i.s (wbHalf a) ra) (wbHalf b) rb) (LaneRes.flagsOf ra ++ LaneRes.flagsOf rb)

end Sys2Proof.Machine
end

