-- ==== Sys2Proof/Machine/Sfu.lean ====
section
/-! DEFINITION. The special functions (R220, Table 8.7). The exact value of a function is enclosed in an interval by
fixed-point arithmetic; the error bound of the table widens it; which of the results that it then admits is delivered is
free (`Config.sfuPick`), equal for equal inputs; `F16` and `BF16` results are the `F32` result rounded. -/

namespace Sys2Proof.Machine

/-- The real numbers between `lo` * 2^`e` and `hi` * 2^`e`, the ends not among them. -/
structure Iv where
  lo : Int
  hi : Int
  e : Int
  deriving DecidableEq, Repr

/-- The scale of the fixed-point arithmetic, and ln 2 and π in it, rounded down. -/
def fxBits : Nat := 80
def fxOne : Nat := 2 ^ 80
def fxLn2 : Nat := 837963523372001241319907
def fxPi : Nat := 3797952473636338580787993

/-- `m` * 2^`e` in fixed point, rounded down. -/
def toFx (m : Nat) (e : Int) : Nat := if 0 ≤ e + 80 then m * 2 ^ (e + 80).toNat else m / 2 ^ (-(e + 80)).toNat

/-- Terms y^k / k! of a power series, from term `k` on: their alternating or plain sum in steps of `by'`. -/
def fxSeries (y : Nat) (by' : Nat) (alt : Bool) : Nat → Nat → Nat → Int
  | 0, _, _ => 0
  | f + 1, k, t =>
    let u := if by' = 1 then t * y / fxOne / (k + 1) else t * y / fxOne * y / fxOne / ((k + 1) * (k + 2))
    let rest := fxSeries y by' alt f (k + by') u
    (t : Int) + if alt then -rest else rest

/-- exp y, exp (-y), sin y and cos y for 0 ≤ y < 2, each to within 2^10 units. -/
def fxExp (y : Nat) : Int := fxSeries y 1 false 40 0 fxOne
def fxExpNeg (y : Nat) : Int := fxSeries y 1 true 40 0 fxOne
def fxSin (y : Nat) : Int := fxSeries y 2 true 24 1 y
def fxCos (y : Nat) : Int := fxSeries y 2 true 24 0 fxOne

/-- The interval of a fixed-point value whose magnitude lies below 1. -/
def fxIv (v : Int) : Iv := { lo := max (v - 2 ^ 12) (-(fxOne : Int)), hi := min (v + 2 ^ 12) fxOne, e := -80 }

/-- Bits of log2 m after the point, for 1 ≤ m < 2 held over 2^200: by repeated squaring. -/
def logBits : Nat → Nat → Nat
  | 0, _ => 0
  | f + 1, m =>
    let q := m * m / 2 ^ 200
    if 2 ^ 201 ≤ q then 2 ^ f + logBits f (q / 2) else logBits f q

/-! ### Enclosures of the functions, of a nonzero finite magnitude `m` * 2^`e` -/

def rcpIv (n : Bool) (m : Nat) (e : Int) : Iv :=
  let q : Int := (2 ^ 100 / m : Nat)
  let low := if m == 2 ^ (bitLen m - 1) then q - 1 else q
  if n then { lo := -(q + 1), hi := -low, e := -e - 100 } else { lo := low, hi := q + 1, e := -e - 100 }

/-- The magnitude with an even exponent. -/
def evenExp (m : Nat) (e : Int) : Nat × Int := if e % 2 = 0 then (m, e) else (2 * m, e - 1)

def rsqIv (m : Nat) (e : Int) : Iv :=
  let p := evenExp m e
  let q : Int := isqrt (2 ^ 160 / p.1)
  { lo := q, hi := q + 1, e := -p.2 / 2 - 80 }

/-- 2 to the power of a number of magnitude below 2^9 whose floor is `k`: from 2^`k`, which it is for an integer alone, to
2^(`k` + 1). -/
def exp2Iv (n : Bool) (m : Nat) (e k : Int) (whole : Bool) : Iv :=
  let x : Int := if n then -(toFx m e : Int) else toFx m e
  let f := (x % (fxOne : Int)).toNat
  let v : Int := fxExp (f * fxLn2 / fxOne) * if x / (fxOne : Int) = k then 1 else 2
  { lo := if whole then fxOne - 1 else max (v - 2 ^ 13) fxOne, hi := min (v + 2 ^ 13) (2 * fxOne), e := k - 80 }

def log2Iv (m : Nat) (e : Int) : Iv :=
  let b := bitLen m
  let r := logBits 64 (m * 2 ^ (201 - b))
  let v : Int := (e + b - 1) * (2 ^ 64 : Nat) + r
  { lo := v - 16, hi := v + 16, e := -64 }

/-- sin (2πx) and tanh x for x below 2^-20: less than 2πx and x by less than 2^-36 of it. -/
def smallSinIv (n : Bool) (m : Nat) (e : Int) : Iv :=
  let lo : Int := m * fxPi * (2 ^ 36 - 1)
  let hi : Int := m * (fxPi + 1) * 2 ^ 36
  if n then { lo := -hi, hi := -lo, e := e - 115 } else { lo := lo, hi := hi, e := e - 115 }

def smallTanhIv (n : Bool) (m : Nat) (e : Int) : Iv :=
  let lo : Int := m * (2 ^ 36 - 1)
  let hi : Int := m * 2 ^ 36
  if n then { lo := -hi, hi := -lo, e := e - 36 } else { lo := lo, hi := hi, e := e - 36 }

/-- A magnitude below 2^-20. -/
def isSmall (m : Nat) (e : Int) : Bool := decide (e + bitLen m ≤ -20)

/-- sin (2πx) for `c` false, cos (2πx) for `c` true: x is reduced exactly modulo 1. -/
def sinIv (c : Bool) (n : Bool) (m : Nat) (e : Int) : Iv :=
  let frac := if 0 ≤ e then 0 else (m % 2 ^ (-e).toNat)
  let t := toFx frac (e + 2)
  let quarter := t / fxOne % 4
  let y := t % fxOne * fxPi / fxOne / 2
  let v : Int :=
    match quarter, c with
    | 0, false => fxSin y | 1, false => fxCos y | 2, false => -fxSin y | _, false => -fxCos y
    | 0, true => fxCos y | 1, true => -fxSin y | 2, true => -fxCos y | _, true => fxSin y
  fxIv (if n && !c then -v else v)

def tanhIv (n : Bool) (m : Nat) (e : Int) : Iv :=
  let z := if 6 ≤ e + bitLen m then 64 * fxOne else 2 * toFx m e
  let k := z / fxLn2
  let ex : Int := fxExpNeg (z % fxLn2) / (2 ^ k : Nat)
  let one : Int := fxOne
  let v := (one - ex) * one / (one + ex)
  fxIv (if n then -v else v)

/-! ### Candidates -/

/-- Codes of a format in the order of their values: a negative code counts down from 0. -/
def Fmt.ofOrd (f : Fmt) (neg : Bool) (o : Int) : Nat := f.signed (decide (o < 0) || (o == 0 && neg)) o.natAbs

/-- The least code, in that order, not below `n` * 2^`e`; for `up` false the greatest not above. -/
def Fmt.ordAt (f : Fmt) (up : Bool) (n : Int) (e : Int) : Int :=
  if n = 0 then 0
  else
    let neg := decide (n < 0)
    let c := min (f.roundMag (if up then .ru else .rd) neg n.natAbs e).1 f.infCode
    if neg then -(c : Int) else c

/-- The order of the rounding to nearest of a code of `F32` in a format. -/
def Fmt.ordRound (f : Fmt) (o : Int) : Int :=
  let g := fmtOf .f32
  let v := g.value (g.ofOrd false o)
  let c := (f.deliver .rne v).1 % f.signBit
  if o < 0 then -(c : Int) else c

/-- The ulp of a format in an interval, as a power of two: that just below its larger end. -/
def Fmt.ulpAt (f : Fmt) (v : Iv) : Int := f.quantum (2 * max v.lo.natAbs v.hi.natAbs - 1) (v.e - 1)

/-- The orders of the codes within 2^`u` * `k` of a number between the ends of an interval. -/
def Fmt.within (f : Fmt) (v : Iv) (k : Nat) (u : Int) : Int × Int :=
  let q := min v.e u
  let at' (x : Int) : Int := x * (2 ^ (v.e - q).toNat : Nat)
  let d : Int := (k * 2 ^ (u - q).toNat : Nat)
  (f.ordAt true (2 * (at' v.lo - d) + 1) (q - 1), f.ordAt false (2 * (at' v.hi + d) - 1) (q - 1))

/-- The least number from `lo` to `hi` with a property that holds from some number on, `hi` included. -/
def leastFrom (p : Int → Bool) : Nat → Int → Int → Int
  | 0, lo, _ => lo
  | n + 1, lo, hi =>
    if hi ≤ lo then lo
    else
      let m := (lo + hi) / 2
      if p m then leastFrom p n lo m else leastFrom p n (m + 1) hi

/-- A value of `F32` is one of a narrower format. -/
def Fmt.holds (f : Fmt) (x : FVal) : Bool :=
  ((fmtOf .f32).deliver .rne (f.value (f.deliver .rne x).1)).1 == ((fmtOf .f32).deliver .rne x).1

/-- The `F32` results in `r` whose rounding to `f` lies within 1 ulp of `f` of the exact value in `v` (R220). -/
def Fmt.narrowed (f : Fmt) (v : Iv) (r : Int × Int) : Int × Int :=
  let w := f.within v 1 (f.ulpAt v)
  (leastFrom (fun o => decide (w.1 ≤ f.ordRound o)) 34 r.1 r.2, leastFrom (fun o => decide (w.2 < f.ordRound o)) 34 r.1 (r.2 + 1) - 1)

/-- The `F32` results that a function may deliver for the input `x` and an exact value in `v`: within `k` * 2^`u` of it, and,
where `F16` or `BF16` holds the input, rounding to a result of that format within 1 ulp, since their results are this one
rounded. -/
def sfuRange (x : FVal) (v : Iv) (k : Nat) (u : Int) : Int × Int :=
  [fmtOf .f16, fmtOf .bf16].foldl (fun r f => if f.holds x then f.narrowed v r else r) ((fmtOf .f32).within v k u)

/-- The result that is delivered in format `f`: the `F32` result chosen among the admitted ones, rounded to the format. -/
def sfuChoose (f : Fmt) (pick : Nat) (x : FVal) (v : Iv) (k : Nat) (u : Int) : Nat :=
  let r := sfuRange x v k u
  let o := r.1 + ((pick % ((r.2 - r.1).toNat + 1) : Nat) : Int)
  f.ofOrd (decide (v.hi < 0)) (if f = fmtOf .f32 then o else f.ordRound o)

/-! ### The functions -/

/-- An exact result: `F32` holds it, and it is rounded to the format. -/
def sfuExact (f : Fmt) (x : FVal) : Nat × W32 := f.deliver .rne x

/-- A result outside the table's exact cases, with its flags: `tiny` is judged on the exact value. It counts as inexact, as R220 puts
it, also where the result that is delivered happens to be the exact value (log 113, DESIGN CHOICE). -/
def sfuInexact (f : Fmt) (tiny : Bool) (c : Nat) : Nat × W32 :=
  (c, flNX ||| flIf tiny flUF ||| flIf (c % f.signBit == f.infCode) flOF)

/-- A magnitude is a power of two, and of four. -/
def isPow2 (m : Nat) : Bool := m == 2 ^ (bitLen m - 1)
def isPow4 (m : Nat) (e : Int) : Bool := isPow2 m && decide ((e + bitLen m - 1) % 2 = 0)

/-- A finite magnitude is an integer, after scaling by 2^`s`. -/
def isInt (m : Nat) (e s : Int) : Bool := decide (0 ≤ e + s) || m % 2 ^ (-(e + s)).toNat == 0

/-- The integer value of a finite number. -/
def intOf (n : Bool) (m : Nat) (e : Int) : Int :=
  let v : Int := if 0 ≤ e then (m * 2 ^ e.toNat : Nat) else (m / 2 ^ (-e).toNat : Nat)
  if n then -v else v

/-- The smallest normal exponent of a format. -/
def Fmt.minExp (f : Fmt) : Int := f.qmin + f.mb

/-- 1/x (also of tiny inputs: the quotient may overflow). -/
def rcpOf (f : Fmt) (pick : Nat) (n : Bool) (m : Nat) (e : Int) : Nat × W32 :=
  let k := -(e + bitLen m - 1)
  if isPow2 m && decide (-126 ≤ k) && decide (k ≤ 127) then sfuExact f (.fin n 1 k)
  else
    let v := rcpIv n m e
    sfuInexact f (f.tiny (v.lo.natAbs + 1) v.e) (sfuChoose f pick (.fin n m e) v 1 ((fmtOf .f32).ulpAt v))

def rsqOf (f : Fmt) (pick : Nat) (m : Nat) (e : Int) : Nat × W32 :=
  if isPow4 m e then sfuExact f (.fin false 1 (-(e + bitLen m - 1) / 2))
  else
    let v := rsqIv m e
    sfuInexact f false (sfuChoose f pick (.fin false m e) v 1 ((fmtOf .f32).ulpAt v))

/-- The square root is correctly rounded. -/
def sqrtOf (f : Fmt) (m : Nat) (e : Int) : Nat × W32 :=
  let p := evenExp m e
  let s := isqrt (p.1 * 2 ^ 100)
  f.deliver .rne (.fin false (2 * s + (if s * s = p.1 * 2 ^ 100 then 0 else 1)) (p.2 / 2 - 51))

def exp2Of (f : Fmt) (pick : Nat) (n : Bool) (m : Nat) (e : Int) : Nat × W32 :=
  let i := intOf n m e
  let whole := isInt m e 0
  if 8 ≤ e + bitLen m && !n || (!n && decide (128 ≤ i)) then (f.infCode, flOF ||| flNX)
  else if n && (decide (9 ≤ e + bitLen m) || decide (i < -150) || (decide (i = -150) && !whole)) then (0, flUF ||| flNX)
  else if whole && decide (-126 ≤ i) then sfuExact f (.pow2 i)
  else
    let below := if n then i - (if whole then 0 else 1) else i
    let v := exp2Iv n m e below whole
    sfuInexact f (decide (below < f.minExp)) (sfuChoose f pick (.fin n m e) v 2 ((fmtOf .f32).ulpAt v))

/-- 1/2 ≤ x ≤ 2, where the bound on the logarithm is absolute. -/
def nearOne (m : Nat) (e : Int) : Bool :=
  let b := e + bitLen m - 1
  decide (b = -1) || decide (b = 0) || (decide (b = 1) && isPow2 m)

def log2Of (f : Fmt) (pick : Nat) (m : Nat) (e : Int) : Nat × W32 :=
  if isPow2 m then sfuExact f (.ofInt (e + bitLen m - 1))
  else
    let v := log2Iv m e
    sfuInexact f false (if nearOne m e then sfuChoose f pick (.fin false m e) v 1 (-22) else sfuChoose f pick (.fin false m e) v 2 ((fmtOf .f32).ulpAt v))

/-- sin (2πx) and cos (2πx); where 4x is an integer the result is exact. -/
def sinOf (f : Fmt) (pick : Nat) (c n : Bool) (m : Nat) (e : Int) : Nat × W32 :=
  if isInt m e 2 then
    let q := (intOf n m (e + 2) + (if c then 1 else 0)) % 4
    (f.deliver .rne (.ofInt (if q = 1 then 1 else if q = 3 then -1 else 0)))
  else
    let v := if isSmall m e && !c then smallSinIv n m e else sinIv c n m e
    sfuInexact f (!c && f.tiny (max v.lo.natAbs v.hi.natAbs) v.e) (sfuChoose f pick (.fin n m e) v 1 (-21))

def tanhOf (f : Fmt) (pick : Nat) (n : Bool) (m : Nat) (e : Int) : Nat × W32 :=
  let v := if isSmall m e then smallTanhIv n m e else tanhIv n m e
  let tiny := decide (e + bitLen m - 1 < f.minExp) || (decide (e + bitLen m - 1 = f.minExp) && isPow2 m)
  sfuInexact f tiny (sfuChoose f pick (.fin n m e) v 2 (max (-23) ((fmtOf .f32).ulpAt v)))

/-- A special function by its opcode (48 to 55) on a value (Table 8.7). -/
def sfuOf (f : Fmt) (opc pick : Nat) (x : FVal) : Nat × W32 :=
  let inf (n : Bool) (fl : W32) : Nat × W32 := (f.signed n f.infCode, fl)
  let zero (n : Bool) : Nat × W32 := (f.signed n 0, 0)
  let nv : Nat × W32 := (f.nanCode, flNV)
  match opc, x with
  | _, .nan s => (f.nanCode, flIf s flNV)
  | 48, .inf n => zero n
  | 48, .fin n m e => if m = 0 then inf n flDZ else rcpOf f pick n m e
  | 49, .inf n => if n then nv else zero false
  | 49, .fin n m e => if m = 0 then inf n flDZ else if n then nv else rsqOf f pick m e
  | 50, .inf n => if n then nv else inf false 0
  | 50, .fin n m e => if m = 0 then zero n else if n then nv else sqrtOf f m e
  | 51, .inf n => if n then zero false else inf false 0
  | 51, .fin n m e => if m = 0 then sfuExact f (.pow2 0) else exp2Of f pick n m e
  | 52, .inf n => if n then nv else inf false 0
  | 52, .fin n m e => if m = 0 then inf true flDZ else if n then nv else log2Of f pick m e
  | 53, .inf _ => nv
  | 53, .fin n m e => if m = 0 then zero n else sinOf f pick false n m e
  | 54, .inf _ => nv
  | 54, .fin n m e => if m = 0 then sfuExact f (.pow2 0) else sinOf f pick true n m e
  | _, .inf n => sfuExact f (.fin n 1 0)
  | _, .fin n m e => if m = 0 then zero n else tanhOf f pick n m e

/-- What is delivered for an operand of a type: the choice depends on the function and the input alone. -/
def sfuEval (t : Ty) (opc c : Nat) : Nat × W32 :=
  let x := (fmtOf t).value c
  let code := BitVec.ofNat 32 ((fmtOf .f32).deliver .rne x).1
  sfuOf (fmtOf t) opc (Config.sfuPick opc code) x

/-- A special function in each active lane. -/
def Iss.sfu (i : Iss) (h : Hdr) (o : VrOp) (opc : Nat) : State :=
  i.vector h o.ty o.dst fun l => sfuEval o.ty opc (i.opnd o.ty o.sa l)

def execVrcp (h : Hdr) (o : VrOp) (s : State) : Host.Outcome State Fault Refusal := onFrag s fun i => i.sfu h o 48
def execVrsq (h : Hdr) (o : VrOp) (s : State) : Host.Outcome State Fault Refusal := onFrag s fun i => i.sfu h o 49
def execVsqrt (h : Hdr) (o : VrOp) (s : State) : Host.Outcome State Fault Refusal := onFrag s fun i => i.sfu h o 50
def execVexp2 (h : Hdr) (o : VrOp) (s : State) : Host.Outcome State Fault Refusal := onFrag s fun i => i.sfu h o 51
def execVlog2 (h : Hdr) (o : VrOp) (s : State) : Host.Outcome State Fault Refusal := onFrag s fun i => i.sfu h o 52
def execVsin (h : Hdr) (o : VrOp) (s : State) : Host.Outcome State Fault Refusal := onFrag s fun i => i.sfu h o 53
def execVcos (h : Hdr) (o : VrOp) (s : State) : Host.Outcome State Fault Refusal := onFrag s fun i => i.sfu h o 54
def execVtanh (h : Hdr) (o : VrOp) (s : State) : Host.Outcome State Fault Refusal := onFrag s fun i => i.sfu h o 55

end Sys2Proof.Machine
end

