-- ==== Sys2Proof/Machine/Dispatch.lean ====
section
/-! DEFINITION. The meaning of every instruction: one arm for each constructor of `Instr`. -/

namespace Sys2Proof.Machine

def exec (i : Instr) (s : State) : Host.Outcome State Fault Refusal :=
  match i with
  | .nop => Sys2Proof.Machine.execNop s
  | .trap h o => Sys2Proof.Machine.execTrap h o s
  | .dcall h o => Sys2Proof.Machine.execDcall h o s
  | .rdsr h o => Sys2Proof.Machine.execRdsr h o s
  | .wrsr h o => Sys2Proof.Machine.execWrsr h o s
  | .launch h o => Sys2Proof.Machine.execLaunch h o s
  | .leaseReq h o => Sys2Proof.Machine.execLeaseReq h o s
  | .leaseRet h o => Sys2Proof.Machine.execLeaseRet h o s
  | .mark h o => Sys2Proof.Machine.execMark h o s
  | .curve h o => Sys2Proof.Machine.execCurve h o s
  | .ckpt h o => Sys2Proof.Machine.execCkpt h o s
  | .sadd h o => Sys2Proof.Machine.execSadd h o s
  | .ssub h o => Sys2Proof.Machine.execSsub h o s
  | .smul h o => Sys2Proof.Machine.execSmul h o s
  | .smulh h o => Sys2Proof.Machine.execSmulh h o s
  | .sdiv h o => Sys2Proof.Machine.execSdiv h o s
  | .srem h o => Sys2Proof.Machine.execSrem h o s
  | .sand h o => Sys2Proof.Machine.execSand h o s
  | .sor h o => Sys2Proof.Machine.execSor h o s
  | .sxor h o => Sys2Proof.Machine.execSxor h o s
  | .sshl h o => Sys2Proof.Machine.execSshl h o s
  | .sshr h o => Sys2Proof.Machine.execSshr h o s
  | .ssra h o => Sys2Proof.Machine.execSsra h o s
  | .smin h o => Sys2Proof.Machine.execSmin h o s
  | .smax h o => Sys2Proof.Machine.execSmax h o s
  | .sclz h o => Sys2Proof.Machine.execSclz h o s
  | .spop h o => Sys2Proof.Machine.execSpop h o s
  | .scmp h o => Sys2Proof.Machine.execScmp h o s
  | .ssel h o => Sys2Proof.Machine.execSsel h o s
  | .smov h o => Sys2Proof.Machine.execSmov h o s
  | .smovi h o => Sys2Proof.Machine.execSmovi h o s
  | .smovh h o => Sys2Proof.Machine.execSmovh h o s
  | .slea h o => Sys2Proof.Machine.execSlea h o s
  | .mwin h o => Sys2Proof.Machine.execMwin h o s
  | .mand h o => Sys2Proof.Machine.execMand h o s
  | .mor h o => Sys2Proof.Machine.execMor h o s
  | .mxor h o => Sys2Proof.Machine.execMxor h o s
  | .mandn h o => Sys2Proof.Machine.execMandn h o s
  | .mnot h o => Sys2Proof.Machine.execMnot h o s
  | .mmov h o => Sys2Proof.Machine.execMmov h o s
  | .mpop h o => Sys2Proof.Machine.execMpop h o s
  | .mffs h o => Sys2Proof.Machine.execMffs h o s
  | .mfroms h o => Sys2Proof.Machine.execMfroms h o s
  | .mtos h o => Sys2Proof.Machine.execMtos h o s
  | .bra h o => Sys2Proof.Machine.execBra h o s
  | .brm h o => Sys2Proof.Machine.execBrm h o s
  | .split h o => Sys2Proof.Machine.execSplit h o s
  | .join h o => Sys2Proof.Machine.execJoin h o s
  | .brx h o => Sys2Proof.Machine.execBrx h o s
  | .call h o => Sys2Proof.Machine.execCall h o s
  | .callx h o => Sys2Proof.Machine.execCallx h o s
  | .exit h o => Sys2Proof.Machine.execExit h o s
  | .ret h o => Sys2Proof.Machine.execRet h o s
  | .loopd h o => Sys2Proof.Machine.execLoopd h o s
  | .bara h o => Sys2Proof.Machine.execBara h o s
  | .barw h o => Sys2Proof.Machine.execBarw h o s
  | .bars h o => Sys2Proof.Machine.execBars h o s
  | .bart h o => Sys2Proof.Machine.execBart h o s
  | .fsync h o => Sys2Proof.Machine.execFsync h o s
  | .yield h o => Sys2Proof.Machine.execYield h o s
  | .fence h o => Sys2Proof.Machine.execFence h o s
  | .fenceSc h o => Sys2Proof.Machine.execFenceSc h o s
  | .tagw h o => Sys2Proof.Machine.execTagw h o s
  | .tagff h o => Sys2Proof.Machine.execTagff h o s
  | .tagrel h o => Sys2Proof.Machine.execTagrel h o s
  | .tokw h o => Sys2Proof.Machine.execTokw h o s
  | .vadd h o => Sys2Proof.Machine.execVadd h o s
  | .vsub h o => Sys2Proof.Machine.execVsub h o s
  | .vmul h o => Sys2Proof.Machine.execVmul h o s
  | .vmulh h o => Sys2Proof.Machine.execVmulh h o s
  | .vmad h o => Sys2Proof.Machine.execVmad h o s
  | .vmin h o => Sys2Proof.Machine.execVmin h o s
  | .vmax h o => Sys2Proof.Machine.execVmax h o s
  | .vabs h o => Sys2Proof.Machine.execVabs h o s
  | .vand h o => Sys2Proof.Machine.execVand h o s
  | .vor h o => Sys2Proof.Machine.execVor h o s
  | .vxor h o => Sys2Proof.Machine.execVxor h o s
  | .vnot h o => Sys2Proof.Machine.execVnot h o s
  | .vshl h o => Sys2Proof.Machine.execVshl h o s
  | .vshr h o => Sys2Proof.Machine.execVshr h o s
  | .vsra h o => Sys2Proof.Machine.execVsra h o s
  | .vclz h o => Sys2Proof.Machine.execVclz h o s
  | .vpop h o => Sys2Proof.Machine.execVpop h o s
  | .vdiv h o => Sys2Proof.Machine.execVdiv h o s
  | .vrem h o => Sys2Proof.Machine.execVrem h o s
  | .vcmp h o => Sys2Proof.Machine.execVcmp h o s
  | .vsel h o => Sys2Proof.Machine.execVsel h o s
  | .vmov h o => Sys2Proof.Machine.execVmov h o s
  | .vfadd h o => Sys2Proof.Machine.execVfadd h o s
  | .vfsub h o => Sys2Proof.Machine.execVfsub h o s
  | .vfmul h o => Sys2Proof.Machine.execVfmul h o s
  | .vfmin h o => Sys2Proof.Machine.execVfmin h o s
  | .vfmax h o => Sys2Proof.Machine.execVfmax h o s
  | .vfma h o => Sys2Proof.Machine.execVfma h o s
  | .vfcmp h o => Sys2Proof.Machine.execVfcmp h o s
  | .vfclass h o => Sys2Proof.Machine.execVfclass h o s
  | .vrcp h o => Sys2Proof.Machine.execVrcp h o s
  | .vrsq h o => Sys2Proof.Machine.execVrsq h o s
  | .vsqrt h o => Sys2Proof.Machine.execVsqrt h o s
  | .vexp2 h o => Sys2Proof.Machine.execVexp2 h o s
  | .vlog2 h o => Sys2Proof.Machine.execVlog2 h o s
  | .vsin h o => Sys2Proof.Machine.execVsin h o s
  | .vcos h o => Sys2Proof.Machine.execVcos h o s
  | .vtanh h o => Sys2Proof.Machine.execVtanh h o s
  | .mrd h o => Sys2Proof.Machine.execMrd h o s
  | .mwr h o => Sys2Proof.Machine.execMwr h o s
  | .vmovi h o => Sys2Proof.Machine.execVmovi h o s
  | .viota h o => Sys2Proof.Machine.execViota h o s
  | .vcvt h o => Sys2Proof.Machine.execVcvt h o s
  | .vqnt h o => Sys2Proof.Machine.execVqnt h o s
  | .vexpd h o => Sys2Proof.Machine.execVexpd h o s
  | .vbpk h o => Sys2Proof.Machine.execVbpk h o s
  | .vbunpk h o => Sys2Proof.Machine.execVbunpk h o s
  | .amaxrd h o => Sys2Proof.Machine.execAmaxrd h o s
  | .vshuf h o => Sys2Proof.Machine.execVshuf h o s
  | .vrot h o => Sys2Proof.Machine.execVrot h o s
  | .vbcst h o => Sys2Proof.Machine.execVbcst h o s
  | .vvote h o => Sys2Proof.Machine.execVvote h o s
  | .vred h o => Sys2Proof.Machine.execVred h o s
  | .vscan h o => Sys2Proof.Machine.execVscan h o s
  | .vld h o => Sys2Proof.Machine.execVld h o s
  | .vst h o => Sys2Proof.Machine.execVst h o s
  | .sld h o => Sys2Proof.Machine.execSld h o s
  | .sst h o => Sys2Proof.Machine.execSst h o s
  | .vldw h o => Sys2Proof.Machine.execVldw h o s
  | .vstw h o => Sys2Proof.Machine.execVstw h o s
  | .pref h o => Sys2Proof.Machine.execPref h o s
  | .atom h o => Sys2Proof.Machine.execAtom h o s
  | .red h o => Sys2Proof.Machine.execRed h o s
  | .waita h o => Sys2Proof.Machine.execWaita h o s
  | .cpy h o => Sys2Proof.Machine.execCpy h o s
  | .cpym h o => Sys2Proof.Machine.execCpym h o s
  | .gath h o => Sys2Proof.Machine.execGath h o s
  | .coll h o => Sys2Proof.Machine.execColl h o s
  | .tidw h o => Sys2Proof.Machine.execTidw h o s
  | .tidr h o => Sys2Proof.Machine.execTidr h o s
  | .pairWord a b => Sys2Proof.Machine.execPairWord a b s
  | .mzero o => Sys2Proof.Machine.execMzero o s
  | .mma o => Sys2Proof.Machine.execMma o s
  | .mmax o => Sys2Proof.Machine.execMmax o s
  | .mst o => Sys2Proof.Machine.execMst o s
  | .mscale o => Sys2Proof.Machine.execMscale o s
  | .mbias o => Sys2Proof.Machine.execMbias o s
  | .marr o => Sys2Proof.Machine.execMarr o s
  | .mwaitb o => Sys2Proof.Machine.execMwaitb o s
  | .mloop o => Sys2Proof.Machine.execMloop o s
  | .mprog o => Sys2Proof.Machine.execMprog o s
  | .mend o => Sys2Proof.Machine.execMend o s
  | .curveMoveEnd fold => Sys2Proof.Machine.execCurveMoveEnd fold s
  | .curveTimeout cl => Sys2Proof.Machine.execCurveTimeout cl s
  | .barrierTimeout fold fl fr => Sys2Proof.Machine.execBarrierTimeout fold fl fr s
  | .heartbeatTick dom => Sys2Proof.Machine.execHeartbeatTick dom s
  | .tagwTimeout fold fl fr => Sys2Proof.Machine.execTagwTimeout fold fl fr s
  | .loadLands fold item thread => Sys2Proof.Machine.execLoadLands fold item thread s
  | .storePerformed idx => Sys2Proof.Machine.execStorePerformed idx s
  | .waitaWake fold fl fr => Sys2Proof.Machine.execWaitaWake fold fl fr s
  | .watchPoll fold fl fr => Sys2Proof.Machine.execWatchPoll fold fl fr s
  | .waitaTimeout fold fl fr => Sys2Proof.Machine.execWaitaTimeout fold fl fr s
  | .cpymHoldRelease fold fl fr => Sys2Proof.Machine.execCpymHoldRelease fold fl fr s
  | .jobChunk card inp => Sys2Proof.Machine.execJobChunk card inp s
  | .jobComplete card => Sys2Proof.Machine.execJobComplete card s
  | .arrayOpComplete fold => Sys2Proof.Machine.execArrayOpComplete fold s
  | .foldStart fold => Sys2Proof.Machine.execFoldStart fold s
  | .foldEnd fold => Sys2Proof.Machine.execFoldEnd fold s
  | .dispatcherCycle => Sys2Proof.Machine.execDispatcherCycle s
  | .agePoint grid => Sys2Proof.Machine.execAgePoint grid s
  | .clusterMapRotation die => Sys2Proof.Machine.execClusterMapRotation die s
  | .writeIndexWake q => Sys2Proof.Machine.execWriteIndexWake q s
  | .packetNop q => Sys2Proof.Machine.execPacketNop q s
  | .packetLaunch q => Sys2Proof.Machine.execPacketLaunch q s
  | .launchc q => Sys2Proof.Machine.execLaunchc q s
  | .fetchfence q => Sys2Proof.Machine.execFetchfence q s
  | .waitmem q => Sys2Proof.Machine.execWaitmem q s
  | .waitmemTimeout q => Sys2Proof.Machine.execWaitmemTimeout q s
  | .signal q => Sys2Proof.Machine.execSignal q s
  | .stamp q => Sys2Proof.Machine.execStamp q s
  | .contextTeardown ctx => Sys2Proof.Machine.execContextTeardown ctx s
  | .preqPreempt core slot => Sys2Proof.Machine.execPreqPreempt core slot s
  | .preqKill core slot => Sys2Proof.Machine.execPreqKill core slot s
  | .preqCtxall core ctx kill => Sys2Proof.Machine.execPreqCtxall core ctx kill s
  | .foldStopped fold => Sys2Proof.Machine.execFoldStopped fold s
  | .saveComplete fold => Sys2Proof.Machine.execSaveComplete fold s
  | .fltackResume core sq => Sys2Proof.Machine.execFltackResume core sq s
  | .fltackKill core sq => Sys2Proof.Machine.execFltackKill core sq s
  | .faultRecordService ctx => Sys2Proof.Machine.execFaultRecordService ctx s
  | .migreq core v => Sys2Proof.Machine.execMigreq core v s
  | .migrationTransferDone fold => Sys2Proof.Machine.execMigrationTransferDone fold s
  | .migrationSample die => Sys2Proof.Machine.execMigrationSample die s
  | .tileclr core hi => Sys2Proof.Machine.execTileclr core hi s
  | .writeQueueDescriptor q addr => Sys2Proof.Machine.execWriteQueueDescriptor q addr s
  | .writeContextDescriptor ctx d => Sys2Proof.Machine.execWriteContextDescriptor ctx d s
  | .shootdown ctx va len => Sys2Proof.Machine.execShootdown ctx va len s
  | .preEmptOrKill core v => Sys2Proof.Machine.execPreEmptOrKill core v s
  | .resumeSavedFold ctx pidx => Sys2Proof.Machine.execResumeSavedFold ctx pidx s
  | .writeCoreControl core off v => Sys2Proof.Machine.execWriteCoreControl core off v s
  | .readCoreControl core off => Sys2Proof.Machine.execReadCoreControl core off s
  | .readViolationLog die idx => Sys2Proof.Machine.execReadViolationLog die idx s
  | .pstateTargetWrite bmc die v => Sys2Proof.Machine.execPstateTargetWrite bmc die v s
  | .pstateTransitionDone die => Sys2Proof.Machine.execPstateTransitionDone die s
  | .sensorRetest v => Sys2Proof.Machine.execSensorRetest v s
  | .registerWrite bmc off v => Sys2Proof.Machine.execRegisterWrite bmc off v s
  | .arbiterPeriod demand pavg => Sys2Proof.Machine.execArbiterPeriod demand pavg s
  | .leaseExpiry fold => Sys2Proof.Machine.execLeaseExpiry fold s
  | .leaderLeaseRenew die => Sys2Proof.Machine.execLeaderLeaseRenew die s
  | .leaderLeaseLapse => Sys2Proof.Machine.execLeaderLeaseLapse s
  | .leaderClaim die => Sys2Proof.Machine.execLeaderClaim die s
  | .failsafeEntry die => Sys2Proof.Machine.execFailsafeEntry die s
  | .vaultHot cl => Sys2Proof.Machine.execVaultHot cl s
  | .vaultCool die => Sys2Proof.Machine.execVaultCool die s
  | .sensorTest obs => Sys2Proof.Machine.execSensorTest obs s
  | .replicaLockTimeout fold fl fr => Sys2Proof.Machine.execReplicaLockTimeout fold fl fr s
  | .remoteTimeout fold fl fr => Sys2Proof.Machine.execRemoteTimeout fold fl fr s
  | .peerRequest r => Sys2Proof.Machine.execPeerRequest r s
  | .hostAccess r => Sys2Proof.Machine.execHostAccess r s
  | .patrolScrub spot err => Sys2Proof.Machine.execPatrolScrub spot err s
  | .reset pass => Sys2Proof.Machine.execReset pass s
  | .rcvgo v => Sys2Proof.Machine.execRcvgo v s
  | .getVersion => Sys2Proof.Machine.execGetVersion s
  | .getCapabilities => Sys2Proof.Machine.execGetCapabilities s
  | .negotiateAlgorithms => Sys2Proof.Machine.execNegotiateAlgorithms s
  | .getCertificate => Sys2Proof.Machine.execGetCertificate s
  | .getMeasurements idx => Sys2Proof.Machine.execGetMeasurements idx s
  | .keySlotLoad slot key => Sys2Proof.Machine.execKeySlotLoad slot key s
  | .keySlotClear slot => Sys2Proof.Machine.execKeySlotClear slot s
  | .backgroundSweepDone => Sys2Proof.Machine.execBackgroundSweepDone s
  | .firmwareCoreAnswer fold fl fr => Sys2Proof.Machine.execFirmwareCoreAnswer fold fl fr s
  | .commandProcessorCopyHeld fold fl fr => Sys2Proof.Machine.execCommandProcessorCopyHeld fold fl fr s
  | .settlingAndRelockEnd cl => Sys2Proof.Machine.execSettlingAndRelockEnd cl s
  | .domainFenceScDelay fold fl fr => Sys2Proof.Machine.execDomainFenceScDelay fold fl fr s
  | .spdmSessionOpen => Sys2Proof.Machine.execSpdmSessionOpen s
  | .spdmSessionEnd => Sys2Proof.Machine.execSpdmSessionEnd s
  | .recoveryWindowWrite off b => Sys2Proof.Machine.execRecoveryWindowWrite off b s
  | .linkError unit die addr port corrected => Sys2Proof.Machine.execLinkError unit die addr port corrected s
  | .peerAccessTableWrite n en key => Sys2Proof.Machine.execPeerAccessTableWrite n en key s

end Sys2Proof.Machine
end

