-- ==== Sys2Proof/Machine/Step.lean ====
section
/-! DEFINITION. One step of the package: the next turn is taken, from the agenda where it names one, else as the world
chooses (log 1). -/

namespace Sys2Proof.Machine

/-- One turn. An event's turn runs its row; an instruction word runs only as the issue of a fragment or a stream. -/
def State.turn (s : State) (t : Turn) : Host.Outcome State Fault Refusal :=
  match t with
  | .issue u l r =>
    match s.prepFrag u l r with
    | .stay s' => .next s'
    | .run i s' => exec i s'
  | .stream u =>
    match s.prepStream u with
    | .stay s' => .next s'
    | .run i s' => exec i s'
  | .array u => .next (s.arrayStep u)
  | .early u va => .next (s.earlyRead u va)
  | .event i => if i.hasWord then .next s else exec i { s with cur := none }

/-- The next turn, and the state without it. -/
def State.nextTurn (s : State) : Turn × State :=
  match s.agenda with
  | t :: r => (t, { s with agenda := r })
  | [] => (Config.world s.draws, { s with draws := s.draws + 1 })

/-- One step of the machine: fragments that have yielded take their places (R193), and then one turn is taken. -/
def step (s : State) : Host.Outcome State Fault Refusal :=
  let b := s.seatYielders
  b.nextTurn.2.turn b.nextTurn.1

/-- `s` with an instruction of `nbits` bits placed so that the next step fetches and runs it (log 4). -/
def State.withFetchWord (s : State) (nbits w : Nat) : State := s.placeWord nbits w

end Sys2Proof.Machine
end

