-- ==== Sys2Proof/Safety.lean ====
section
/-! DEFINITION. What counts as a safe state of the package, and the relations between states in which the claims say what an
instruction does and what it leaves alone. -/

namespace Sys2Proof

open Sys2Proof.Machine

/-- Memory has its canonical form: addresses rise strictly, and no listed byte is what an unlisted one reads as. -/
def MemoryCanonical (s : State) : Prop := Memory.wf s.mem = true

/-- A step answers a next state. -/
def Steps (s : State) : Prop := ∃ t, step s = .next t

/-! ### The frame of a flock's instruction -/

/-- What an instruction of a flock writes: in its fold but for the flocks, in its flock but for the fragments, and in its
own fragment but for its place. -/
structure Effect where
  fold : Fold → Fold := id
  flock : Flock → Flock := id
  frag : Frag → Frag := id

/-- The fragment goes on at the next slot (R136). -/
def toNext (i : Iss) (g : Frag) : Frag := { g with pc := i.g.pc + 1, arriving := false, park := .ready }

/-- The fragment goes on at `pc`, whose landing slot is checked (R135). -/
def toPc (pc : Pc) (g : Frag) : Frag := { g with pc := pc, arriving := true, buf := none, park := .ready }

/-- The fragment waits on its instruction (R29). -/
def toPark (p : Park) (g : Frag) : Frag := { g with park := p }

/-- `t` is `b` after the issuing fragment of `i` has done what `e` says and moved as `move` says. Outside the folds `t` is
`b`; the other folds are those of `b`; the fold of `i`, but for its flocks, is what `e` makes of it; its other flocks
are as they were; the flock of `i`, as its fold held it (`was`), but for its fragments and splits, is what `e` makes of it; and where the flock has no
split outstanding, so that no join can be reached, its other fragments are as they were and its own is what `e` and
`move` make of it. -/
structure Ends (i : Iss) (b t : State) (e : Effect) (move : Frag → Frag) : Prop where
  rest : t = { b with folds := t.folds }
  others : ∀ v, v ≠ i.x.uid → t.fold? v = b.fold? v
  mine : ∃ y was k, t.fold? i.x.uid = some y ∧ { y with flocks := i.x.flocks } = e.fold i.x ∧
    (∀ m, m ≠ i.fl → y.flocks[m]? = i.x.flocks[m]?) ∧ i.x.flocks[i.fl]? = some was ∧ y.flocks[i.fl]? = some k ∧
    { k with frags := was.frags, splits := was.splits } = e.flock was ∧
    (was.splits = [] →
      k.splits = [] ∧ k.frags = was.frags.map fun f => if f.fid = i.g.fid then move (e.frag f) else f)

/-- The instruction has done what `e` says and nothing else, and its fragment goes on at the next slot. -/
def Done (i : Iss) (t : State) (e : Effect) : Prop := Ends i i.s t e (toNext i)

/-- The instruction `w` of the issuing fragment answers a next state in which it has done what `e` says and nothing else. -/
def Does (i : Iss) (w : Instr) (e : Effect) : Prop := ∃ t, exec w i.s = .next t ∧ Done i t e

/-! ### When a flock-uniform instruction executes, and when no trap is taken -/

/-- A flock-uniform instruction executes: unguarded, or with an active set that is not empty (R164). -/
def Runs (i : Iss) (h : Hdr) : Prop := h.grd = 15 ∨ i.active h ≠ 0

/-- No flag that the lanes of `l` raise has its trap enabled: `TEN` is bits 14 to 8 of `SR.FPCTL` (R68). -/
def NoTrap (i : Iss) (l : List (Nat × W32)) : Prop :=
  ∀ p ∈ l, ∀ b < 7, p.2.getLsbD b = true → i.x.fpctl.getLsbD (8 + b) = false

/-! ### Results as bit vectors -/

/-- A result of `w` bits in a scalar register: sign-extended for a signed type, else zero-extended (R65). -/
def extended (t : Ty) {w : Nat} (r : BitVec w) : W64 := if t.signed then r.signExtend 64 else r.zeroExtend 64

/-- The second source of an `SC` word (R144). -/
def scalarSecond (i : Iss) (o : ScOp) : W64 := if o.immsel then o.imm.signExtend 64 else i.sval64 o.sb

/-- A write of `v` to the destination of an `SC` word, unless `NWB` suppresses it. -/
def scalarWrite (h : Hdr) (sd : BitVec 7) (v : W64) : Effect := { flock := fun k => if h.nwb then k else k.setS sd.toNat v }

/-- The write of an `SC` word that computes `f`, at the width of its type, of its two sources (R166). -/
def scalarEffect (i : Iss) (h : Hdr) (o : ScOp) (f : (w : Nat) → BitVec w → BitVec w → BitVec w) : Effect :=
  scalarWrite h o.sd
    (if o.ty.bits = 64 then f 64 (i.sval64 o.sa) (scalarSecond i o)
     else extended o.ty (f 32 ((i.sval64 o.sa).setWidth 32) ((scalarSecond i o).setWidth 32)))

/-- `a < b` under a type: signed types compare as signed, all others as unsigned. -/
def lessThan (t : Ty) {w : Nat} (a b : BitVec w) : Bool := if t.signed then a.slt b else a.ult b

/-- The high half of the double-width product. -/
def highProduct (t : Ty) {w : Nat} (a b : BitVec w) : BitVec w :=
  if t.signed then ((a.signExtend (2 * w) * b.signExtend (2 * w)) >>> w).setWidth w
  else ((a.setWidth (2 * w) * b.setWidth (2 * w)) >>> w).setWidth w

/-- The quotient and the flag of Table 1.7. -/
def quotient (t : Ty) {w : Nat} (a b : BitVec w) : BitVec w × W32 :=
  if b = 0 then ((if t.signed then (if a.msb then BitVec.intMin w else BitVec.intMax w) else BitVec.allOnes w), flDZ)
  else if t.signed then (if a = BitVec.intMin w ∧ b = BitVec.allOnes w then (a, flOV) else (a.sdiv b, 0))
  else (a / b, 0)

/-- The remainder and the flag of Table 1.7. -/
def remainder (t : Ty) {w : Nat} (a b : BitVec w) : BitVec w × W32 :=
  if b = 0 then (a, flDZ)
  else if t.signed then (if a = BitVec.intMin w ∧ b = BitVec.allOnes w then (0, flOV) else (a.srem b, 0))
  else (a % b, 0)

/-! ### Results of lanes -/

/-- Flags set in the lanes of `l`, each in its own (R40, R67). -/
def raiseFlags (i : Iss) (l : List (Nat × W32)) (x : Fold) : Fold := l.foldl (fun y p => y.orFlags (i.thread p.1) p.2) x

/-- The operand that a source gives lane `l` under a type, as bits. -/
def operand (i : Iss) (t : Ty) (x : Src) (l : Nat) : BitVec t.bits := BitVec.ofNat t.bits (i.opnd t x l)

/-- What a write-back does with the results of lanes: each goes to the register of its lane unless `NWB` suppresses it,
sets its flags, and goes to the latch if `LEN` asks for it (R139, R147). -/
def laneEffect (i : Iss) (b : Wb) (res : List LaneRes) : Effect :=
  { fold := fun x => res.foldl (fun y r =>
      (if b.nwb then y else y.putV b.t b.dst.toNat (i.thread r.lane) r.val).orFlags (i.thread r.lane) r.flags) x,
    flock := fun k => if b.len then k.putLatch i.w b.lat b.t res else k }

/-- The results of the active lanes, each computed from what the registers hold when the instruction issues. -/
def laneResults (i : Iss) (h : Hdr) (f : Nat → Nat × W32) : List LaneRes :=
  (lanes (i.active h)).map fun l => { lane := l, val := (f l).1, flags := (f l).2 }

/-- `w`, a vector instruction of type `t` with destination `d`, completes with the results `f` of its active lanes,
where no trap is enabled for a flag that they raise. -/
def VectorDoes (i : Iss) (w : Instr) (h : Hdr) (t : Ty) (d : BitVec 8) (f : Nat → Nat × W32) : Prop :=
  NoTrap i (LaneRes.flagsOf (laneResults i h f)) → Does i w (laneEffect i (wbOf h t d) (laneResults i h f))

/-- The same for results of the type's width that raise no flag; no trap can then be taken. -/
def VectorGives (i : Iss) (w : Instr) (h : Hdr) (t : Ty) (d : BitVec 8) (f : Nat → BitVec t.bits) : Prop :=
  Does i w (laneEffect i (wbOf h t d) (laneResults i h fun l => ((f l).toNat, 0)))

/-- A write of `v` to mask `n`: bits at and above the flock width are cleared, and `exec`, mask 15, keeps to the members
of the fragment (R27, R172). -/
def maskWrite (i : Iss) (n : Nat) (v : Mask) : Effect :=
  if n = 15 then { frag := fun g => { g with exec := v &&& g.members } }
  else { flock := fun k => { k with m := Map.set 0 k.m n (v &&& lowMask i.x.width) } }

/-! ### Cross-lane instructions of an undivided flock (R229) -/

/-- The lanes that a cross-lane instruction names: none with an empty active set (R42), else those of its membership mask. -/
def namedLanes (i : Iss) (h : Hdr) (o : XlOp) : Mask :=
  if i.active h = 0 then 0 else if o.mmem = 15 then lowMask i.x.width else i.mask o.mmem.toNat

/-- The contribution of lane `j`: none where it is not named, zero where it has exited, else its operand. -/
def contribution (i : Iss) (h : Hdr) (o : XlOp) (j : Nat) : Option Nat :=
  if (namedLanes i h o).getLsbD j then some (if i.g.members.getLsbD j then i.opnd o.ty o.sa j else 0) else none

/-- `LOST` where a named lane has exited. -/
def lostFlag (i : Iss) (h : Hdr) (o : XlOp) : W32 :=
  if namedLanes i h o &&& ~~~i.g.members = 0 then 0 else flLOST

/-- The lane that lane `l` selects by its second source. -/
def selector (i : Iss) (o : XlOp) (l : Nat) : Nat := if i.g.members.getLsbD l ∧ l < i.x.width then i.raw32 o.sb l else 0

/-- What a cross-lane instruction that writes a register does in an undivided flock: the results of the active lanes, their
flags with `LOST`, and the latch. -/
def crossEffect (i : Iss) (h : Hdr) (o : XlOp) (f : Nat → Nat × W32) : Effect :=
  let res := laneResults i h f
  { fold := fun x => raiseFlags i (res.map fun r => (r.lane, r.flags ||| lostFlag i h o))
      ((laneEffect i (wbOf h o.ty o.dst) res).fold x),
    flock := fun k => if h.len then k.putLatch i.x.width h.lat o.ty (res.filter fun r => i.g.members.getLsbD r.lane) else k }

/-- `w` completes so, where no trap is enabled for a flag that it raises. -/
def CrossDoes (i : Iss) (w : Instr) (h : Hdr) (o : XlOp) (f : Nat → Nat × W32) : Prop :=
  NoTrap i ((laneResults i h f).map fun r => (r.lane, r.flags ||| lostFlag i h o)) → Does i w (crossEffect i h o f)

/-! ### Fragments and splits after an instruction -/

/-- As `Ends`, with the fragments and the splits of the flock after the instruction given. -/
structure Leaves (i : Iss) (b t : State) (e : Effect) (frags : List Frag) (splits : List Split) : Prop where
  rest : t = { b with folds := t.folds }
  others : ∀ v, v ≠ i.x.uid → t.fold? v = b.fold? v
  mine : ∃ y was k, t.fold? i.x.uid = some y ∧ { y with flocks := i.x.flocks } = e.fold i.x ∧
    (∀ m, m ≠ i.fl → y.flocks[m]? = i.x.flocks[m]?) ∧ i.x.flocks[i.fl]? = some was ∧ y.flocks[i.fl]? = some k ∧
    { k with frags := was.frags, splits := was.splits } = e.flock was ∧ k.frags = frags ∧ k.splits = splits

/-- The instruction `w` transfers control to `pc` after doing what `e` says. -/
def Goes (i : Iss) (w : Instr) (e : Effect) (pc : Pc) : Prop := ∃ t, exec w i.s = .next t ∧ Ends i i.s t e (toPc pc)

/-- The pc `off` instruction units from the issuing instruction is `to` (R136, R175). -/
def Offset (i : Iss) (off : Int) (tgt : Pc) : Prop := (tgt.toNat : Int) = i.g.pc.toNat + off

/-- The signed offset `off` from the issuing instruction leaves the 55 bits of a pc (R175). -/
def OffRange (i : Iss) (off : Int) : Prop := (i.g.pc.toNat : Int) + off < 0 ∨ 2 ^ 55 ≤ (i.g.pc.toNat : Int) + off

/-- `w` takes a precise fault `c` of the lanes `m`, with the address and `AUX` given, and has no other effect. -/
def Faults (i : Iss) (w : Instr) (c : Cause) (m : Mask) (addr aux : Nat) : Prop := exec w i.s = .next (i.fault c m addr aux)

/-- As `Ends`, for an instruction that begins by bringing the state to `b` (a release, an acquire, an access): what it
writes, and what it leaves, is taken of the fold, the flock and the fragment as they stand in `b`. -/
def After (i : Iss) (b t : State) (e : Effect) (move : Frag → Frag) : Prop :=
  ∃ j, b.iss? i.x.uid i.fl i.g.fid = some j ∧ Ends j b t e move

/-- `f` runs for each lane in rising order, each in the state that the one before it leaves; the result is the last state with
what each lane gave, and none where `f` does not run for a lane. -/
def eachLane {α : Type} (f : State → Nat → Option (State × α)) : List Nat → State → Option (State × List (Nat × α))
  | [], s => some (s, [])
  | l :: r, s =>
    match f s l with
    | none => none
    | some (t, a) => (eachLane f r t).map fun q => (q.1, (l, a) :: q.2)

/-- Fragment `fr` of flock `fl` of fold `u` is `i`, and an event of its own may come about: its fold runs or completes lines
before a stop, and its flock is not stopped. -/
def EventOf (s : State) (u fl fr : Nat) (i : Iss) : Prop :=
  s.iss? u fl fr = some i ∧ (i.x.run = .running ∨ ∃ m, i.x.run = .stopping m) ∧ i.k.stop = none

/-! ### The driver's mailbox (R399, R405) -/

/-- The words of a command's arguments as the mailbox holds them. -/
def mailboxWords (args : List Nat) : List Nat := (args ++ List.replicate 7 0).take 7

/-- The mailbox takes command `num`: the device is not in recovery, and no other command is under way (log 87). -/
def MailboxTakes (num : Nat) (args : List Nat) (s : State) : Prop :=
  s.firm.boot ≠ .recovery ∧ (s.firm.mbStatus = 255 → s.firm.mbCmd = num ∧ s.firm.mbValue = (mailboxWords args).map (BitVec.ofNat 64))

/-- `s` with the answer to command `num`: its status, and the words of the result in front of those of the arguments. -/
def mailboxAnswer (num : Nat) (args : List Nat) (status : Nat) (res : List Nat) (s : State) : State :=
  { s with firm := { s.firm with
      mbCmd := num, mbStatus := status, mbValue := (res ++ (mailboxWords args).drop res.length).map (BitVec.ofNat 64) } }

end Sys2Proof
end

