-- ==== Sys2Proof/Certificates/Slice0/Obligations.lean ====
section
/-! DEFINITION. The statements about the model, each from a numbered rule of the spec or derived from its chapters. -/

section

open Sys2Proof Sys2Proof.Machine

/-- The scalar family of Table 7.2 (R167): the result at the width of the type, extended under R65, goes to the destination;
nothing else changes. `SDIV` and `SREM` (R167, R40): the results of Table 1.7, with the flag in every lane of the active set;
where no trap is enabled for it, the instruction completes. -/
def Obligations.ScalarFamily : Prop :=
  (∀ (s : State) (i : Iss) (h : Hdr) (o : ScOp), s.issuer = some i → Runs i h → o.ty.isScalarIntB = true →
     Does i (.sadd h o) (scalarEffect i h o fun _ a b => a + b) ∧
     Does i (.ssub h o) (scalarEffect i h o fun _ a b => a - b) ∧
     Does i (.smul h o) (scalarEffect i h o fun _ a b => a * b) ∧
     Does i (.smulh h o) (scalarEffect i h o fun _ a b => highProduct o.ty a b) ∧
     Does i (.sand h o) (scalarEffect i h o fun _ a b => a &&& b) ∧
     Does i (.sor h o) (scalarEffect i h o fun _ a b => a ||| b) ∧
     Does i (.sxor h o) (scalarEffect i h o fun _ a b => a ^^^ b) ∧
     Does i (.sshl h o) (scalarEffect i h o fun w a b => a <<< (b.toNat % w)) ∧
     Does i (.sshr h o) (scalarEffect i h o fun w a b => a >>> (b.toNat % w)) ∧
     Does i (.ssra h o) (scalarEffect i h o fun w a b => a.sshiftRight (b.toNat % w)) ∧
     Does i (.smin h o) (scalarEffect i h o fun _ a b => if lessThan o.ty b a then b else a) ∧
     Does i (.smax h o) (scalarEffect i h o fun _ a b => if lessThan o.ty a b then b else a) ∧
     Does i (.sclz h o) (scalarEffect i h o fun _ a _ => a.clz) ∧
     Does i (.spop h o) (scalarEffect i h o fun _ a _ => a.cpop) ∧
     Does i (.smov h o) (scalarEffect i h o fun _ a _ => a) ∧
     (∀ w ∈ [Instr.sadd h o, .ssub h o, .smul h o, .smulh h o, .sdiv h o, .srem h o, .smin h o, .smax h o],
       w.wf = true → o.ty ∈ [.s32, .n32, .s64, .n64]) ∧
     (∀ w ∈ [Instr.sand h o, .sor h o, .sxor h o, .sshl h o, .sshr h o, .ssra h o, .sclz h o, .spop h o],
       w.wf = true → o.ty ∈ [.s32, .n32, .s64, .n64, .b32, .b64]) ∧
     (∀ w ∈ [Instr.sclz h o, .spop h o], w.wf = true → o.sb = .v 0 ∧ o.immsel = false)) ∧
  (∀ (s : State) (i : Iss) (h : Hdr) (o : ScOp), s.issuer = some i → Runs i h → o.ty.isScalarInt = true →
     let done (w : Instr) (f : (n : Nat) → BitVec n → BitVec n → BitVec n × W32) : Prop :=
       let fl : W32 := if o.ty.bits = 64 then (f 64 (i.sval64 o.sa) (scalarSecond i o)).2
         else (f 32 ((i.sval64 o.sa).setWidth 32) ((scalarSecond i o).setWidth 32)).2
       let raised := (lanes (i.active h)).map fun l => (l, fl)
       NoTrap i raised →
         Does i w { scalarEffect i h o (fun n a b => (f n a b).1) with fold := raiseFlags i raised }
     done (.sdiv h o) (fun _ a b => quotient o.ty a b) ∧ done (.srem h o) (fun _ a b => remainder o.ty a b))

/-- Comparison, selection and moves of scalars (R168 to R171): the values written, and nothing else. -/
def Obligations.ScalarSingles : Prop :=
  ∀ (s : State) (i : Iss) (h : Hdr) (o : ScOp), s.issuer = some i → Runs i h →
    let a := i.sval64 o.sa
    let b := scalarSecond i o
    let old := i.sreg o.sd
    (o.ty.isScalarInt = true → Does i (.scmp h o) (scalarWrite h o.sd
      (let lt : Bool := if o.ty.bits = 64 then lessThan o.ty a b else lessThan o.ty (a.setWidth 32) (b.setWidth 32)
       let eq : Bool := if o.ty.bits = 64 then a == b else a.setWidth 32 == b.setWidth 32
       if lt then 1 else if eq then 2 else 4))) ∧
    Does i (.ssel h o) (scalarWrite h o.sd (if old ≠ 0 then a else b)) ∧
    Does i (.smovi h o) (scalarWrite h o.sd (extended o.ty o.imm)) ∧
    Does i (.smovh h o) (scalarWrite h o.sd (o.imm ++ old.setWidth 32)) ∧
    (o.ty.isAddr = true → Does i (.slea h o) (scalarWrite h o.sd
      (a + b * (match o.ty.bits with | 8 => 1 | 16 => 2 | 32 => 4 | _ => 8)))) ∧
    (o.ty = .b64 → Does i (.smov h o) (scalarWrite h o.sd a)) ∧
    (o.ty = .s32 ∨ o.ty = .n32 → Does i (.smov h o) (scalarWrite h o.sd (extended o.ty (a.setWidth 32)))) ∧
    ((Instr.scmp h o).wf = true → o.ty ∈ [.s32, .n32, .s64, .n64]) ∧ ((Instr.ssel h o).wf = true → o.ty = .b64) ∧
    ((Instr.smov h o).wf = true → o.ty ∈ [.b64, .s32, .n32] ∧ o.sb = .v 0 ∧ o.immsel = false) ∧
    ((Instr.smovi h o).wf = true → o.ty ∈ [.s64, .n64] ∧ o.sa = .v 0 ∧ o.sb = .v 0 ∧ o.immsel = true) ∧
    ((Instr.smovh h o).wf = true → o.ty = .b64 ∧ o.sa = .v 0 ∧ o.immsel = true) ∧
    (o.ty ∈ [.mxf4, .s4, .e3m2, .e2m3] → (Instr.slea h o).wf = false)

/-- A guarded flock-uniform instruction of the `SC` and `MSK` formats with an empty active set only goes on (R164). -/
def Obligations.UniformGuardedOff : Prop :=
  ∀ (s : State) (i : Iss) (h : Hdr), s.issuer = some i → i.g.park = .ready → ¬ Runs i h →
    (∀ o : ScOp, ∀ w ∈ [Instr.sadd h o, .ssub h o, .smul h o, .smulh h o, .sdiv h o, .srem h o, .sand h o, .sor h o, .sxor h o,
      .sshl h o, .sshr h o, .ssra h o, .smin h o, .smax h o, .sclz h o, .spop h o, .scmp h o, .ssel h o, .smov h o, .smovi h o,
      .smovh h o, .slea h o, .mwin h o], Does i w {}) ∧
    (∀ o : MskOp, ∀ w ∈ [Instr.mand h o, .mor h o, .mxor h o, .mandn h o, .mnot h o, .mmov h o, .mpop h o, .mffs h o,
      .mfroms h o, .mtos h o], Does i w {})

/-- The mask instructions (R172 to R174): a mask result loses its bits at and above the flock width, and a write of `exec` keeps
to the members of the fragment. The mask singles with a scalar destination (R174). -/
def Obligations.MaskInstructions : Prop :=
  (∀ (s : State) (i : Iss) (h : Hdr) (o : MskOp), s.issuer = some i → Runs i h →
     let a := i.mask o.ma.toNat
     let b := i.mask o.mb.toNat
     let write (v : Mask) : Effect := maskWrite i o.md.toNat v
     Does i (.mand h o) (write (a &&& b)) ∧ Does i (.mor h o) (write (a ||| b)) ∧ Does i (.mxor h o) (write (a ^^^ b)) ∧
     Does i (.mandn h o) (write (a &&& ~~~b)) ∧ Does i (.mnot h o) (write (~~~a)) ∧ Does i (.mmov h o) (write a) ∧
     Does i (.mfroms h o) (write (i.sval64 o.opnd <<< o.mop.toNat)) ∧
     ((Instr.mnot h o).wf = true → o.mb = 0) ∧
     ((Instr.mfroms h o).wf = true → (∃ d, o.opnd = .s d) ∨ ∃ c, o.opnd = .c c) ∧
     (∀ w ∈ [Instr.mand h o, .mor h o, .mxor h o, .mandn h o, .mnot h o, .mmov h o], w.wf = true → o.mop = 0) ∧
     (∀ w ∈ [Instr.mpop h o, .mffs h o, .mtos h o], w.wf = true → o.mop = 0 ∧ o.md = 0 ∧ ∃ d, o.opnd = .s d)) ∧
  (∀ (s : State) (i : Iss) (h : Hdr) (o : MskOp) (d : BitVec 7), s.issuer = some i → Runs i h → o.opnd = .s d →
     let a := i.mask o.ma.toNat
     Does i (.mpop h o) { flock := (·.setS d.toNat (a.cpop)) } ∧
     Does i (.mtos h o) { flock := (·.setS d.toNat a) } ∧
     (a = 0 → Does i (.mffs h o) { flock := (·.setS d.toNat 64) }) ∧
     (∀ n : Nat, n < 64 → a.getLsbD n = true → (∀ m < n, a.getLsbD m = false) →
       Does i (.mffs h o) { flock := (·.setS d.toNat (BitVec.ofNat 64 n)) }))

/-- The vector integer family of Table 8.3 (R209): each active lane gets the result of its own operands, at the width of the type,
read before any lane is written; no flag changes (R203, R206). Shifts and counts of Table 8.3 (R209): the amount of a shift is
a 32-bit operand in every type, of which the value mod w counts. -/
def Obligations.VectorIntegers : Prop :=
  (∀ (s : State) (i : Iss) (h : Hdr) (o : VrOp), s.issuer = some i → o.ty.isIntB = true →
     let a := operand i o.ty o.sa
     let b := operand i o.ty o.sb
     let c := operand i o.ty o.sc
     VectorGives i (.vadd h o) h o.ty o.dst (fun l => a l + b l) ∧
     VectorGives i (.vsub h o) h o.ty o.dst (fun l => a l - b l) ∧
     VectorGives i (.vmul h o) h o.ty o.dst (fun l => a l * b l) ∧
     VectorGives i (.vmulh h o) h o.ty o.dst (fun l => highProduct o.ty (a l) (b l)) ∧
     VectorGives i (.vmad h o) h o.ty o.dst (fun l => a l * b l + c l) ∧
     VectorGives i (.vmin h o) h o.ty o.dst (fun l => if lessThan o.ty (b l) (a l) then b l else a l) ∧
     VectorGives i (.vmax h o) h o.ty o.dst (fun l => if lessThan o.ty (a l) (b l) then b l else a l) ∧
     VectorGives i (.vabs h o) h o.ty o.dst (fun l => (a l).abs) ∧
     VectorGives i (.vand h o) h o.ty o.dst (fun l => a l &&& b l) ∧
     VectorGives i (.vor h o) h o.ty o.dst (fun l => a l ||| b l) ∧
     VectorGives i (.vxor h o) h o.ty o.dst (fun l => a l ^^^ b l) ∧
     VectorGives i (.vnot h o) h o.ty o.dst (fun l => ~~~(a l)) ∧
     (let small := [Ty.s8, .n8, .s16, .n16]
      let word := [Ty.s32, .n32, .s64, .n64]
      (∀ w ∈ [Instr.vadd h o, .vsub h o, .vmul h o, .vmad h o, .vmin h o, .vmax h o], w.wf = true → o.ty ∈ small ++ word) ∧
      ((Instr.vmulh h o).wf = true → o.ty ∈ word) ∧ ((Instr.vabs h o).wf = true → o.ty ∈ [.s8, .s16, .s32, .s64]) ∧
      (∀ w ∈ [Instr.vand h o, .vor h o, .vxor h o, .vnot h o, .vshl h o, .vshr h o, .vsra h o, .vclz h o, .vpop h o],
        w.wf = true → o.ty ∈ small ++ word ++ [.b32, .b64]))) ∧
  (∀ (s : State) (i : Iss) (h : Hdr) (o : VrOp), s.issuer = some i → o.ty.isIntB = true →
     let a := operand i o.ty o.sa
     let n (l : Nat) : Nat := i.raw32 o.sb l % o.ty.bits
     VectorGives i (.vshl h o) h o.ty o.dst (fun l => a l <<< n l) ∧
     VectorGives i (.vshr h o) h o.ty o.dst (fun l => a l >>> n l) ∧
     VectorGives i (.vsra h o) h o.ty o.dst (fun l => (a l).sshiftRight (n l)) ∧
     VectorGives i (.vclz h o) h o.ty o.dst (fun l => (a l).clz) ∧
     VectorGives i (.vpop h o) h o.ty o.dst (fun l => (a l).cpop))

/-- `VDIV` and `VREM` (R210, R39, R40): the results and flags of Table 1.7, each flag in its own lane. Division and the traps of
arithmetic (R40, R68, R167, R210, R368): an instruction that raises flags completes in every active lane; where traps are
enabled for flags that lanes raise, the flock then stops at the boundary on one record for each such flag, which names the
lanes that raised it, in rising order of their lowest lanes, and goes past the instruction when it resumes. Of records with
one lowest lane that of the lower flag comes first, which is the model's choice (log 94). -/
def Obligations.DivisionAndTraps : Prop :=
  (∀ (s : State) (i : Iss) (h : Hdr) (o : VrOp), s.issuer = some i → o.ty.isInt = true →
     let q (l : Nat) := quotient o.ty (operand i o.ty o.sa l) (operand i o.ty o.sb l)
     let r (l : Nat) := remainder o.ty (operand i o.ty o.sa l) (operand i o.ty o.sb l)
     VectorDoes i (.vdiv h o) h o.ty o.dst (fun l => ((q l).1.toNat, (q l).2)) ∧
     VectorDoes i (.vrem h o) h o.ty o.dst (fun l => ((r l).1.toNat, (r l).2))) ∧
  (∀ (s : State) (i : Iss) (h : Hdr), s.issuer = some i →
     let ends (w : Instr) (e : Effect) (raised : List (Nat × W32)) : Prop :=
       let by' (b : Nat) : Mask := raised.foldl (fun m p => if p.2.getLsbD b then m ||| bitMask p.1 else m) 0
       let low (m : Mask) : Nat := ((List.range 64).find? (m.getLsbD ·)).getD 64
       let hits := (List.range 7).filter fun b => i.x.fpctl.getLsbD (8 + b) && by' b != 0
       ∃ b recs, Done i b e ∧ recs.Perm (hits.map fun n => (({ cause := .trap n, addr := 0, aux := 0, page := none } : FInfo), by' n)) ∧
         recs.Pairwise (fun p q => low p.2 < low q.2 ∨ (low p.2 = low q.2 ∧ p.1.cause.code < q.1.cause.code)) ∧
         exec w i.s = .next (if hits = [] then b else i.take b recs .past)
     let lanes' (w : Instr) (o : VrOp) (f : Nat → Nat × W32) : Prop :=
       let res := laneResults i h f
       ends w (laneEffect i (wbOf h o.ty o.dst) res) (LaneRes.flagsOf res)
     let scalar (w : Instr) (o : ScOp) (f : (n : Nat) → BitVec n → BitVec n → BitVec n × W32) : Prop :=
       let fl : W32 := if o.ty.bits = 64 then (f 64 (i.sval64 o.sa) (scalarSecond i o)).2
         else (f 32 ((i.sval64 o.sa).setWidth 32) ((scalarSecond i o).setWidth 32)).2
       let raised := (lanes (i.active h)).map fun l => (l, fl)
       ends w { scalarEffect i h o (fun n a b => (f n a b).1) with fold := raiseFlags i raised } raised
     (∀ o : VrOp,
       let q (l : Nat) := quotient o.ty (operand i o.ty o.sa l) (operand i o.ty o.sb l)
       let r (l : Nat) := remainder o.ty (operand i o.ty o.sa l) (operand i o.ty o.sb l)
       (o.ty.isInt = true → lanes' (.vdiv h o) o (fun l => ((q l).1.toNat, (q l).2)) ∧ lanes' (.vrem h o) o fun l => ((r l).1.toNat, (r l).2)) ∧
       (∀ w ∈ [Instr.vdiv h o, .vrem h o], w.wf = true → o.ty.isInt = true) ∧
       (o.ty.isFp = true → lanes' (.vfadd h o) o fun l => fpAdd (fmtOf o.ty) (i.mode o.rm none) (i.opnd o.ty o.sa l) (i.opnd o.ty o.sb l))) ∧
     (∀ o : ScOp, Runs i h → o.ty.isScalarInt = true →
       scalar (.sdiv h o) o (fun _ a b => quotient o.ty a b) ∧ scalar (.srem h o) o fun _ a b => remainder o.ty a b))

/-- `VCMP` and `VFCMP` (R213, Table 8.4): each active lane's bit of the mask is its outcome, every other bit is 0; with no active
lane nothing is written. Selection and moves (R211, R212, R214, R215): bits are copied, immediates are extended or cut to the
type, and `VIOTA` adds the lane number, or the count of active lanes below it. -/
def Obligations.ComparesAndMoves : Prop :=
  (∀ (s : State) (i : Iss) (h : Hdr) (o : VrOp), s.issuer = some i → o.md.toNat < 8 →
     (i.active h = 0 → Does i (.vcmp h o) {} ∧ Does i (.vfcmp h o) {}) ∧
     (i.active h ≠ 0 → o.md.toNat < 6 → o.ty.isInt = true → ∀ m : Mask,
       (∀ l < 64, m.getLsbD l = (i.active h).getLsbD l && (
         let a := operand i o.ty o.sa l
         let b := operand i o.ty o.sb l
         match o.md.toNat with
         | 0 => a == b
         | 1 => a != b
         | 2 => lessThan o.ty a b
         | 3 => !lessThan o.ty b a
         | 4 => lessThan o.ty b a
         | _ => !lessThan o.ty a b)) →
       Does i (.vcmp h o) (maskWrite i o.dst.toNat m)) ∧
     (i.active h ≠ 0 → ∀ m : Mask,
       let r (l : Nat) := fpCmp (fmtOf o.ty) o.md.toNat (i.opnd o.ty o.sa l) (i.opnd o.ty o.sb l)
       let raised := (lanes (i.active h)).map fun l => (l, (r l).2)
       (∀ l < 64, m.getLsbD l = ((i.active h).getLsbD l && (r l).1)) → NoTrap i raised →
       Does i (.vfcmp h o) { maskWrite i o.dst.toNat m with fold := raiseFlags i raised })) ∧
  (∀ (s : State) (i : Iss) (h : Hdr), s.issuer = some i →
     (∀ o : VrOp, o.ty.isSel = true →
       let a := operand i o.ty o.sa
       let b := operand i o.ty o.sb
       let cond (l : Nat) : Bool := if o.md = 15 then operand i o.ty o.sc l != 0 else (i.mask o.md.toNat).getLsbD l
       VectorGives i (.vmov h o) h o.ty o.dst a ∧
       (o.md.toNat < 16 → VectorGives i (.vsel h o) h o.ty o.dst (fun l => if cond l then a l else b l))) ∧
     (∀ o : ViOp, o.ty.isMovi = true →
       VectorGives i (.vmovi h o) h o.ty o.dst
         (fun _ => if o.ty.signed then o.imm.signExtend o.ty.bits else o.imm.setWidth o.ty.bits)) ∧
     (∀ o : ViOp, o.ty = .s32 ∨ o.ty = .n32 →
       Does i (.viota h o) (laneEffect i (wbOf h o.ty o.dst) (laneResults i h fun l =>
         ((o.imm + BitVec.ofNat 32 (if o.md.getLsbD 0 then ((lanes (i.active h)).filter (· < l)).length else l)).toNat, 0)))) ∧
     (∀ o : VrOp, (Instr.vmov h o).wf = true → o.ty.isSel = true) ∧
     (∀ o : ViOp, ((Instr.vmovi h o).wf = true → o.ty.isMovi = true ∧ o.md = 0) ∧
       ((Instr.viota h o).wf = true → o.ty ∈ [.s32, .n32] ∧ o.md.toNat < 2)))

/-- The float family (R216 to R219): each active lane gets the exact result rounded once under the mode, with the flags of R123;
where no trap is enabled for a flag raised, the instruction completes. The special functions (R220): each active lane gets the
value of `sfuEval` at its operand, a function of the function, the type and the operand alone; which of the results within the
bound of Table 8.7 that is, is free (log 16, DESIGN CHOICE), and that `NX`, and `UF` where the exact value is tiny, are set
outside the exact cases whatever is delivered is the model's choice (log 113). What the float family computes (R116, R216,
R218): a NaN operand gives the canonical NaN; an exact result that the format holds is delivered as it is, without a flag; and
subtraction is the addition of the negated operand. The exact and special cases of Table 8.7: NaN, infinities, zeros and
negative operands. -/
def Obligations.FloatingPoint : Prop :=
  (∀ (s : State) (i : Iss) (h : Hdr) (o : VrOp), s.issuer = some i → o.ty.isFp = true →
     let f := fmtOf o.ty
     let a := i.opnd o.ty o.sa
     let b := i.opnd o.ty o.sb
     let c := i.opnd o.ty o.sc
     let md := i.mode o.rm none
     VectorDoes i (.vfadd h o) h o.ty o.dst (fun l => fpAdd f md (a l) (b l)) ∧
     VectorDoes i (.vfsub h o) h o.ty o.dst (fun l => fpSub f md (a l) (b l)) ∧
     VectorDoes i (.vfmul h o) h o.ty o.dst (fun l => fpMul f md (a l) (b l)) ∧
     VectorDoes i (.vfma h o) h o.ty o.dst (fun l => fpFma f md (a l) (b l) (c l)) ∧
     VectorDoes i (.vfmin h o) h o.ty o.dst (fun l => fpMinMax f false (a l) (b l)) ∧
     VectorDoes i (.vfmax h o) h o.ty o.dst (fun l => fpMinMax f true (a l) (b l)) ∧
     VectorDoes i (.vfclass h o) h .n32 o.dst (fun l => (fpClass f (a l), 0))) ∧
  (∀ (s : State) (i : Iss) (h : Hdr) (o : VrOp), s.issuer = some i → o.ty.isFp = true →
     ∀ p ∈ [(Instr.vrcp h o, 48), (.vrsq h o, 49), (.vsqrt h o, 50), (.vexp2 h o, 51), (.vlog2 h o, 52), (.vsin h o, 53),
       (.vcos h o, 54), (.vtanh h o, 55)],
       VectorDoes i p.1 h o.ty o.dst (fun l => sfuEval o.ty p.2 (i.opnd o.ty o.sa l))) ∧
  (∀ (t : Ty) (md : Mode), t.isFp = true →
     let f := fmtOf t
     (∀ a b, ((f.value a).isNan = true ∨ (f.value b).isNan = true) →
       (fpAdd f md a b).1 = f.nanCode ∧ (fpSub f md a b).1 = f.nanCode ∧ (fpMul f md a b).1 = f.nanCode ∧
       ∀ c, (fpFma f md a b c).1 = f.nanCode ∧ (fpFma f md c a b).1 = f.nanCode) ∧
     (∀ a b, a < 2 ^ t.bits → b < 2 ^ t.bits → (f.value b).isNan = false →
       fpSub f md a b = fpAdd f md a (b ^^^ 2 ^ (t.bits - 1))) ∧
     (∀ c, c < 2 ^ t.bits → (f.value c).isNan = false → f.deliver md (f.value c) = (c, 0))) ∧
  (∀ t : Ty, t.isFp = true →
     let f := fmtOf t
     let one := f.bias * 2 ^ f.mb
     (∀ opc ∈ [48, 49, 50, 51, 52, 53, 54, 55], ∀ c, (f.value c).isNan = true → (sfuEval t opc c).1 = f.nanCode) ∧
     sfuEval t 48 0 = (f.infCode, flDZ) ∧ sfuEval t 48 f.signBit = (f.signBit + f.infCode, flDZ) ∧
     sfuEval t 48 f.infCode = (0, 0) ∧ sfuEval t 49 f.infCode = (0, 0) ∧ sfuEval t 50 f.infCode = (f.infCode, 0) ∧
     sfuEval t 50 f.signBit = (f.signBit, 0) ∧ sfuEval t 51 0 = (one, 0) ∧ sfuEval t 52 0 = (f.signBit + f.infCode, flDZ) ∧
     sfuEval t 52 one = (0, 0) ∧ sfuEval t 53 0 = (0, 0) ∧ sfuEval t 54 0 = (one, 0) ∧ sfuEval t 55 f.infCode = (one, 0) ∧
     (∀ opc ∈ [49, 50, 52], ∀ c, c < f.infCode → 0 < c → sfuEval t opc (f.signBit + c) = (f.nanCode, flNV)))

/-- A pair word (R150, R161, R207): both halves read what stood before either wrote; each writes in its own active set. -/
def Obligations.PairWords : Prop :=
  ∀ (s : State) (i : Iss) (a b : PairHalf), s.issuer = some i →
    let half (x : PairHalf) : List LaneRes :=
      (lanes (if x.grd = 15 then i.g.exec else i.g.exec &&& i.mask x.grd.toNat)).map fun l =>
        { lane := l, val := (i.halfRes x l).1, flags := (i.halfRes x l).2 }
    NoTrap i (LaneRes.flagsOf (half a) ++ LaneRes.flagsOf (half b)) →
      Does i (.pairWord a b)
        { fold := fun x => (laneEffect i (wbHalf b) (half b)).fold ((laneEffect i (wbHalf a) (half a)).fold x),
          flock := fun k => (laneEffect i (wbHalf b) (half b)).flock ((laneEffect i (wbHalf a) (half a)).flock k) }

/-- Conversions and plane instructions (R221 to R227, R120, R125): an integer constant is its exact value in a floating-point
source (R141; at every position and in the narrow formats it is the model's choice, log 81), the lane state that stochastic
rounding, `AMX` and `AMAXRD` update, and the element written, alone or inserted at its place in the old register. -/
def Obligations.Conversions : Prop :=
  ∀ (s : State) (i : Iss) (h : Hdr) (o : CvOp), s.issuer = some i →
    let done (w : Instr) (ins : Bool) (pre : Nat → Fold → Fold) (f : Nat → Nat × W32) : Prop :=
      let val (l : Nat) : Nat := if ins then insertAt (i.vreg o.dst.toNat l).toNat o.dty.bits o.dpos (f l).1 else (f l).1
      let e := laneEffect i (wbOf h (if ins then .b32 else o.dty) o.dst) (laneResults i h fun l => (val l, (f l).2))
      NoTrap i (LaneRes.flagsOf (laneResults i h f)) →
        Does i w { e with fold := fun x => e.fold ((lanes (i.active h)).foldl (fun y l => pre l y) x) }
    let el (l : Nat) : FVal := i.elemValue o.frm o.sa o.spos l
    let group := min i.x.width 32
    let bitsOf (n : Nat) (p : Nat → Bool) : Nat := sumNat ((List.range n).map fun k => if p k then 2 ^ k else 0)
    (∀ n : BitVec 6, o.sa = .c n → n.toNat ≤ 48 → o.frm.isInt = false → o.frm ≠ .s4 → ∀ l, el l = FVal.ofInt (constInt n.toNat)) ∧
    (o.frm.isInt = true → o.dty.isInt = true → done (.vcvt h o) o.ins (fun _ x => x) fun l =>
      cvtIntInt o.sat o.dty.signed o.dty.bits (ival o.frm.signed o.frm.bits (i.elem o.frm o.sa o.spos l))) ∧
    ((o.frm.isInt = false ∨ o.dty.isInt = false) → done (.vcvt h o) o.ins (i.stepSr o.rm (Ty.takesSr o.dty)) fun l =>
      convertTo o.dty (i.cvMode o l) o.sat (el l).isSig ((el l).mul (i.cvtScale o l))) ∧
    done (.vqnt h o) o.ins (fun l x => i.stepSr o.rm true l (if o.amx then i.stepAmax l (el l) x else x)) (fun l =>
      convertTo o.dty (i.cvMode o l) o.sat (el l).isSig ((el l).mul (i.qntScale o l))) ∧
    done (.vexpd h o) o.ins (fun _ x => x) (fun l => ((convertTo o.dty .rne false false (el l)).1, 0)) ∧
    done (.vbpk h o) o.ins (fun _ x => x) (fun l =>
      (if l % group < o.frm.bits then bitsOf group fun k =>
        i.g.members.getLsbD (l / group * group + k) && bit (i.elem o.frm o.sa o.spos (l / group * group + k)) (l % group)
       else 0, 0)) ∧
    done (.vbunpk h o) o.ins (fun _ x => x) (fun l =>
      (bitsOf o.dty.bits fun k =>
        i.g.members.getLsbD (l / group * group + k) && bit (i.raw32 o.sa (l / group * group + k)) (l % group), 0)) ∧
    (let amax (l : Nat) : Nat := (Map.get 0 i.x.amax (i.thread l)).toNat
     let flags (l : Nat) : W32 := Map.get 0 i.x.flags (i.thread l)
     let nan := o.md.getLsbD 0
     done (.amaxrd h o) false
       (fun l x => { x with amax := Map.set 0 x.amax (i.thread l) 0,
                            flags := if nan then Map.set 0 x.flags (i.thread l) (flags l &&& ~~~flNANSEEN) else x.flags })
       fun l => (if nan then amax l % 2 ^ 31 + (if flags l &&& flNANSEEN ≠ 0 then 2 ^ 31 else 0) else amax l, 0))

/-- Cross-lane instructions of a flock that no split divides (R37, R229, R230): every named lane contributes its operand, or zero
with `LOST` where it has exited. A cross-lane instruction that names a lane of another live fragment waits for it, unless that
fragment stands at a common join, where the instruction faults (R37, R38). That it waits with its active set, members and
operands as they are at parking is the model's choice (log 98). -/
def Obligations.CrossLanes : Prop :=
  (∀ (s : State) (i : Iss) (h : Hdr) (o : XlOp), s.issuer = some i → i.k.frags = [i.g] → i.g.park = .ready →
     let c := contribution i h o
     let term (j : Nat) : Nat := (c j).getD (xopUnit o.xop.toNat o.ty)
     let ps := prefixes (xopApply o.xop.toNat o.ty) ((List.range i.x.width).map term)
     let x := o.md.toNat % 2
     let steps := (ps.take ((lanes (i.active h)).getLast?.elim 0 (· + 1 - x))).foldl (fun f p => f ||| p.2) 0
     CrossDoes i (.vshuf h o) h o (fun l => ((c (selector i o l % i.x.width)).getD 0, 0)) ∧
     CrossDoes i (.vrot h o) h o (fun l => ((c ((l + selector i o l) % i.x.width)).getD 0, 0)) ∧
     CrossDoes i (.vbcst h o) h o (fun l => ((c (selector i o l % i.x.width)).getD 0, 0)) ∧
     CrossDoes i (.vred h o) h o (fun _ =>
       treeReduce (xopApply o.xop.toNat o.ty) 6 ((List.range i.x.width).map term) 0) ∧
     CrossDoes i (.vscan h o) h o (fun l =>
       (if x = 1 ∧ l = 0 then xopUnit o.xop.toNat o.ty else (ps[l - x]?).elim 0 (·.1), steps)) ∧
     (let raised := (lanes (i.active h)).map fun l => (l, lostFlag i h o)
      NoTrap i raised →
        Does i (.vvote h o)
          { (if i.active h = 0 then ({} : Effect) else maskWrite i o.dst.toNat
              ((lanes (namedLanes i h o)).foldl (fun v j => if c j ≠ some 0 then v ||| bitMask j else v) 0)) with
            fold := raiseFlags i raised })) ∧
  (∀ (s : State) (i : Iss) (h : Hdr) (o : XlOp) (g : Frag), s.issuer = some i → i.g.park = .ready →
     g ∈ i.k.frags → g.fid ≠ i.g.fid → g.members &&& namedLanes i h o ≠ 0 →
     let ws := [Instr.vshuf h o, .vrot h o, .vbcst h o, .vvote h o, .vred h o, .vscan h o]
     (g.park = .join → (∃ sid, i.g.commonSplit g = some sid ∧ g.path.head? = some sid) →
       ∀ w ∈ ws, exec w i.s = .next (i.fault .xlSplit i.g.exec 0 0)) ∧
     ((∀ f ∈ i.k.frags, f.fid ≠ i.g.fid → f.park = .ready) →
       ∀ w ∈ ws, ∃ sel, exec w i.s = .next (i.s.modFrag i.x.uid i.fl i.g.fid fun f =>
         { f with
           park := Park.rendezvous (i.active h) (namedLanes i h o)
             ((List.range i.x.width).map fun l => if i.g.members.getLsbD l then i.opnd o.ty o.sa l else 0) sel })))

/-- The uniform branches `BRA` and `BRM` (R176, R177): where the condition holds they go to the target, else they fall through; no
register changes. Calls, the return and the loop (R182, R184): `CALLX` reads its target before the link is written, and
`LOOPD` runs its body once for a counter of 0. `BRX` (R181): without an active lane it only goes on; where every active lane's
index is below the count of its table and all name one target, the fragment goes there; and it faults with `BR_TARGET`, and no
lane branches, where the offset is no slot 0 of a line, the first word is not a count of 1 to 4,095, or an index is not below
the count. -/
def Obligations.BranchesAndCalls : Prop :=
  (∀ (s : State) (i : Iss) (h : Hdr) (o : BrOp), s.issuer = some i → Runs i h →
     let x := i.sreg o.ss
     let m := i.mask o.mb.toNat
     let a := i.active h
     let holds : Bool := match o.bc.toNat with
       | 0 => true
       | 1 => x != 0
       | 2 => x == 0
       | 3 => x.slt 0
       | 4 => !x.slt 0
       | 5 => x &&& o.mb.zeroExtend 64 != 0
       | _ => x &&& o.mb.zeroExtend 64 == 0
     let met : Bool := match o.bc.toNat with
       | 0 => m &&& a != 0
       | 1 => a &&& ~~~m == 0
       | 2 => m &&& a == 0
       | _ => a &&& ~~~m != 0
     (o.bc.toNat ≤ 6 →
       (holds = false → Does i (.bra h o) {}) ∧
       (holds = true → ∀ tgt, Offset i o.off.toInt tgt → Goes i (.bra h o) {} tgt) ∧
       (holds = true → OffRange i o.off.toInt → Faults i (.bra h o) .brTarget i.g.exec 0 0)) ∧
     (o.bc.toNat ≤ 3 →
       (met = false → Does i (.brm h o) {}) ∧
       (met = true → ∀ tgt, Offset i o.off.toInt tgt → Goes i (.brm h o) {} tgt) ∧
       (met = true → OffRange i o.off.toInt → Faults i (.brm h o) .brTarget i.g.exec 0 0))) ∧
  (∀ (s : State) (i : Iss) (h : Hdr) (o : BrOp) (tgt : Pc), s.issuer = some i → Runs i h →
     let link : Effect := { flock := (·.setS o.ss.toNat ((i.g.pc.zeroExtend 64) + 1)) }
     let n := i.sreg o.ss
     let less : Effect := { flock := (·.setS o.ss.toNat (n - 1)) }
     (Offset i o.off.toInt tgt → Goes i (.call h o) link tgt) ∧
     (i.k.sreg (o.off.toNat % 128) = tgt.zeroExtend 64 → Goes i (.callx h o) link tgt) ∧
     (n = tgt.zeroExtend 64 → Goes i (.ret h o) {} tgt) ∧
     (n = 0 → Does i (.loopd h o) {}) ∧
     (n = 1 → Does i (.loopd h o) less) ∧
     (n ≠ 0 → n ≠ 1 → Offset i o.off.toInt tgt → Goes i (.loopd h o) less tgt) ∧
     (2 ^ 55 ≤ n.toNat → Faults i (.ret h o) .brTarget i.g.exec 0 0)) ∧
  (∀ (s : State) (i : Iss) (h : Hdr) (o : BrOp) (base : Pc), s.issuer = some i → Offset i o.off.toInt base →
     let a := i.active h
     let index (l : Nat) : Nat := (i.vreg (o.joff.toNat % 256) l).toNat
     let heads := i.tableWords i.s (base.toNat / 5) [0, 1]
     let words := i.tableWords heads.1 (base.toNat / 5) ((lanes a).map fun l => 2 + index l)
     (a = 0 → Does i (.brx h o) {}) ∧
     (a ≠ 0 → base.toNat % 5 ≠ 0 → Faults i (.brx h o) .brTarget a 0 0) ∧
     (a ≠ 0 → base.toNat % 5 = 0 → ∀ w0 w1, heads.2 = .ok (some [w0, w1]) →
       ((w0 % 4096 = 0 ∨ 4096 ≤ w0 ∨ ∃ l ∈ lanes a, w0 ≤ index l) → Faults i (.brx h o) .brTarget a 0 0) ∧
       (0 < w0 → w0 < 4096 → (∀ l ∈ lanes a, index l < w0) → ∀ (off : Nat) (tgt : Pc),
         words.2 = .ok (some ((lanes a).map fun _ => off)) →
         (tgt.toNat : Int) = base.toNat + (BitVec.ofNat 32 off).toInt →
         ∃ t, exec (.brx h o) i.s = .next t ∧ Ends i words.1 t {} (toPc tgt))))

/-- `SPLIT` of a flock that no split divides (R24, R178): all lanes or none go as a whole, without an entry; otherwise, with an
entry of the split table free, the taken lanes become a fragment at the target and the other members go on at the next slot,
both with the join. `JOIN` and the fusing of fragments (R26, R179): a fragment that descends from no unfused split falls
through; one whose siblings have not all reached the join parks there; with the last of them the fragments fuse into one,
which goes on at the join with every member in its `exec`, and the split is freed. -/
def Obligations.SplitsAndJoins : Prop :=
  (∀ (s : State) (i : Iss) (h : Hdr) (o : BrOp) (target join : Pc), s.issuer = some i →
     Offset i o.off.toInt target → Offset i o.joff.toInt join →
     let a := i.active h
     let taken := if o.mb = 15 then a else a &&& i.mask o.mb.toNat
     (taken = a → Goes i (.split h o) {} target) ∧
     (taken ≠ a → taken = 0 → Does i (.split h o) {}) ∧
     (taken ≠ a → taken ≠ 0 → i.k.splits = [] → i.k.frags = [i.g] → i.g.path = [] → target ≠ join →
       s.splitsUsed i.x.core < 256 →
       ∃ t, exec (.split h o) i.s = .next t ∧ Leaves i i.s t {}
         [{ i.g with members := i.g.members &&& ~~~taken, exec := i.g.exec &&& ~~~taken, path := [0], pc := i.g.pc + 1,
                     arriving := false, park := if i.g.pc + 1 = join then .join else .ready },
          { fid := i.g.fid + 1, members := taken, exec := taken, pc := target, arriving := true, buf := none, path := [0],
            pending := i.g.pending, park := .ready }]
         [{ sid := 0, join := join, entries := 1, serial := none }])) ∧
  (∀ (s : State) (i : Iss) (h : Hdr) (o : BrOp), s.issuer = some i → Runs i h →
     (i.k.joinOf i.g = none → Does i (.join h o) {}) ∧
     (∀ (sp : Split) (before after : List Frag), i.k.splits = [sp] → i.k.frags = before ++ i.g :: after →
       (∀ f ∈ before ++ i.g :: after, f.path = [sp.sid]) → (∀ f ∈ before ++ after, f.fid ≠ i.g.fid) →
       let here : Frag := { i.g with pc := sp.join, arriving := true, buf := none, park := .join }
       ((∃ f ∈ before ++ after, f.park ≠ .join) → (∀ f ∈ before ++ after, f.park = .ready → f.pc ≠ sp.join) →
         ∃ t, exec (.join h o) i.s = .next t ∧ Leaves i i.s t {} (before ++ here :: after) [sp]) ∧
       ((∀ f ∈ before ++ after, f.park = .join) →
         let all := (before ++ i.g :: after).foldl (fun m f => m ||| f.members) 0
         let first := ((before ++ [i.g]).headD i.g).fid
         ∃ t, exec (.join h o) i.s = .next t ∧ Leaves i i.s t {}
           [{ fid := first, members := all, exec := all, pc := sp.join, arriving := true, buf := none, path := [],
              pending := (before ++ i.g :: after).all (·.pending), park := .ready }] [])))

/-- `EXIT` (R33, R183): the active lanes leave their fragment; a fragment that keeps members goes on; a fragment without members
is gone; and with its last fragment the flock has ended, with its registers as they stand, and counts as arrived permanently
at every fold barrier of which it is a member. -/
def Obligations.Exits : Prop :=
  ∀ (s : State) (i : Iss) (h : Hdr) (o : BrOp), s.issuer = some i →
    let left := i.g.members &&& ~~~i.active h
    (left ≠ 0 → Does i (.exit h o) { frag := fun g => { g with members := left, exec := g.exec &&& ~~~i.active h } }) ∧
    (left = 0 → i.k.splits = [] → (∃ f ∈ i.k.frags, f.fid ≠ i.g.fid) →
      ∃ t, exec (.exit h o) i.s = .next t ∧ Leaves i i.s t {} (i.k.frags.filter fun f => f.fid ≠ i.g.fid) []) ∧
    (left = 0 → (∀ f ∈ i.k.frags, f.fid = i.g.fid) →
      ∃ t y was k, exec (.exit h o) i.s = .next t ∧ t.fold? i.x.uid = some y ∧ i.x.flocks[i.fl]? = some was ∧
        y.flocks[i.fl]? = some k ∧ k.frags = [] ∧ k.s = was.s ∧ k.m = was.m ∧ y.v = i.x.v ∧ y.flags = i.x.flags ∧ y.acc = i.x.acc ∧ y.scr = i.x.scr ∧
        t.mem = s.mem ∧
        ∀ b ≤ 16, (s.bar i.x b).declared = true → (s.bar i.x b).members &&& bitMask i.fl ≠ 0 → Map.wf BarSt.none i.x.bars = true →
          (t.bar y b).permanent &&& bitMask i.fl = bitMask i.fl)

/-- `TRAP` raises `USER_TRAP` with its code and the active set, precisely at its own pc, and a resume goes on at the next
instruction (R195, R370): the flock stops on the record, which carries the pc of the `TRAP`. `YIELD` has no effect but on the
order of issue (R29, R193): it goes on with a mark on the flock; when the fragment has come to its line boundary, a step first
has it stand behind the fragments of its flock that may go there (ready, or with their wait over, and not the pending half of
a serial split), and before it no mark moves; and it makes no turn while one of those may go. Seating changes nothing else. -/
def Obligations.TrapsAndYields : Prop :=
  (∀ (s : State) (i : Iss) (h : Hdr) (o : SysOp), s.issuer = some i → Runs i h → (s.ctx i.x.ctx).isSome = true →
     ∃ t y k p, exec (.trap h o) i.s = .next t ∧ t.fold? i.x.uid = some y ∧ y.flocks[i.fl]? = some k ∧
       k.stop = some p ∧ p.awaits = [((s.ctx i.x.ctx).elim 0 (·.recs)) + 1] ∧ p.resume = .past ∧ p.frag = i.g.fid ∧
       (i.k.splits = [] → ∀ g, k.frag? i.g.fid = some g → g.pc = i.g.pc + 1) ∧
       t = (i.take (i.next i.s) [({ cause := .userTrap, addr := 0, aux := o.imm.toNat, page := none }, i.active h)] .past)) ∧
  ((∀ (s : State) (i : Iss) (h : Hdr) (o : SynOp), s.issuer = some i → Runs i h →
     Does i (.yield h o) { flock := fun k => { k with behind := k.behind.filter (·.1 != i.g.fid) ++ [(i.g.fid, i.g.fid)] } }) ∧
   (∀ (s : State) (u l r : Nat) (i : Iss), s.iss? u l r = some i → (i.k.frags.map (·.fid)).Nodup →
     ∃ j : Iss, s.seatYielders.iss? u l r = some j ∧ j.g = i.g ∧ { j.k with behind := i.k.behind } = i.k ∧
       ((r, r) ∈ i.k.behind → i.g.enters = true → ∀ q, (r, q) ∈ j.k.behind ↔ ∃ f ∈ i.k.frags, f.fid = q ∧ q ≠ r ∧ i.mayGo f = true) ∧
       ((r, r) ∉ i.k.behind ∨ i.g.enters = false → ∀ q, (r, q) ∈ j.k.behind ↔ (r, q) ∈ i.k.behind)) ∧
   (∀ s : State, s.seatYielders = { s with folds := s.seatYielders.folds } ∧
     ∀ x u, s.fold? u = some x → ∃ y, s.seatYielders.fold? u = some y ∧ { y with flocks := x.flocks } = x ∧
       y.flocks.map (fun k => { k with behind := [] }) = x.flocks.map fun k => { k with behind := [] }) ∧
   (∀ (s : State) (rest : List Turn) (u l r : Nat) (i : Iss), s.agenda = .issue u l r :: rest →
     ({ s.seatYielders with agenda := rest } : State).iss? u l r = some i → i.k.dying = false → i.isBehind = true →
     step s = .next { s.seatYielders with agenda := rest }))

/-- `RDSR` (R66, R197): a register of lane scope goes to the named vector register of each active lane, any other to the scalar;
nothing else changes. The cycle count of the core goes on by a free number at each look (log 2). `WRSR` (R66, R67, R68, R125):
the writable lane registers take the value of each active lane, with bits 31 to 9 of `SR.FLAGS` zero, unless a lane of
`SR.AMAX` would hold a reserved value, which faults and writes none; `SR.FPCTL` takes its defined bits, unless the rounding
code is reserved; and every other register faults with `SR_ACCESS`. -/
def Obligations.SpecialRegisters : Prop :=
  (∀ (s : State) (i : Iss) (h : Hdr) (o : SysOp) (r : Sr), s.issuer = some i → Sr.ofId o.srid = some r →
     (r.lane = true → o.imm.toNat < 256 →
       Does i (.rdsr h o) { fold := fun x => (lanes (i.active h)).foldl (fun y l => y.setV o.imm.toNat (i.thread l)
         (let t := i.thread l
          match r with
          | .laneid => BitVec.ofNat 32 l
          | .thread => BitVec.ofNat 32 t
          | .amax => Map.get 0 i.x.amax t
          | .srstate => Map.get 0 i.x.srstate t
          | _ => Map.get 0 i.x.flags t)) x }) ∧
     (r.lane = false → Runs i h →
       (r ≠ .cycle → Does i (.rdsr h o) { flock := (·.setS o.sd.toNat (BitVec.ofNat 64
         (match r with
          | .flock => i.fl | .foldx => i.x.x | .foldy => i.x.y | .foldz => i.x.z | .paddock => i.x.padIdx
          | .core => i.x.lcore % 144 | .cluster => i.x.lcore % 144 / 8 | .die => i.x.lcore / 144 | .width => i.x.width
          | .curve => (s.cluster (i.x.core / 8)).point.toNat | .fmember => i.g.members.toNat | .tagmap => i.x.tagReady.toNat
          | .fpctl => i.x.fpctl.toNat | .accbase => i.k.accBase.toNat | .acclim => i.k.accLim.toNat | .rowprog => i.x.rowProg
          | .replay => i.k.replay.toNat | .privhwm => i.k.privHwm | .heart => s.heart | .lease => i.x.lease.word s.heart
          | _ => 0))) }) ∧
       (r = .cycle → ∃ n t, exec (.rdsr h o) i.s = .next t ∧
         let b : State := { (s.modCore i.x.core fun c => { c with cycle := c.cycle + n }) with fresh := s.fresh + 1 }
         Ends i b t { flock := (·.setS o.sd.toNat (BitVec.ofNat 64 (b.core i.x.core).cycle)) } (toNext i)))) ∧
  (∀ (s : State) (i : Iss) (h : Hdr) (o : SysOp) (r : Sr), s.issuer = some i → Sr.ofId o.srid = some r →
     let val (l : Nat) : W32 := i.vreg (o.imm.toNat % 256) l
     let each (f : Fold → Nat → W32 → Fold) : Effect :=
       { fold := fun x => (lanes (i.active h)).foldl (fun y l => f y (i.thread l) (val l)) x }
     let reserved (v : W32) : Prop := v.msb = true ∨ 0x7F800000 < v.toNat
     let v := i.sval64 o.sa
     (r = .srstate → Does i (.wrsr h o) (each fun y t v => { y with srstate := Map.set 0 y.srstate t v })) ∧
     (r = .flags → Does i (.wrsr h o) (each fun y t v => { y with flags := Map.set 0 y.flags t (v &&& 0x1FF) })) ∧
     (r = .amax → (∀ l ∈ lanes (i.active h), ¬ reserved (val l)) →
       Does i (.wrsr h o) (each fun y t v => { y with amax := Map.set 0 y.amax t v })) ∧
     (r = .amax → ∀ m : Mask, (∀ l < 64, m.getLsbD l = true ↔ (i.active h).getLsbD l = true ∧ reserved (val l)) → m ≠ 0 →
       Faults i (.wrsr h o) .srAccess m 0 0) ∧
     ((r = .laneid ∨ r = .thread) → i.active h ≠ 0 → Faults i (.wrsr h o) .srAccess (i.active h) 0 0) ∧
     (r = .fpctl → Runs i h → v.toNat % 8 < 6 → Does i (.wrsr h o) { fold := fun x => { x with fpctl := v.setWidth 32 &&& 0x7F07 } }) ∧
     (r.lane = false → Runs i h → (r ≠ .fpctl ∨ 6 ≤ v.toNat % 8) → Faults i (.wrsr h o) .srAccess (i.active h) 0 0))

/-- `CKPT` (R202): a release at device scope; a step greater than the flock's recorded one, or its first, is recorded with status
0, any other leaves the record with status 1. `MARK` (R50, R51, R200, R305, R362): a descriptor line that is well formed arms
the mark of a flock that is undivided and whose divergence stack is empty, and the phase of its fold ends; in any other flock
the mark does not arm; and an offset that is no slot 0 of a line, a line of another kind, or a descriptor with a reserved code
faults with `MARK_DESC`, in a divided flock too, which is the model's choice (log 101). -/
def Obligations.CheckpointsAndMarks : Prop :=
  (∀ (s : State) (i : Iss) (h : Hdr) (o : SysOp), s.issuer = some i → Runs i h →
     let b := s.release i.owner .device
     let step := i.sval64 o.sa
     ((∀ c, i.k.ckpt = some c → c < step) → ∃ t, exec (.ckpt h o) i.s = .next t ∧
       After i b t { flock := fun k => ({ k with ckpt := some step } : Flock).setS o.sd.toNat 0 } (toNext i)) ∧
     (∀ c, i.k.ckpt = some c → step ≤ c → ∃ t, exec (.ckpt h o) i.s = .next t ∧
       After i b t { flock := (·.setS o.sd.toNat 1) } (toNext i))) ∧
  (∀ (s : State) (i : Iss) (h : Hdr) (o : SysOp) (at' : Pc), s.issuer = some i → Runs i h → Offset i o.imm.toInt at' →
     let r := i.tableLine i.s (at'.toNat / 5)
     let whole : Prop := i.k.frags.length = 1 ∧ ∀ sp ∈ i.k.splits, sp.serial = none
     (at'.toNat % 5 ≠ 0 → Faults i (.mark h o) .markDesc (i.active h) 0 0) ∧
     (at'.toNat % 5 = 0 → r.2 = .ok none → Faults i (.mark h o) .markDesc (i.active h) 0 0) ∧
     (at'.toNat % 5 = 0 → ∀ line : Line, r.2 = .ok (some line) →
       let d := BitVec.ofNat 480 line.toNat
       (descOk d = false → Faults i (.mark h o) .markDesc (i.active h) 0 0) ∧
       (descOk d = true → bits (lineWord line) 31 18 = 0 →
         (¬ whole → ∃ t, exec (.mark h o) i.s = .next t ∧ After i r.1 t {} (toNext i)) ∧
         (whole → ∃ t, exec (.mark h o) i.s = .next (t.honour i.x.uid) ∧
           After i (if i.x.marks < 15 then r.1.countPhase i.x else r.1) t
             { fold := fun x => { x with marks := x.marks + 1 },
               flock := fun k => { k with armed := some { pc := at', desc := d, markPc := i.g.pc } } } (toNext i)))))

/-- The instructions that wait for a unit of the die or the package (R196, R198, R199): `DCALL` and `LAUNCH` are first a release
at device scope, and the packet of a `LAUNCH` is read as a global load; the fragment then waits for the firmware core, the
command processor or the arbiter, with nothing else changed. An address of a `LAUNCH` that is not a multiple of 64 faults. The
answers that end those waits (R196, R198): the firmware core's status, an acquire at device scope, with all ones for an
unknown service; and the command processor's, once it holds the copy. -/
def Obligations.UnitCalls : Prop :=
  (∀ (s : State) (i : Iss) (h : Hdr) (o : SysOp), s.issuer = some i → Runs i h →
     let b := s.release i.owner .device
     let a := i.sval64 o.sa
     let r := i.resolve b .global .read 0 a.toNat 64
     (o.imm.toNat < 2 ^ 16 → ∃ t, exec (.dcall h o) i.s = .next t ∧ After i b t {} (toPark (.firmware o.imm.toNat a))) ∧
     (∃ t, exec (.leaseReq h o) i.s = .next t ∧ Ends i s t {} (toPark (.lease (some a)))) ∧
     (∃ t, exec (.leaseRet h o) i.s = .next t ∧ Ends i s t {} (toPark (.lease none))) ∧
     (∀ sites bs, r.2 = .ok sites →
       let d := r.1.readSites i.owner i.x.core true (i.checks .global) .deflt sites
       d.2 = .ok bs → ∃ t, exec (.launch h o) i.s = .next t ∧
         After i d.1 t {} (toPark (.cmdproc (BitVec.ofNat 512 (ofLe bs))))) ∧
     (a.toNat < 2 ^ 57 → a.toNat % 64 ≠ 0 → exec (.launch h o) i.s =
       .next (i.take b [({ cause := .misaligned, addr := a.toNat, aux := 0, page := none }, i.active h)] .again))) ∧
  (∀ (s : State) (u fl fr : Nat) (i : Iss) (sd : BitVec 7), EventOf s u fl fr i → i.g.sysDst = some sd →
     (∀ svc arg, i.g.park = .firmware svc arg →
       ∃ t v, exec (.firmwareCoreAnswer u fl fr) s = .next t ∧
         After i (s.acquire i.x.core .device) t { flock := (·.setS sd.toNat v) } (toNext i) ∧
         (svc = 0 → v = arg) ∧
         (svc = 1 → v = BitVec.ofInt 64 ((s.coreTemp i.x.core + 125) / 250)) ∧
         (svc = 2 → v = BitVec.ofNat 64 (5 * s.oper.ceil % 2 ^ 16 + (s.die (i.x.core / 144)).grant % 2 ^ 16 * 2 ^ 16)) ∧
         (svc = 3 → v = BitVec.ofNat 64 s.stepping) ∧
         (4 ≤ svc → v = 0xFFFFFFFFFFFFFFFF)) ∧
     (∀ pkt, i.g.park = .cmdproc pkt →
       let r := s.appendPacket i.x.ctx i.g.launchQueue pkt
       ∃ t, exec (.commandProcessorCopyHeld u fl fr) s = .next t ∧
         After i r.1 t { flock := (·.setS sd.toNat (BitVec.ofNat 64 r.2)) } (toNext i)))

/-- `CURVE` (R50, R53, R54, R201, Table 2.6): an unmarked one writes 1; one to the point and width that the fold has writes 0; one
that a check refuses writes the code of the check; and each goes on after its line. A move of the only fold of its cluster
(R53, R55): with its last flock parked, and no check against it, the move commits: the cluster takes the target point and
settles, every `CURVE` of the fold writes 0, and the fold waits for the end of its move. A move that changes the width (R56,
R57, R58, R59, Table 2.5). Of the only flock of the only fold of its cluster each child holds the bits of its threads of the
masks that the descriptor keeps, the scalars that it keeps, and its parent's window, tokens and high-water mark; no register
of a thread changes; and a child without a member ends. Where the second of two flocks arrives, and nothing makes them
disagree, the two become one, with the masks side by side, the scalars as their policies say, the larger high-water mark, and
the party number of the first. The events of a curve move (R49, R54, R55): the settling of a cluster ends; a committed move
ends once its cluster has settled, and the fold's parked flocks go on, or die where a kill has come since the commit; and a
rendezvous that has been open for 4,000 ticks closes, and its parked `CURVE`s write 8. -/
def Obligations.CurveMoves : Prop :=
  (∀ (s : State) (i : Iss) (h : Hdr) (o : SysOp) (tgt : Pc), s.issuer = some i → Runs i h → i.g.current = some (.curve h o) →
     i.k.frags = [i.g] → i.k.splits = [] → tgt.toNat = i.g.pc.toNat / 5 * 5 + 5 →
     (∀ b, i.g.buf = some b → ∀ j, i.g.pc.toNat % 5 < j → j < 5 → decode .code (slotWord b.data j) = .ok .nop) →
     let c := i.x.core / 8
     let target := BitVec.ofNat 3 o.imm.toNat
     let ends (code : W64) : Prop := ∃ t, exec (.curve h o) i.s = .next t ∧
       Ends i s t { flock := fun k => { k.setS o.sd.toNat code with armed := none, last := none, latOk := 0 } }
         fun g => { g with pc := tgt, park := .ready }
     (i.k.armed = none → (s.cluster c).rdv = none → ends 1) ∧
     (∀ a, i.k.armed = some a →
       (target = (s.cluster c).point → i.x.newWidth a.desc = i.x.width → ends 0) ∧
       (∀ code, ¬ (target = (s.cluster c).point ∧ i.x.newWidth a.desc = i.x.width) → (s.cluster c).rdv = none →
         s.curveRefusal i.x target a.desc false = some code → ends (BitVec.ofNat 64 code)))) ∧
  (∀ (s : State) (i : Iss) (h : Hdr) (o : SysOp) (a : Armed), s.issuer = some i → Runs i h →
     i.g.current = some (.curve h o) → i.k.frags = [i.g] → i.k.splits = [] → i.k.armed = some a →
     let c := i.x.core / 8
     let target := BitVec.ofNat 3 o.imm.toNat
     s.foldsOnCluster c = [i.x] → i.x.flocks = [i.k] → i.x.moveTo = none → (s.cluster c).rdv = none →
     s.folds = [i.x] →
     i.x.newWidth a.desc = i.x.width → i.x.size / i.x.width ≤ 64 → target ≠ (s.cluster c).point →
     s.curveRefusal i.x target a.desc false = none →
     ∃ t y k, exec (.curve h o) i.s = .next t ∧
       t.cluster c = { s.cluster c with point := target, settling := true, rdv := none } ∧
       t.fold? i.x.uid = some y ∧ y.flocks = [k] ∧ { y with flocks := i.x.flocks, moveTo := none } = i.x ∧
       y.moveTo = some i.x.width ∧ k.s = Map.set 0 i.k.s o.sd.toNat 0 ∧ k.armed = none ∧ k.frags.map (·.park) = [.curve] ∧
       t = { s with folds := t.folds, clusters := t.clusters }) ∧
  (∀ (s : State) (i : Iss) (h : Hdr) (o : SysOp) (a : Armed) (tgt : Pc), s.issuer = some i → Runs i h →
     i.g.current = some (.curve h o) → i.k.frags = [i.g] → i.k.splits = [] → i.k.armed = some a →
     tgt.toNat = i.g.pc.toNat / 5 * 5 + 5 →
     (∀ b, i.g.buf = some b → ∀ j, i.g.pc.toNat % 5 < j → j < 5 → decode .code (slotWord b.data j) = .ok .nop) →
     let c := i.x.core / 8
     let target := BitVec.ofNat 3 o.imm.toNat
     let d := a.desc
     let w := i.x.width
     let w' := i.x.newWidth d
     s.foldsOnCluster c = [i.x] → s.folds = [i.x] → i.x.moveTo = none → s.pend = [] → s.groups = [] → i.x.size / w' ≤ 64 →
     i.x.size = w * i.x.flocks.length →
     let moved (t : State) (y : Fold) : Prop := exec (.curve h o) i.s = .next t ∧ t.mem = s.mem ∧ t.cores = s.cores ∧
       t.cluster c = { s.cluster c with point := target, settling := (s.cluster c).settling || (s.cluster c).point != target, rdv := none } ∧
       t.fold? i.x.uid = some y ∧ y.width = w' ∧ y.moveTo = some w' ∧ y.flocks.length = i.x.size / w' ∧
       { y with width := w, flocks := i.x.flocks, bars := i.x.bars, moveTo := none } = i.x
     (i.x.flocks = [i.k] → w' < w → i.x.freshParties w' ≤ s.poolFree → (s.cluster c).rdv = none → s.curveRefusal i.x target d false = none →
       ∃ t y, moved t y ∧ ∀ j k, y.flocks[j]? = some k →
         let cut (m : Mask) : Mask := (m >>> (j * w')) &&& lowMask w'
         (cut i.g.members = 0 → k.frags = []) ∧
         (cut i.g.members ≠ 0 →
           (∃ g, k.frags = [g] ∧ g.members = cut i.g.members ∧ g.exec = cut i.g.exec ∧ g.pc = tgt ∧ g.park = .curve) ∧
           (∀ r < 128, k.sreg r = if r = o.sd.toNat ∨ descScalar d r = 0 then 0 else i.k.sreg r) ∧
           (∀ r < 15, Map.get 0 k.m r = if descMask d r = 0 then 0 else cut (Map.get 0 i.k.m r)) ∧
           k.privHwm = i.k.privHwm ∧ k.accBase = i.k.accBase ∧ k.accLim = i.k.accLim ∧ k.tkErr = i.k.tkErr ∧ k.ckpt = i.k.ckpt ∧
           k.latOk = 0 ∧ k.armed = none)) ∧
     (∀ (k0 : Flock) (g0 : Frag) (r : Rdv), i.x.flocks = [k0, i.k] → i.fl = 1 → w' = 2 * w → w' ≤ 64 → k0.frags = [g0] → k0.splits = [] →
       k0.armed = some a → g0.park = .curve → g0.pc = i.g.pc → g0.buf = i.g.buf → (s.cluster c).rdv = some r → r.target = target →
       s.curveRefusal i.x target d true = none → s.disagree i.x d w' = false → (g0.members ||| i.g.members) &&& lowMask w ≠ 0 →
       ∃ t y k, moved t y ∧ y.flocks = [k] ∧
         let join (m n : Mask) : Mask := (m &&& lowMask w) ||| ((n &&& lowMask w) <<< w)
         (∃ g, k.frags = [g] ∧ g.members = join g0.members i.g.members ∧ g.exec = join g0.exec i.g.exec ∧ g.pc = tgt ∧ g.park = .curve) ∧
         (∀ n < 128, k.sreg n = if n = o.sd.toNat then 0 else
           match descScalar d n with
           | 0 => 0
           | 3 => k0.sreg n + i.k.sreg n
           | 4 => if (k0.sreg n).slt (i.k.sreg n) then i.k.sreg n else k0.sreg n
           | _ => k0.sreg n) ∧
         (∀ n < 15, Map.get 0 k.m n = if descMask d n = 0 then 0 else join (Map.get 0 k0.m n) (Map.get 0 i.k.m n)) ∧
         k.privHwm = max k0.privHwm i.k.privHwm ∧ k.accBase = k0.accBase ∧ k.accLim = k0.accLim ∧ k.tkErr = k0.tkErr ||| i.k.tkErr ∧
         k.party = k0.party ∧ k.latOk = 0 ∧ k.armed = none)) ∧
  (∀ s : State,
     (∀ c, exec (.settlingAndRelockEnd c) s = .next (s.modCluster c fun x => { x with settling := false })) ∧
     (∀ x : Fold, s.fold? x.uid = some x →
       ((s.cluster (x.core / 8)).settling = true ∨ x.moveTo = none → exec (.curveMoveEnd x.uid) s = .next s) ∧
       ((s.cluster (x.core / 8)).settling = false → x.moveTo ≠ none → x.killAfter = false → (∀ k ∈ x.flocks, k.splits = []) →
         ∃ t, exec (.curveMoveEnd x.uid) s = .next t ∧ t = { s with folds := t.folds } ∧ (∀ v, v ≠ x.uid → t.fold? v = s.fold? v) ∧
           t.fold? x.uid = some { x with
             moveTo := none
             flocks := x.flocks.map fun k => { k with frags := k.frags.map fun g => if g.park = .curve then { g with park := .ready } else g } }) ∧
       ((s.cluster (x.core / 8)).settling = false → x.moveTo ≠ none → x.killAfter = true → x.run = .running →
         ∃ t y, exec (.curveMoveEnd x.uid) s = .next t ∧ t.fold? x.uid = some y ∧ y.moveTo = none ∧ y.run = .dying)) ∧
     (∀ (c : Nat) (r : Rdv), (s.cluster c).rdv = some r →
       (s.heart < r.opened + 4000 → exec (.curveTimeout c) s = .next s) ∧
       (r.opened + 4000 ≤ s.heart → ∃ t, exec (.curveTimeout c) s = .next t ∧
         t = { (s.modCluster c fun x => { x with rdv := none }) with folds := t.folds } ∧
         ∀ (x : Fold) (k : Flock) (g : Frag) (sd : BitVec 7), s.fold? x.uid = some x → x.core / 8 = c → x.run ≠ .saved → x.moveTo = none →
           x.flocks = [k] → k.frags = [g] → k.splits = [] → g.park = .curve → g.sysDst = some sd →
           t.fold? x.uid = some { x with flocks :=
             [{ k with s := Map.set 0 k.s sd.toNat 8, armed := none, last := none, latOk := 0, frags := [{ g with pc := g.afterPc, park := .ready }] }] })))

/-- The guard does not matter to barrier membership (R186): an instruction on a barrier of which the issuing flock is no declared
member faults with `BAR_MEMBER`, naming the barrier. Barrier arrivals and looks that do not wait (R32, R35, R187, R188, R190):
`BARA` returns the phase, with bit 63 set on a broken barrier, records the lanes that pass, and is a release with the first
fragment of its flock in the phase; `BART` returns 1 on a broken barrier, 0 when the phase has passed, which is an acquire,
and 3 when it has not. Bits 15:0 of `BARA`'s result on a broken barrier are the model's choice (log 97). -/
def Obligations.BarrierArrivalsAndMembers : Prop :=
  (∀ (s : State) (i : Iss) (h : Hdr) (o : SynOp), s.issuer = some i →
     let key := if o.lvl = 0 then o.bar.toNat else 17 + o.bar.toNat
     let b := s.bar i.x key
     let m := bitMask (if o.lvl = 0 then i.fl else i.x.padIdx)
     (b.declared = false ∨ b.members &&& m = 0) →
       ∀ w ∈ [Instr.bara h o, .barw h o, .bars h o, .bart h o],
         Faults i w .barMember i.g.exec 0 (if o.lvl = 0 then o.bar.toNat else 16 + o.bar.toNat)) ∧
  (∀ (s : State) (i : Iss) (h : Hdr) (o : SynOp), s.issuer = some i → Runs i h → i.g.park = .ready → o.lvl = 0 →
     let key := o.bar.toNat
     let b := s.bar i.x key
     let was := Map.get 0 i.k.passed key
     let mark (t : State) : State := t.modFlock i.x.uid i.fl fun k => { k with passed := Map.set 0 k.passed key (was ||| i.g.members) }
     let status (n : W64) : Effect := { flock := (·.setS o.sd.toNat n) }
     b.declared = true → b.members &&& bitMask i.fl ≠ 0 →
       (b.broken = true → Does i (.bara h o) (status (2 ^ 63 + b.phase.zeroExtend 64))) ∧
       (b.broken = false → was &&& i.g.members ≠ 0 → ∃ t, exec (.bara h o) i.s = .next t ∧
         Ends i s t {} (toPark (.rearrive key b.phase))) ∧
       (b.broken = false → was = 0 → ∃ t, exec (.bara h o) i.s = .next (t.honour i.x.uid) ∧
         After i ((mark (s.release i.owner o.scope)).arriveBar i.x.uid i.fl key) t (status (b.phase.zeroExtend 64)) (toNext i)) ∧
       (b.broken = false → was ≠ 0 → was &&& i.g.members = 0 → ∃ t, exec (.bara h o) i.s = .next (t.honour i.x.uid) ∧
         After i (mark s) t (status (b.phase.zeroExtend 64)) (toNext i)) ∧
       (let ph := (i.sval64 o.sa).setWidth 16
        (b.broken = true → Does i (.bart h o) (status 1)) ∧
        (b.broken = false → ph = b.phase → Does i (.bart h o) (status 3)) ∧
        (b.broken = false → ph ≠ b.phase → ∃ t, exec (.bart h o) i.s = .next t ∧
          After i (s.acquire i.x.core o.scope) t (status 0) (toNext i))))

/-- Barrier waits (R35, R189, R190, R192): a broken barrier ends a wait at once with status 1; a wait for a phase that has passed
ends with status 0, an acquire; any other waits, with its deadline; and a wait in progress ends so when it is looked at again.
The last arrival completes a phase (R32, R189): where every other member of a fold barrier has arrived, `BARW` ends with
status 0, the phase is one more, and no arrival is held any more; where one has not, the fragment waits for the phase. -/
def Obligations.BarrierEnds : Prop :=
  (∀ (s : State) (i : Iss) (h : Hdr) (o : SynOp), s.issuer = some i → Runs i h →
     let status (n : W64) : Effect := { flock := (·.setS o.sd.toNat n) }
     let deadline : Option Nat := if o.tmo = 0 then none else some (s.heart + o.tmo.toNat)
     let waits (w : Instr) (key : Nat) : Prop :=
       let b := s.bar i.x key
       (i.g.park = .ready → b.broken = true → Does i w (status 1)) ∧
       (∀ k ph dl, i.g.park = .barrier k ph dl →
         (b.phase ≠ ph → ∃ t, exec w i.s = .next t ∧ After i (s.acquire i.x.core o.scope) t (status 0) (toNext i)) ∧
         (b.phase = ph → b.broken = true → Does i w (status 1)) ∧
         (b.phase = ph → b.broken = false → ∃ t, exec w i.s = .next t ∧ Ends i s t {} (toPark (.barrier key ph dl))))
     let key := o.bar.toNat
     let b := s.bar i.x key
     let ph := (i.sval64 o.sa).setWidth 16
     (o.lvl = 0 → b.declared = true → b.members &&& bitMask i.fl ≠ 0 →
       waits (.barw h o) key ∧ waits (.bars h o) key ∧
       (i.g.park = .ready → b.broken = false → ph ≠ b.phase → ∃ t, exec (.bars h o) i.s = .next t ∧
         After i (s.acquire i.x.core o.scope) t (status 0) (toNext i)) ∧
       (i.g.park = .ready → b.broken = false → ph = b.phase → ∃ t, exec (.bars h o) i.s = .next t ∧
         Ends i s t {} (toPark (.barrier key ph deadline)))) ∧
     waits (.fsync h o) 16) ∧
  (∀ (s : State) (i : Iss) (h : Hdr) (o : SynOp), s.issuer = some i → Runs i h → i.g.park = .ready → o.lvl = 0 →
     i.k.frags = [i.g] → i.k.splits = [] → i.x.wants = none → s.pend = [] → s.groups = [] →
     Map.wf BarSt.none i.x.bars = true → i.fl < 64 → s.phaseOf i.k.party ≠ 0xFFFF → i.x.width ≠ 0 →
     let key := o.bar.toNat
     let b := s.bar i.x key
     b.declared = true → b.members &&& bitMask i.fl ≠ 0 → b.broken = false → Map.get 0 i.k.passed key = 0 →
     (b.stream = true → b.streamArrived = false → i.x.streamGone = true) →
       (b.members &&& ~~~(b.arrived ||| b.permanent ||| bitMask i.fl) = 0 →
         ∃ t y k, exec (.barw h o) i.s = .next t ∧ t.fold? i.x.uid = some y ∧ y.flocks[i.fl]? = some k ∧
           t.bar y key = { b with phase := b.phase + 1, arrived := 0, streamArrived := false } ∧
           k.s = Map.set 0 i.k.s o.sd.toNat 0 ∧ (∀ g ∈ k.frags, g.pc = i.g.pc + 1 ∧ g.park = .ready) ∧ t.mem = s.mem) ∧
       (b.members &&& ~~~(b.arrived ||| b.permanent ||| bitMask i.fl) ≠ 0 →
         ∃ t y k, exec (.barw h o) i.s = .next t ∧ t.fold? i.x.uid = some y ∧ y.flocks[i.fl]? = some k ∧
           t.bar y key = { b with arrived := b.arrived ||| bitMask i.fl } ∧ k.s = i.k.s ∧
           k.frags = [{ i.g with park := .barrier key b.phase (if o.tmo = 0 then none else some (s.heart + o.tmo.toNat)) }] ∧ t.mem = s.mem))

/-- Fences (R252, R253, R329, R330): an acquiring `FENCE` completes at once, with the phases at hand risen (log 118), and at
paddock scope and wider leaves no line in the core's L1; a releasing one goes on at once and leaves a release behind the
flock's earlier writes, which holds its later ones, where R252 says that it waits: the model's choice (log 20); `FENCE.SC`
drains, releases, acquires and waits for a tick. The heartbeat (R253, R330, Table 3.2): a device tick counts the heartbeat on
and ends the one waiting device fence of the package with the new count, after it has written the fault records that wait
(R368), as an acquire; a domain tick counts the domain's ticks on and leaves the heartbeat alone. -/
def Obligations.FencesAndTicks : Prop :=
  (∀ (s : State) (i : Iss) (h : Hdr) (o : SynOp), s.issuer = some i → Runs i h →
     let risen := s.settleRaises
     let acquired := if 2 ≤ o.scope.code then risen.modCore i.x.core fun c => { c with l1 := [] } else risen
     let released (t : State) : State :=
       { t with nextId := t.nextId + 1,
                pend := t.pend ++ [{ owner := i.owner, core := i.x.core, loc := .scr 0 0, kind := .release o.scope true true, grp := t.nextId,
                                     visible := false, checked := false, mark := none, managed := false, key := 0 }] }
     (o.fk = 1 → ∃ t, exec (.fence h o) i.s = .next t ∧ After i acquired t {} (toNext i)) ∧
     (o.fk = 2 → ∃ t, exec (.fence h o) i.s = .next t ∧ Ends i (released s) t {} (toNext i)) ∧
     (o.fk = 3 → ∃ t, exec (.fence h o) i.s = .next t ∧ After i (released acquired) t {} (toNext i)) ∧
     (∃ t, exec (.fenceSc h o) i.s = .next t ∧
       After i ((s.release i.owner o.scope).acquire i.x.core o.scope) t {} (toPark (.fenceSc (o.scope == .domain))))) ∧
  (∀ s : State,
     (∃ t, exec (.heartbeatTick false) s = .next t ∧ t.heart = s.heart + 1 ∧ t.domTicks = s.domTicks ∧
       (s.pend = [] → (∀ c x, s.ctx c = some x → x.unwritten = []) → t.mem = s.mem)) ∧
     (∃ t, exec (.heartbeatTick true) s = .next t ∧ t.domTicks = s.domTicks + 1 ∧ t.heart = s.heart ∧ t.mem = s.mem) ∧
     (∀ (u fl fr : Nat) (i : Iss) (sd : BitVec 7), s.iss? u fl fr = some i → s.fenceWaiters false = [(u, fl, fr)] →
       i.g.fenceDst = some sd → (∀ c, (s.cluster c).rdv = none) →
       ∃ t b, exec (.heartbeatTick false) s = .next t ∧
         b = ([0, 1, 2].foldl (fun (t : State) d => t.count 3 (8 * d + (t.die d).cur) 1) { s with heart := s.heart + 1 }).flushAll.acquire
           i.x.core .device ∧
         After i b t { flock := (·.setS sd.toNat (BitVec.ofNat 64 (s.heart + 1))) } (toNext i)))

/-- Tags and tokens (R267 to R270): `TAGW` returns the ready tags of its mask and is an acquire, waits, or at its timeout returns
what is ready; `TAGFF` returns the lowest ready tag with its error bit; `TAGREL` is a release and frees the tags of its mask;
`TOKW` waits for its tokens and returns and clears their error bits; and a mask bit at or above the fold's tag count faults.
That an acquire at fold scope of a tag which another core's job has set drops the L1's lines as one at paddock scope does is
the model's reading (log 129). Parked waits that an event of time ends (R189, R190, R267, R330): a barrier wait at its
deadline with status 2, where its phase has not passed and its barrier is not broken; a `TAGW` at its deadline with what is
ready of its mask; and a domain `FENCE.SC` after its 200 ns with the tick's number, an acquire. -/
def Obligations.TagsTokensTimeouts : Prop :=
  (∀ (s : State) (i : Iss) (h : Hdr) (o : SynOp), s.issuer = some i → Runs i h → i.g.park = .ready →
     let m := i.sval64 o.sa
     let status (n : W64) : Effect := { flock := (·.setS o.sd.toNat n) }
     let acquired (m : Mask) := s.acquire i.x.core (if o.scope = .fold ∧ i.x.tagReady &&& m &&& i.x.tagFar ≠ 0 then .paddock else o.scope)
     let deadline : Option Nat := if o.tmo = 0 then none else some (s.heart + o.tmo.toNat)
     let isReady : Prop := if o.bar.getLsbD 0 then m = 0 ∨ i.x.tagReady &&& m ≠ 0 else i.x.tagReady &&& m = m
     (m.toNat < 2 ^ i.x.tags →
       (isReady → ∃ t, exec (.tagw h o) i.s = .next t ∧ After i (acquired m) t (status (i.x.tagReady &&& m)) (toNext i)) ∧
       (¬ isReady → ∃ t, exec (.tagw h o) i.s = .next t ∧ Ends i s t {} (toPark (.tag m deadline))) ∧
       (i.x.tagReady &&& m = 0 → Does i (.tagff h o) (status 64)) ∧
       (∀ n < 64, (i.x.tagReady &&& m).getLsbD n = true → (∀ j < n, (i.x.tagReady &&& m).getLsbD j = false) →
         ∃ t, exec (.tagff h o) i.s = .next t ∧
           After i (acquired (bitMask n)) t (status (BitVec.ofNat 64 n + if i.x.tagErr.getLsbD n then 256 else 0)) (toNext i)) ∧
       (let mine (e : Pend) : Bool := e.inFold i.x.uid && (e.visible || e.owner.meets i.owner)
        ∃ t, exec (.tagrel h o) i.s = .next t ∧ After i ((s.release i.owner o.scope).drain mine) t
         { fold := fun x => { x with tagReady := x.tagReady &&& ~~~m, tagErr := x.tagErr &&& ~~~m, tagFar := x.tagFar &&& ~~~m },
           flock := (·.setS o.sd.toNat (i.x.tagErr &&& m)) } (toNext i))) ∧
     (2 ^ i.x.tags ≤ m.toNat → ∀ w ∈ [Instr.tagw h o, .tagff h o, .tagrel h o], Faults i w .tagRange (i.active h) 0 0) ∧
     (let k : BitVec 8 := m.setWidth 8
      ((∀ n < 8, k.getLsbD n = true → i.tokCount n = 0) → ∃ t, exec (.tokw h o) i.s = .next t ∧
        After i (s.acquire i.x.core .fold) t { flock := fun f => ({ f with tkErr := f.tkErr &&& ~~~k } : Flock).setS o.sd.toNat ((i.k.tkErr &&& k).zeroExtend 64) }
          (toNext i)) ∧
      ((∃ n < 8, k.getLsbD n = true ∧ i.tokCount n ≠ 0) → ∃ t, exec (.tokw h o) i.s = .next t ∧ Ends i s t {} (toPark (.tokw k))))) ∧
  (∀ (s : State) (u fl fr : Nat) (i : Iss),
     (∀ (o : SynOp) (key : Nat) (ph : BitVec 16) (d : Nat), EventOf s u fl fr i → i.g.park = .barrier key ph (some d) →
       i.g.synOp = some o → d ≤ s.heart → (s.bar i.x key).phase = ph → (s.bar i.x key).broken = false →
       ∃ t, exec (.barrierTimeout u fl fr) s = .next t ∧ Ends i s t { flock := (·.setS o.sd.toNat 2) } (toNext i)) ∧
     (∀ (o : SynOp) (m : Mask) (d : Nat), EventOf s u fl fr i → i.g.park = .tag m (some d) → i.g.synOp = some o → d ≤ s.heart →
       ∃ t b, exec (.tagwTimeout u fl fr) s = .next t ∧ (b = s ∨ b = s.acquire i.x.core (i.tagScope o.scope m)) ∧
         After i b t { flock := (·.setS o.sd.toNat (i.x.tagReady &&& m)) } (toNext i)) ∧
     (∀ (n : Nat) (sd : BitVec 7), s.iss? u fl fr = some i → i.g.park = .domDelay n → i.g.fenceDst = some sd →
       ∃ t, exec (.domainFenceScDelay u fl fr) s = .next t ∧
         After i (s.acquire i.x.core .device) t { flock := (·.setS sd.toNat (BitVec.ofNat 64 n)) } (toNext i)))

/-- Loads (R232, R237, R238, R239, R240): where every active lane's read succeeds, the instruction completes: the values are fixed
and outstanding, to land in the registers of the lanes later, and its token counts one reference more; `SLD` writes its scalar
at issue. That the values are fixed, and `SLD`'s scalar written, at issue is the model's reading (log 17). An acquiring load
acquires first, and the phases that are at hand once it has read rise before what follows it (log 118). What a load of the
fold's own scratchpad reads (R69, R73, R112): the bytes at the exact address, lowest first; an address outside the allocation
faults with `SCRATCH_RANGE`, one that is not a multiple of the size with `MISALIGNED`. `PREF` has no effect on a register
(R241): it brings lines and tiles nearer, drops the lanes whose address fails, and goes on. -/
def Obligations.LoadsAndPrefetches : Prop :=
  (∀ (s : State) (i : Iss) (h : Hdr) (o : MemOp), s.issuer = some i → i.k.replayFid = none →
     let acquired : State := if o.ord = .acq ∧ i.active h ≠ 0 then s.acquire i.x.core o.scope else s
     let settled (t : State) : State := if o.ord = .acq ∧ i.active h ≠ 0 then t.settleRaises else t
     let lo := i.fl * i.x.width
     let issued (w : Instr) (n : Nat) (read : State → Nat → State × Except FInfo (List Byte)) : Prop :=
       let q := overLanes read (lanes (i.active h)) acquired
       let b := settled q.1
       let words := q.2.1.flatMap fun p =>
         (loadWords n o.sext p.2).zipIdx.map fun r => ((o.data.toNat + r.2) * i.x.size + (lo + p.1), r.1)
       q.2.2 = [] →
         (words = [] → ∃ t, exec w i.s = .next t ∧ After i b t {} (toNext i)) ∧
         (words ≠ [] → ∃ t, exec w i.s = .next t ∧ After i { b with nextId := b.nextId + 1 } t
           { fold := fun x =>
               { x with loads := x.loads ++ [{ id := b.nextId, lo := lo, hi := lo + i.x.width, words := words,
                                               tok := if o.toke then some o.tokn.toNat else none, counts := true }],
                        toks := if o.toke then x.toks ++ [{ id := b.nextId, lo := lo, hi := lo + i.x.width, tk := o.tokn.toNat }]
                                else x.toks } } (toNext i))
     o.ord = .plain ∨ o.ord = .acq →
     issued (.vld h o) (2 ^ o.size.toNat) (i.loadLane o.space o.cpol (i.memAddr o) (2 ^ o.size.toNat)) ∧
     (Runs i h → ∀ v b,
       i.loadLane o.space o.cpol (i.memAddr o) (2 ^ o.size.toNat) (if o.ord = .acq then s.acquire i.x.core o.scope else s) 0 = (b, .ok v) →
       o.data.toNat < 128 →
       ∃ t, exec (.sld h o) i.s = .next t ∧ After i (if o.ord = .acq then b.settleRaises else b) t
         { flock := (·.setS o.data.toNat (BitVec.ofNat 64
           (if o.sext then wrap 64 (sval (8 * 2 ^ o.size.toNat) (ofLe v)) else ofLe v))) } (toNext i)) ∧
     (∀ y, i.g.park = .ready → s.window i.x.ctx (i.sval64 o.addr).toNat = .ok y →
       (∀ l ∈ lanes (i.active h), y.winBusy (winRegion (i.sval64 o.addr).toNat) (winLane o (i.sval64 o.addr).toNat l) (winWords o) = false) →
       issued (.vldw h o) (4 * winWords o) fun u l =>
         match winResolve o y (i.sval64 o.addr).toNat l with
         | .error f => (u, .error f)
         | .ok sites =>
           let r := u.readSites i.owner i.x.core false (s.raceOn i.x.gid) o.cpol sites
           match r.2 with
           | .error f => (r.1, .error { f with addr := winAddr o (i.sval64 o.addr).toNat l })
           | .ok bs => (r.1, .ok bs))) ∧
  (∀ (s : State) (i : Iss) (o : MemOp) (l n a : Nat), s.issuer = some i → s.pend = [] → s.groups = [] → s.raceOn i.x.gid = false →
     o.space = .fold → n ∈ [1, 2, 4, 8, 16, 32] → i.memAddr o l = a →
     let read := i.loadLane o.space o.cpol (i.memAddr o) n s l
     (a + n ≤ i.x.scrBytes → a % n = 0 → read = (s, .ok ((List.range n).map fun j => Map.get 0 i.x.scr (a + j)))) ∧
     (i.x.scrBytes < a + n → read = (s, .error { cause := .scratchRange, addr := a % 2 ^ 64, aux := 0, page := none })) ∧
     (a + n ≤ i.x.scrBytes → a % n ≠ 0 → read = (s, .error { cause := .misaligned, addr := a % 2 ^ 64, aux := 0, page := none }))) ∧
  (∀ (s : State) (i : Iss) (h : Hdr) (o : MemOp), s.issuer = some i →
     ∃ t, exec (.pref h o) i.s = .next t ∧ Ends i ((lanes (i.active h)).foldl (i.prefLane o) s) t {} (toNext i))

/-- A memory instruction with faulting lanes (R242): the other lanes complete, those of a store are performed before the records
are written, `SR.REPLAY` receives the faulting ones, and the flock stops on their records, to re-execute over them. Loads and
stores of the buffer (R236, R238): the data of a load land in the registers of one thread, which are outstanding no more; a
buffered store that its core sees is performed at its home: the bytes it stores read back there, and every other byte of
memory reads as before; of two stores of one core to the same bytes, as two lanes of one instruction make them, the later's
stay (R236); and a store whose home takes no write has no effect (R105, R401, R420; log 90). -/
def Obligations.AccessOutcomes : Prop :=
  (∀ (s : State) (i : Iss) (h : Hdr) (o : MemOp), s.issuer = some i → i.k.replayFid = none → o.ord = .plain → o.toke = false →
     let n := 2 ^ o.size.toNat
     (s.pend = [] →
       let q := overLanes (fun t l => i.storeLane o.space false s.nextId (i.memAddr o l) (i.dataBytes o.data.toNat n l) t l) (lanes (i.active h))
         { s with nextId := s.nextId + 1 }
       q.2.2 ≠ [] → (∀ p ∈ q.2.1, p.2 = false) →
         ∃ b, exec (.vst h o) i.s = .next (i.take b (groupFaults q.2.2) .replay) ∧ b.pend = [] ∧ ∃ y k, b.fold? i.x.uid = some y ∧ y.flocks[i.fl]? = some k ∧
           k.replay = q.2.2.foldl (fun m p => m ||| bitMask p.1) 0) ∧
     (let q := overLanes (i.loadLane o.space o.cpol (i.memAddr o) n) (lanes (i.active h)) s
     let words := q.2.1.flatMap fun p =>
       (loadWords n o.sext p.2).zipIdx.map fun r => ((o.data.toNat + r.2) * i.x.size + (i.fl * i.x.width + p.1), r.1)
     q.2.2 ≠ [] → words ≠ [] →
       ∃ b, exec (.vld h o) i.s = .next (i.take b (groupFaults q.2.2) .replay) ∧
         b = (({ q.1 with nextId := q.1.nextId + 1 } : State).modFold i.x.uid fun x =>
             { x with loads := x.loads ++ [{ id := q.1.nextId, lo := i.fl * i.x.width, hi := i.fl * i.x.width + i.x.width, words := words,
                                             tok := none, counts := true }] }).modFlock i.x.uid i.fl fun k =>
           { k with replay := q.2.2.foldl (fun m p => m ||| bitMask p.1) 0, replayFid := none })) ∧
  ((∀ (s : State) (x : Fold) (q : LoadItem) (th : Nat), s.fold? x.uid = some x → x.run ≠ .saved → x.loads = [q] →
     ∃ t y, exec (.loadLands x.uid q.id th) s = .next t ∧ t = { s with folds := t.folds } ∧ t.fold? x.uid = some y ∧
       { y with v := x.v, loads := x.loads, toks := x.toks } = x ∧
       y.v = (q.words.filter fun p => p.1 % x.size = th).foldl (fun v p => Map.set 0 v p.1 p.2) x.v ∧
       (let rest := q.words.filter fun p => p.1 % x.size ≠ th
        (rest = [] → y.loads = [] ∧ y.toks = x.toks.filter fun r => r.id ≠ q.id) ∧
        (rest ≠ [] → y.loads = [{ q with words := rest }] ∧ y.toks = x.toks))) ∧
   (∀ (s : State) (before : List Pend) (e : Pend) (k : Nat) (bs : List Byte), s.pend = before ++ [e] →
     (∀ p ∈ before ++ [e], p.core = e.core ∧ p.loc = .mem k ∧ p.visible = true ∧ p.managed = false ∧ p.key = 0 ∧
       ∃ c, p.kind = .write c ∧ c.length = bs.length) →
     e.kind = .write bs → bs ≠ [] → s.lineKey = [] → MemoryCanonical s →
     ∃ t, exec (.storePerformed before.length) s = .next t ∧ t.pend = [] ∧ MemoryCanonical t ∧
       (s.takes 0 k = true →
         (∀ j, j < bs.length → some (t.byte (k + j)) = bs[j]?) ∧
         (∀ a, (a < k ∨ k + bs.length ≤ a) → t.byte a = s.byte a)) ∧
       (s.takes 0 k = false → t.mem = s.mem)) ∧
   (∀ (s : State) (e : Pend), s.pend = [e] → e.visible = false → e.isRelease = false → (∀ g ∈ s.groups, g.grp = e.grp) →
     exec (.storePerformed 0) s = .next { s with pend := [{ e with visible := true }] }))

/-- Stores (R236, R237, R238, R239, R240): where the pieces of every lane are in place, none is replicated and none meets a
conflict, the bytes enter the buffer of the core in the order of the lanes and of their pieces, at the addresses that the
address operands give; memory and every scratchpad hold what they held; and a token counts one reference more. A releasing
store stands between its releases. -/
def Obligations.Stores : Prop :=
  ∀ (s : State) (i : Iss) (h : Hdr) (o : MemOp), s.issuer = some i → i.k.replayFid = none → o.ord = .plain ∨ o.ord = .rel →
    let n := 2 ^ o.size.toNat
    let rel (holds raise : Bool) : List Pend :=
      if o.ord = .rel then [{ owner := i.owner, core := i.x.core, loc := .scr 0 0, kind := .release o.scope holds raise, grp := s.nextId,
                              visible := false, checked := false, mark := none, managed := false, key := 0 }] else []
    let entry (check : Bool) (p : Site × List Byte) : Pend :=
      { owner := i.owner, core := i.x.core, loc := p.1.loc, kind := .write p.2, grp := s.nextId, visible := false,
        checked := check && p.1.checkable, mark := none, managed := p.1.managed, key := p.1.crypt }
    let start : State := { s with nextId := s.nextId + 1, pend := s.pend ++ rel true false }
    let stored (check : Bool) (place : State → Nat → State × Except FInfo (List Site)) (data : Nat → List Byte) (t : State) (l : Nat) :
        Option (State × List Site) :=
      match place t l with
      | (b, .ok sites) =>
        if sites ≠ [] ∧ ∀ p ∈ sites, p.replicated = false ∧ b.checkWrite i.owner check p = none then
          some ({ b with pend := b.pend ++ (spread sites (data l)).map (entry check) }, sites)
        else none
      | _ => none
    let stores (w : Instr) (ls : List Nat) (check : Bool) (place : State → Nat → State × Except FInfo (List Site))
        (data : Nat → List Byte) : Prop :=
      ls ≠ [] → ∀ b all, eachLane (stored check place data) ls start = some (b, all) →
      let made : State := if o.ord = .rel then ({ b with pend := b.pend ++ rel false true } : State).sweepGroups else b
      ∃ t, exec w i.s = .next t ∧ t.mem = s.mem ∧ (∀ v x y, s.fold? v = some x → t.fold? v = some y → y.scr = x.scr) ∧
        b.pend = start.pend ++ all.flatMap (fun p => (spread p.2 (data p.1)).map (entry check)) ∧
        After i { made with groups := made.groups ++ if o.toke then [{ grp := s.nextId, fold := i.x.uid, tok := o.tokn.toNat }] else [] } t
          { fold := fun x => if o.toke then
              { x with toks := x.toks ++ [{ id := s.nextId, lo := i.fl * i.x.width, hi := i.fl * i.x.width + i.x.width, tk := o.tokn.toNat }] }
              else x } (toNext i)
    stores (.vst h o) (lanes (i.active h)) (i.checks o.space) (fun t l => i.resolve t o.space .write l (i.memAddr o l) n)
      (i.dataBytes o.data.toNat n) ∧
    (Runs i h → o.data.toNat < 128 →
      stores (.sst h o) [0] (i.checks o.space) (fun t l => i.resolve t o.space .write l (i.memAddr o l) n)
        (fun _ => leBytes n (i.k.sreg o.data.toNat).toNat)) ∧
    (∀ y, i.g.park = .ready → s.window i.x.ctx (i.sval64 o.addr).toNat = .ok y →
      (∀ l ∈ lanes (i.active h), y.winBusy (winRegion (i.sval64 o.addr).toNat) (winLane o (i.sval64 o.addr).toNat l) (winWords o) = false) →
      stores (.vstw h o) (lanes (i.active h)) (s.raceOn i.x.gid) (fun t l => (t, winResolve o y (i.sval64 o.addr).toNat l))
        (i.dataBytes o.data.toNat (4 * winWords o))) ∧
    (i.active h = 0 → Does i (.vst h o) {})

/-- The operations of Table 9.6 (R246) at the integer types: the value that an atomic stores for the old value and its operands.
Atomics on plain memory (R245, R246, R247): the lanes execute in rising order, each in the state that the one before it left;
a returning one reads and writes the home in one step and gives its lane the old value; one that does not return enters the
buffer of its core, where a `RED` may combine lanes (R248); and of unencrypted memory every byte outside those of the lanes
reads as before. -/
def Obligations.AtomicAccesses : Prop :=
  (∀ t : AtmTy, t.ty.isInt = true → ∀ m a b : BitVec t.ty.bits,
     let op (n : Nat) : BitVec t.ty.bits := BitVec.ofNat _ (atomNew n t m.toNat a.toNat b.toNat)
     op 0 = m + a ∧ op 1 = m - a ∧ op 2 = m &&& a ∧ op 3 = m ||| a ∧ op 4 = m ^^^ a ∧
     op 5 = (if lessThan t.ty a m then a else m) ∧ op 6 = (if lessThan t.ty m a then a else m) ∧ op 7 = a ∧
     op 8 = (if m = a then b else m) ∧
     (t.ty.signed = false → op 9 = (if a ≤ m then 0 else m + 1) ∧ op 10 = (if m = 0 ∨ a < m then a else m - 1) ∧
       op 11 = (if m.toNat + a.toNat ≤ b.toNat then m + a else m) ∧
       (atomFail 11 m.toNat a.toNat b.toNat = true ↔ b.toNat < m.toNat + a.toNat))) ∧
  (∀ (s : State) (i : Iss) (h : Hdr) (o : AtmOp), s.issuer = some i → i.k.replayFid = none → o.ord = .plain →
     i.active h ≠ 0 → s.pend = [] → s.groups = [] →
     let start : State := { s with nextId := s.nextId + 1 }
     let word (t : State) (l : Nat) : Option (State × Nat × Leaf) :=
       match i.resolve t .global (.atomic o.ret) l (i.atmAddr o l) o.ty.bytes with
       | (b, .ok [{ loc := .mem k, n := n, leaf := some p }]) =>
         if n = o.ty.bytes ∧ p.ml = false ∧ p.rp = false ∧ b.rangeBad k n = false then some (b, k, p) else none
       | _ => none
     let drop (t : State) (k : Nat) : State := t.modCore i.x.core fun c => { c with l1 := c.l1.filter (·.num ≠ k / 64) }
     let returning (t : State) (l : Nat) : Option (State × Nat × Nat) :=
       (word t l).map fun (b, k, p) =>
         let old := ofLe (b.readAs (b.matOf p.crypt) k o.ty.bytes)
         let new := atomNew o.aop.toNat o.ty old (i.atmA o l) (i.atmB o l)
         (drop (if new = old then b else (b.writeAs (b.matOf p.crypt) k (leBytes o.ty.bytes new)).notify k o.ty.bytes) k, k, old)
     let buffered (t : State) (l : Nat) : Option (State × Nat) :=
       (word t l).map fun (b, k, p) =>
         ({ b with pend := b.pend ++ [{ owner := i.owner, core := i.x.core, loc := .mem k,
                                        kind := .update o.aop.toNat o.ty (BitVec.ofNat 64 (i.atmA o l)) (BitVec.ofNat 64 (i.atmB o l)),
                                        grp := s.nextId, visible := false, checked := false, mark := none, managed := false,
                                        key := p.crypt }] }, k)
     (o.ret = true → ∀ b got, eachLane returning (lanes (i.active h)) start = some (b, got) → ∃ t, exec (.atom h o) i.s = .next t ∧
       Ends i b t { fold := fun x => got.foldl (fun y w => i.atmResult o y w.1 w.2.2) x } (toNext i) ∧
       (s.lineKey = [] → (∀ id, s.matOf id = none) → MemoryCanonical s →
         ∀ a, (∀ w ∈ got, a < w.2.1 ∨ w.2.1 + o.ty.bytes ≤ a) → t.byte a = s.byte a)) ∧
     (o.ret = false → ∀ b got, eachLane buffered (lanes (i.active h)) start = some (b, got) →
       (∃ t, exec (.atom h o) i.s = .next t ∧ t.mem = s.mem ∧ Ends i b t {} (toNext i)) ∧
       (∃ t, exec (.red h o) i.s = .next t ∧ t.mem = s.mem ∧ Ends i (b.combine s.nextId) t {} (toNext i))))

/-- `WAITA` (R97, R250, R331): where every lane's value satisfies its condition, the lanes that return get it, and the instruction
completes as an acquire; else the fragment waits with the lanes that are left, each of which has its line in the watch table
of the line's home unless that table is full; and a look at them again (a wake of a written line, a poll of a lane that found
the table full) or the deadline ends the wait in the same way. Accesses that are not answered (R107, R408): where the lock of
the line that a lane's commit to a replicated page needs is not obtained in time, the lane faults with `MM_REPLICA_TIMEOUT`
and stores nothing, and where the free value that picks those lanes (log 2) does not pick it, its store commits: which lanes,
and that an event brings it about, is the model's (log 31); and a party whose next remote access is not answered is marked so
(log 32). -/
def Obligations.WaitsOnMemory : Prop :=
  (∀ (s : State) (i : Iss),
     let returned (o : AtmOp) (ws : List WaitLane) : Fold → Fold := fun x =>
       if o.ret then ws.foldl (fun y w => y.putV o.ty.ty o.data.toNat (i.thread w.lane) w.last) x else x
     let ok (o : AtmOp) (w : WaitLane) : Bool := waitCond o.aop.toNat o.ty.ty w.last w.a
     let watched (t : State) (left : List WaitLane) : Prop := ∀ w ∈ left,
       (t.watchOf i.x.uid i.fl i.g.fid w.line).isSome = true ∨ 4096 ≤ t.watchUsed (watchDie i.x.core w.line)
     (∀ (h : Hdr) (o : AtmOp), s.issuer = some i → i.k.replayFid = none →
       let q := overLanes (fun t l => i.waitRead o t l (i.atmAddr o l)) (lanes (i.active h)) s
       let ws := q.2.1.map fun p =>
         ({ lane := p.1, addr := (i.atmAddr o p.1).toNat, line := p.2.1, a := i.atmA o p.1, last := p.2.2 } : WaitLane)
       (i.active h = 0 → Does i (.waita h o) {}) ∧
       (i.active h ≠ 0 → q.2.2 = [] → (∀ w ∈ ws, ok o w = true) → ∃ t, exec (.waita h o) i.s = .next t ∧
         After i (q.1.acquire i.x.core o.scope) t { fold := returned o ws } (toNext i)) ∧
       (i.active h ≠ 0 → q.2.2 = [] → (∃ w ∈ ws, ok o w = false) → ∃ t, exec (.waita h o) i.s = .next t ∧
         watched t (ws.filter fun w => !ok o w) ∧
         After i { q.1 with watch := t.watch } t { fold := returned o (ws.filter (ok o)) } (toPark (.waita (ws.filter fun w => !ok o w)
           (if i.sval64 o.opb = 0 then none else some (q.1.heart + (i.sval64 o.opb).toNat)))))) ∧
     (∀ (u fl fr : Nat) (h : Hdr) (o : AtmOp) (left : List WaitLane) (dl : Option Nat), EventOf s u fl fr i → u ≠ 0 →
       i.k.replayFid = none → i.g.park = .waita left dl → i.g.current = some (.waita h o) →
       (∀ d, dl = some d → d ≤ s.heart → ∃ t, exec (.waitaTimeout u fl fr) s = .next t ∧
         After i (s.acquire i.x.core o.scope) t { fold := returned o left } (toNext i)) ∧
       (∀ w, left = [w] →
         let woken : State := { s with watch := s.watch.map fun e => if e.ofFrag u fl fr then { e with due := false } else e }
         let looks (e : Instr) (a : State) : Prop := ∀ line v b, i.waitRead o a w.lane w.addr = (b, .ok (line, v)) →
           let w' : WaitLane := { w with line := line, last := v }
           (ok o w' = true → ∃ t, exec e s = .next t ∧ After i (b.acquire i.x.core o.scope) t { fold := returned o [w'] } (toNext i)) ∧
           (ok o w' = false → ∃ t, exec e s = .next t ∧ watched t [w'] ∧
             After i { b with watch := t.watch } t {} (toPark (.waita [w'] dl)))
         (∀ e, s.watchOf u fl fr w.line = some e → e.due = true ∨ e.die = 3 → looks (.waitaWake u fl fr) woken) ∧
         (s.watchOf u fl fr w.line = none → looks (.watchPoll u fl fr) s)))) ∧
  ((∀ (s : State) (u fl fr : Nat) (i : Iss) (h : Hdr) (o : MemOp) (l k : Nat) (p : Leaf) (w : Held), EventOf s u fl fr i →
     (∀ e ∈ s.pend, e.grp ≠ s.nextId) → i.g.park = .commit w → i.g.current = some (.vst h o) → i.k.replayFid = none → o.ord = .plain → lanes (i.active h) = [l] →
     let n := 2 ^ o.size.toNat
     let r := i.resolve { s with nextId := s.nextId + 1 } o.space .write l (i.memAddr o l) n
     r.2 = .ok [{ loc := .mem k, n := n, leaf := some p }] → p.rp = true →
     let site : Site := { loc := .mem k, n := n, leaf := some p }
     r.1.checkWrite i.owner (i.checks o.space) site = none →
     if r.1.flip.1 = true then
       ∃ b, exec (.replicaLockTimeout u fl fr) s = .next (i.take b
           [({ cause := .replicaTimeout, addr := i.recAddr o.space l (i.memAddr o l), aux := 0, page := none }, bitMask l)] .replay) ∧
         b.pend = r.1.pend ∧ b.mem = r.1.mem
     else o.toke = false → ∃ t, exec (.replicaLockTimeout u fl fr) s = .next t ∧
       After i ((spread [site] (i.dataBytes o.data.toNat n l)).foldl (fun v q => v.writeSite i.owner i.x.core (i.checks o.space) q.1 q.2)
         (i.clearWay r.1.flip.2 (i.checks o.space) [site])) t {} (toNext i)) ∧
   (∀ (s : State) (x : Fold) (fl fr : Nat), s.fold? x.uid = some x →
     let p : Party := if fl = 64 then .stream x.uid else .frag x.uid fl fr
     exec (.remoteTimeout x.uid fl fr) s = .next { s with remoteDown := p :: s.remoteDown.filter (· ≠ p) }))

/-- Engine jobs issue (R88, R254, R256 to R261, R263, R266): with an active lane, a free job card, valid records, a target window
that resolves, operands that are legal and tags within the folds' counts, the instruction is a release of its flock, takes the
card with a fresh party, counts on its token, and goes on; with no active lane no job issues, and an error of the access to a
record is none of its; and with no card free, or no party number in the pool (log 121), it waits. The operands of copies
(R256, R257): a box is legal only where every extent is positive and every range ends within the record, and where a copy's
operands are accepted, its job moves as many elements as the box has, from the record's footprint to the range of the packed
data. -/
def Obligations.EngineIssue : Prop :=
  (∀ (s : State) (i : Iss) (h : Hdr) (o : EngOp),
     let win : W64 := i.k.sreg (o.dst.toNat % 128)
     let issued (run : Host.Outcome State Fault Refusal) (w : Instr) (idx : Nat) (q : JobReq) (b : State) : Prop :=
       let r := b.release i.owner (if q.kind = .coll then .domain else .fold)
       let p := r.newId.2.newParty
       let counts : Prop := o.toke = true ∧ 0 < q.total
       ∃ t c, run = .next t ∧
         c.cid = r.nextId ∧ c.lo = i.fl * i.x.width ∧ c.hi = i.fl * i.x.width + i.x.width ∧ c.dying = false ∧ c.idx = idx ∧ c.core = i.x.core ∧ c.fold = i.x.uid ∧ c.ctx = i.x.ctx ∧ c.kind = q.kind ∧ c.word = encode w ∧ c.o = o ∧
         c.recs = q.recs ∧ c.vals = q.vals ∧ c.tagFolds = q.tagFolds ∧ c.wins = q.wins ∧ c.party = p.1 ∧ c.reads = q.reads ∧ c.writes = q.writes ∧
         c.done = 0 ∧ c.ahead = [] ∧ c.part = [] ∧ c.total = q.total ∧ c.error = false ∧ c.stop = none ∧
         (counts → c.tok = some o.tokn.toNat) ∧ (¬ counts → c.tok = none) ∧
         After i { p.2 with cards := p.2.cards ++ [c] } t
           { fold := fun x => match c.tok with
               | some tk => { x with toks := x.toks ++ [{ id := c.cid, lo := i.fl * i.x.width, hi := i.fl * i.x.width + i.x.width, tk := tk }] }
               | none => x } (toNext i)
     let issues (run : Host.Outcome State Fault Refusal) (w : Instr) (tids : List Nat) (at' : Option W64)
         (req : Iss → List Line → Option Fold → State × Except FInfo JobReq) (held : JobReq → Bool) : Prop :=
       (∀ b f, (i.recAgent false).namedAll false tids i.s = (b, .error f) → i.active h = 0 → f.cause = .memError ∨ f.cause = .remoteError →
         ∃ t, run = .next t ∧ After i b t {} (toNext i)) ∧
       ∀ (b : State) (l : List Line) (y : Option Fold), (i.recAgent (i.active h != 0)).namedAll (i.active h != 0) tids i.s = (b, .ok l) →
         (match at' with | none => y = none | some v => ∃ z, b.window i.x.ctx v.toNat = .ok z ∧ y = some z) →
         (i.active h = 0 → ∃ t, run = .next t ∧ After i b t {} (toNext i)) ∧
         (i.active h ≠ 0 → ∀ idx, i.s.freeCard i.x.core = some idx → i.s.poolFree ≠ 0 →
           ∀ (c : State) (q : JobReq), req { i with s := b } l y = (c, .ok q) →
             (∀ u ∈ q.tagFolds, ∀ z, c.fold? u = some z → o.tag.toNat < z.tags) →
             (held q = false → issued run w idx q c) ∧
             (held q = true → ∃ t, run = .next t ∧ After i c t {} (toPark .multicast)))
     let plainReq (f : Iss → List Line → Option Fold → Except Cause JobReq) : Iss → List Line → Option Fold → State × Except FInfo JobReq :=
       fun j l y => failWith j.s (f j l y)
     let never : JobReq → Bool := fun _ => false
     let multi : JobReq → Bool := fun q => i.s.mcHeld o.tag.toNat q.tagFolds
     (s.issuer = some i →
       (o.kind = 0 ∨ o.kind = 1 → issues (exec (.cpy h o) i.s) (.cpy h o) [o.tid.toNat] none (plainReq fun j l y => j.cpyReq o l y) never) ∧
       (o.kind = 2 → issues (exec (.cpy h o) i.s) (.cpy h o) [o.tid.toNat, o.dst.toNat % 4096] none (plainReq fun j l y => j.cpyReq o l y) never) ∧
       (o.kind = 3 → issues (exec (.cpy h o) i.s) (.cpy h o) [o.tid.toNat] (some win) (plainReq fun j l y => j.cpyReq o l y) never) ∧
       (o.kind = 4 → issues (exec (.cpy h o) i.s) (.cpy h o) [] (some win) (plainReq fun j l y => j.cpyReq o l y) never) ∧
       (o.kind = 0 → issues (exec (.gath h o) i.s) (.gath h o) [o.tid.toNat] none (plainReq fun j l y => j.gathReq o l y) never) ∧
       (o.kind = 3 → issues (exec (.gath h o) i.s) (.gath h o) [o.tid.toNat] (some win) (plainReq fun j l y => j.gathReq o l y) never) ∧
       issues (exec (.coll h o) i.s) (.coll h o) [o.tid.toNat, o.dst.toNat % 4096] none (fun j l _ => j.collReq o l) never ∧
       issues (exec (.cpym h o) i.s) (.cpym h o) [o.tid.toNat] none (plainReq fun j l _ => j.cpymReq o l) multi ∧
       (i.active h ≠ 0 → i.s.freeCard i.x.core = none ∨ i.s.poolFree = 0 →
         ∀ w ∈ [Instr.cpy h o, .cpym h o, .gath h o, .coll h o], ∃ t, exec w i.s = .next t ∧ Ends i i.s t {} (toPark .card))) ∧
     (∀ u fl fr, EventOf s u fl fr i → i.g.park = .multicast → i.g.current = some (.cpym h o) →
       issues (exec (.cpymHoldRelease u fl fr) s) (.cpym h o) [o.tid.toNat] none (plainReq fun j l _ => j.cpymReq o l) multi)) ∧
  ((∀ (d : Line) (x : Ranges), x.length = recRank d → recMx d = false → recPlane d = false →
     (boxOk d x = true ↔ ∀ n < recRank d, ∀ p, x[n]? = some p → 0 < p.2 ∧ p.1 + p.2 ≤ recDim d n)) ∧
   (∀ (i : Iss) (o : EngOp) (d : Line) (q : JobReq), o.kind = 0 ∨ o.kind = 1 → i.cpyReq o [d] none = .ok q →
     let v := i.scalars o.cb.toNat (recRank d)
     let n := packedBytes d (boxCount (rangesOf v))
     boxOk d (rangesOf v) = true ∧ o.dst.toNat % 16 = 0 ∧ o.dst.toNat + n ≤ i.x.scrBytes ∧ q.total = boxCount (rangesOf v) ∧ q.tagFolds = [i.x.uid] ∧
       (let packed : Box := { space := 1, fold := i.x.uid, lo := o.dst.toNat / 32 * 32, hi := (o.dst.toNat + n + 31) / 32 * 32 }
        (o.kind = 0 → q.reads = srcBoxes d v ∧ q.writes = [packed]) ∧ (o.kind = 1 → q.reads = [packed] ∧ q.writes = [boxFoot d (rangesOf v)]))))

/-- Chunks of a job (R34, R261, R262, R316, R408): a job that is not complete, stopped or held back does one of the chunks that it
has left, which counts at least one element on and no more than the job has, or makes one access of a chunk alone: it reads
it, and then writes it to a place of its destination; an access that is not answered ends it with error, as does an error
response; and the ranks of a collective that do not agree leave a `COLL_MISMATCH` record and end it so; and the job of a
killed fold is gone at the end of the chunk that it has begun (R34). That the accesses of a chunk take effect in one step or
one at a time, chunks and accesses in any order, is the model's reading of R316 (log 100); that a chunk which fails leaves
memory as it was is the model's choice (log 34). What a whole chunk moves (R93, R256 to R258, R262), with no race detection
and nothing buffered, no element of the job having been moved alone before. A chunk of a copy from the scratchpad to a window
writes the words of the source to those of the window; one of a copy from a record to the scratchpad packs the elements of the
box, as they are read in the box's order, behind one another; and no other byte or word changes. Element `e` of a record of
one byte an element is read and written at the home of the virtual address `BASE` + `e`, and no other byte of memory changes.
Completion of a job (R90, R262): once the writes that its fold had shown before it was issued are performed where it sets a
tag of another fold (R321), the tag of every destination fold becomes ready, with its error bit where the job ended in error,
the card is free, the job's party number is retired, and a job without error changes no byte of memory. -/
def Obligations.EngineProgress : Prop :=
  ((∀ (s : State) (c : Card) (inp : ChunkIn) (m : Moved), s.card? c.cid = some c → c.kind ≠ .arr → c.stop = none → c.done < c.total → c.dying = true →
     (∀ u ∈ c.tagFolds, ∃ y, s.fold? u = some y ∧ y.resident = true ∧ y.run.away = false ∧ y.run ≠ .dying) →
     c.part = [m] → c.elemOf m.item < c.total → inp.error = false → c.kind ≠ .coll ∨ inp.disagree = false → inp.only = none →
     let begins := c.elemOf m.item / c.chunk * c.chunk
     ∀ b n, s.chunkWork { c with done := begins } inp = (b, .ok (n, none)) → b.cards = s.cards →
       ∃ t, exec (.jobChunk c.cid inp) s = .next t ∧ t.card? c.cid = none ∧ t.mem = b.mem ∧ t.folds.map (·.uid) = b.folds.map (·.uid)) ∧
   ∀ (s : State) (c : Card) (inp : ChunkIn) (x : Fold), s.card? c.cid = some c → c.kind ≠ .arr → c.stop = none → c.done < c.total →
     c.dying = false → s.heldBack c = false → s.unmatched c = false → s.fold? c.fold = some x → x.run = .running →
     (∀ u ∈ c.tagFolds, ∃ y, s.fold? u = some y ∧ y.resident = true ∧ y.run.away = false ∧ y.run ≠ .dying) →
     let run := exec (.jobChunk c.cid inp) s
     (∀ m, c.part = [m] → inp.error = false → c.kind ≠ .coll ∨ inp.disagree = false → inp.only = some m.item → m.item < c.items →
       c.past (c.elemOf m.item) = false → m.wrote = [] → c.places.length = 1 → ∀ b, s.putItem c m 0 = (b, .ok ()) → b.cards = s.cards →
       run = .next { b with cards := b.cards.map fun e =>
         if e.cid = c.cid then { e with part := e.part.map fun n => if n.item = m.item then { n with wrote := 0 :: n.wrote } else n } else e }) ∧
     (c.part = [] →
     let p := s.nextChunk c
     let now : Card := { c with done := p.1 }
     let progress (b t : State) (n : Nat) : Prop :=
       c.done ≤ p.1 ∧ p.1 < n ∧ n ≤ c.total ∧ (p.1 = c.done → n ≤ (c.ran p.1 n).done) ∧
       (p.1 ≠ c.done → c.ran p.1 n = { c with ahead := p.1 :: c.ahead }) ∧
       t = { b with folds := t.folds, cards := b.cards.map fun e => if e.cid = c.cid then e.ran p.1 n else e } ∧
       t.folds = if c.total ≤ (c.ran p.1 n).done then b.folds.map fun y => if y.uid = c.fold then { y with toks := y.toks.filter fun r => r.id ≠ c.cid } else y else b.folds
     let failed (b t : State) : Prop := ∃ y, b.fold? c.fold = some y ∧
       t = { b with folds := t.folds, cards := b.cards.map fun e => if e.cid = c.cid then { e with error := true, done := e.total, part := [], stop := none } else e } ∧
       t.fold? c.fold = some (let z := y.tokError c; { z with toks := z.toks.filter fun r => r.id ≠ c.cid }) ∧
       ∀ u, u ≠ c.fold → t.fold? u = b.fold? u
     (inp.error = true → ∃ t, run = .next t ∧ failed s t) ∧
     (inp.error = false →
       (c.kind ≠ .coll ∨ inp.disagree = false → inp.only = none → ∀ b n, p.2.chunkWork now inp = (b, .ok (n, none)) → b.cards = s.cards →
         ∃ t, run = .next t ∧ progress b t n) ∧
       (c.kind ≠ .coll ∨ inp.disagree = false → ∀ j, inp.only = some j → j < c.items → c.past (c.elemOf j) = false →
         ∀ b e, s.takeItem c inp j = (b, .ok e) → e.out = none → b.cards = s.cards →
         let d : Card := { c with part := [{ item := j, els := e.els, scs := e.scs, wrote := [] }] }
         ∃ t, run = .next t ∧ t = { b with folds := t.folds, cards := b.cards.map fun f => if f.cid = c.cid then { f with part := d.part } else f } ∧
           t.folds = if d.allRead then b.folds.map fun y => if y.uid = c.fold then { y with toks := y.toks.filter fun r => r.id ≠ c.cid } else y
             else b.folds) ∧
       (c.kind = .coll → inp.disagree = true → ∃ t, run = .next t ∧
         failed (s.pushRec { s.recOf x .collMismatch 2 with card := c.idx }).1 t) ∧
       (c.kind ≠ .coll ∨ inp.disagree = false → inp.only = none → ∀ b f, p.2.chunkWork now inp = (b, .error f) → f.cause = .memError ∨ f.cause = .remoteError →
         ∃ t, run = .next t ∧ failed { p.2 with remoteDown := b.remoteDown, badTiles := b.badTiles, dies := b.dies, fresh := b.fresh } t)))) ∧
  ((∀ (s : State) (c : Card) (inp : ChunkIn) (x y : Fold) (a w : W64), s.card? c.cid = some c → s.chunkReady c = true →
     s.targetGone c = false → c.dying = false → c.part = [] → inp.only = none → inp.error = false → s.pend = [] → s.groups = [] → s.fold? c.fold = some x → s.raceOn x.gid = false →
     c.kind = .cpy →
     let p := s.nextChunk c
     (c.o.kind = 4 → c.vals = [a, w] → c.tagFolds = [y.uid] → s.fold? y.uid = some y → winRegion w.toNat < 3 →
       let src := bits a.toNat 19 0
       let n := min 1024 (c.total - p.1)
       let word (j : Nat) : W32 := BitVec.ofNat 32 (ofLe ((List.range 4).map fun b => Map.get 0 x.scr (src + 4 * j + b)))
       let inside (j : Nat) : Prop := winOff w.toNat + p.1 ≤ j ∧ j < winOff w.toNat + p.1 + n
       Map.wf 0 y.v = true → Map.wf 0 y.scr = true → Map.wf 0 y.acc = true →
       ∃ t z, exec (.jobChunk c.cid inp) s = .next t ∧ t.mem = s.mem ∧ t.fold? y.uid = some z ∧
         (∀ j, Map.get 0 z.v j = if winRegion w.toNat = 0 ∧ inside j then word (j - winOff w.toNat) else Map.get 0 y.v j) ∧
         (∀ j, Map.get 0 z.acc j = if winRegion w.toNat = 2 ∧ inside j then word (j - winOff w.toNat) else Map.get 0 y.acc j) ∧
         (∀ b, Map.get 0 z.scr b = if winRegion w.toNat = 1 ∧ inside (b / 4) then Map.get 0 x.scr (src + (b - 4 * winOff w.toNat))
           else Map.get 0 y.scr b) ∧
         (∀ u q, u ≠ y.uid → s.fold? u = some q → ∃ r, t.fold? u = some r ∧ r.v = q.v ∧ r.acc = q.acc ∧ r.scr = q.scr)) ∧
     (c.o.kind = 0 → ∀ d, c.recs = [d] → recPlane d = false → recMx d = false → recBits d % 8 = 0 → Map.wf 0 x.scr = true →
       let m := recBits d / 8
       let dst := c.o.dst.toNat
       let ks := ({ c with done := p.1 } : Card).elems
       ∀ b els, (p.2.cardAgent c).loadBox c.o.tid.toNat d (rangesOf (c.vals.take (recRank d))) ks p.2 = (b, .ok (els, [])) →
         els.map (·.1) = ks ∧
         ∃ t z, exec (.jobChunk c.cid inp) s = .next t ∧ t.mem = b.mem ∧ t.fold? c.fold = some z ∧ z.v = x.v ∧ z.acc = x.acc ∧
           (∀ j, Map.get 0 z.scr j = if dst + p.1 * m ≤ j ∧ j < dst + (p.1 + ks.length) * m then
               BitVec.ofNat 8 ((els.find? (·.1 == (j - dst) / m)).elim 0 fun e => e.2 / 256 ^ ((j - dst) % m)) else Map.get 0 x.scr j) ∧
           (∀ u q, u ≠ c.fold → s.fold? u = some q → t.fold? u = some q))) ∧
   (∀ (s b : State) (u : Agent) (tid e c k : Nat) (d : Line) (p : Leaf), u.check = false → recPlane d = false → recBits d = 8 →
     b.pend = [] → b.groups = [] → p.ml = false → p.rp = false → p.crypt = 0 → b.lineKey = [] → MemoryCanonical b →
     (u.sites s (residOf tid d) .read (recBase d + e) 1 = (b, .ok [{ loc := .mem k, n := 1, leaf := some p }]) → u.l1 = false →
       b.rangeBad k 1 = false → u.readElem s tid d e = (b, .ok (b.byte k).toNat)) ∧
     (u.sites s (residOf tid d) .write (recBase d + e) 1 = (b, .ok [{ loc := .mem k, n := 1, leaf := some p }]) → b.takes 0 k = true →
       ∃ t, u.writeElem s tid d e c = (t, .ok ()) ∧ t.byte k = BitVec.ofNat 8 c ∧ ∀ j, j ≠ k → t.byte j = b.byte j))) ∧
  (∀ (s : State) (c : Card), s.card? c.cid = some c → c.kind ≠ .arr → c.total ≤ c.done → c.stop = none → s.heldBack c = false → s.owed c = false →
     (∀ u ∈ c.tagFolds, ∀ y, s.fold? u = some y → y.run.away = false) →
     ∃ t, exec (.jobComplete c.cid) s = .next t ∧ t.card? c.cid = none ∧
       (∀ n, n ≠ c.cid → t.card? n = s.card? n) ∧
       (∀ u ∈ c.tagFolds, ∀ y, s.fold? u = some y → ∃ z, t.fold? u = some z ∧ z.tagReady = y.tagReady ||| bitMask c.o.tag.toNat ∧
         z.tagErr = if c.error then y.tagErr ||| bitMask c.o.tag.toNat else y.tagErr) ∧
       (∀ u, u ∉ c.tagFolds → t.fold? u = s.fold? u) ∧
       (c.error = false → t.mem = s.mem) ∧
       (s.phaseOf c.party ≠ 0xFFFF → c.party.toNat ∈ s.inUse → c.party.toNat ∉ t.inUse ∧ c.party.toNat ∈ t.retired))

/-- Records as data (R271, R272): `TIDR` gives eight scalars the 64 bytes of the record; `TIDW` writes them to the record's place
in the context's table, a release at device scope, and no core keeps an older copy. -/
def Obligations.TensorRecords : Prop :=
  ∀ (s : State) (i : Iss) (h : Hdr) (o : EngOp), s.issuer = some i → Runs i h →
    let tid := o.tid.toNat
    let va := (s.ctx i.x.ctx).elim 0 (·.tidBase) + 64 * tid
    let bs : List Byte := (List.range 8).flatMap fun j => leBytes 8 (i.k.sreg (o.cb.toNat + j)).toNat
    let d : Line := BitVec.ofNat 512 (ofLe bs)
    (∀ b e, (i.agent false).record s tid = (b, .ok e) → ∃ t, exec (.tidr h o) i.s = .next t ∧
      After i b t { flock := fun k => (List.range 8).foldl (fun a j => a.setS (o.cb.toNat + j) (e.extractLsb' (64 * j) 64)) k } (toNext i)) ∧
    (∀ b b' l, (i.agent false).sites s none .write va 64 = (b, .ok l) → (recValid d = true → recFormOk d = true) →
      (i.agent false).write (b.release i.owner .device) l va bs = (b', .ok ()) →
      ∃ t a, exec (.tidw h o) i.s = .next t ∧ After i a t {} (toNext i) ∧ a = { b' with cores := a.cores } ∧
        (Map.wf Core.init b'.cores = true → ∀ n e, e ∈ (t.core n).tids → ¬ (e.ctx = i.x.ctx ∧ e.tid = tid))) ∧
    (∀ b p k, (i.agent false).sites s none .write va 64 = (b, .ok (sitesAt p k 64)) → (recValid d = true → recFormOk d = true) →
      p.ml = false → p.rp = false → p.crypt = 0 → b.pend = [] → b.lineKey = [] → MemoryCanonical b →
      ∃ t, exec (.tidw h o) i.s = .next t ∧ t.bytes k 64 = bs ∧ ∀ a, (a < k ∨ k + 64 ≤ a) → t.byte a = b.byte a) ∧
    (∀ b l, (i.agent false).sites s none .write va 64 = (b, .ok l) → recValid d = true → recFormOk d = false →
      exec (.tidw h o) i.s = .next (i.take b [({ cause := .tidFormat, addr := 0, aux := tid, page := none },
        if i.active h = 0 then i.g.exec else i.active h)] .again))

/-- The instructions of a matrix stream on its registers (R281, R282): `MLOOP` counts down and transfers while its counter stays
above 0, and `MPROG` moves words between stream registers and the fold's scratchpad, copies and adds, and waits for the
stream's array operations before it reads `QAMAX` or seeds `QSRSTATE`. Accumulators and flocks (R276, R297, R298): the leader
sets a flock's window, and every other use of `MWIN` faults; `MRD` and `MWR` of lanes inside the window copy words between the
accumulators and registers, where a constant that `MWR` writes has the value of the instruction's type; a lane outside it
faults and no lane acts; and an access to a bank that an array operation owns waits. Barriers and the end of a stream (R277,
R283, R284, R285): on a barrier of which the stream is no member both instructions fault; an arrival waits for the stream's
array operations, completes the phase where every flock has arrived, and `MARR` goes on while `MWAITB` waits for the phase; a
wait continues once its phase has completed, and `MWAITB.NA` also where no arrival is recorded, as an acquire; and at `MEND`
the stream ends, has no party number any more (R110), and counts as arrived at every barrier. -/
def Obligations.StreamInstructions : Prop :=
  (∀ (s : State) (q : Seq) (o : MtxOp), s.sequencer = some q →
     let stream (b : State) (f : Stream → Stream) : State := b.modFold q.x.uid fun x => { x with stream := x.stream.map f }
     let d := o.cb.toNat
     let sets (v : W64) : Host.Outcome State Fault Refusal :=
       .next (stream s fun m => { m with q := Map.set 0 m.q d v, pc := m.pc + 1 })
     let c := q.q d
     let tgt : Int := q.m.pc.toNat + o.k.toInt
     let op := o.md.extractLsb' 0 3
     let n := (o.md.extractLsb' 3 4).toNat + 1
     let off := 128 * o.k.toNat
     (c = 0 → exec (.mloop o) s = .next (stream s fun m => { m with pc := m.pc + 1 })) ∧
     (c = 1 → exec (.mloop o) s = sets 0) ∧
     (2 ≤ c → 0 ≤ tgt → tgt < 2 ^ 55 → exec (.mloop o) s =
       .next (stream s fun m => { m with q := Map.set 0 m.q d (c - 1), pc := BitVec.ofNat 55 tgt.toNat, arriving := true, buf := none })) ∧
     (2 ≤ c → tgt < 0 ∨ 2 ^ 55 ≤ tgt → exec (.mloop o) s = .next (s.faultStream q.x.uid { cause := .brTarget, addr := 0, aux := 0, page := none })) ∧
     (op = 2 → exec (.mprog o) s = sets (q.q (o.tida.toNat % 64))) ∧
     (op = 3 → exec (.mprog o) s = sets (c.extractLsb' 32 32 ++ (c.extractLsb' 0 32 + o.k.signExtend 32))) ∧
     (op = 4 → q.m.queue = [] → exec (.mprog o) s = .next (stream s fun m =>
       { m with q := Map.set 0 m.q d ((if q.m.qnan then (1 : BitVec 32) else 0) ++ q.m.qamax), qamax := 0, qnan := false, pc := m.pc + 1 })) ∧
     (op = 5 → q.m.queue = [] → exec (.mprog o) s = .next (stream s fun m => { m with qsr := c.setWidth 32, pc := m.pc + 1 })) ∧
     (op = 4 ∨ op = 5 → q.m.queue ≠ [] → exec (.mprog o) s = .next s) ∧
     (op = 0 ∨ op = 1 → q.x.scrBytes < off + 8 * n →
       exec (.mprog o) s = .next (s.faultStream q.x.uid { cause := .scratchRange, addr := off, aux := 0, page := none })) ∧
     (off + 8 * n ≤ q.x.scrBytes → s.raceOn q.x.gid = false → s.pend = [] → s.groups = [] →
       (op = 0 → exec (.mprog o) s = .next (stream s fun m =>
         { m with q := (List.range n).foldl (fun r j => Map.set 0 r (d + j)
                    (BitVec.ofNat 64 (ofLe ((List.range 8).map fun b => Map.get 0 q.x.scr (off + 8 * j + b))))) m.q,
                  pc := m.pc + 1 })) ∧
       (op = 1 → exec (.mprog o) s = .next (stream { s with pend := (List.range n).map fun j =>
           { owner := .stream q.x.uid, core := q.x.core, loc := .scr q.x.uid (off + 8 * j), kind := .write (leBytes 8 (q.q (d + j)).toNat), grp := 0,
             visible := false, checked := false, managed := false, key := 0, mark := none } } fun m => { m with pc := m.pc + 1 })))) ∧
  (∀ (s : State) (i : Iss) (h : Hdr), s.issuer = some i →
     (∀ o : ScOp, Runs i h →
       let n := (i.sval64 o.sa).toNat
       let w := scalarSecond i o
       let base := w.extractLsb' 0 10
       let lim := w.extractLsb' 16 10
       let legal : Prop := i.x.leader = some i.fl ∧ n < i.x.flocks.length ∧ base ≤ lim ∧ lim.toNat ≤ i.x.accRows ∧
         w.extractLsb' 10 6 = 0 ∧ w.extractLsb' 26 38 = 0
       (legal → ∃ t y, exec (.mwin h o) i.s = .next t ∧ t = { s with folds := t.folds } ∧ (∀ v, v ≠ i.x.uid → t.fold? v = s.fold? v) ∧
         t.fold? i.x.uid = some y ∧ { y with flocks := i.x.flocks } = i.x ∧
         (∀ k, i.x.flocks[n]? = some k → ∃ k', y.flocks[n]? = some k' ∧ k'.accBase = base ∧ k'.accLim = lim) ∧
         (∀ m k, m ≠ n → i.x.flocks[m]? = some k → ∃ k', y.flocks[m]? = some k' ∧ k'.accBase = k.accBase ∧ k'.accLim = k.accLim ∧ k'.s = k.s)) ∧
       (¬ legal → Faults i (.mwin h o) .accWindow (i.active h) 0 0)) ∧
     (∀ o : VrOp,
       let row (l : Nat) : Nat := i.raw32 o.sa l
       let col (l : Nat) : Nat := i.raw32 o.sb l
       let inside (l : Nat) : Bool := decide (i.k.accBase.toNat ≤ row l) && decide (row l < i.k.accLim.toNat) && decide (col l < 256)
       let ls := lanes (i.active h)
       let out := ls.filter fun l => !inside l
       (out ≠ [] → ∀ w ∈ [Instr.mrd h o, .mwr h o], Faults i w .accWindow (out.foldl (fun m l => m ||| bitMask l) 0) 0 0) ∧
       (out = [] → (∃ l ∈ ls, i.x.bankOwned (row l / 128) = true) → ∀ w ∈ [Instr.mrd h o, .mwr h o],
         ∃ t, exec w i.s = .next t ∧ Ends i s t {} (toPark (.busy i.held))) ∧
       (out = [] → (∀ l ∈ ls, i.x.bankOwned (row l / 128) = false) → s.pend = [] → s.groups = [] →
         (ls ≠ [] → ∃ t, exec (.mrd h o) i.s = .next t ∧ Ends i { s with nextId := s.nextId + 1 } t
           { fold := fun x => { x with loads := x.loads ++ [
               { id := s.nextId, lo := i.thread 0, hi := i.thread 0 + i.x.width,
                 words := ls.map fun l => (o.dst.toNat * i.x.size + i.thread l, i.x.accW (row l) (col l)), tok := none, counts := false }] } } (toNext i)) ∧
         (ls = [] → Does i (.mrd h o) {}) ∧
         Does i (.mwr h o) { fold := fun x => ls.foldl (fun y l => y.setAcc (row l) (col l) (BitVec.ofNat 32 (i.opnd o.ty o.sc l))) x }))) ∧
  (∀ (s : State) (q : Seq) (o : MtxOp), s.sequencer = some q →
     let stream (b : State) (f : Stream → Stream) : State := b.modFold q.x.uid fun x => { x with stream := x.stream.map f }
     let b := o.mbar.toNat
     let v := s.bar q.x b
     let completed (v : BarSt) : BarSt := { v with phase := v.phase + 1, arrived := 0, streamArrived := false }
     let goesOn : Host.Outcome State Fault Refusal := .next (stream (s.acquire q.x.core .fold) fun m => { m with waiting := none, pc := m.pc + 1 })
     (v.declared = false ∨ v.stream = false → ∀ w ∈ [Instr.marr o, .mwaitb o],
       exec w s = .next (s.faultStream q.x.uid { cause := .barMember, addr := 0, aux := b, page := none })) ∧
     (v.declared = true → v.stream = true →
       (q.m.queue ≠ [] ∨ v.streamArrived = true → exec (.marr o) s = .next s) ∧
       (s.pend = [] → s.groups = [] → q.x.wants = none → Map.wf BarSt.none q.x.bars = true → s.phaseOf q.m.party ≠ 0xFFFF →
         q.m.queue = [] → v.streamArrived = false → v.broken = false →
         let after : BarSt := if v.members &&& ~~~(v.arrived ||| v.permanent) = 0 then completed v else { v with streamArrived := true }
         (∃ t y m, exec (.marr o) s = .next t ∧ t.fold? q.x.uid = some y ∧ y.stream = some m ∧ t.bar y b = after ∧ t.mem = s.mem ∧
           m = { q.m with lastArr := Map.set 0 q.m.lastArr b (v.phase.toNat + 1), pc := q.m.pc + 1 }) ∧
         (o.md.getLsbD 0 = false → q.m.waiting = none → ∃ t y m, exec (.mwaitb o) s = .next t ∧ t.fold? q.x.uid = some y ∧ y.stream = some m ∧
           t.bar y b = after ∧ t.mem = s.mem ∧
           m = { q.m with lastArr := Map.set 0 q.m.lastArr b (v.phase.toNat + 1), waiting := some (b, v.phase) })) ∧
       (o.md.getLsbD 0 = false → ∀ k ph, q.m.waiting = some (k, ph) →
         (v.phase ≠ ph → exec (.mwaitb o) s = goesOn) ∧ (v.phase = ph → exec (.mwaitb o) s = .next s)) ∧
       (o.md.getLsbD 0 = true →
         (Map.get 0 q.m.lastArr b = 0 → exec (.mwaitb o) s = goesOn) ∧
         (∀ n, Map.get 0 q.m.lastArr b = n + 1 →
           (v.phase ≠ BitVec.ofNat 16 n → exec (.mwaitb o) s = goesOn) ∧ (v.phase = BitVec.ofNat 16 n → exec (.mwaitb o) s = .next s)))) ∧
     (q.m.queue ≠ [] → exec (.mend o) s = .next s) ∧
     (q.m.queue = [] → Map.wf BarSt.none q.x.bars = true → ∃ t y m, exec (.mend o) s = .next t ∧ t.mem = s.mem ∧ t.fold? q.x.uid = some y ∧
       y.stream = some m ∧ m = { q.m with ended := true, waiting := none, stop := none, party := 0xFFFF } ∧
       ∀ k < 16, let w := s.bar q.x k
         t.bar y k = if w.declared = true ∧ w.broken = false ∧ w.members &&& ~~~(w.arrived ||| w.permanent) = 0 ∧
           (w.arrived ≠ 0 ∨ w.streamArrived = true) then completed w else w))

/-- The issue of array operations (R275, R286): with room in the queue, a free card and party, and checks that succeed, the
operation takes a card with what it copies, the buffered window writes into its bank are performed, it joins the queue, and
the stream goes on; without room the sequencer waits; and a bank that the fold does not have faults. The array at work (R276,
R286, R287 to R295): `MZERO` leaves +0 in every column of the rows of its bank and no other row changed; a unit of progress of
`MMA` or `MMAX` adds to every accumulator of one group of 16 rows of the bank the narrow sum of the products over its k-steps,
changes no other accumulator, and moves on to the next group or block; a row of an `MST` changes no accumulator, writes the
converted elements that lie in the record, and keeps the largest magnitude where it is asked for; a scale or bias updates no
row outside its bank; and the completion of an operation frees its card and the place at the head of the queue. -/
def Obligations.ArrayUnit : Prop :=
  (∀ (s : State) (q : Seq) (o : MtxOp), s.sequencer = some q →
     let issues (w : Instr) (opc : Nat) (tids : List Nat) (req : List Line → Except FInfo ArrayReq) : Prop :=
       (4 ≤ q.m.queue.length ∨ s.poolFree = 0 ∨ s.freeCard q.x.core = none → exec w s = .next s) ∧
       (∀ idx b l r, q.m.queue.length < 4 → s.poolFree ≠ 0 → s.freeCard q.x.core = some idx → (q.agent false).namedAll true tids s = (b, .ok l) →
         req l = .ok r →
         (q.x.accRows < (o.bank.toNat + 1) * 128 →
           exec w s = .next (b.faultStream q.x.uid { cause := .accWindow, addr := 0, aux := 0, page := none })) ∧
         ((o.bank.toNat + 1) * 128 ≤ q.x.accRows →
           let p := b.newId.2.newParty
           ∃ c : Card, c.cid = b.nextId ∧ c.idx = idx ∧ c.core = q.x.core ∧ c.fold = q.x.uid ∧ c.ctx = q.x.ctx ∧ c.kind = .arr ∧ c.word = encode w ∧
             c.recs = r.recs ∧ c.vals = r.regs ∧ c.tagFolds = [] ∧ c.tok = none ∧ c.party = p.1 ∧ c.reads = r.reads ∧ c.writes = r.writes ∧
             c.done = 0 ∧ c.ahead = [] ∧ c.part = [] ∧ c.total = 1 ∧ c.error = false ∧ c.stop = none ∧
             exec w s = .next (({ (p.2.drain fun e => e.inBank q.x.uid o.bank.toNat) with cards := p.2.cards ++ [c] } : State).modFold q.x.uid fun x => { x with stream := x.stream.map fun m =>
               { m with queue := m.queue ++ [{ opc := opc, o := o, regs := r.regs, recs := r.recs, card := c.cid, kdone := 0, rgdone := 0, stop := none }],
                        pc := m.pc + 1 } })))
     issues (.mzero o) 1 [] (fun _ => .ok { recs := [], regs := [], reads := [], writes := [] }) ∧
     issues (.mma o) 2 [o.tida.toNat, o.tidb.toNat] (q.mmaReq false o) ∧
     issues (.mmax o) 3 [o.tida.toNat, o.tidb.toNat] (q.mmaReq true o) ∧
     issues (.mst o) 4 [o.tida.toNat] (q.mstReq o) ∧
     issues (.mscale o) 5 [o.tida.toNat] (q.vecReq o) ∧
     issues (.mbias o) 6 [o.tida.toNat] (q.vecReq o)) ∧
  (∀ (s : State) (q : Seq) (a : ArrayOp) (rest : List ArrayOp), s.seq? q.x.uid = some q → q.m.queue = a :: rest → a.stop = none →
     let bank := a.o.bank.toNat
     let u := s.arrayAgent q.x a
     let after (b : State) (a' : ArrayOp) (f : Stream → Stream) (acc : Nat → Nat → W32) : Prop :=
       let t := s.arrayStep q.x.uid
       t = { b with folds := t.folds } ∧ (∀ v, v ≠ q.x.uid → t.fold? v = s.fold? v) ∧
       ∃ y, t.fold? q.x.uid = some y ∧ { y with acc := q.x.acc, stream := q.x.stream } = q.x ∧
         y.stream = some { f q.m with queue := a' :: rest } ∧ ∀ r c, c < 256 → y.accW r c = acc r c
     (q.x.run = .running → a.isDone = false → (∀ c, s.card? a.card = some c → s.heldBack c = false) → Map.wf 0 q.x.acc = true →
       (a.opc = 1 → after s { a with kdone := 1 } id fun r c => if r / 128 = bank then 0 else q.x.accW r c) ∧
       (a.opc = 2 ∨ a.opc = 3 → a.rgdone < 8 → ∀ b b' as bs,
         let ra := a.recs.headD 0
         let rb := (a.recs[1]?).getD 0
         let qa := a.regs.take (recRank ra)
         let qb := a.regs.drop (recRank ra)
         let d := depth (recTy ra)
         let n := min (2 ^ a.o.plog.toNat) (a.o.k.toNat - a.kdone)
         let ks := (List.range (n * d)).map (a.kdone * d + ·)
         eachOf (fun t i => eachOf (fun v k => u.tileVal v a.o.tida.toNat ra qa (dropA a.o) (startAt qa ra 0 + k) (startAt qa ra 1 + (16 * a.rgdone + i))) ks t)
           (List.range 16) s = (b, .ok as) →
         eachOf (fun t j => eachOf (fun v k => u.tileVal v a.o.tidb.toNat rb qb (dropB a.o) (startAt qb rb 0 + k) (startAt qb rb 1 + j)) ks t)
           (List.range 256) b = (b', .ok bs) → b'.folds = s.folds →
         after b' (if a.rgdone = 7 then { a with kdone := a.kdone + n, rgdone := 0 } else { a with rgdone := a.rgdone + 1 }) id fun r c =>
           if r / 128 = bank ∧ r % 128 / 16 = a.rgdone then
             accAdd (q.x.accW r c) (narrowSum d n (.fin false 0 0)
               ((((as[r % 16]?).getD []).zip ((bs[c]?).getD [])).map fun w => w.1.mul w.2))
           else q.x.accW r c) ∧
       (a.opc = 4 → recMx (a.recs.headD 0) = false → a.o.md.getLsbD 5 = false → ∀ b us,
         let d := a.recs.headD 0
         let s0 := startAt a.regs d 0
         let s1 := startAt a.regs d 1
         let xs := ((List.range 256).filter fun j => decide (s1 + a.kdone < sizeAt d 1) && decide (s0 + j < sizeAt d 0)).map fun j =>
           (j, (fmtOf .f32).value (q.x.accW (128 * bank + a.kdone) j).toNat)
         let codes := rowCodes q.x (recTy d) (a.o.md.toNat % 8) (a.o.md.getLsbD 3) (xs.map fun p => (p.1, p.2.mul (.pow2 0))) q.m.qsr
         eachOf (fun t p => u.writeElem t a.o.tida.toNat d (tileElem a.regs d (s0 + p.1) (s1 + a.kdone)) p.2) codes.1 s = (b, .ok us) →
         b.folds = s.folds →
         after b { a with kdone := a.kdone + 1 } (fun m =>
           let big := xs.foldl (fun n p => ((amaxUpdate n.1 p.2).1, n.2 || (amaxUpdate n.1 p.2).2 != 0)) (m.qamax, m.qnan)
           { m with qamax := if a.o.md.getLsbD 4 then big.1 else m.qamax, qnan := if a.o.md.getLsbD 4 then big.2 else m.qnan, qsr := codes.2 })
           q.x.accW) ∧
       (a.opc = 4 → ∀ b a' m', s.mstRow q.x q.m a = (b, .ok (a', m')) → b.folds = s.folds →
         after b { a with kdone := a.kdone + 1 } (fun m => { m with qamax := m'.qamax, qnan := m'.qnan, qsr := m'.qsr }) q.x.accW) ∧
       (a.opc = 5 ∨ a.opc = 6 → ∀ b vs, s.vecVals q.x a = (b, .ok vs) → b.folds = s.folds → after b { a with kdone := 1 } id fun r c =>
         if r / 128 = bank then
           (match vs.find? (·.1 == (if a.o.md = 0 then c else r % 128)) with
            | some v =>
              let x := (fmtOf .f32).value (q.x.accW r c).toNat
              BitVec.ofNat 32 ((fmtOf .f32).deliver .rne (if a.opc = 5 then x.mul v.2 else x.add false v.2)).1
            | none => q.x.accW r c) else q.x.accW r c)) ∧
     (a.isDone = true → ∃ t y m, exec (.arrayOpComplete q.x.uid) s = .next t ∧ t.card? a.card = none ∧
       (∀ n, n ≠ a.card → t.card? n = s.card? n) ∧ t.mem = s.mem ∧ t.fold? q.x.uid = some y ∧ y.stream = some m ∧ m.queue = rest ∧
       { m with queue := q.m.queue } = q.m ∧ { y with stream := q.x.stream } = q.x ∧ ∀ u, u ≠ q.x.uid → t.fold? u = s.fold? u))

/-- The start of a fold (R20, R21, R202, R299, R314): a placed fold whose cluster has settled runs; its placement is an acquire,
and each flock holds the address of the arguments in s0, the argument words in s1 to s7 and 4,096 in s29; and where a rollback
starts it at a step, its flocks begin at the resume entry, and hold the step as recorded and in s1, with 1 in s2; a fold that
was complete on the device that a rollback comes from ends at once, and its grid counts it, which is the model's reading of
R314 (log 44). The end of a fold and of a grid (R22, R23, R33, R110, R350): a fold whose flocks, stream and jobs are done
leaves, its party numbers are retired, and no other fold changes; its grid counts it; and with the last fold of the grid the
completion word is written with the status and the heartbeat, the interrupt that the launch asks for is raised, and the grid
is gone. -/
def Obligations.FoldLifetime : Prop :=
  (∀ (s : State) (x : Fold) (g : Grid), s.fold? x.uid = some x → s.grid? x.gid = some g → g.lrec.resident = false →
     s.folds.filter (fun y => y.pad == x.pad) = [x] → x.run = .placed →
     x.roll = none → x.preqAfter = false → (∀ y ∈ s.folds, y.uid = x.uid → y = x) → ∀ roll : Option W64,
     (∀ n, roll = some n → g.lrec.rentry ≠ none ∧ x.stream = none) →
     let loaded (ws : List W64) (m : Map W64) : Map W64 :=
       let a := Map.set 0 ((List.range 7).foldl (fun r j => Map.set 0 r (1 + j) ((ws[j]?).getD 0)) (Map.set 0 m 0 (BitVec.ofNat 64 g.args))) 29 4096
       match roll with
       | some n => Map.set 0 (Map.set 0 a 1 n) 2 1
       | none => a
     let entered (k : Flock) : Flock :=
       match roll, g.lrec.rentry with
       | some n, some e => { k with ckpt := some n, frags := k.frags.map fun f => { f with pc := e } }
       | _, _ => k
     ((s.cluster (x.core / 8)).settling = true → exec (.foldStart { fold := x.uid, rolls := [roll] }) s = .next s) ∧
     ((s.cluster (x.core / 8)).settling = false →
       let a : State := s.acquire x.core .device
       let b : State := { a with folds := a.folds.map fun y =>
         if y.uid = x.uid then { y with run := .running, roll := roll, flocks := y.flocks.map entered } else y }
       ∀ d ws, b.argWords g = (d, .ok ws) → d.folds = b.folds → ∃ t z, exec (.foldStart { fold := x.uid, rolls := [roll] }) s = .next t ∧
         a.fold? x.uid = some z ∧ z.flocks = x.flocks ∧ t = { d with folds := t.folds } ∧
         ws.length = 7 ∧ (∀ v, v ≠ x.uid → t.fold? v = a.fold? v) ∧ t.fold? x.uid = some { z with
           run := .running
           roll := roll
           flocks := z.flocks.map fun k => { entered k with s := loaded ws k.s }
           argFault := none }) ∧
     ((s.cluster (x.core / 8)).settling = false → s.pend = [] → (∀ c, (s.cluster c).rdv = none) →
       ∃ t, exec (.foldStart { fold := x.uid, rolls := [], done := [true] }) s = .next t ∧ t.fold? x.uid = none ∧ t.mem = s.mem ∧
         ((∃ y ∈ s.folds, y.gid = x.gid ∧ y.uid ≠ x.uid) → t.grid? x.gid = some { g with ended := g.ended + 1 }))) ∧
  (∀ (s : State) (x : Fold) (g : Grid), s.fold? x.uid = some x → s.grid? x.gid = some g → x.run = .running →
     (∀ k ∈ x.flocks, k.frags = []) → (∀ m, x.stream = some m → m.ended = true) → (∀ c ∈ s.cards, c.fold ≠ x.uid) →
     s.pend = [] → s.groups = [] →
     ∃ t, exec (.foldEnd x.uid) s = .next t ∧ t.fold? x.uid = none ∧ (∀ v, v ≠ x.uid → t.fold? v = s.fold? v) ∧
       (∀ k ∈ x.flocks, k.party.toNat ∈ s.inUse → k.party.toNat ∉ t.inUse ∧ k.party.toNat ∈ t.retired) ∧
       ((∃ y ∈ s.folds, y.gid = x.gid ∧ y.uid ≠ x.uid) → t.grid? x.gid = some { g with ended := g.ended + 1 } ∧ t.msix = s.msix) ∧
       ((∀ y ∈ s.folds, y.gid = x.gid → y.uid = x.uid) → g.killed = false → g.gx * g.gy * g.gz ≤ g.ended + 1 → t.grid? x.gid = none ∧
         (g.lrec.ibt = 0 → ∀ w,
           s.unitWrite g.ctx g.cword (leBytes 8 ((if g.foldKilled then 1 else 0) + s.heart % 2 ^ 56 * 2 ^ 8)) = .ok w →
           t.mem = w.mem ∧ t.msix = if g.irq then s.msix ++ [g.msix] else s.msix)))

/-- One cycle of the dispatcher (R355, R358, R359, R391): with no head nothing happens; the age points that are due come first; a
head whose unit fits nowhere begins to age; and a head with a unit of one fold that fits is placed: the new fold stands on the
core chosen, with the resources of its launch, and waits to start. Ageing and rotation (R359, R361, R420): a head that has
failed gains an age point every 10 µs, and reserves its best-fit clusters at age 8; a rotation of a die that is not parked
moves the physical clusters of the clusters that hold no fold one place on, and leaves the others where they are; with
`ROTBUSY` it moves those of all 18 clusters one place on, and every fold that runs on one is to migrate to the core of its
number on the physical cluster that its logical cluster has now. That the ring is then of all 18 clusters, and that the map
changes in the event and the folds are asked to move after it, is the model's reading (log 51); that a die at PS6 or PS7 does
not rotate is R420's. -/
def Obligations.DispatcherAndRotation : Prop :=
  (∀ s : State,
     (s.heads = [] → exec .dispatcherCycle s = .next s) ∧
     (∀ g f, s.heads = [g] → g.failed = some f → f + 625 * (g.age + 1) ≤ s.heart →
       let n := (s.heart - f) / 625
       exec .dispatcherCycle s = exec .dispatcherCycle { s with grids := s.grids.map fun x =>
         if x.gid = g.gid then { x with age := n, reserved := if g.age < 8 ∧ 8 ≤ n then s.bestFit g else x.reserved } else x }) ∧
     (∀ g, s.heads = [g] → (∀ f, g.failed = some f → s.heart < f + 625 * (g.age + 1)) → s.placeUnit g [] = none → exec .dispatcherCycle s = .next { s with grids := s.grids.map fun x =>
       if x.gid = g.gid then { x with failed := some (x.failed.getD s.heart) } else x }) ∧
     (∀ (g : Grid) (p : Spot), s.heads = [g] → (∀ f, g.failed = some f → s.heart < f + 625 * (g.age + 1)) → g.resumes = [] → g.lrec.pad = 1 → g.lrec.resident = false → g.lrec.tidn = 0 →
       (∀ y ∈ s.folds, y.uid < s.nextId) → g.lrec.fold / g.lrec.width + 1 ≤ s.poolFree →
       Map.wf Cluster.init s.clusters = true →
       let a : State := { s with
         nextId := s.nextId + 1, paddocks := s.paddocks ++ [{ pid := s.nextId, gid := g.gid, bars := padBars g.bars 1 }] }
       a.bestSpot g.lrec g.lrec.need (a.padClusters g [] [.fresh g.nextF]) = some p →
       ∃ t x, exec .dispatcherCycle s = .next t ∧ t.folds = s.folds ++ [x] ∧ x.uid = s.nextId + 1 ∧ x.run = .placed ∧ x.gid = g.gid ∧
         x.ctx = g.ctx ∧ x.pad = s.nextId ∧ x.lin = g.nextF ∧ x.padIdx = 0 ∧ x.core = p.core ∧ p.core / 8 = p.cluster ∧ x.size = g.lrec.fold ∧
         x.width = g.lrec.width ∧ x.flocks.length = g.lrec.fold / g.lrec.width ∧ x.regs = g.lrec.regs ∧ x.scrBytes = g.lrec.scr ∧
         x.accRows = g.lrec.acc ∧ x.tags = g.lrec.tags ∧ x.v = [] ∧ x.scr = [] ∧ x.x = g.nextF % g.gx ∧
         (t.cluster p.cluster).point = BitVec.ofNat 3 p.point ∧ t.mem = s.mem)) ∧
  (∀ s : State,
     (∀ (g : Grid) (f : Nat), s.grid? g.gid = some g → g.failed = some f →
       (s.heart < f + 625 * (g.age + 1) → exec (.agePoint g.gid) s = .next s) ∧
       (f + 625 * (g.age + 1) ≤ s.heart → ∃ t, exec (.agePoint g.gid) s = .next t ∧ t = { s with grids := t.grids } ∧
         t.grid? g.gid = some { g with age := g.age + 1, reserved := if g.age = 7 then s.bestFit g else g.reserved })) ∧
     (∀ d < 3, (s.die d).rotms = 0 ∨ 6 ≤ (s.die d).cur → exec (.clusterMapRotation d) s = .next s) ∧
     (∀ d < 3, (s.die d).rotms ≠ 0 → (s.die d).cur < 6 → (s.die d).rotbusy = false → (s.die d).map.length = 18 → Map.wf Die.init s.dies = true →
       let m := (s.die d).map
       let free := (List.range 18).filter fun j => (s.foldsOnCluster (d * 18 + (m[j]?).getD 0)).isEmpty
       ∃ t, exec (.clusterMapRotation d) s = .next t ∧ t.folds = s.folds ∧ t.mem = s.mem ∧
         (∀ j < 18, j ∉ free → (t.die d).map[j]? = m[j]?) ∧
         (∀ n < free.length, (t.die d).map[(free[n]?).getD 0]? = m[(free[(n + 1) % free.length]?).getD 0]?)) ∧
     (∀ d < 3, (s.die d).rotms ≠ 0 → (s.die d).cur < 6 → (s.die d).rotbusy = true → (s.die d).map.Perm (List.range 18) →
       Map.wf Die.init s.dies = true → (s.folds.map (·.uid)).Nodup → (∀ c, (s.cluster c).rdv = none) →
       let m := (s.die d).map
       ∃ t, exec (.clusterMapRotation d) s = .next t ∧ t.mem = s.mem ∧ (∀ j < 18, (t.die d).map[j]? = m[(j + 1) % 18]?) ∧
         (∀ x ∈ s.folds, x.core / 144 ≠ d → t.fold? x.uid = some x) ∧
         (∀ x ∈ s.folds, ∀ j c c', x.run = .running → x.wants = none → m[j]? = some c → m[(j + 1) % 18]? = some c' → x.core / 8 = 18 * d + c →
           t.fold? x.uid = some { x with wants := some (8 * (18 * d + c') + x.core % 8) })))

/-- A queue's index and its plain packets (R345 to R348, R351, R352, R363): a write index that has advanced makes the packets up
to it ready, one more than the ring holds puts the queue in error state with a record; `NOP` is processed at once;
`FETCHFENCE` behind the completed packets discards what is prefetched; `WAITMEM` waits for its word, to its timeout; `SIGNAL`
stores its value and raises its vector; and `STAMP` stores the heartbeat count. A processed packet advances the read index,
and a packet that breaks its layout puts the queue in error state. That `NOP` and `FETCHFENCE` are processed whatever their
other bits (log 47) and that a reserved kind ends as `PACKET_NOP` does (log 48) is the model's choice. Launches from a queue
(R18, R348, R349, R353): a packet whose dimensions and launch record are legal hands a grid to the dispatcher with what the
packet and the record say, which for `LAUNCHC` waits for the preceding launch; a record that is not legal puts the queue in
error state, and no grid is added. Some of the checks of a record are the model's (logs 46, 107). -/
def Obligations.QueueWork : Prop :=
  (∀ (s : State) (q : Nat) (x : Queue) (c : Ctx), s.queue q = some x → x.enable = true → x.err = false → s.ctx x.ctx = some c → c.error = false →
     let failed (run : Host.Outcome State Fault Refusal) (cause : Cause) : Prop := ∃ t y, run = .next t ∧
       t.queue q = some { x with err := true, ecause := cause.code, pre := [], waits := false, waiting := none } ∧
       t.ctx x.ctx = some y ∧ y.recs = c.recs + 1 ∧ t.folds = s.folds ∧ t.grids = s.grids
     (x.devq = false →
       let r := s.unitRead x.ctx x.widx 8
       (∀ b bs, r = (b, .ok bs) →
         (x.read + 2 ^ x.logn < ofLe bs → failed (exec (.writeIndexWake q) s) .queueOverflow) ∧
         (ofLe bs ≤ x.read → exec (.writeIndexWake q) s = .next (b.readAhead q)) ∧
         (x.read < ofLe bs → ofLe bs ≤ x.read + 2 ^ x.logn → exec (.writeIndexWake q) s =
           .next ((b.setQueue q (some { x with wseen := max (ofLe bs) (x.read + x.pre.length) })).readAhead q))) ∧
       (∀ b e, r = (b, .error e) → failed (exec (.writeIndexWake q) s) .queueUnmapped)) ∧
     (∀ (p : Line) (rest : List Line), x.pre = p :: rest → x.read < x.wseen →
       (∀ g ∈ s.grids, g.queue ≠ q) ∨ (p.getLsbD 8 = false ∧ p.extractLsb' 0 8 ≠ 3) →
       let kind := p.extractLsb' 0 8
       let done (b : State) (run : Host.Outcome State Fault Refusal) (pre : List Line) : Prop :=
         ∀ w, (b.setQueue q (some { x with read := x.read + 1, pre := pre, waits := false, waiting := none })).unitWrite x.ctx x.ridx
             (leBytes 8 (x.read + 1)) = .ok w → run = .next (w.readAhead q)
       (kind = 0 → done s (exec (.packetNop q) s) rest) ∧
       (7 ≤ kind → failed (exec (.packetNop q) s) .queuePacket) ∧
       (kind = 3 → done s (exec (.fetchfence q) s) []) ∧
       (pktOk p = false →
         (kind = 1 → failed (exec (.packetLaunch q) s) .queuePacket) ∧ (kind = 2 → failed (exec (.launchc q) s) .queuePacket) ∧
         (kind = 4 → failed (exec (.waitmem q) s) .queuePacket) ∧ (kind = 5 → failed (exec (.signal q) s) .queuePacket) ∧
         (kind = 6 → failed (exec (.stamp q) s) .queuePacket)) ∧
       (pktOk p = true →
         let a := (p.extractLsb' 64 57).toNat
         let n := if p.getLsbD 12 then 8 else 4
         let v := if p.getLsbD 12 then (p.extractLsb' 128 64).toNat else (p.extractLsb' 128 32).toNat
         (kind = 4 → ∀ b bs, s.unitRead x.ctx a n = (b, .ok bs) → b.queues = s.queues →
           let holds := waitCond (p.extractLsb' 16 3).toNat (if p.getLsbD 12 then .n64 else .n32) (ofLe bs) v
           (holds = true → done b (exec (.waitmem q) s) rest) ∧
           (holds = false → x.waits = true → exec (.waitmem q) s = .next b) ∧
           (holds = false → x.waits = false → exec (.waitmem q) s = .next (b.setQueue q (some { x with
             waits := true, waiting := if p.extractLsb' 192 32 = 0 then none else some (b.heart + (p.extractLsb' 192 32).toNat) })))) ∧
         (kind = 5 → p.getLsbD 11 = false → ∀ u, s.unitWrite x.ctx a (leBytes n v) = .ok u →
           done (if p.getLsbD 9 then { u with msix := u.msix ++ [(p.extractLsb' 27 11).toNat] } else u) (exec (.signal q) s) rest) ∧
         (kind = 6 → ∀ u, s.unitWrite x.ctx a (leBytes 8 (s.heart % 2 ^ 64)) = .ok u → done u (exec (.stamp q) s) rest))) ∧
     (∀ d, x.waiting = some d →
       (d ≤ s.heart → failed (exec (.waitmemTimeout q) s) .queueTimeout) ∧ (s.heart < d → exec (.waitmemTimeout q) s = .next s))) ∧
  (∀ (s : State) (q : Nat) (x : Queue) (c : Ctx) (p : Line) (rest : List Line), s.queue q = some x → x.enable = true → x.err = false →
     s.ctx x.ctx = some c → c.error = false → x.pre = p :: rest → x.read < x.wseen → pktOk p = true →
     (∀ g ∈ s.grids, g.queue ≠ q) ∨ p.getLsbD 8 = false →
     let gx := (p.extractLsb' 32 21).toNat
     let gy := (p.extractLsb' 53 21).toNat
     let gz := (p.extractLsb' 74 21).toNat
     let legal : Prop := ∀ n ∈ [gx, gy, gz], 1 ≤ n ∧ n ≤ 2 ^ 20
     let run (chained : Bool) := if chained then exec (.launchc q) s else exec (.packetLaunch q) s
     let addr := x.base + 64 * (x.read % 2 ^ x.logn)
     ∀ chained : Bool, p.extractLsb' 0 8 = (if chained then 2 else 1) →
       (∀ a bs b br d bm, legal → s.unitRead x.ctx (p.extractLsb' 128 57).toNat 256 = (a, .ok bs) → recordOk bs x.prio = true →
         let l := parseRecord bs
         let total := gx * gy * gz
         a.readEntries x.ctx l.badr l.nbar = (b, .ok br) → b.readEntries x.ctx l.pmap (if l.pmap = 0 then 0 else l.pmapn) = (d, .ok bm) →
         br.all (barOk l) = true → barsDistinct (br.map parseBar) = true → bm.all mapEntryOk = true → mapDisjoint (bm.map parseEntry) = true →
         mapPads (bm.map parseEntry) l.pad total = true → unplaceable l (bm.map parseEntry) total = false → d.queues = s.queues →
         ∃ g : Grid, g.gid = d.nextId ∧ g.ctx = x.ctx ∧ g.queue = q ∧ g.lrec = l ∧ g.gx = gx ∧ g.gy = gy ∧ g.gz = gz ∧ g.paddr = addr ∧
           g.bars = br.map parseBar ∧ g.pmap = bm.map parseEntry ∧ g.cword = (p.extractLsb' 192 57).toNat ∧ g.irq = p.getLsbD 9 ∧
           g.dom = p.getLsbD 10 ∧ g.msix = (p.extractLsb' 16 11).toNat ∧ g.args = (p.extractLsb' 256 57).toNat ∧ g.seed = p.extractLsb' 320 32 ∧
           g.prev = (if chained then x.prevLaunch else none) ∧ g.nextF = 0 ∧ g.ended = 0 ∧ g.killed = false ∧ g.resumes = [] ∧
           ∀ w, (({ d with nextId := d.nextId + 1, grids := d.grids ++ [g] } : State).setQueue q (some { x with
               read := x.read + 1, pre := rest, waits := false, waiting := none, prevLaunch := some g.gid })).unitWrite x.ctx x.ridx
               (leBytes 8 (x.read + 1)) = .ok w → run chained = .next (w.readAhead q)) ∧
       (¬ legal ∨ (∃ a bs, s.unitRead x.ctx (p.extractLsb' 128 57).toNat 256 = (a, .ok bs) ∧ recordOk bs x.prio = false) →
         ∃ t y, run chained = .next t ∧ t.queue q = some y ∧ y.err = true ∧ y.ecause = Cause.launchInvalid.code ∧ y.pre = [] ∧ y.read = x.read ∧
           t.grids = s.grids ∧ t.folds = s.folds))

/-- Descriptors of queues and the end of a context (R18, R104, R105, R344, R363, R390): a legal descriptor at a host address
replaces the queue's, which takes its indices from memory when it is enabled, cuts off a managed tile whose apply an error
stops, and has the launch that went before, where the queue is still the same one (log 131); one that is not legal leaves the
queue disabled; and a teardown, which takes effect once no job of the context is within a chunk (log 44), leaves no fold, grid
or queue of the context, no core that holds a translation, line or record of it, and no log unapplied but those of tiles that
an error has cut off (log 72); of a context that has moved to another device (R314) it writes no completion word. Descriptors
of contexts and shootdowns (R379, R380, R381, Table 19.5): a legal descriptor is taken for a context that has no fold, with
status 0, and leaves memory alone; and a shootdown leaves no translation and no instruction line of its range in any core or
cluster, and no log unapplied (log 64) but those of tiles that an error has cut off (log 72), once no fold of the context is
under way to another core and no job of it has done part of a chunk; until then the command is busy. That a descriptor keeps
the record count and the error of its context is the model's choice (log 63). The mailbox while it does not answer (R399,
R405): in recovery, and while another command runs, a command has no effect. That the same command written again stands for
its next attempt is the model's (log 87). -/
def Obligations.QueuesContextsShootdowns : Prop :=
  (∀ s : State,
     (∀ (q a : Nat), MailboxTakes 1 [q, a] s → q < 1024 → a + 63 < 2 ^ 51 →
       let d := parseQueue (s.bytes (2 ^ 52 + a) 64)
       let before (x : Queue) : Option Nat := match s.queue q with
         | some y => if y.ctx = x.ctx ∧ y.qnum = x.qnum then y.prevLaunch else none
         | none => none
       (∀ x, d = some x → x.enable = false →
         exec (.writeQueueDescriptor q a) s = .next (mailboxAnswer 1 [q, a] 0 [] (s.setQueue q (some { x with prevLaunch := before x })))) ∧
       (∀ x, d = some x → x.enable = true →
         (∀ n ∈ s.queues, n.1 ≠ q → ∀ y, n.2 = some y → ¬ (y.enable = true ∧ y.ctx = x.ctx ∧ y.qnum = x.qnum)) →
         ∃ t y, exec (.writeQueueDescriptor q a) s = .next t ∧ t.queue q = some y ∧ t.firm.mbStatus = 0 ∧ (s.logs = [] → t.mem = s.mem) ∧ t.folds = s.folds ∧
           y = { x with read := y.read, wseen := y.wseen, prevLaunch := before x } ∧ y.read ≤ y.wseen ∧
           ∀ l k, x.devq = false → s.virt x.ctx x.ridx .read = .ok (l, k) → l.ml = true → k % 2048 ≤ 2040 → (∃ e ∈ s.logs, e.tile = k / 2048) →
             (∃ n ∈ s.poison, n * 64 / 2048 = k / 2048) → k / 2048 ∈ t.badTiles) ∧
       (d = none → ∃ t, exec (.writeQueueDescriptor q a) s = .next t ∧ t.firm.mbStatus = 1 ∧ t.mem = s.mem ∧ t.folds = s.folds ∧
         (Map.wf none s.queues = true → ∀ y, t.queue q = some y → y.enable = false ∧ y.pre = []))) ∧
     (∀ (c : Nat) (y : Ctx), s.ctx c = some y → Map.wf none s.queues = true → Map.wf none s.ctxs = true → Map.wf Core.init s.cores = true →
       Map.wf Cluster.init s.clusters = true → ∀ moved : Bool,
       ((∃ k ∈ s.cards, k.ctx = c ∧ k.part ≠ [] ∧ k.stop = none) → exec (.contextTeardown (c, moved)) s = .next s) ∧
       ((∀ k ∈ s.cards, k.ctx = c → k.part = [] ∨ k.stop ≠ none) → ∃ t, exec (.contextTeardown (c, moved)) s = .next t ∧ t.ctx c = none ∧ (∀ x ∈ t.folds, x.ctx ≠ c) ∧ (∀ g ∈ t.grids, g.ctx ≠ c) ∧
         (∀ q x, t.queue q = some x → x.ctx ≠ c) ∧
         (∀ n, (∀ e ∈ (t.core n).tlb, e.ctx ≠ c) ∧ (∀ e ∈ (t.core n).ic, e.ctx ≠ c) ∧ (∀ e ∈ (t.core n).tids, e.ctx ≠ c)) ∧
         (∀ n, ∀ e ∈ (t.cluster n).tlb, e.ctx ≠ c) ∧ (∀ e ∈ t.logs, e.tile ∈ t.badTiles) ∧
         (moved = true → s.pend = [] → s.logs = [] → (∀ x ∈ s.folds, x.ctx ≠ c) → t.msix = s.msix ∧ t.mem = s.mem)))) ∧
  ((∀ (s : State) (c : Nat) (d : CtxDesc), c < 64 →
     MailboxTakes 2 [c, d.addr] s →
     (fblkOk d.fblk = false → exec (.writeContextDescriptor c d) s = .next (mailboxAnswer 2 [c, d.addr] 1 [] s)) ∧
     (fblkOk d.fblk = true → (∃ x ∈ s.folds, x.ctx = c) →
       exec (.writeContextDescriptor c d) s = .next (mailboxAnswer 2 [c, d.addr] 2 [] s)) ∧
     (fblkOk d.fblk = true → (∀ x ∈ s.folds, x.ctx ≠ c) → ∃ t y, exec (.writeContextDescriptor c d) s = .next t ∧ t.firm.mbStatus = 0 ∧
       t.mem = s.mem ∧ t.folds = s.folds ∧ t.ctx c = some y ∧ y.root = d.root ∧ y.privBase = d.privBase ∧ y.tidBase = d.tidBase ∧ y.fblk = d.fblk ∧
       (∀ z, s.ctx c = some z → y.recs = z.recs ∧ y.error = z.error))) ∧
   (∀ (s : State) (c va len : Nat), c < 64 → s.ctx c ≠ none → va + len * 65536 ≤ 2 ^ 57 → MailboxTakes 3 [c, va, len] s →
     ((∃ x ∈ s.folds, x.ctx = c ∧ ∃ m, x.run = .moving m) ∨ (∃ e ∈ s.cards, e.ctx = c ∧ e.part ≠ [] ∧ e.stop = none) → exec (.shootdown c va len) s = .next (mailboxAnswer 3 [c, va, len] 255 [] s)) ∧
     ((∀ x ∈ s.folds, x.ctx = c → ∀ m, x.run ≠ .moving m) → (∀ e ∈ s.cards, e.ctx = c → e.part = [] ∨ e.stop ≠ none) →
       Map.wf Core.init s.cores = true → Map.wf Cluster.init s.clusters = true →
       ∃ t, exec (.shootdown c va len) s = .next t ∧
       t.firm.mbStatus = 0 ∧ (∀ e ∈ t.logs, e.tile ∈ t.badTiles) ∧
       (∀ n, ∀ e ∈ (t.cluster n).tlb, e.ctx = c → ¬ (e.vpn * 2 ^ e.bits < va + len * 65536 ∧ va < e.vpn * 2 ^ e.bits + 2 ^ e.bits)) ∧
       (∀ n, (∀ e ∈ (t.core n).tlb, e.ctx = c → ¬ (e.vpn * 2 ^ e.bits < va + len * 65536 ∧ va < e.vpn * 2 ^ e.bits + 2 ^ e.bits)) ∧
         (∀ e ∈ (t.core n).ic, e.ctx = c → ¬ (e.num * 64 < va + len * 65536 ∧ va < e.num * 64 + 64)))))) ∧
  (∀ s : State,
     (∀ q a, ¬ MailboxTakes 1 [q, a] s → exec (.writeQueueDescriptor q a) s = .next s) ∧
     (∀ (c : Nat) (d : CtxDesc), ¬ MailboxTakes 2 [c, d.addr] s → exec (.writeContextDescriptor c d) s = .next s) ∧
     (∀ c va len, ¬ MailboxTakes 3 [c, va, len] s → exec (.shootdown c va len) s = .next s) ∧
     (∀ (core : Nat) (v : W32), ¬ MailboxTakes 4 [core, v.toNat] s → exec (.preEmptOrKill core v) s = .next s) ∧
     (∀ c p, ¬ MailboxTakes 5 [c, p] s → exec (.resumeSavedFold c p) s = .next s) ∧
     (∀ (core off : Nat) (v : W32), ¬ MailboxTakes 6 [core, off, v.toNat] s → exec (.writeCoreControl core off v) s = .next s) ∧
     (∀ core off, ¬ MailboxTakes 7 [core, off] s → exec (.readCoreControl core off) s = .next s) ∧
     (∀ d k, ¬ MailboxTakes 8 [d, k] s → exec (.readViolationLog d k) s = .next s))

/-- Requests to pre-empt or kill (R34, R36, R54, R55, R372): a request at a core that is stopping or saving is ignored; one that
names an empty slot is done (the states are as the core's folds show them, log 53); one for a fold that is a unit by itself
stops it, one for a context stops every fold of the context, and a kill ends the grid, but for a fold that has committed to a
move, which dies when the move ends, and marks its context in error; a job of a killed fold goes at once, or at the end of the
chunk that it has begun; and the mailbox's command 4 writes the same register, with the same effect. -/
def Obligations.PreemptionRequests : Prop :=
  ∀ (s : State) (core slot : Nat), core < 432 → slot < 16 → (∀ c, (s.cluster c).rdv = none) → (s.folds.map (·.uid)).Nodup →
    (∀ x ∈ s.folds, ∀ y ∈ s.folds, x.pad = y.pad ∨ x.gid = y.gid → x.ctx = y.ctx) →
    let idle : Prop := (s.core core).preq ≠ 1 ∧ (s.core core).preq ≠ 2
    (¬ idle → exec (.preqPreempt core slot) s = .next s ∧ exec (.preqKill core slot) s = .next s ∧
      ∀ c < 64, ∀ k, exec (.preqCtxall core c k) s = .next s) ∧
    (idle → s.inSlot core slot = none → (∀ x ∈ s.foldsOnCore core, x.run = .running ∧ x.preqAfter = false) → ∃ t,
      exec (.preqPreempt core slot) s = .next t ∧ (t.core core).preq = 3 ∧ t.folds = s.folds ∧ t.mem = s.mem) ∧
    (∀ x, idle → s.inSlot core slot = some x → x.run = .running → s.unitOf x = [x] → ∃ t, exec (.preqPreempt core slot) s = .next t ∧
      t.fold? x.uid = some { x with run := .stopping none, wants := none } ∧ (∀ u, u ≠ x.uid → t.fold? u = s.fold? u) ∧
      (t.core core).preq = 1 ∧ (t.core core).saveFault = false ∧ (t.core core).killed = false ∧ t.mem = s.mem) ∧
    (∀ c < 64, idle → (∀ x ∈ s.folds, x.ctx = c → x.run = .running) → ∃ t, exec (.preqCtxall core c false) s = .next t ∧
      t.folds.map (·.uid) = s.folds.map (·.uid) ∧ (∀ x ∈ t.folds, x.ctx = c → x.run = .stopping none ∧ x.wants = none) ∧ t.mem = s.mem) ∧
    (∀ x g y, idle → s.inSlot core slot = some x → s.grid? x.gid = some g → s.ctx g.ctx = some y → ∃ t h z, exec (.preqKill core slot) s = .next t ∧
      t.grid? x.gid = some h ∧ h.killed = true ∧ t.ctx g.ctx = some z ∧ z.error = true ∧ (t.core core).killed = true ∧
      (∀ v ∈ t.folds, v.gid = x.gid → (v.moveTo = none → v.run = .dying ∨ v.run = .saved) ∧ (v.moveTo ≠ none → v.killAfter = true)) ∧
      (∀ k ∈ s.cards, ∀ v ∈ s.folds, (s.cards.map (·.cid)).Nodup → k.kind ≠ .arr → k.fold = v.uid → v.gid = x.gid → v.moveTo = none →
        (k.part = [] ∨ k.stop ≠ none → t.card? k.cid = none) ∧
        (k.part ≠ [] → k.stop = none → t.card? k.cid = some { k with dying := true }))) ∧
    (MailboxTakes 4 [core, slot] s → ∃ t, exec (.preqPreempt core slot) s = .next t ∧
      exec (.preEmptOrKill core (BitVec.ofNat 32 slot)) s = .next (mailboxAnswer 4 [core, slot] 0 [] t)) ∧
    (MailboxTakes 4 [core, slot + 16] s → ∃ t, exec (.preqKill core slot) s = .next t ∧
      exec (.preEmptOrKill core (BitVec.ofNat 32 (slot + 16))) s = .next (mailboxAnswer 4 [core, slot + 16] 0 [] t)) ∧
    (∀ c v, 432 ≤ c → MailboxTakes 4 [c, v.toNat] s → exec (.preEmptOrKill c v) s = .next (mailboxAnswer 4 [c, v.toNat] 1 [] s))

/-- The stop, the save and the way back (R373, R375, R378): a fold whose fragments stand, whose loads have landed and whose jobs
stand at chunk boundaries goes over to its save, or to its transfer; its image, of which every section begins at the next
multiple of 256 after the one before it, is written to its save area and the fold is saved, its lease suspended where some of
it is left (log 55), or the save is abandoned with `SAVEFAULT` and the fold runs on; and the driver's request queues the saved
unit of a grid for placement again, and answers status 1 where no such fold is saved (log 56). -/
def Obligations.SavesAndResumption : Prop :=
  ∀ (s : State) (x : Fold), s.fold? x.uid = some x →
    let stands : Prop := x.loads = [] ∧ x.moveTo = none ∧ (∀ c ∈ s.cards, c.fold = x.uid → c.part = [] ∨ c.stop ≠ none) ∧
      ∀ k ∈ x.flocks, k.stop ≠ none ∨ ∀ g ∈ k.frags, g.atStop = true
    (¬ stands → exec (.foldStopped x.uid) s = .next s) ∧
    (stands → s.pend = [] → s.groups = [] → ∀ m, x.run = .stopping m → ∃ t, exec (.foldStopped x.uid) s = .next t ∧
      (∀ u, u ≠ x.uid → t.fold? u = s.fold? u) ∧ t.mem = s.mem ∧
      t.fold? x.uid = some { x with run := match m with | none => .saving | some c => .moving c }) ∧
    (x.run = .saving → x.argFault = none →
      let left := if x.lease.active then (x.lease.until' - 2 * s.heart + 124) / 125 else x.lease.remain
      let lease : Lease := { x.lease with
        remain := left, until' := 0, active := false, susp := (x.lease.active && decide (0 < left)) || x.lease.susp }
      let image := s.saveImage { x with lease := x.lease.suspend s.heart }
      let area := (s.ctx x.ctx).elim 0 (·.saveBase) + x.pidx * 2 ^ 22
      let sizes : List Nat := [256, x.flocks.length * 1280, (x.flocks.flatMap (·.frags)).length * 32, x.size * 16, x.size * x.regs * 4,
        544 + (if s.padLead x then 256 else 0), 16, (s.jobsOf x.uid).length * 256, x.scrBytes + x.scrBytes / 32 * 4, x.accRows * 1024,
        if x.stream.isSome then 2048 else 0]
      let start (n : Nat) : Nat := (sizes.take n).foldl (fun a b => a + (b + 255) / 256 * 256) 0
      let holds (n at' : Nat) (bs : List Byte) : Prop := (image.drop (start n + at')).take bs.length = bs
      ((∀ m, x.stream = some m → m.queue.length ≤ 4) →
        image.length = start 11 + x.flocks.length * 200 ∧ holds 0 0 [0x46, 0x53, 0x41, 0x56] ∧
        (∀ n k, x.flocks[n]? = some k → (∀ r < 128, holds 1 (1280 * n + 8 * r) (leBytes 8 (k.sreg r).toNat)) ∧
          ∀ key < 25, holds 11 (200 * n + 8 * key) (leBytes 8 (Map.get 0 k.passed key).toNat)) ∧
        (∀ j < x.size * x.regs, holds 4 (4 * j) (leBytes 4 (Map.get 0 x.v j).toNat)) ∧
        holds 6 0 (leBytes 8 x.tagReady.toNat) ∧ holds 6 8 (leBytes 8 x.tagErr.toNat) ∧
        (∀ j < x.scrBytes, holds 8 j [Map.get 0 x.scr j]) ∧
        (∀ j < x.accRows * 256, holds 9 (4 * j) (leBytes 4 (Map.get 0 x.acc j).toNat))) ∧
      (∀ b, s.writeLines x.ctx area image.length image = .ok b → ∃ t, exec (.saveComplete x.uid) s = .next t ∧ t.mem = b.mem ∧
        t.fold? x.uid = some { x with run := .saved, lease := lease }) ∧
      (∀ e a, s.writeLines x.ctx area image.length image = .error (e, a) → ∃ t, exec (.saveComplete x.uid) s = .next t ∧
        t.fold? x.uid = some { x with run := .running } ∧ (t.core x.core).saveFault = true)) ∧
    (s.folds.find? (fun y => y.ctx == x.ctx && y.pidx == x.pidx && y.run == .saved) = some x → ∀ g, s.grid? x.gid = some g →
      g.killed = false → (∀ y ∈ s.unitOf x, y.run = .saved) → x.pad ∉ g.resumes →
      MailboxTakes 5 [x.ctx, x.pidx] s → ∃ t h, exec (.resumeSavedFold x.ctx x.pidx) s = .next t ∧
      t.firm.mbStatus = 0 ∧ t.folds = s.folds ∧ t.mem = s.mem ∧ t.grid? x.gid = some h ∧ h.resumes = g.resumes ++ [x.pad]) ∧
    ((∀ y ∈ s.folds, y.ctx = x.ctx → y.pidx = x.pidx → y.run ≠ .saved) → MailboxTakes 5 [x.ctx, x.pidx] s →
      exec (.resumeSavedFold x.ctx x.pidx) s = .next (mailboxAnswer 5 [x.ctx, x.pidx] 1 [] s))

/-- Migration (R382 to R386, R410): a request for a running fold stands until the fold's next honour point, one for an empty slot
is dropped with state 3 (log 57), and one while another stands is ignored; a transfer that is done leaves the fold on its
target with all that is its own, where no line of an earlier fold is held, or, where the target cannot take it when it is
looked at again (log 58), running where it was; and the samples of a die without `AUTO`, or without a hot core, ask for
nothing, while a hot core asks for its hottest fold: the sample first takes the readings of the die's core sensors. -/
def Obligations.Migrations : Prop :=
  (∀ (s : State) (core : Nat) (v : W32), core < 432 → v.extractLsb' 13 19 = 0 →
    let slot := (v.extractLsb' 0 4).toNat
    let target := (v.extractLsb' 4 9).toNat
    let st := (s.core core).mig
    (st = 1 ∨ st = 2 → exec (.migreq core v) s = .next s) ∧
    (st ≠ 1 → st ≠ 2 → s.inSlot core slot = none → ∃ t, exec (.migreq core v) s = .next t ∧ t = { s with cores := t.cores } ∧
      (t.core core).mig = 3 ∧ (t.core core).migDropped = true) ∧
    (∀ x, st ≠ 1 → st ≠ 2 → s.inSlot core slot = some x → s.fold? x.uid = some x → x.run = .running → (s.cluster (x.core / 8)).rdv = none → ∃ t,
      exec (.migreq core v) s = .next t ∧ t = { s with folds := t.folds, cores := t.cores } ∧
      t.fold? x.uid = some { x with wants := some target } ∧ (∀ u, u ≠ x.uid → t.fold? u = s.fold? u) ∧
      (t.core core).mig = 1 ∧ (t.core core).migDropped = false ∧ (t.core core).migRefused = false)) ∧
  (∀ (s : State) (x : Fold) (c : Nat), s.fold? x.uid = some x → x.run = .moving c → x.preqAfter = false → Map.wf Core.init s.cores = true →
    (∀ nums, s.canMove x c = true → s.cardNumbers c (s.cards.filter (·.fold == x.uid)).length = some nums →
      c / 144 = x.core / 144 ∨ (x.lease.active = false ∧ x.lease.susp = false) → ∃ t y,
      exec (.migrationTransferDone x.uid) s = .next t ∧ t.fold? x.uid = some y ∧ (t.core c).l1 = [] ∧
      y = { x with run := .running, core := c, pslot := y.pslot, flocks := y.flocks, stream := y.stream } ∧ y.flocks.length = x.flocks.length ∧
      (∀ (n : Nat) (k : Flock), x.flocks[n]? = some k → ∃ k' : Flock, y.flocks[n]? = some k' ∧ k'.s = k.s ∧ k'.m = k.m ∧ k'.party = k.party ∧ k'.latOk = 0 ∧
        k'.frags.map (fun g => (g.fid, g.members, g.exec, g.pc)) = k.frags.map fun g => (g.fid, g.members, g.exec, g.pc))) ∧
    (s.canMove x c = false → ∃ t, exec (.migrationTransferDone x.uid) s = .next t ∧ t = { s with folds := t.folds, cores := t.cores } ∧
      t.fold? x.uid = some { x with run := .running })) ∧
  (∀ (s : State) (d : Nat), d < 3 →
    (∀ l, (s.die d).auto = false → exec (.migrationSample (d, l)) s = .next s) ∧
    (∀ l : List (Nat × Int), Map.wf Core.init s.cores = true → (s.die d).auto = true → ∃ t, t = { s with cores := t.cores } ∧
      exec (.migrationSample (d, l)) s = exec (.migrationSample (d, [])) t ∧
      ∀ k, t.core k = if k / 144 = d then { s.core k with temp := { (s.core k).temp with
          now := ((l.find? fun p => p.1 == k).map (·.2)).getD (s.core k).temp.now } } else s.core k) ∧
    (let hot (k : Nat) : Prop := ((s.die d).migthr : Int) * 1000 < s.coreTemp k
     let mine (k : Nat) : Prop := k / 144 = d
     ((∀ k, mine k → ¬ hot k) → exec (.migrationSample (d, [])) s = .next s) ∧
     (∀ k x c, (s.die d).auto = true → mine k → hot k → (s.core k).mig = 0 ∨ (s.core k).mig = 3 → Map.wf Core.init s.cores = true → (∀ j, mine j → j ≠ k → ¬ hot j) →
       s.hottestFold k = some x → s.coolTarget k x = some c →
       exec (.migrationSample (d, [])) s = exec (.migreq k (BitVec.ofNat 32 (x.pslot + 16 * c))) s)))

/-- The return from a fault and its service (R242, R369, R370): an acknowledgement with resume of the only record of a stopped
flock, of the first fold of the logical core that waits for it (log 59), ends its stop, and a memory instruction then replays,
in private memory that the driver has grown by pages where that was the cause (how many is free, log 60); one with kill ends
the fold of a contained launch, a saved one when it resumes; firmware grows the private memory of a flock from the pool and
resumes it through `FLTACK` of the core that the record names; and it hands every cause that it does not service to the
driver. -/
def Obligations.FaultService : Prop :=
  ∀ s : State,
    (∀ (x : Fold) (core sq n a : Nat) (k : Flock) (p : Stop), Map.wf Core.init s.cores = true → sq < 2 ^ 32 →
      s.folds.find? (fun y => y.lcore == core && s.awaitsIn y sq) = some x → s.fold? x.uid = some x → x.flocks[n]? = some k →
      k.stop = some p → p.awaits = [a] → a % 2 ^ 32 = sq → x.argFault = none →
      (∃ t y m, exec (.fltackResume core sq) s = .next t ∧ t.mem = s.mem ∧ (∀ u, u ≠ x.uid → t.fold? u = s.fold? u) ∧ t.fold? x.uid = some y ∧
        y.flocks[n]? = some { k with stop := none, replayFid := if p.resume = .replay then some p.frag else k.replayFid,
                                     privHwm := if p.grow then min (2 ^ 24) (k.privHwm + 4096 * (m + 1)) else k.privHwm } ∧
        { y with flocks := x.flocks, stream := x.stream } = x) ∧
      (x.run = .saved → exec (.fltackKill core sq) s = .next
        { (s.modCore (8 * s.physical (core / 8) + core % 8) fun c => { c with fltack := BitVec.ofNat 32 sq }) with
          folds := s.folds.map fun y => if y.uid = x.uid then { y with lateKill := true } else y }) ∧
      (∀ g, s.grid? x.gid = some g → g.lrec.contain = true → x.run = .running → x.moveTo = none → ∃ t y h, exec (.fltackKill core sq) s = .next t ∧
        t.fold? x.uid = some y ∧ y.run = .dying ∧ t.grid? x.gid = some h ∧ h.foldKilled = true ∧ h.killed = g.killed)) ∧
    (∀ (c : Nat) (y : Ctx) (bs : List Byte), s.ctx c = some y → y.unwritten = [] →
      (y.recs ≤ y.fwRead → exec (.faultRecordService c) s = .next s) ∧
      (let b := s.setCtx c (some { y with fwRead := y.fwRead + 1 })
       let r := ofLe bs
       let cause := bits r 7 0
       y.fwRead < y.recs → b.readVirt c (y.fqBase + 64 * (y.fwRead % 2 ^ y.fqLogn)) 64 = .ok bs →
        (cause ≠ Cause.privGrow.code → cause ≠ Cause.replicaTimeout.code →
          ¬ (cause = Cause.pageAbsent.code ∧ y.fillLo ≤ bits r 191 128 ∧ bits r 191 128 < y.fillHi) →
          exec (.faultRecordService c) s = .next (if y.fqIrq then { b with msix := b.msix ++ [y.fqMsix] } else b)) ∧
        (∀ (x : Fold) (k : Flock) (p : Stop) (t : State) (a : Nat), cause = Cause.privGrow.code →
          b.folds.find? (fun z => z.ctx == c && z.lcore == bits r 33 32 * 144 + bits r 41 34 && z.slot == bits r 45 42 && b.awaitsIn z (bits r 447 384)) = some x →
          (∀ z ∈ b.folds, z.ctx = c → b.awaitsIn z (bits r 447 384) = true → z.uid = x.uid) → b.fold? x.uid = some x →
          x.flocks[bits r 51 46]? = some k → k.stop = some p → p.awaits = [a] → a = bits r 447 384 → x.argFault = none →
          b.mapPrivate c x.pidx k.privHwm = some t →
          Map.wf Core.init t.cores = true → ∃ w z k', exec (.faultRecordService c) s = .next w ∧ w.mem = t.mem ∧
            (w.core (8 * t.physical ((bits r 33 32 * 144 + bits r 41 34) / 8) + (bits r 33 32 * 144 + bits r 41 34) % 8)).fltack =
              BitVec.ofNat 32 (bits r 447 384) ∧ w.fold? x.uid = some z ∧ z.flocks[bits r 51 46]? = some k' ∧
            k'.privHwm = min (2 ^ 24) (k.privHwm + 65536) ∧ k'.stop = none)))

/-- The control region of a core as the mailbox reaches it (R105, R360, R371, R382, Tables 15.8, 16.4, 16.5, 16.10): the words
that it reads, the fields that it writes, where a reserved value leaves its field unchanged, the registers that it refuses,
and `TILECLR`, which leaves a tile of zeros without log or marked line (log 106) and tells the error log of the home die of
its address (log 62). An entry that does not exist, or of a die at PS7, reads as zero (log 119). -/
def Obligations.CoreControl : Prop :=
  ∀ (s : State) (core : Nat), core < 432 →
    let d := s.die (core / 144)
    let reads (off : Nat) (v : Nat) : Prop := MailboxTakes 7 [core, off] s →
      exec (.readCoreControl core off) s = .next (mailboxAnswer 7 [core, off] 0 [v] s)
    let c := s.core core
    let bit (b : Bool) : Nat := if b then 1 else 0
    reads 0 (core / 144 + core % 144 * 4 + s.stepping % 256 * 1024) ∧
    (∀ n < 16, s.inSlot core n = none → reads (0x10 + n) 0) ∧
    (∀ n < 16, ∀ x, s.inSlot core n = some x → x.run = .running → reads (0x10 + n) (x.ctx + 64 + x.pidx * 256)) ∧
    reads 0x21 (c.preq + bit c.saveFault * 4 + bit c.killed * 8) ∧
    reads 0x41 (c.mig + bit c.migDropped * 4 + bit c.migRefused * 8) ∧
    reads 0x42 (d.migthr + bit d.auto * 256) ∧ reads 0x50 (d.rotms + d.rflim * 256 + bit d.rotbusy * 65536) ∧
    (∀ (off : Nat) (v : W32), off = 0x30 ∨ off = 0x31 → MailboxTakes 6 [core, off, v.toNat] s →
      exec (.writeCoreControl core off v) s = .next (mailboxAnswer 6 [core, off, v.toNat] 2 [] s)) ∧
    (∀ v : W32, Map.wf Die.init s.dies = true →
      (MailboxTakes 6 [core, 0x42, v.toNat] s → ∃ t, exec (.writeCoreControl core 0x42 v) s = .next t ∧ t.mem = s.mem ∧ t.folds = s.folds ∧ t.firm.mbStatus = 0 ∧ t.die (core / 144) = { d with
        migthr := if 70 ≤ v.extractLsb' 0 8 ∧ v.extractLsb' 0 8 ≤ 105 then (v.extractLsb' 0 8).toNat else d.migthr
        auto := v.getLsbD 8 }) ∧
      (MailboxTakes 6 [core, 0x50, v.toNat] s → ∃ t, exec (.writeCoreControl core 0x50 v) s = .next t ∧ t.mem = s.mem ∧ t.folds = s.folds ∧ t.firm.mbStatus = 0 ∧ t.die (core / 144) = { d with
        rotms := if v.extractLsb' 0 5 ≤ 16 then (v.extractLsb' 0 5).toNat else d.rotms
        rflim := if 4 ≤ v.extractLsb' 8 4 ∧ v.extractLsb' 8 4 ≤ 12 then (v.extractLsb' 8 4).toNat else d.rflim
        rotbusy := v.getLsbD 16 })) ∧
    (∀ hi : W32, MemoryCanonical s →
      let pa := (hi ++ c.tileclr).toNat
      let tile := pa / 2048
      (240 * 2 ^ 30 ≤ pa → exec (.tileclr core hi) s = .next s) ∧
      (pa < 240 * 2 ^ 30 → (s.die (pa / (80 * 2 ^ 30))).cur ≠ 7 → ∃ t, exec (.tileclr core hi) s = .next t ∧
        (∀ a, t.byte a = if a / 2048 = tile then 0 else s.byte a) ∧ MemoryCanonical t ∧
        t.logs = s.logs.filter (fun e => e.tile ≠ tile) ∧ tile ∉ t.badTiles ∧ (∀ n ∈ t.poison, n * 64 / 2048 ≠ tile) ∧ t.folds = s.folds ∧
        (t.die (pa / (80 * 2 ^ 30))).errSeq = (s.die (pa / (80 * 2 ^ 30))).errSeq + 1 ∧
        ∃ e, (t.die (pa / (80 * 2 ^ 30))).errlog.getLast? = some e ∧ e.cause = Cause.logTileError.code ∧ e.addr = tile * 2048)) ∧
    (∀ (n k : Nat), n < 3 → k < 1024 → MailboxTakes 8 [n, k] s → 7 ≤ (s.die n).cur ∨ (∀ e ∈ (s.die n).viol, (e.seq - 1) % 1024 ≠ k) →
      exec (.readViolationLog n k) s = .next (mailboxAnswer 8 [n, k] 0 [0, 0] s)) ∧
    (∀ (n : Nat) (e : VioEnt), n < 3 → (s.die n).cur < 7 → (s.die n).viol = [e] → MailboxTakes 8 [n, (e.seq - 1) % 1024] s →
      exec (.readViolationLog n ((e.seq - 1) % 1024)) s = .next (mailboxAnswer 8 [n, (e.seq - 1) % 1024] 0
        [e.ctx % 64 + e.cls % 8 * 2 ^ 6 + e.die % 4 * 2 ^ 9 + e.core % 256 * 2 ^ 11 + e.seq % 2 ^ 32 * 2 ^ 32, e.addr] s))

/-- P-states (R49, R417, R419, R420, Tables 2.3, 21.2): a write of `TARGET` is taken, but for one of 7 from another state than PS6
or without another die below PS7, and but for the host's while it is locked out or in recovery; a die then moves toward its
target: within its rail nothing else changes, upward it goes one state at a time, and with less than its demand it goes a step
down, a step up or stays (which of them is free, log 2; one at a time, log 65); across rails every cluster, with folds or
without (log 66), takes the point four up or down and settles, and an open rendezvous closes (log 102, the model's choice); a
park waits for the die to hold no fold; and a die that goes to PS7, or leaves it, has no byte of its memory but zero, and no
entry in the logs that are rings in it. -/
def Obligations.PowerStates : Prop :=
  ∀ (s : State) (d : Nat), d < 3 →
    let x := s.die d
    (∀ (bmc : Bool) (v : W32), (s.oper.oob = false ∧ s.firm.boot ≠ .recovery) ∨ bmc = true →
      let p := (v.extractLsb' 0 3).toNat
      let refused : Prop := p = 7 ∧ (x.cur ≠ 6 ∨ ∀ e < 3, e ≠ d → 7 ≤ (s.die e).cur)
      (refused → exec (.pstateTargetWrite bmc d v) s = .next s) ∧
      (¬ refused → exec (.pstateTargetWrite bmc d v) s = .next (s.modDie d fun y => { y with target := p }))) ∧
    (∀ v : W32, s.oper.oob = true ∨ s.firm.boot = .recovery → exec (.pstateTargetWrite false d v) s = .next s) ∧
    (x.fsafe = false → x.hot = false → x.shold = false → Map.wf Die.init s.dies = true → Map.wf Cluster.init s.clusters = true →
      let l (p : Nat) : Bool := decide (3 ≤ p)
      let done := exec (.pstateTransitionDone d) s
      (x.cur < 6 → x.target < 6 → l x.target = l x.cur → x.cur < x.target →
        done = .next (s.modDie d fun y => { y with cur := x.target })) ∧
      (x.cur < 6 → l x.target = l x.cur → x.target < x.cur → x.demand ≤ x.grant →
        done = .next (s.modDie d fun y => { y with cur := x.cur - 1 })) ∧
      (x.cur < 6 → l x.target = l x.cur → x.target ≤ x.cur → x.grant < x.demand →
        ∃ t p, done = .next t ∧ t = { s.modDie d (fun y => { y with cur := p }) with draws := t.draws } ∧
          (p = x.cur ∨ (p = x.cur + 1 ∧ p < 6 ∧ l p = l x.cur) ∨ (p + 1 = x.cur ∧ x.target < x.cur))) ∧
      (x.cur < 6 → x.target < 6 → l x.target ≠ l x.cur → (∀ c, (s.cluster c).rdv = none) →
        ∃ t, done = .next t ∧ t = { s with dies := t.dies, clusters := t.clusters } ∧
        t.die d = { x with cur := x.target } ∧ ∀ c < 54,
          let y := s.cluster c
          t.cluster c = if c / 18 = d then
            (if l x.target then (if y.point < 4 then { y with point := y.point + 4, settling := true } else y)
             else (if y.point < 4 then y else { y with point := y.point - 4, settling := true })) else y) ∧
      (x.cur < 6 → x.target < 6 → l x.target ≠ l x.cur → ∃ t, done = .next t ∧ ∀ c < 54, c / 18 = d → (t.cluster c).rdv = none) ∧
      (x.cur < 6 → x.target = 6 → (∃ f ∈ s.folds, f.core / 144 = d ∧ f.run ≠ .saved) → done = .next s) ∧
      (x.cur < 6 → x.target = 6 → (∀ f ∈ s.folds, f.core / 144 = d → f.run = .saved) →
        done = .next (s.modDie d fun y => { y with cur := 6 })) ∧
      ((x.cur = 6 ∧ x.target = 7) ∨ (x.cur = 7 ∧ x.target = 6) → ∃ t, done = .next t ∧ (t.die d).cur = x.target ∧ (t.die d).errlog = [] ∧ (t.die d).viol = [] ∧ t.folds = s.folds ∧ (MemoryCanonical s →
        ∀ k, t.byte k = if k / (80 * 2 ^ 30) = d then 0 else s.byte k)))

/-- The operator's registers (R415, R422, R424, R426, Table 21.1): a write of `PKGPWR` takes a ceiling in its range and, from the
baseboard controller, the lock; the host writes none in recovery; `DSPOP` and `MIGOP` reach every die, in the same step (log
67); the selectors take their fields; a word that is not listed changes nothing; and `SENSRT` starts the second anew for the
suspect core sensors of the clusters named. -/
def Obligations.OperatorRegisters : Prop :=
  ∀ (s : State) (bmc : Bool) (v : W32),
    (s.firm.boot = .recovery → ∀ off, exec (.registerWrite false off v) s = .next s) ∧ (s.firm.boot ≠ .recovery ∨ bmc = true →
    let w (off : Nat) := exec (.registerWrite bmc off v) s
    let shut : Prop := s.oper.oob = true ∧ bmc = false
    let dies (f : Die → Die) (b : State) : State := ((b.modDie 0 f).modDie 1 f).modDie 2 f
    (shut → ∀ off ∈ [0, 0x10, 0x14, 0x18, 0x20, 0x24], w off = .next s) ∧
    (¬ shut →
      w 0 = .next { s with oper := { s.oper with
        ceil := if 50 ≤ v.extractLsb' 0 8 ∧ v.extractLsb' 0 8 ≤ 240 then (v.extractLsb' 0 8).toNat else s.oper.ceil
        oob := if bmc then v.getLsbD 8 else s.oper.oob } } ∧
      (∀ d < 3, w (0x10 + 4 * d) = exec (.pstateTargetWrite bmc d v) s) ∧
      (let r := if v.extractLsb' 0 5 ≤ 16 then (v.extractLsb' 0 5).toNat else s.oper.rotms
       let l := if 4 ≤ v.extractLsb' 8 4 ∧ v.extractLsb' 8 4 ≤ 12 then (v.extractLsb' 8 4).toNat else s.oper.rflim
       w 0x20 = .next (dies (fun x => { x with rotms := r, rflim := l }) { s with oper := { s.oper with rotms := r, rflim := l } })) ∧
      (let m := if 70 ≤ v.extractLsb' 0 8 ∧ v.extractLsb' 0 8 ≤ 105 then (v.extractLsb' 0 8).toNat else s.oper.migthr
       w 0x24 = .next (dies (fun x => { x with migthr := m, auto := v.getLsbD 8 }) { s with oper := { s.oper with migthr := m, auto := v.getLsbD 8 } }))) ∧
    w 0x40 = .next { s with oper := { s.oper with elidx := (v.extractLsb' 0 12).toNat, eldie := (v.extractLsb' 12 2).toNat } } ∧
    w 0xA0 = .next { s with oper := { s.oper with tlidx := (v.extractLsb' 0 8).toNat, tlsub := (v.extractLsb' 8 8).toNat } } ∧
    (∀ off, off ∉ [0, 0x10, 0x14, 0x18, 0x20, 0x24, 0x30, 0x40, 0xA0] → w off = .next s) ∧
    w 0x30 = exec (.sensorRetest v) s ∧
    (Map.wf Core.init s.cores = true → ∃ t, exec (.sensorRetest v) s = .next t ∧ t = { s with cores := t.cores, clusters := t.clusters } ∧
      ∀ k < 432, (t.core k).temp = if (v.getLsbD 6 ∨ k / 8 = (v.extractLsb' 0 6).toNat) ∧ (s.core k).temp.suspect then
        { (s.core k).temp with okSince := some s.heart } else (s.core k).temp))

/-- Grants of power (R397, R416, R418, R427): in every state the arbiter's period passes: without a leader, or with one at PS7,
nothing is granted; else every die gets its floor and its share of what the ceiling leaves, and leaves the fail-safe state;
and, with no boost lease, the grants with the fixed 30 W and the headroom make up the ceiling, as the package's average keeps
within the one that was in force until then. Boost leases (R199, R388, R389, R416): at a grant the one flock that waits has
its answer: 4 for a duration out of range, 2 for a request of a fold that holds a lease, 3 for the return of none and 0 for
that of one, which ends; else 0, with the lease running, while the headroom of the grants covers the model's estimate of its
cost (log 15), and 1 where it does not; a held lease runs again where the headroom covers it; at the first grant after a
ceiling was lowered, a lease that the headroom no longer covers, or on a die whose grant lay above the ceiling, is dropped;
and a lease that has run out ends, and no other. That a request is answered once a period, with the grants, is the model's
reading (log 68). -/
def Obligations.PowerBudget : Prop :=
  (∀ (s : State) (demand : List Nat) (pavg : Nat),
     (s.holder = 3 ∨ s.expiry ≤ s.heart ∨ 7 ≤ (s.die s.holder).cur → ∃ t, exec (.arbiterPeriod demand pavg) s = .next t ∧ t.oper.pavg = min pavg (5 * s.oper.granted) ∧
       t.headroom = s.headroom ∧ (∀ d, (t.die d).grant = (s.die d).grant ∧ (t.die d).lastGrant = (s.die d).lastGrant ∧ (t.die d).fsafe = (s.die d).fsafe) ∧
       (s.holder = 3 → t.folds = s.folds ∧ t.mem = s.mem)) ∧
     (s.holder ≠ 3 → s.heart < s.expiry → (s.die s.holder).cur < 7 →
       let floor (d : Nat) : Nat := if (s.die d).cur < 6 then 60 else if (s.die d).cur = 6 then 20 else 0
       let avail := 5 * s.oper.ceil - 30 - (floor 0 + floor 1 + floor 2)
       let want (d : Nat) : Nat := if (s.die d).cur < 6 then (demand[d]?).getD 0 - floor d else 0
       let total := want 0 + want 1 + want 2
       let share (d : Nat) : Nat := if total ≤ avail then want d else avail * want d / total
       ∃ t, exec (.arbiterPeriod demand pavg) s = .next t ∧ t.oper.pavg = min pavg (5 * s.oper.granted) ∧
         (Map.wf Die.init s.dies = true → ∀ d < 3, (t.die d).grant = floor d + share d ∧ (t.die d).fsafe = false ∧
           (t.die d).lastGrant = s.heart ∧ (t.die d).demand = (demand[d]?).getD 0) ∧
         (s.leaseWaiters = [] → (∀ x ∈ s.folds, x.lease.active = false ∧ x.lease.susp = false) → t.folds = s.folds ∧ t.mem = s.mem ∧
           t.headroom = avail - (share 0 + share 1 + share 2) ∧
           (30 + floor 0 + floor 1 + floor 2 ≤ 5 * s.oper.ceil → Map.wf Die.init s.dies = true →
             30 + (t.die 0).grant + (t.die 1).grant + (t.die 2).grant + t.headroom = 5 * s.oper.ceil)))) ∧
  ((∀ (s : State) (demand : List Nat) (pavg : Nat) (i : Iss) (sd : BitVec 7) (us : Option W64), s.holder ≠ 3 → s.heart < s.expiry →
     (s.die s.holder).cur < 7 →
     s.leaseWaiters = [(i.x.uid, i.fl, i.g.fid)] → s.iss? i.x.uid i.fl i.g.fid = some i → i.g.park = .lease us → i.g.sysDst = some sd →
     i.x.run = .running → i.k.stop = none → (s.folds.map (·.uid)).Nodup →
     (∀ x ∈ s.folds, x.uid ≠ i.x.uid → x.lease.active = false ∧ x.lease.susp = false) →
     (s.die (i.x.core / 144)).grant ≤ 5 * s.oper.ceil →
     s.oper.granted ≤ s.oper.ceil ∨ i.x.lease.active = false ∨ 2 + Config.leaseWatts (i.x.core / 8) ≤ (grants s.oper.ceil [s.die 0, s.die 1, s.die 2] demand).2 →
     let floor (d : Nat) : Nat := if (s.die d).cur < 6 then 60 else if (s.die d).cur = 6 then 20 else 0
     let avail := 5 * s.oper.ceil - 30 - (floor 0 + floor 1 + floor 2)
     let want (d : Nat) : Nat := if (s.die d).cur < 6 then (demand[d]?).getD 0 - floor d else 0
     let total := want 0 + want 1 + want 2
     let share (d : Nat) : Nat := if total ≤ avail then want d else avail * want d / total
     let room := avail - (share 0 + share 1 + share 2)
     let cost := 2 + Config.leaseWatts (i.x.core / 8)
     let l := i.x.lease
     let runs (us : Nat) (b : Lease) : Lease := { b with remain := us, until' := 2 * s.heart + 125 * us, active := true, susp := false }
     let kept : Lease := if l.active = false ∧ l.susp = true ∧ cost ≤ room then runs l.remain l else l
     let holds : Prop := l.active = true ∨ l.susp = true
     ∃ t y k, exec (.arbiterPeriod demand pavg) s = .next t ∧ t.fold? i.x.uid = some y ∧ y.flocks[i.fl]? = some k ∧
       (let answered (n : W64) (b : Lease) : Prop := k.s = Map.set 0 i.k.s sd.toNat n ∧ y.lease = b
        (us = none → holds → answered 0 { l with remain := 0, until' := 0, active := false, susp := false }) ∧
        (us = none → ¬ holds → answered 3 l) ∧
        (∀ v, us = some v → v = 0 ∨ 4000 < v → answered 4 kept) ∧
        (∀ v, us = some v → 1 ≤ v → v ≤ 4000 →
          (holds → answered 2 kept) ∧
          (¬ holds → cost ≤ room → answered 0 (runs v.toNat { l with dropped := false }) ∧ t.headroom = room - cost) ∧
          (¬ holds → room < cost → answered 1 l)))) ∧
   (∀ (s : State) (demand : List Nat) (pavg : Nat) (x : Fold), s.holder ≠ 3 → s.heart < s.expiry → (s.die s.holder).cur < 7 →
     s.leaseWaiters = [] → s.fold? x.uid = some x → x.lease.active = true → (s.folds.map (·.uid)).Nodup →
     (∀ y ∈ s.folds, y.uid ≠ x.uid → y.lease.active = false ∧ y.lease.susp = false) →
     (s.oper.ceil < s.oper.granted ∧ (grants s.oper.ceil [s.die 0, s.die 1, s.die 2] demand).2 < 2 + Config.leaseWatts (x.core / 8)) ∨
       (x.resident = true ∧ 5 * s.oper.ceil < (s.die (x.core / 144)).grant) →
     ∃ t, exec (.arbiterPeriod demand pavg) s = .next t ∧
       t.fold? x.uid = some { x with lease := { remain := 0, until' := 0, active := false, susp := false, dropped := true } } ∧
       t.oper.granted = s.oper.ceil) ∧
   (∀ (s : State) (u : Nat),
     (s.fold? u = none → exec (.leaseExpiry u) s = .next s) ∧
     (∀ x, s.fold? u = some x →
       (x.lease.active = true → x.lease.until' ≤ 2 * s.heart → ∃ t, exec (.leaseExpiry u) s = .next t ∧ t = { s with folds := t.folds } ∧
         (∀ v, v ≠ u → t.fold? v = s.fold? v) ∧
         t.fold? u = some { x with lease := { x.lease with remain := 0, until' := 0, active := false } }) ∧
       (x.lease.active = false ∨ 2 * s.heart < x.lease.until' → exec (.leaseExpiry u) s = .next s))))

/-- The package lease and the fail-safe state (R389, R396, R397, R409, R418, R427): a die whose firmware core is on (one at PS6
too: log 132) claims a register without holder, or whose lease has run out, and tells every error log; of two claims in one
tick the lowest die's stands; its holder renews it before its expiry, not in the tick of it; at the expiry the register has no
holder and every boost lease is dropped; and a die without grant for 150 µs is in the fail-safe state, with its leases
dropped. -/
def Obligations.Leadership : Prop :=
  ∀ (s : State) (d : Nat), d < 3 → Map.wf Die.init s.dies = true →
    let expiry := (s.heart + 500000) % 2 ^ 62
    let dropped (t : State) (on : Nat → Prop) : Prop := ∀ (x : Fold), s.fold? x.uid = some x → on (x.core / 144) →
      x.lease.active = true ∨ x.lease.susp = true →
      t.fold? x.uid = some { x with lease := { remain := 0, until' := 0, active := false, susp := false, dropped := true } }
    (s.holder ≠ 3 → s.expiry ≤ s.heart → (s.die d).cur < 7 → s.firm.boot = .running → ∃ t, exec (.leaderClaim d) s = .next t ∧ t.holder = d ∧
      t.expiry = expiry ∧ dropped t fun _ => True) ∧
    (s.holder = 3 → (s.die d).cur < 7 → s.firm.boot = .running → ∃ t, exec (.leaderClaim d) s = .next t ∧ t.holder = d ∧ t.expiry = expiry ∧ t.claimed = some s.heart ∧
      t.folds = s.folds ∧ t.mem = s.mem ∧ ∀ e < 3, ∃ a, (t.die e).errlog.getLast? = some a ∧ a.cause = Cause.leaderChange.code ∧
        (t.die e).errSeq = (s.die e).errSeq + 1) ∧
    (s.holder ≠ 3 → s.heart < s.expiry → s.claimed = some s.heart → d < s.holder → (s.die d).cur < 7 → s.firm.boot = .running →
      ∃ t, exec (.leaderClaim d) s = .next t ∧ t = { s with dies := t.dies, holder := d } ∧
        ∀ e < 3, (t.die e).errSeq = (s.die e).errSeq ∧ ∀ a ∈ (t.die e).errlog, a.cause = Cause.leaderChange.code → a.heart = s.heart → a.detail = d) ∧
    ((s.holder ≠ 3 ∧ s.heart < s.expiry ∧ (s.claimed ≠ some s.heart ∨ s.holder ≤ d)) ∨ 7 ≤ (s.die d).cur ∨ s.firm.boot ≠ .running →
      exec (.leaderClaim d) s = .next s) ∧
    (s.holder = d → s.heart < s.expiry → (s.die d).cur < 7 → exec (.leaderLeaseRenew d) s = .next { s with expiry := expiry }) ∧
    (s.holder ≠ d ∨ s.expiry ≤ s.heart ∨ 7 ≤ (s.die d).cur → exec (.leaderLeaseRenew d) s = .next s) ∧
    (s.holder ≠ 3 → s.expiry ≤ s.heart → ∃ t, exec .leaderLeaseLapse s = .next t ∧ t.holder = 3 ∧ dropped t fun _ => True) ∧
    (s.holder ≠ 3 → s.expiry ≤ s.heart → s.firm.boot ≠ .recovery → ∀ r : Request, r.cls = 3 → r.addr = 0x2004 → r.kind = .read → r.size = 4 →
      ∃ v, exec (.hostAccess r) s = .next { s with answer := some v } ∧ ofLe v / 2 ^ 12 % 4 = 3) ∧
    (s.heart < s.expiry → exec .leaderLeaseLapse s = .next s) ∧
    ((s.die d).fsafe = false → (s.die d).lastGrant + 9375 ≤ s.heart → ∃ t, exec (.failsafeEntry d) s = .next t ∧ (t.die d).fsafe = true ∧
      (s.die d).errSeq < (t.die d).errSeq ∧ dropped t fun e => e = d) ∧
    (s.heart < (s.die d).lastGrant + 9375 → exec (.failsafeEntry d) s = .next s)

/-- Heat and sensors (R421, R422, R423): a vault at 110 °C makes its die hot, once until it has cooled (log 69), and tells its
error log, and the die is hot until every vault of it is below 100 °C; and the tests of the sensors take the new readings and
mark a core's sensor that they find at fault, whose mark a second of passing tests ends. -/
def Obligations.HeatAndSensors : Prop :=
  (∀ (s : State) (c : Nat), c < 54 → Map.wf Die.init s.dies = true →
    (110000 ≤ s.tNow c → (s.cluster c).wasHot = false → ∃ t, exec (.vaultHot c) s = .next t ∧ (t.die (c / 18)).hot = true ∧ (t.cluster c).wasHot = true ∧
      (t.die (c / 18)).errSeq = (s.die (c / 18)).errSeq + 1 ∧ t.folds = s.folds ∧ t.mem = s.mem ∧
      ∃ e, (t.die (c / 18)).errlog.getLast? = some e ∧ e.cause = Cause.vaultHot.code) ∧
    (s.tNow c < 110000 ∨ (s.cluster c).wasHot = true → exec (.vaultHot c) s = .next s)) ∧
  (∀ (s : State) (d : Nat), d < 3 →
    ((∀ c < 54, c / 18 = d → s.tNow c < 100000) → (s.die d).hot = true →
      exec (.vaultCool d) s = .next (s.modDie d fun x => { x with hot := false })) ∧
    ((∃ c < 54, c / 18 = d ∧ 100000 ≤ s.tNow c) ∨ (s.die d).hot = false → exec (.vaultCool d) s = .next s)) ∧
  (∀ (s : State) (obs : SensorObs) (k : Nat), k < 432 → Map.wf Core.init s.cores = true → (∀ c, (s.cluster c).rdv = none) →
    let new (j : Nat) : Sensor := { (s.core j).temp with
      now := ((obs.core.find? fun p => p.1 == j).map (·.2)).getD (s.core j).temp.now }
    let others := ((List.range 8).map (k / 8 * 8 + ·)).filter (· ≠ k)
    let x := new k
    let failed : Prop := (x.fails (others.map new)).isSome = true
    ∃ t, exec (.sensorTest obs) s = .next t ∧ t.mem = s.mem ∧ t.folds = s.folds ∧ (t.core k).temp.now = x.now ∧ (t.core k).temp.before = x.now ∧
      (failed → (t.core k).temp.suspect = true ∧ (t.core k).temp.okSince = none) ∧
      (¬ failed → x.suspect = false → (t.core k).temp = { x with before := x.now }) ∧
      (¬ failed → x.suspect = true → x.okSince = none → (t.core k).temp.suspect = true ∧ (t.core k).temp.okSince = some s.heart) ∧
      (∀ n, ¬ failed → x.suspect = true → x.okSince = some n → ((t.core k).temp.suspect = true ↔ s.heart < n + 62500000)) ∧
      (x.now < -40000 ∨ 150000 < x.now → failed))

/-- Requests from outside (R96, R105, R401, R406, R407, R408): a peer that the access table does not enable gets an error response
and is entered in the violation log; a request of an enabled peer, and one of the host through HDM, is served at its home,
where a lane of `WAITA` whose condition does not hold waits in the watch table; and an address without memory, in an overflow
area, in a die whose memory is lost, in a bad tile or under an empty key slot gets an error response; firmware writes the
device's own number with the table; and while the package has not booted it answers no peer and takes no entry (R399). The
host's accesses under key 0 and the sizes up to 64 bytes are the model's (log 12), as are the context, class and die of a
violation entry (log 71), the error response of an overflow area (log 90), and that a write does not heal a marked line (log
106). -/
def Obligations.OutsideRequests : Prop :=
  ∀ (s : State) (r : Request),
    let n := match r.kind with | .atomic _ _ | .waita _ => r.ty.bytes | .read => r.size | .write => r.data.length
    let ends := [r.addr, r.addr + n - 1]
    let served (e : Instr) (key : Nat) : Prop :=
      let lost : Prop := dramBytes < r.addr + n ∨ (key ≠ 0 ∧ Map.get none s.firm.keys key = none) ∨
        ∃ a ∈ ends, (s.die (a / (80 * 2 ^ 30))).cur = 7 ∨ s.firm.overflow ≤ a % (80 * 2 ^ 30) ∧ a % (80 * 2 ^ 30) < s.firm.overflow + 2 ^ 26
      let shut : Prop := ∃ a ∈ ends, a / tileBytes ∈ s.badTiles
      let bad : Prop := shut ∨ ∃ a ∈ ends, a / 64 ∈ s.poison
      (lost → exec e s = .next { s with answer := none }) ∧
      (¬ lost → s.logs = [] → s.lineKey = [] → key = 0 → MemoryCanonical s →
        ∃ t, exec e s = .next t ∧ t.folds = s.folds ∧ MemoryCanonical t ∧
          (∀ k, k < r.addr ∨ r.addr + n ≤ k → t.byte k = s.byte k) ∧
          (r.kind = .read → t.mem = s.mem ∧ (bad → t.answer = none) ∧ (¬ bad → t.answer = some (s.bytes r.addr n))) ∧
          (r.kind = .write → (shut → t.answer = none ∧ t.mem = s.mem) ∧ (¬ shut → t.answer = some [] ∧ t.bytes r.addr n = r.data)) ∧
          (∀ aop ret, r.kind = .atomic aop ret →
            (r.addr % n = 0 → ¬ bad → t.answer = some (if ret then s.bytes r.addr n else []) ∧ t.bytes r.addr n =
              leBytes n (atomNew aop r.ty (ofLe (s.bytes r.addr n)) (r.opa.toNat % 2 ^ (8 * n)) (r.opb.toNat % 2 ^ (8 * n)))) ∧
            (r.addr % n ≠ 0 ∨ bad → t.answer = none ∧ t.mem = s.mem)) ∧
          (∀ cond, r.kind = .waita cond → t.mem = s.mem ∧
            let holds := waitCond cond r.ty.ty (ofLe (s.bytes r.addr n)) r.opa.toNat
            (r.addr % n ≠ 0 ∨ bad → t.answer = none) ∧
            (r.addr % n = 0 → ¬ bad → holds = true → t.answer = some (s.bytes r.addr n)) ∧
            (r.addr % n = 0 → ¬ bad → holds = false → t.answer = s.answer ∧ ∃ w ∈ t.watch, w.line = r.addr / 64 ∧
              w.lane = some { peer := r.peer, key := key, addr := r.addr, cond := cond, ty := r.ty, a := r.opa })))
    (s.firm.boot ≠ .running → exec (.peerRequest r) s = .next { s with answer := none } ∧
      ∀ (w : PeerRow) en key, exec (.peerAccessTableWrite w en key) s = .next s) ∧
    (s.firm.boot = .running → Map.get none s.firm.peers r.peer = none → exec (.peerRequest r) s = .next
      { s.modDie (r.addr / (80 * 2 ^ 30) % 3) (fun x => { x with
          violSeq := x.violSeq + 1
          viol := (x.viol ++ [({ ctx := 0, cls := 0, die := r.addr / (80 * 2 ^ 30) % 3, core := 255, seq := x.violSeq + 1, addr := r.addr } : VioEnt)]).drop
            (x.viol.length + 1 - 1024) }) with answer := none }) ∧
    (s.firm.boot = .running → 1 ≤ n → n ≤ 64 → ∀ key, Map.get none s.firm.peers r.peer = some key → served (.peerRequest r) key) ∧
    (r.cls = 0 → (s.firm.boot ≠ .running → exec (.hostAccess r) s = .next { s with answer := none }) ∧
      (s.firm.boot = .running → 1 ≤ n → n ≤ 64 → served (.hostAccess r) 0)) ∧
    (s.firm.boot = .running → ∀ d en key own, d < 4096 → key < 8192 → exec (.peerAccessTableWrite { domain := d, own := own } en key) s =
      .next { s with domNum := (own.map (· % 4096)).getD s.domNum,
                     firm := { s.firm with peers := Map.set none s.firm.peers d (if en then some key else none) } })

/-- Errors and background work (R105, R110, R364, R424, R425): a corrected error of a link counts in telemetry; one of a DRAM line
or an SRAM row counts, and is entered in the log where the place has been corrected within 24 h before; an uncorrected one is
counted and entered, and stands in its line; in a tile with a log it makes the tile answer with errors (one without a log is
not cut off, log 72), and in a core's array that holds state of a fold it kills the fold's scope; and the sweep of a retired
party number removes its marks and returns it to the pool, but for a number that a buffered write or the image of a saved fold
still bears (log 75). That these errors come about at one event is the model's (log 106). -/
def Obligations.ErrorsAndSweeps : Prop :=
  ∀ (s : State), Map.wf 0 s.telem = true → Map.wf Die.init s.dies = true → Map.wf Core.init s.cores = true →
    let counted (t : State) (item unit : Nat) : Prop :=
      Map.get 0 t.telem (item * 256 + unit) = Map.get 0 s.telem (item * 256 + unit) + 1
    let entered (t : State) (n d cause unit : Nat) (corr : Bool) (core addr detail : Nat) : Prop :=
      (t.die d).errSeq = (s.die d).errSeq + n ∧ (t.die d).errlog.getLast? = some
        { cause := cause, unit := unit, corr := corr, core := core, addr := addr, heart := s.heart, detail := detail, seq := (s.die d).errSeq + n }
    let corrected (p : ArraySpot) (d cause core place addr : Nat) : Prop :=
      let again : Prop := ∃ q ∈ s.corrected, q.1 = place * 2 ^ 64 + addr ∧ s.heart ≤ q.2 + 86400 * 62500000
      ∃ t, exec (.patrolScrub p (some true)) s = .next t ∧ counted t 10 p.unit ∧ t.mem = s.mem ∧ t.folds = s.folds ∧
        (place * 2 ^ 64 + addr, s.heart) ∈ t.corrected ∧ (again → entered t 1 d cause p.unit true core addr 0) ∧ (¬ again → t.dies = s.dies)
    (∀ unit die addr port, 9 ≤ unit → unit ≤ 11 → die < 3 →
      let detail := if unit = 11 then port % 8 else 0
      (∃ t, exec (.linkError unit die addr port true) s = .next t ∧ t = { s with telem := t.telem } ∧ counted t 10 unit) ∧
      ∃ t, exec (.linkError unit die addr port false) s = .next t ∧ counted t 11 unit ∧ entered t 1 die Cause.linkError.code unit false 255 addr detail) ∧
    (∀ (p : ArraySpot), exec (.patrolScrub p none) s = .next s) ∧
    (∀ (p : ArraySpot), p.unit = 0 → p.addr < dramBytes →
      let line := p.addr / 64 * 64
      let d := p.addr / (80 * 2 ^ 30)
      let logged : Prop := ∃ e ∈ s.logs, e.tile = line / tileBytes
      corrected p d Cause.dramError.code 255 432 line ∧
      ∃ t, exec (.patrolScrub p (some false)) s = .next t ∧ counted t 11 0 ∧ t.logs = s.logs ∧ t.mem = s.mem ∧ line / 64 ∈ t.poison ∧
        (¬ logged → entered t 1 d Cause.dramError.code 0 false 255 line 0 ∧ t.badTiles = s.badTiles) ∧
        (logged → line / tileBytes ∈ t.badTiles ∧ entered t 2 d Cause.logTileError.code 0 false 255 (line / tileBytes * tileBytes) 0)) ∧
    (∀ (p : ArraySpot), 3 ≤ p.unit → p.unit ≤ 8 → p.core < 432 →
      corrected p (p.core / 144) Cause.sramError.code (p.core % 144) (p.unit * 512 + p.core) p.addr ∧
      (p.fold = none ∨ 6 ≤ p.unit → ∃ t, exec (.patrolScrub p (some false)) s = .next t ∧ counted t 11 p.unit ∧ t.folds = s.folds ∧ t.mem = s.mem ∧
        entered t 1 (p.core / 144) Cause.sramError.code p.unit false (p.core % 144) p.addr 0) ∧
      (∀ x g, p.fold = some x.uid → p.unit ≤ 5 → s.fold? x.uid = some x → s.grid? x.gid = some g → g.lrec.contain = true → x.run = .running →
        x.moveTo = none → ∃ t y, exec (.patrolScrub p (some false)) s = .next t ∧ t.fold? x.uid = some y ∧ y.run = .dying)) ∧
    (let late (p : Nat) : Bool := (s.pend.any fun e => e.mark.any (·.party.toNat == p)) ||
       s.folds.any fun x => (x.run == .saved || x.run == .restoring) && x.scrMark.any (·.2.party.toNat == p)
     let dead (p : Nat) : Bool := s.retired.contains p && !late p
     ∃ t, exec .backgroundSweepDone s = .next t ∧ (∀ p, p ∈ t.retired ↔ p ∈ s.retired ∧ late p = true) ∧ t.inUse = s.inUse ∧ t.mem = s.mem ∧
      (∀ p, p ∈ t.marks ↔ p ∈ s.marks ∧ dead p.2.party.toNat = false) ∧
      t.folds = s.folds.map (fun x => { x with scrMark := x.scrMark.filter fun p => !dead p.2.party.toNat }) ∧
      ∀ c, ∀ l ∈ (t.core c).l1, l.mark = RaceMark.clear ∨ dead l.mark.party.toNat = false)

/-- Boot and recovery (R398, R399, Table 19.2): a slot boots when it can be read, its image has the size of its header, its
signature verifies and its version is not below the fused minimum; at a reset the lowest die that passes its test boots slot
A, else slot B, and claims the lease, and with neither slot, or with no die, the device is in recovery; the recovery window is
written in recovery alone, when it reads as ones, and nothing else of the device answers the host but `RCVGO`; and `RCVGO` of
a good window writes both slots and resets, of a bad one reads back 2. That the boot after that reset waits for the next
`RESET` and the flash keeps its slots (log 73), the functions that read a header and the window (log 14) and the classes of a
request (log 12) are the model's. -/
def Obligations.BootAndRecovery : Prop :=
  (∀ f : FlashSlot, flashFailure f = 0 ↔ f.readable = true ∧ Config.headerSize f.header ≤ 2 ^ 25 ∧
    f.image.length = Config.headerSize f.header ∧ Config.mldsaOk (Config.sha3 (f.header ++ f.image)) f.sig = true ∧
    Config.fusedMin ≤ Config.headerVersion f.header) ∧
  ∀ (s : State),
    (∀ pass : List Bool,
      let a := flashFailure s.firm.slotA
      let b := flashFailure s.firm.slotB
      let first (d : Nat) : Prop := d < 3 ∧ pass[d]? = some true ∧ ∀ e < d, pass[e]? ≠ some true
      ∃ t, exec (.reset pass) s = .next t ∧ t.firm.slotA = s.firm.slotA ∧ t.firm.slotB = s.firm.slotB ∧ t.firm.failA = a ∧ t.firm.failB = b ∧
        t.firm.keys = [] ∧ t.firm.spdm = false ∧ t.folds = [] ∧ t.queues = [] ∧ t.ctxs = [] ∧ t.heart = 0 ∧
        (∀ d, first d → a = 0 → t.firm.boot = .running ∧ t.firm.active = 0 ∧ t.holder = d ∧ t.expiry = 500000) ∧
        (∀ d, first d → a ≠ 0 → b = 0 → t.firm.boot = .running ∧ t.firm.active = 1 ∧ t.holder = d ∧ t.expiry = 500000) ∧
        ((a ≠ 0 ∧ b ≠ 0) ∨ (∀ d < 3, pass[d]? ≠ some true) → t.firm.boot = .recovery ∧ t.firm.active = 2 ∧ t.holder = 3)) ∧
    (∀ off b, (s.firm.boot = .recovery → off < 2 ^ 26 → exec (.recoveryWindowWrite off b) s =
        .next { s with firm := { s.firm with window := Map.set 0 s.firm.window off b } }) ∧
      (s.firm.boot ≠ .recovery ∨ 2 ^ 26 ≤ off → exec (.recoveryWindowWrite off b) s = .next s)) ∧
    (let f := Config.windowSlot s.firm.window
     (s.firm.boot = .recovery → flashFailure f = 0 → ∃ t, exec (.rcvgo 1) s = .next t ∧ t.firm.slotA = f ∧ t.firm.slotB = f ∧
       t.firm.boot = .pending ∧ t.folds = [] ∧ t.holder = 3) ∧
     (s.firm.boot = .recovery → flashFailure f ≠ 0 → exec (.rcvgo 1) s = .next { s with firm := { s.firm with rcvgo := 2 } }) ∧
     (∀ v : W32, s.firm.boot ≠ .recovery ∨ v ≠ 1 → exec (.rcvgo v) s = .next s)) ∧
    (s.firm.boot = .recovery → ∀ r : Request,
      (r.cls = 0 ∨ (r.cls = 3 ∧ r.addr ≠ 0) → exec (.hostAccess r) s = .next { s with answer := none }) ∧
      (r.cls = 4 → r.kind = .read → r.addr + r.size ≤ 2 ^ 26 → exec (.hostAccess r) s = .next { s with answer := some (List.replicate r.size 255) }) ∧
      (r.cls = 3 → r.addr = 0 → r.kind = .read → exec (.hostAccess r) s = .next { s with answer := some (leBytes r.size s.firm.rcvgo) }))

/-- SPDM and key slots (R400, R401, R402, R409): the answers to the requests, the measurement of a slot being the digest of its
header and image, in a signed response with the signature over it; a key is loaded or cleared in a secured session alone, once
no access is under way, in its own slot; after that the session's end leaves it as it is. The layout of a block, its numbers
in 8 bytes each, is the model's (log 13), and so is that index 255 gives all blocks (log 134) and that slot 0 takes no key
(log 74); the answers of the protocol, the hash, the signature, the digest of the boot ROM, the version that a header states
and the fused minimum are values that the spec leaves open (log 14). -/
def Obligations.KeysAndMeasurements : Prop :=
  ∀ (s : State),
    let doe (e : Instr) (l : List Byte) : Prop := exec e s = .next { s with firm := { s.firm with doe := l } }
    let block (idx : Nat) (l : List Byte) : Prop := doe (.getMeasurements { block := idx, signed := true }) (l ++ Config.identitySign l) ∧
      doe (.getMeasurements { block := idx, signed := false }) l
    let digest (f : FlashSlot) : List Byte := leBytes 64 (Config.sha3 (f.header ++ f.image)).toNat
    doe .getVersion (Config.spdmAnswer 0) ∧ doe .getCapabilities (Config.spdmAnswer 1) ∧ doe .negotiateAlgorithms (Config.spdmAnswer 2) ∧
    doe .getCertificate (Config.spdmAnswer 3) ∧
    (let flash := leBytes 8 s.firm.active ++ leBytes 8 s.firm.failA ++ leBytes 8 s.firm.failB
     let version : List Byte := match s.firm.active with
       | 0 => leBytes 8 (Config.headerVersion s.firm.slotA.header)
       | 1 => leBytes 8 (Config.headerVersion s.firm.slotB.header)
       | _ => leBytes 8 0
     let rom := leBytes 64 Config.romDigest.toNat
     let a := digest s.firm.slotA
     let b := digest s.firm.slotB
     s.firm.active ≤ 2 → block 1 rom ∧ block 2 a ∧ block 3 b ∧ block 4 flash ∧ block 5 (version ++ leBytes 8 Config.fusedMin) ∧
       block 6 (leBytes 8 s.stepping) ∧
       block 255 (rom ++ a ++ b ++ flash ++ (version ++ leBytes 8 Config.fusedMin) ++ leBytes 8 s.stepping)) ∧
    (s.firm.boot = .running → exec .spdmSessionOpen s = .next { s with firm := { s.firm with spdm := true } }) ∧
    exec .spdmSessionEnd s = .next { s with firm := { s.firm with spdm := false } } ∧
    (∀ (slot : Nat) (key : BitVec 512), 1 ≤ slot → slot < 8192 →
      (s.firm.spdm = false → exec (.keySlotLoad slot key) s = .next s ∧ exec (.keySlotClear slot) s = .next s) ∧
      (s.firm.spdm = true → Map.wf none s.firm.keys = true → ∀ p ∈ [(Instr.keySlotLoad slot key, some key), (.keySlotClear slot, none)],
        ∃ t, exec p.1 s = .next t ∧ t.pend = [] ∧ Map.get none t.firm.keys slot = p.2 ∧
          (∀ j, j ≠ slot → Map.get none t.firm.keys j = Map.get none s.firm.keys j) ∧
          (s.pend = [] → s.groups = [] → t = { s with firm := { s.firm with keys := Map.set none s.firm.keys slot p.2 } })))

/-- The machine after reset, where the spec gives the value: no fold, paddock, grid, queue or context; heartbeat counts 0 (Table
3.2); no holder of the lease (R396); the operator block of Table 21.1 and the dispatcher's and the mover's registers of Tables
15.8 and 16.10; memory in its canonical form. -/
def Obligations.ResetValues : Prop :=
  let s := State.reset
  s.folds = [] ∧ s.paddocks = [] ∧ s.grids = [] ∧ s.pend = [] ∧ s.heart = 0 ∧ s.holder = 3 ∧
  s.oper.ceil = 240 ∧ s.oper.oob = false ∧ s.oper.rotms = 4 ∧ s.oper.rflim = 8 ∧ s.oper.migthr = 95 ∧ s.oper.auto = true ∧
  (∀ q, s.queue q = none) ∧ (∀ c, s.ctx c = none) ∧
  (∀ d, (s.die d).rotms = 4 ∧ (s.die d).rflim = 8 ∧ (s.die d).migthr = 95 ∧ (s.die d).auto = true ∧ (s.die d).errSeq = 0 ∧
    (s.die d).violSeq = 0 ∧ (s.die d).cur = 0 ∧ (s.die d).target = 0) ∧
  (∀ c, (s.core c).preq = 0 ∧ (s.core c).mig = 0 ∧ (s.core c).cycle = 0) ∧ MemoryCanonical s

/-- Entry into a line (R131 to R135, R424): a fetch that no cached copy serves reads the 64 bytes of the line at its home, faults
with `MEM_ERROR` where they cannot be read, and with `PARITY`, of which the error log of the die gets an entry of the
instruction cache with the core of the die and the physical address and telemetry counts one more, where the parity of the
slots or of the line word is not even, and else gives the line; and the first check of kind, template and landing slot that
fails names the fault. -/
def Obligations.LineEntry : Prop :=
  (∀ (s t : State) (core ctx num : Nat) (l : Leaf), s.access core ctx (num * 64) .fetch = (t, .ok l) → l.ml = false →
    ((t.core core).ic.find? fun f => f.ctx == ctx && f.num == num) = none → t.lineKey = [] → l.crypt = 0 →
    let line := l.keyOn core (num * 64) / 64
    (t.lineBad line = true → l.keyOn core (num * 64) % 64 = 0 →
      s.fetchLine core ctx num = (t, .error { cause := .memError, addr := num * 64, aux := 0, page := none })) ∧
    (t.lineBad line = false → l.keyOn core (num * 64) % 64 = 0 →
    let d : Line := BitVec.ofNat 512 (ofLe (t.bytes (line * 64) 64))
    let parity : Prop := (∀ j < 5, ((d.extractLsb' (96 * j) 96).cpop.toNat + (d.getLsbD (490 + j)).toNat) % 2 = 0) ∧
      (d.extractLsb' 480 32).cpop.toNat % 2 = 0
    (parity → (s.fetchLine core ctx num).2 = .ok d) ∧
    (¬ parity → (s.fetchLine core ctx num).2 = .error { cause := .parity, addr := num * 64, aux := 0, page := none } ∧
      (s.fetchLine core ctx num).1 = (t.count 11 7 1).logErr (core / 144) Cause.parity.code 7 false (core % 144) (l.keyOn core (num * 64) % classKey) 0))) ∧
  (∀ (k : LineKind) (d : Line) (landing : Option Nat),
    let kind : Prop := d.extractLsb' 496 2 = (match k with | .code => 0 | .matrix => 1) ∧ d.extractLsb' 498 14 = 0
    let template : Prop := ∀ j < 5, d.getLsbD (485 + j) = decide (d.extractLsb' (96 * j + 91) 5 = 31)
    let target : Prop := ∀ j, landing = some j → d.getLsbD (480 + j) = true
    (∀ j, landing = some j → j < 5) →
      (¬ kind → entryFault k d landing = some .decodeFormat) ∧
      (kind → ¬ template → entryFault k d landing = some .template) ∧
      (kind → template → ¬ target → entryFault k d landing = some .brTarget) ∧
      (kind → template → target → entryFault k d landing = none))

/-- One step runs the decoded instruction (R28, R29, R152): where the next turn is the issue of a fragment that holds its line, or
enters it, and the slot at its pc decodes to `w`, whose checks and waits at issue hold nothing back, the step is `exec` of `w`
as that fragment, with its line and slot recorded and an armed `MARK` spent; a stream's turn and an event's are the same.
Before its turn a step seats the fragments that have yielded (R193). Which turn is next is the agenda's, else the world's
choice (log 1). -/
def Obligations.StepRunsDecoded : Prop :=
  (∀ (s : State) (rest : List Turn) (u l r : Nat) (i : Iss), s.agenda = .issue u l r :: rest →
    ({ s.seatYielders with agenda := rest } : State).iss? u l r = some i → i.x.run = .running → i.x.argFault = none → i.k.stop = none →
    (s.cluster (i.x.core / 8)).settling = false → i.k.dying = false → i.k.replayFid = none → i.k.heldBy r = false →
    i.isBehind = false → i.g.pending = false → i.g.park = .ready →
    let runs (j : Iss) (b : LineBuf) : Prop := ∀ w : Instr,
      decode .code (slotWord b.data (j.g.pc.toNat % 5)) = .ok w → (∀ n ∈ (usesFlock w).v, n < j.x.regs) →
      (w = .nop ∨ afterCurve b.data (j.g.pc.toNat % 5) = false) →
      (∀ n ∈ (usesFlock w).lat, j.k.follows i.g = true ∧ j.k.latOk.getLsbD n.toNat = true) →
      (∀ n < 8, (usesFlock w).wait.getLsbD n = true → j.tokCount n = 0) → j.mustHold (usesFlock w) = false → j.fenced w = false → j.g.park = .ready →
      step s = exec w { (j.s.modFlock j.x.uid j.fl fun _ => { j.k with
          latOk := if j.k.follows i.g then j.k.latOk else 0
          armed := if j.keepsArm w then j.k.armed else none
          last := some { fid := j.g.fid, num := b.num, slot := j.g.pc.toNat % 5 }
          behind := j.k.issued j.g.fid }).modFrag j.x.uid j.fl j.g.fid
            (fun g => { g with park := .ready }) with cur := some (.frag j.x.uid j.fl j.g.fid) }
    (∀ b, i.g.arriving = false → i.g.buf = some b → b.num = i.g.pc.toNat / 5 → runs i b) ∧
    (∀ t b j, i.g.arriving = true → i.enter = (t, some b) → t.iss? u l r = some j → j.g.pc = i.g.pc → runs j b)) ∧
  (∀ (s : State) (rest : List Turn) (x : Fold) (m : Stream) (b : LineBuf) (w : Instr), s.agenda = .stream x.uid :: rest →
    ({ s.seatYielders with agenda := rest } : State).fold? x.uid = some x → x.stream = some m → x.run = .running → m.ended = false → m.stop = none →
    x.argFault = none → m.arriving = false → m.buf = some b → b.num = m.pc.toNat / 5 →
    decode .matrix (slotWord b.data (m.pc.toNat % 5)) = .ok w →
    step s = exec w { s.seatYielders with agenda := rest, cur := some (.stream x.uid) }) ∧
  (∀ (s : State) (rest : List Turn) (e : Instr), s.agenda = .event e :: rest → e.hasWord = false →
    step s = exec e { s.seatYielders with agenda := rest, cur := none }) ∧
  (∀ s : State, s.agenda = [] → step s = ({ s.seatYielders with draws := s.draws + 1 } : State).turn (Config.world s.draws))

/-- Words written out field by field from Tables 5.2, 5.4 and 5.6, and those of the spec's own examples, decode to the
instructions that they stand for, or to the fault that the spec names. -/
def Obligations.DecodeWords : Prop :=
  let h : Hdr := { grd := 15, gneg := false, wait := 0, nwb := false, len := false, lat := 0 }
  let mem : MemOp :=
    { data := 0, addr := .v 0, disp := 0, space := .global, size := 0, scope := .flock, ord := .plain, cpol := .deflt, tokn := 0,
      toke := false, sext := false, vec := false }
  let mtx : MtxOp := { tida := 0, tidb := 0, bank := 0, cb := 0, plog := 0, k := 0, mbar := 0, md := 0 }
  let vr : VrOp := { dst := 0, sa := .v 0, sb := .v 0, sc := .v 0, ty := .s32, rm := .rne, md := 0 }
  let half : PairHalf := { op := .add, grd := 15, nwb := false, len := false, lat := 0, dst := 0, sa := .v 0, sb := .v 0, ty := .s32 }
  decode .code 0x280F_8000_1004_0000_8010_0000#96 = .ok (.vld h { mem with data := 4, addr := .v 2, disp := 64, size := 2 }) ∧
  decode .code 0x092F_8000_5042_1C0A_2800_0000#96 =
    .ok (.vfma h { vr with dst := 20, sa := .v 33, sb := .v 28, sc := .v 20, ty := .f16 }) ∧
  decode .code 0xF80F_8010_0002_20FC_00C0_3861#96 =
    .ok (.pairWord { half with dst := 2, sb := .v 1 } { half with op := .mul, dst := 3, sa := .v 1, sb := .c 2 }) ∧
  decode .matrix 0x6017_8000_00C0_1010_0008_0000#96 = .ok (.mma { mtx with tida := 3, tidb := 4, cb := 8, k := 4 }) ∧
  decode .matrix 0x605F_8000_0000_0000_0000_0000#96 = .ok (.mend mtx) ∧
  decode .code 0x605F_8000_0000_0000_0000_0000#96 = .error .format ∧
  decode .code 0x08BF_8000_0603_8B00_4C00_0000#96 = .error .opc

/-- R157: a word of an assigned format whose `OPC` stands in none of Tables 6.1 to 6.3 faults with `DECODE_OPC` when its slot
issues, whatever its guard and its other bits, in flock code and in the matrix stream alike; and a word with an opcode of the
tables never does. -/
def Obligations.UnassignedOpcodes : Prop :=
  ∀ (w : IWord), w ≠ 0 →
    let fmt := (w.extractLsb' 91 5).toNat
    let opc := (w.extractLsb' 83 8).toNat
    let last : List (List Nat) := [List.range' 0 10, List.range' 1 22 ++ List.range' 32 8 ++ List.range' 48 8 ++ [64, 65], [1, 2],
      List.range' 1 16 ++ List.range' 24 6 ++ [32], List.range' 1 10, List.range' 1 7, List.range' 1 3, List.range' 1 6, List.range' 1 6,
      [1, 2, 3, 4, 5, 8, 9, 10, 11, 12], [1, 2, 3, 4, 5, 6, 16, 17, 24, 25, 26, 27], [1, 2, 3, 4, 8, 9], List.range' 1 11]
    let k : LineKind := if fmt = 12 then .matrix else .code
    (∀ l, last[fmt]? = some l →
      (opc ∉ l → decode k w = .error .opc) ∧ (opc ∈ l → decode k w ≠ .error .opc)) ∧
    (∀ (i : Iss) (b : LineBuf) (l : List Nat), slotWord b.data (i.g.pc.toNat % 5) = w → last[fmt]? = some l → fmt ≠ 12 → opc ∉ l →
      i.decodeSlot b = .stay (i.fault .decodeOpc i.g.exec 0 0)) ∧
    (∀ (s : State) (x : Fold) (m : Stream) (b : LineBuf), s.fold? x.uid = some x → x.stream = some m → x.run = .running →
      m.ended = false → m.stop = none → x.argFault = none → m.arriving = false → m.buf = some b → b.num = m.pc.toNat / 5 →
      slotWord b.data (m.pc.toNat % 5) = w → fmt = 12 → 11 < opc →
      s.prepStream x.uid = .stay (s.faultStream x.uid { cause := .decodeOpc, addr := 0, aux := 0, page := none }))

/-- R158: `SYS` opcode 0 is `NOP` only as the all-zero word, in either kind of line; any other word with that opcode faults with
`DECODE_FIELD`; and `NOP` has no effect: it goes to the next slot, and is no transfer of control. -/
def Obligations.NopWord : Prop :=
  decode .code 0 = .ok .nop ∧ decode .matrix 0 = .ok .nop ∧ encode .nop = 0 ∧
  (∀ w : IWord, w ≠ 0 → w.extractLsb' 83 13 = 0 → decode .code w = .error .field) ∧
  (∀ (s : State) (i : Iss), s.issuer = some i → Does i .nop {}) ∧
  (∀ (s : State) (u : Nat) (x : Fold) (m : Stream), s.cur = some (.stream u) → s.fold? u = some x → x.stream = some m →
    exec .nop s = .next (s.modFold u fun y => { y with stream := y.stream.map fun n => { n with pc := n.pc + 1 } })) ∧
  usesFlock .nop = usesNone ∧ ∀ i : Iss, i.keepsArm .nop = true

/-- Decode and encode agree: every well-formed instruction word decodes, in its kind of line, to the instruction it encodes, with
every operand at every value that its fields admit (R137, R143, R146, R162). -/
def Obligations.DecodeEncode : Prop :=
  ∀ i : Instr, i.hasWord = true → i.wf = true → decode i.lineKind (encode i) = .ok i

/-- What the decoder accepts is well formed, has a word, and stands in its kind of line; a word of a reserved format, or of the
other kind of line, faults with `DECODE_FORMAT` (R143, R152, R162). -/
def Obligations.DecodeAccepts : Prop :=
  ∀ (k : LineKind) (w : IWord),
    (∀ i, decode k w = .ok i → i.wf = true ∧ i.hasWord = true ∧ (i.lineKind = k ∨ i = .nop) ∧ encode i = w) ∧
    (12 < w.extractLsb' 91 5 → w.extractLsb' 91 5 < 31 → decode k w = .error .format) ∧
    (w.extractLsb' 91 5 = 12 → decode .code w = .error .format) ∧
    (w ≠ 0 → w.extractLsb' 91 5 ≠ 12 → decode .matrix w = .error .format)

/-- Every step keeps memory in its canonical form: addresses rise strictly, and no listed byte is what an unlisted address reads
as (log 3). -/
def Obligations.MemoryStaysCanonical : Prop :=
  ∀ s t : State, MemoryCanonical s → step s = .next t → MemoryCanonical t

end
end

