-- ==== Sys2Proof/Laws/Maps.lean ====
section
/-! SUPPORT. The laws of sparse maps: reading after a write, the canonical form and what keeps it, and that two maps in
canonical form with the same readings are equal. -/

namespace Sys2Proof

variable {α : Type}

@[simp] theorem Map.get_nil (d : α) (k : Nat) : Map.get d [] k = d := rfl

/-- Below every listed key a map reads as the default. -/
theorem Map.get_below [DecidableEq α] {d : α} : ∀ {m : Map α} {lo k : Nat}, Map.wfFrom d (some lo) m = true → k ≤ lo → Map.get d m k = d
  | [], _, _, _, _ => rfl
  | (i, v) :: r, lo, k, h, hk => by
    simp only [Map.wfFrom, Bool.and_eq_true, decide_eq_true_eq] at h
    have : k < i := by omega
    simp [Map.get, this]

theorem Map.get_set_same [DecidableEq α] {d : α} {k : Nat} {v : α} :
    ∀ {m : Map α} {lo : Option Nat}, Map.wfFrom d lo m = true → Map.get d (Map.set d m k v) k = v
  | [], _, _ => by unfold Map.set; split <;> simp_all [Map.get]
  | (i, w) :: r, lo, h => by
    simp only [Map.wfFrom, Bool.and_eq_true, decide_eq_true_eq] at h
    unfold Map.set
    split
    · next hlt => split <;> simp_all [Map.get]
    · split
      · next h1 h2 =>
        subst h2
        split
        · next hv => subst hv; exact Map.get_below h.2 (Nat.le_refl _)
        · simp [Map.get]
      · next h1 h2 => simp only [Map.get, h1, h2, if_false]; exact Map.get_set_same h.2

theorem Map.get_set_other [DecidableEq α] {d : α} {k j : Nat} {v : α} (hjk : j ≠ k) :
    ∀ {m : Map α} {lo : Option Nat}, Map.wfFrom d lo m = true → Map.get d (Map.set d m k v) j = Map.get d m j
  | [], _, _ => by
    unfold Map.set; split
    · rfl
    · simp only [Map.get]; split
      · rfl
      · rfl
  | (i, w) :: r, lo, h => by
    simp only [Map.wfFrom, Bool.and_eq_true, decide_eq_true_eq] at h
    unfold Map.set
    split
    · next hlt =>
      split
      · rfl
      · by_cases h1 : j < k
        · have : j < i := by omega
          simp [Map.get, h1, this]
        · simp [Map.get, h1, hjk]
    · split
      · next h1 h2 =>
        subst h2
        split
        · by_cases h3 : j < k
          · rw [Map.get_below h.2 (by omega)]; simp [Map.get, h3]
          · simp [Map.get, h3, hjk]
        · by_cases h3 : j < k <;> simp [Map.get, h3, hjk]
      · next h1 h2 => simp only [Map.get]; rw [Map.get_set_other hjk h.2]

/-- A write keeps the canonical form. -/
theorem Map.wfFrom_set [DecidableEq α] {d : α} {k : Nat} {v : α} :
    ∀ {m : Map α} {lo : Option Nat}, Map.wfFrom d lo m = true → (∀ l, lo = some l → l < k) →
      Map.wfFrom d lo (Map.set d m k v) = true
  | [], lo, _, hk => by
    unfold Map.set
    split
    · rfl
    · cases lo <;> simp_all [Map.wfFrom]
  | (i, w) :: r, lo, h, hk => by
    have h' := h
    simp only [Map.wfFrom, Bool.and_eq_true, decide_eq_true_eq] at h
    unfold Map.set
    split
    · next hlt =>
      split
      · exact h'
      · cases lo <;> simp_all [Map.wfFrom]
    · split
      · next h1 h2 =>
        subst h2
        split
        · cases lo with
          | none =>
            cases r with
            | nil => rfl
            | cons a r => obtain ⟨j, b⟩ := a; simp_all [Map.wfFrom]
          | some l =>
            cases r with
            | nil => rfl
            | cons a r => obtain ⟨j, b⟩ := a; simp_all [Map.wfFrom]; omega
        · cases lo <;> simp_all [Map.wfFrom]
      · next h1 h2 =>
        have := Map.wfFrom_set (v := v) h.2 (k := k) (by intro l hl; cases hl; omega)
        cases lo <;> simp_all [Map.wfFrom]

theorem Map.wf_set [DecidableEq α] {d : α} {m : Map α} {k : Nat} {v : α} (h : Map.wf d m = true) : Map.wf d (Map.set d m k v) = true :=
  Map.wfFrom_set h (by simp)

theorem Map.get_set [DecidableEq α] {d : α} {m : Map α} {k j : Nat} {v : α} (h : Map.wf d m = true) :
    Map.get d (Map.set d m k v) j = if j = k then v else Map.get d m j := by
  split
  · next e => subst e; exact Map.get_set_same h
  · next e => exact Map.get_set_other e h

/-- Leaving entries out keeps the canonical form. -/
theorem Map.wfFrom_filter [DecidableEq α] {d : α} (p : Nat × α → Bool) :
    ∀ {m : Map α} {lo : Option Nat}, Map.wfFrom d lo m = true → Map.wfFrom d lo (m.filter p) = true
  | [], _, _ => rfl
  | (i, w) :: r, lo, h => by
    have h' := h
    simp only [Map.wfFrom, Bool.and_eq_true, decide_eq_true_eq] at h
    simp only [List.filter]
    split
    · simp only [Map.wfFrom, Bool.and_eq_true, decide_eq_true_eq]
      exact ⟨h.1, Map.wfFrom_filter p h.2⟩
    · have hr : Map.wfFrom d lo r = true := by
        cases r with
        | nil => rfl
        | cons a r =>
          obtain ⟨j, b⟩ := a
          cases lo with
          | none => simp_all [Map.wfFrom]
          | some l => simp_all [Map.wfFrom]; omega
      exact Map.wfFrom_filter p hr

theorem Map.wf_filter [DecidableEq α] {d : α} {m : Map α} (p : Nat × α → Bool) (h : Map.wf d m = true) : Map.wf d (m.filter p) = true :=
  Map.wfFrom_filter p h

/-- Maps in canonical form with the same readings are equal. -/
theorem Map.ext_wf [DecidableEq α] {d : α} : ∀ {m n : Map α} {lo lo' : Option Nat}, Map.wfFrom d lo m = true → Map.wfFrom d lo' n = true →
    (∀ k, Map.get d m k = Map.get d n k) → m = n
  | [], [], _, _, _, _, _ => rfl
  | [], (j, w) :: q, _, _, _, hn, h => by
    have := h j
    simp only [Map.wfFrom, Bool.and_eq_true, decide_eq_true_eq] at hn
    simp [Map.get] at this
    exact absurd this.symm hn.1.2
  | (i, v) :: r, [], _, _, hm, _, h => by
    have := h i
    simp only [Map.wfFrom, Bool.and_eq_true, decide_eq_true_eq] at hm
    simp [Map.get] at this
    exact absurd this hm.1.2
  | (i, v) :: r, (j, w) :: q, _, _, hm, hn, h => by
    simp only [Map.wfFrom, Bool.and_eq_true, decide_eq_true_eq] at hm hn
    have hi := h i
    have hj := h j
    rcases Nat.lt_trichotomy i j with hlt | heq | hgt
    · simp [Map.get, hlt] at hi
      exact absurd hi hm.1.2
    · subst heq
      simp [Map.get] at hi
      subst hi
      have : r = q := Map.ext_wf hm.2 hn.2 fun k => by
        by_cases hk : k ≤ i
        · rw [Map.get_below hm.2 hk, Map.get_below hn.2 hk]
        · have := h k
          have h1 : ¬ k < i := by omega
          have h2 : ¬ k = i := by omega
          simpa [Map.get, h1, h2] using this
      rw [this]
    · simp [Map.get, hgt] at hj
      exact absurd hj.symm hn.1.2

end Sys2Proof
end

