-- ==== Sys2Proof/Laws/State.lean ====
section
/-! SUPPORT. The fields that the plain updates of the state leave alone, one lemma for each field and update, and the
field that each one writes. -/

namespace Sys2Proof.Machine

variable (s : State)

@[simp] theorem State.modCore_mem (c : Nat) (f : Core → Core) : (s.modCore c f).mem = s.mem := rfl
@[simp] theorem State.modCore_marks (c : Nat) (f : Core → Core) : (s.modCore c f).marks = s.marks := rfl
@[simp] theorem State.modCore_lineKey (c : Nat) (f : Core → Core) : (s.modCore c f).lineKey = s.lineKey := rfl
@[simp] theorem State.modCore_pend (c : Nat) (f : Core → Core) : (s.modCore c f).pend = s.pend := rfl
@[simp] theorem State.modCore_groups (c : Nat) (f : Core → Core) : (s.modCore c f).groups = s.groups := rfl
@[simp] theorem State.modCore_logs (c : Nat) (f : Core → Core) : (s.modCore c f).logs = s.logs := rfl
@[simp] theorem State.modCore_resident (c : Nat) (f : Core → Core) : (s.modCore c f).resident = s.resident := rfl
@[simp] theorem State.modCore_badTiles (c : Nat) (f : Core → Core) : (s.modCore c f).badTiles = s.badTiles := rfl
@[simp] theorem State.modCore_poison (c : Nat) (f : Core → Core) : (s.modCore c f).poison = s.poison := rfl
@[simp] theorem State.modCore_watch (c : Nat) (f : Core → Core) : (s.modCore c f).watch = s.watch := rfl
@[simp] theorem State.modCore_phases (c : Nat) (f : Core → Core) : (s.modCore c f).phases = s.phases := rfl
@[simp] theorem State.modCore_inUse (c : Nat) (f : Core → Core) : (s.modCore c f).inUse = s.inUse := rfl
@[simp] theorem State.modCore_retired (c : Nat) (f : Core → Core) : (s.modCore c f).retired = s.retired := rfl
@[simp] theorem State.modCore_folds (c : Nat) (f : Core → Core) : (s.modCore c f).folds = s.folds := rfl
@[simp] theorem State.modCore_paddocks (c : Nat) (f : Core → Core) : (s.modCore c f).paddocks = s.paddocks := rfl
@[simp] theorem State.modCore_grids (c : Nat) (f : Core → Core) : (s.modCore c f).grids = s.grids := rfl
@[simp] theorem State.modCore_queues (c : Nat) (f : Core → Core) : (s.modCore c f).queues = s.queues := rfl
@[simp] theorem State.modCore_ctxs (c : Nat) (f : Core → Core) : (s.modCore c f).ctxs = s.ctxs := rfl
@[simp] theorem State.modCore_cards (c : Nat) (f : Core → Core) : (s.modCore c f).cards = s.cards := rfl
@[simp] theorem State.modCore_clusters (c : Nat) (f : Core → Core) : (s.modCore c f).clusters = s.clusters := rfl
@[simp] theorem State.modCore_dies (c : Nat) (f : Core → Core) : (s.modCore c f).dies = s.dies := rfl
@[simp] theorem State.modCore_heart (c : Nat) (f : Core → Core) : (s.modCore c f).heart = s.heart := rfl
@[simp] theorem State.modCore_domTicks (c : Nat) (f : Core → Core) : (s.modCore c f).domTicks = s.domTicks := rfl
@[simp] theorem State.modCore_holder (c : Nat) (f : Core → Core) : (s.modCore c f).holder = s.holder := rfl
@[simp] theorem State.modCore_expiry (c : Nat) (f : Core → Core) : (s.modCore c f).expiry = s.expiry := rfl
@[simp] theorem State.modCore_claimed (c : Nat) (f : Core → Core) : (s.modCore c f).claimed = s.claimed := rfl
@[simp] theorem State.modCore_headroom (c : Nat) (f : Core → Core) : (s.modCore c f).headroom = s.headroom := rfl
@[simp] theorem State.modCore_oper (c : Nat) (f : Core → Core) : (s.modCore c f).oper = s.oper := rfl
@[simp] theorem State.modCore_firm (c : Nat) (f : Core → Core) : (s.modCore c f).firm = s.firm := rfl
@[simp] theorem State.modCore_telem (c : Nat) (f : Core → Core) : (s.modCore c f).telem = s.telem := rfl
@[simp] theorem State.modCore_corrected (c : Nat) (f : Core → Core) : (s.modCore c f).corrected = s.corrected := rfl
@[simp] theorem State.modCore_msix (c : Nat) (f : Core → Core) : (s.modCore c f).msix = s.msix := rfl
@[simp] theorem State.modCore_answer (c : Nat) (f : Core → Core) : (s.modCore c f).answer = s.answer := rfl
@[simp] theorem State.modCore_remoteDown (c : Nat) (f : Core → Core) : (s.modCore c f).remoteDown = s.remoteDown := rfl
@[simp] theorem State.modCore_stepping (c : Nat) (f : Core → Core) : (s.modCore c f).stepping = s.stepping := rfl
@[simp] theorem State.modCore_domNum (c : Nat) (f : Core → Core) : (s.modCore c f).domNum = s.domNum := rfl
@[simp] theorem State.modCore_agenda (c : Nat) (f : Core → Core) : (s.modCore c f).agenda = s.agenda := rfl
@[simp] theorem State.modCore_draws (c : Nat) (f : Core → Core) : (s.modCore c f).draws = s.draws := rfl
@[simp] theorem State.modCore_fresh (c : Nat) (f : Core → Core) : (s.modCore c f).fresh = s.fresh := rfl
@[simp] theorem State.modCore_nextId (c : Nat) (f : Core → Core) : (s.modCore c f).nextId = s.nextId := rfl
@[simp] theorem State.modCore_cur (c : Nat) (f : Core → Core) : (s.modCore c f).cur = s.cur := rfl

@[simp] theorem State.modCluster_mem (c : Nat) (f : Cluster → Cluster) : (s.modCluster c f).mem = s.mem := rfl
@[simp] theorem State.modCluster_marks (c : Nat) (f : Cluster → Cluster) : (s.modCluster c f).marks = s.marks := rfl
@[simp] theorem State.modCluster_lineKey (c : Nat) (f : Cluster → Cluster) : (s.modCluster c f).lineKey = s.lineKey := rfl
@[simp] theorem State.modCluster_pend (c : Nat) (f : Cluster → Cluster) : (s.modCluster c f).pend = s.pend := rfl
@[simp] theorem State.modCluster_groups (c : Nat) (f : Cluster → Cluster) : (s.modCluster c f).groups = s.groups := rfl
@[simp] theorem State.modCluster_logs (c : Nat) (f : Cluster → Cluster) : (s.modCluster c f).logs = s.logs := rfl
@[simp] theorem State.modCluster_resident (c : Nat) (f : Cluster → Cluster) : (s.modCluster c f).resident = s.resident := rfl
@[simp] theorem State.modCluster_badTiles (c : Nat) (f : Cluster → Cluster) : (s.modCluster c f).badTiles = s.badTiles := rfl
@[simp] theorem State.modCluster_poison (c : Nat) (f : Cluster → Cluster) : (s.modCluster c f).poison = s.poison := rfl
@[simp] theorem State.modCluster_watch (c : Nat) (f : Cluster → Cluster) : (s.modCluster c f).watch = s.watch := rfl
@[simp] theorem State.modCluster_phases (c : Nat) (f : Cluster → Cluster) : (s.modCluster c f).phases = s.phases := rfl
@[simp] theorem State.modCluster_inUse (c : Nat) (f : Cluster → Cluster) : (s.modCluster c f).inUse = s.inUse := rfl
@[simp] theorem State.modCluster_retired (c : Nat) (f : Cluster → Cluster) : (s.modCluster c f).retired = s.retired := rfl
@[simp] theorem State.modCluster_folds (c : Nat) (f : Cluster → Cluster) : (s.modCluster c f).folds = s.folds := rfl
@[simp] theorem State.modCluster_paddocks (c : Nat) (f : Cluster → Cluster) : (s.modCluster c f).paddocks = s.paddocks := rfl
@[simp] theorem State.modCluster_grids (c : Nat) (f : Cluster → Cluster) : (s.modCluster c f).grids = s.grids := rfl
@[simp] theorem State.modCluster_queues (c : Nat) (f : Cluster → Cluster) : (s.modCluster c f).queues = s.queues := rfl
@[simp] theorem State.modCluster_ctxs (c : Nat) (f : Cluster → Cluster) : (s.modCluster c f).ctxs = s.ctxs := rfl
@[simp] theorem State.modCluster_cards (c : Nat) (f : Cluster → Cluster) : (s.modCluster c f).cards = s.cards := rfl
@[simp] theorem State.modCluster_cores (c : Nat) (f : Cluster → Cluster) : (s.modCluster c f).cores = s.cores := rfl
@[simp] theorem State.modCluster_dies (c : Nat) (f : Cluster → Cluster) : (s.modCluster c f).dies = s.dies := rfl
@[simp] theorem State.modCluster_heart (c : Nat) (f : Cluster → Cluster) : (s.modCluster c f).heart = s.heart := rfl
@[simp] theorem State.modCluster_domTicks (c : Nat) (f : Cluster → Cluster) : (s.modCluster c f).domTicks = s.domTicks := rfl
@[simp] theorem State.modCluster_holder (c : Nat) (f : Cluster → Cluster) : (s.modCluster c f).holder = s.holder := rfl
@[simp] theorem State.modCluster_expiry (c : Nat) (f : Cluster → Cluster) : (s.modCluster c f).expiry = s.expiry := rfl
@[simp] theorem State.modCluster_claimed (c : Nat) (f : Cluster → Cluster) : (s.modCluster c f).claimed = s.claimed := rfl
@[simp] theorem State.modCluster_headroom (c : Nat) (f : Cluster → Cluster) : (s.modCluster c f).headroom = s.headroom := rfl
@[simp] theorem State.modCluster_oper (c : Nat) (f : Cluster → Cluster) : (s.modCluster c f).oper = s.oper := rfl
@[simp] theorem State.modCluster_firm (c : Nat) (f : Cluster → Cluster) : (s.modCluster c f).firm = s.firm := rfl
@[simp] theorem State.modCluster_telem (c : Nat) (f : Cluster → Cluster) : (s.modCluster c f).telem = s.telem := rfl
@[simp] theorem State.modCluster_corrected (c : Nat) (f : Cluster → Cluster) : (s.modCluster c f).corrected = s.corrected := rfl
@[simp] theorem State.modCluster_msix (c : Nat) (f : Cluster → Cluster) : (s.modCluster c f).msix = s.msix := rfl
@[simp] theorem State.modCluster_answer (c : Nat) (f : Cluster → Cluster) : (s.modCluster c f).answer = s.answer := rfl
@[simp] theorem State.modCluster_remoteDown (c : Nat) (f : Cluster → Cluster) : (s.modCluster c f).remoteDown = s.remoteDown := rfl
@[simp] theorem State.modCluster_stepping (c : Nat) (f : Cluster → Cluster) : (s.modCluster c f).stepping = s.stepping := rfl
@[simp] theorem State.modCluster_domNum (c : Nat) (f : Cluster → Cluster) : (s.modCluster c f).domNum = s.domNum := rfl
@[simp] theorem State.modCluster_agenda (c : Nat) (f : Cluster → Cluster) : (s.modCluster c f).agenda = s.agenda := rfl
@[simp] theorem State.modCluster_draws (c : Nat) (f : Cluster → Cluster) : (s.modCluster c f).draws = s.draws := rfl
@[simp] theorem State.modCluster_fresh (c : Nat) (f : Cluster → Cluster) : (s.modCluster c f).fresh = s.fresh := rfl
@[simp] theorem State.modCluster_nextId (c : Nat) (f : Cluster → Cluster) : (s.modCluster c f).nextId = s.nextId := rfl
@[simp] theorem State.modCluster_cur (c : Nat) (f : Cluster → Cluster) : (s.modCluster c f).cur = s.cur := rfl

@[simp] theorem State.modDie_mem (d : Nat) (f : Die → Die) : (s.modDie d f).mem = s.mem := rfl
@[simp] theorem State.modDie_marks (d : Nat) (f : Die → Die) : (s.modDie d f).marks = s.marks := rfl
@[simp] theorem State.modDie_lineKey (d : Nat) (f : Die → Die) : (s.modDie d f).lineKey = s.lineKey := rfl
@[simp] theorem State.modDie_pend (d : Nat) (f : Die → Die) : (s.modDie d f).pend = s.pend := rfl
@[simp] theorem State.modDie_groups (d : Nat) (f : Die → Die) : (s.modDie d f).groups = s.groups := rfl
@[simp] theorem State.modDie_logs (d : Nat) (f : Die → Die) : (s.modDie d f).logs = s.logs := rfl
@[simp] theorem State.modDie_resident (d : Nat) (f : Die → Die) : (s.modDie d f).resident = s.resident := rfl
@[simp] theorem State.modDie_badTiles (d : Nat) (f : Die → Die) : (s.modDie d f).badTiles = s.badTiles := rfl
@[simp] theorem State.modDie_poison (d : Nat) (f : Die → Die) : (s.modDie d f).poison = s.poison := rfl
@[simp] theorem State.modDie_watch (d : Nat) (f : Die → Die) : (s.modDie d f).watch = s.watch := rfl
@[simp] theorem State.modDie_phases (d : Nat) (f : Die → Die) : (s.modDie d f).phases = s.phases := rfl
@[simp] theorem State.modDie_inUse (d : Nat) (f : Die → Die) : (s.modDie d f).inUse = s.inUse := rfl
@[simp] theorem State.modDie_retired (d : Nat) (f : Die → Die) : (s.modDie d f).retired = s.retired := rfl
@[simp] theorem State.modDie_folds (d : Nat) (f : Die → Die) : (s.modDie d f).folds = s.folds := rfl
@[simp] theorem State.modDie_paddocks (d : Nat) (f : Die → Die) : (s.modDie d f).paddocks = s.paddocks := rfl
@[simp] theorem State.modDie_grids (d : Nat) (f : Die → Die) : (s.modDie d f).grids = s.grids := rfl
@[simp] theorem State.modDie_queues (d : Nat) (f : Die → Die) : (s.modDie d f).queues = s.queues := rfl
@[simp] theorem State.modDie_ctxs (d : Nat) (f : Die → Die) : (s.modDie d f).ctxs = s.ctxs := rfl
@[simp] theorem State.modDie_cards (d : Nat) (f : Die → Die) : (s.modDie d f).cards = s.cards := rfl
@[simp] theorem State.modDie_cores (d : Nat) (f : Die → Die) : (s.modDie d f).cores = s.cores := rfl
@[simp] theorem State.modDie_clusters (d : Nat) (f : Die → Die) : (s.modDie d f).clusters = s.clusters := rfl
@[simp] theorem State.modDie_heart (d : Nat) (f : Die → Die) : (s.modDie d f).heart = s.heart := rfl
@[simp] theorem State.modDie_domTicks (d : Nat) (f : Die → Die) : (s.modDie d f).domTicks = s.domTicks := rfl
@[simp] theorem State.modDie_holder (d : Nat) (f : Die → Die) : (s.modDie d f).holder = s.holder := rfl
@[simp] theorem State.modDie_expiry (d : Nat) (f : Die → Die) : (s.modDie d f).expiry = s.expiry := rfl
@[simp] theorem State.modDie_claimed (d : Nat) (f : Die → Die) : (s.modDie d f).claimed = s.claimed := rfl
@[simp] theorem State.modDie_headroom (d : Nat) (f : Die → Die) : (s.modDie d f).headroom = s.headroom := rfl
@[simp] theorem State.modDie_oper (d : Nat) (f : Die → Die) : (s.modDie d f).oper = s.oper := rfl
@[simp] theorem State.modDie_firm (d : Nat) (f : Die → Die) : (s.modDie d f).firm = s.firm := rfl
@[simp] theorem State.modDie_telem (d : Nat) (f : Die → Die) : (s.modDie d f).telem = s.telem := rfl
@[simp] theorem State.modDie_corrected (d : Nat) (f : Die → Die) : (s.modDie d f).corrected = s.corrected := rfl
@[simp] theorem State.modDie_msix (d : Nat) (f : Die → Die) : (s.modDie d f).msix = s.msix := rfl
@[simp] theorem State.modDie_answer (d : Nat) (f : Die → Die) : (s.modDie d f).answer = s.answer := rfl
@[simp] theorem State.modDie_remoteDown (d : Nat) (f : Die → Die) : (s.modDie d f).remoteDown = s.remoteDown := rfl
@[simp] theorem State.modDie_stepping (d : Nat) (f : Die → Die) : (s.modDie d f).stepping = s.stepping := rfl
@[simp] theorem State.modDie_domNum (d : Nat) (f : Die → Die) : (s.modDie d f).domNum = s.domNum := rfl
@[simp] theorem State.modDie_agenda (d : Nat) (f : Die → Die) : (s.modDie d f).agenda = s.agenda := rfl
@[simp] theorem State.modDie_draws (d : Nat) (f : Die → Die) : (s.modDie d f).draws = s.draws := rfl
@[simp] theorem State.modDie_fresh (d : Nat) (f : Die → Die) : (s.modDie d f).fresh = s.fresh := rfl
@[simp] theorem State.modDie_nextId (d : Nat) (f : Die → Die) : (s.modDie d f).nextId = s.nextId := rfl
@[simp] theorem State.modDie_cur (d : Nat) (f : Die → Die) : (s.modDie d f).cur = s.cur := rfl

@[simp] theorem State.setQueue_mem (q : Nat) (x : Option Queue) : (s.setQueue q x).mem = s.mem := rfl
@[simp] theorem State.setQueue_marks (q : Nat) (x : Option Queue) : (s.setQueue q x).marks = s.marks := rfl
@[simp] theorem State.setQueue_lineKey (q : Nat) (x : Option Queue) : (s.setQueue q x).lineKey = s.lineKey := rfl
@[simp] theorem State.setQueue_pend (q : Nat) (x : Option Queue) : (s.setQueue q x).pend = s.pend := rfl
@[simp] theorem State.setQueue_groups (q : Nat) (x : Option Queue) : (s.setQueue q x).groups = s.groups := rfl
@[simp] theorem State.setQueue_logs (q : Nat) (x : Option Queue) : (s.setQueue q x).logs = s.logs := rfl
@[simp] theorem State.setQueue_resident (q : Nat) (x : Option Queue) : (s.setQueue q x).resident = s.resident := rfl
@[simp] theorem State.setQueue_badTiles (q : Nat) (x : Option Queue) : (s.setQueue q x).badTiles = s.badTiles := rfl
@[simp] theorem State.setQueue_poison (q : Nat) (x : Option Queue) : (s.setQueue q x).poison = s.poison := rfl
@[simp] theorem State.setQueue_watch (q : Nat) (x : Option Queue) : (s.setQueue q x).watch = s.watch := rfl
@[simp] theorem State.setQueue_phases (q : Nat) (x : Option Queue) : (s.setQueue q x).phases = s.phases := rfl
@[simp] theorem State.setQueue_inUse (q : Nat) (x : Option Queue) : (s.setQueue q x).inUse = s.inUse := rfl
@[simp] theorem State.setQueue_retired (q : Nat) (x : Option Queue) : (s.setQueue q x).retired = s.retired := rfl
@[simp] theorem State.setQueue_folds (q : Nat) (x : Option Queue) : (s.setQueue q x).folds = s.folds := rfl
@[simp] theorem State.setQueue_paddocks (q : Nat) (x : Option Queue) : (s.setQueue q x).paddocks = s.paddocks := rfl
@[simp] theorem State.setQueue_grids (q : Nat) (x : Option Queue) : (s.setQueue q x).grids = s.grids := rfl
@[simp] theorem State.setQueue_ctxs (q : Nat) (x : Option Queue) : (s.setQueue q x).ctxs = s.ctxs := rfl
@[simp] theorem State.setQueue_cards (q : Nat) (x : Option Queue) : (s.setQueue q x).cards = s.cards := rfl
@[simp] theorem State.setQueue_cores (q : Nat) (x : Option Queue) : (s.setQueue q x).cores = s.cores := rfl
@[simp] theorem State.setQueue_clusters (q : Nat) (x : Option Queue) : (s.setQueue q x).clusters = s.clusters := rfl
@[simp] theorem State.setQueue_dies (q : Nat) (x : Option Queue) : (s.setQueue q x).dies = s.dies := rfl
@[simp] theorem State.setQueue_heart (q : Nat) (x : Option Queue) : (s.setQueue q x).heart = s.heart := rfl
@[simp] theorem State.setQueue_domTicks (q : Nat) (x : Option Queue) : (s.setQueue q x).domTicks = s.domTicks := rfl
@[simp] theorem State.setQueue_holder (q : Nat) (x : Option Queue) : (s.setQueue q x).holder = s.holder := rfl
@[simp] theorem State.setQueue_expiry (q : Nat) (x : Option Queue) : (s.setQueue q x).expiry = s.expiry := rfl
@[simp] theorem State.setQueue_claimed (q : Nat) (x : Option Queue) : (s.setQueue q x).claimed = s.claimed := rfl
@[simp] theorem State.setQueue_headroom (q : Nat) (x : Option Queue) : (s.setQueue q x).headroom = s.headroom := rfl
@[simp] theorem State.setQueue_oper (q : Nat) (x : Option Queue) : (s.setQueue q x).oper = s.oper := rfl
@[simp] theorem State.setQueue_firm (q : Nat) (x : Option Queue) : (s.setQueue q x).firm = s.firm := rfl
@[simp] theorem State.setQueue_telem (q : Nat) (x : Option Queue) : (s.setQueue q x).telem = s.telem := rfl
@[simp] theorem State.setQueue_corrected (q : Nat) (x : Option Queue) : (s.setQueue q x).corrected = s.corrected := rfl
@[simp] theorem State.setQueue_msix (q : Nat) (x : Option Queue) : (s.setQueue q x).msix = s.msix := rfl
@[simp] theorem State.setQueue_answer (q : Nat) (x : Option Queue) : (s.setQueue q x).answer = s.answer := rfl
@[simp] theorem State.setQueue_remoteDown (q : Nat) (x : Option Queue) : (s.setQueue q x).remoteDown = s.remoteDown := rfl
@[simp] theorem State.setQueue_stepping (q : Nat) (x : Option Queue) : (s.setQueue q x).stepping = s.stepping := rfl
@[simp] theorem State.setQueue_domNum (q : Nat) (x : Option Queue) : (s.setQueue q x).domNum = s.domNum := rfl
@[simp] theorem State.setQueue_agenda (q : Nat) (x : Option Queue) : (s.setQueue q x).agenda = s.agenda := rfl
@[simp] theorem State.setQueue_draws (q : Nat) (x : Option Queue) : (s.setQueue q x).draws = s.draws := rfl
@[simp] theorem State.setQueue_fresh (q : Nat) (x : Option Queue) : (s.setQueue q x).fresh = s.fresh := rfl
@[simp] theorem State.setQueue_nextId (q : Nat) (x : Option Queue) : (s.setQueue q x).nextId = s.nextId := rfl
@[simp] theorem State.setQueue_cur (q : Nat) (x : Option Queue) : (s.setQueue q x).cur = s.cur := rfl

@[simp] theorem State.modQueue_mem (q : Nat) (f : Queue → Queue) : (s.modQueue q f).mem = s.mem := rfl
@[simp] theorem State.modQueue_marks (q : Nat) (f : Queue → Queue) : (s.modQueue q f).marks = s.marks := rfl
@[simp] theorem State.modQueue_lineKey (q : Nat) (f : Queue → Queue) : (s.modQueue q f).lineKey = s.lineKey := rfl
@[simp] theorem State.modQueue_pend (q : Nat) (f : Queue → Queue) : (s.modQueue q f).pend = s.pend := rfl
@[simp] theorem State.modQueue_groups (q : Nat) (f : Queue → Queue) : (s.modQueue q f).groups = s.groups := rfl
@[simp] theorem State.modQueue_logs (q : Nat) (f : Queue → Queue) : (s.modQueue q f).logs = s.logs := rfl
@[simp] theorem State.modQueue_resident (q : Nat) (f : Queue → Queue) : (s.modQueue q f).resident = s.resident := rfl
@[simp] theorem State.modQueue_badTiles (q : Nat) (f : Queue → Queue) : (s.modQueue q f).badTiles = s.badTiles := rfl
@[simp] theorem State.modQueue_poison (q : Nat) (f : Queue → Queue) : (s.modQueue q f).poison = s.poison := rfl
@[simp] theorem State.modQueue_watch (q : Nat) (f : Queue → Queue) : (s.modQueue q f).watch = s.watch := rfl
@[simp] theorem State.modQueue_phases (q : Nat) (f : Queue → Queue) : (s.modQueue q f).phases = s.phases := rfl
@[simp] theorem State.modQueue_inUse (q : Nat) (f : Queue → Queue) : (s.modQueue q f).inUse = s.inUse := rfl
@[simp] theorem State.modQueue_retired (q : Nat) (f : Queue → Queue) : (s.modQueue q f).retired = s.retired := rfl
@[simp] theorem State.modQueue_folds (q : Nat) (f : Queue → Queue) : (s.modQueue q f).folds = s.folds := rfl
@[simp] theorem State.modQueue_paddocks (q : Nat) (f : Queue → Queue) : (s.modQueue q f).paddocks = s.paddocks := rfl
@[simp] theorem State.modQueue_grids (q : Nat) (f : Queue → Queue) : (s.modQueue q f).grids = s.grids := rfl
@[simp] theorem State.modQueue_ctxs (q : Nat) (f : Queue → Queue) : (s.modQueue q f).ctxs = s.ctxs := rfl
@[simp] theorem State.modQueue_cards (q : Nat) (f : Queue → Queue) : (s.modQueue q f).cards = s.cards := rfl
@[simp] theorem State.modQueue_cores (q : Nat) (f : Queue → Queue) : (s.modQueue q f).cores = s.cores := rfl
@[simp] theorem State.modQueue_clusters (q : Nat) (f : Queue → Queue) : (s.modQueue q f).clusters = s.clusters := rfl
@[simp] theorem State.modQueue_dies (q : Nat) (f : Queue → Queue) : (s.modQueue q f).dies = s.dies := rfl
@[simp] theorem State.modQueue_heart (q : Nat) (f : Queue → Queue) : (s.modQueue q f).heart = s.heart := rfl
@[simp] theorem State.modQueue_domTicks (q : Nat) (f : Queue → Queue) : (s.modQueue q f).domTicks = s.domTicks := rfl
@[simp] theorem State.modQueue_holder (q : Nat) (f : Queue → Queue) : (s.modQueue q f).holder = s.holder := rfl
@[simp] theorem State.modQueue_expiry (q : Nat) (f : Queue → Queue) : (s.modQueue q f).expiry = s.expiry := rfl
@[simp] theorem State.modQueue_claimed (q : Nat) (f : Queue → Queue) : (s.modQueue q f).claimed = s.claimed := rfl
@[simp] theorem State.modQueue_headroom (q : Nat) (f : Queue → Queue) : (s.modQueue q f).headroom = s.headroom := rfl
@[simp] theorem State.modQueue_oper (q : Nat) (f : Queue → Queue) : (s.modQueue q f).oper = s.oper := rfl
@[simp] theorem State.modQueue_firm (q : Nat) (f : Queue → Queue) : (s.modQueue q f).firm = s.firm := rfl
@[simp] theorem State.modQueue_telem (q : Nat) (f : Queue → Queue) : (s.modQueue q f).telem = s.telem := rfl
@[simp] theorem State.modQueue_corrected (q : Nat) (f : Queue → Queue) : (s.modQueue q f).corrected = s.corrected := rfl
@[simp] theorem State.modQueue_msix (q : Nat) (f : Queue → Queue) : (s.modQueue q f).msix = s.msix := rfl
@[simp] theorem State.modQueue_answer (q : Nat) (f : Queue → Queue) : (s.modQueue q f).answer = s.answer := rfl
@[simp] theorem State.modQueue_remoteDown (q : Nat) (f : Queue → Queue) : (s.modQueue q f).remoteDown = s.remoteDown := rfl
@[simp] theorem State.modQueue_stepping (q : Nat) (f : Queue → Queue) : (s.modQueue q f).stepping = s.stepping := rfl
@[simp] theorem State.modQueue_domNum (q : Nat) (f : Queue → Queue) : (s.modQueue q f).domNum = s.domNum := rfl
@[simp] theorem State.modQueue_agenda (q : Nat) (f : Queue → Queue) : (s.modQueue q f).agenda = s.agenda := rfl
@[simp] theorem State.modQueue_draws (q : Nat) (f : Queue → Queue) : (s.modQueue q f).draws = s.draws := rfl
@[simp] theorem State.modQueue_fresh (q : Nat) (f : Queue → Queue) : (s.modQueue q f).fresh = s.fresh := rfl
@[simp] theorem State.modQueue_nextId (q : Nat) (f : Queue → Queue) : (s.modQueue q f).nextId = s.nextId := rfl
@[simp] theorem State.modQueue_cur (q : Nat) (f : Queue → Queue) : (s.modQueue q f).cur = s.cur := rfl

@[simp] theorem State.setCtx_mem (c : Nat) (x : Option Ctx) : (s.setCtx c x).mem = s.mem := rfl
@[simp] theorem State.setCtx_marks (c : Nat) (x : Option Ctx) : (s.setCtx c x).marks = s.marks := rfl
@[simp] theorem State.setCtx_lineKey (c : Nat) (x : Option Ctx) : (s.setCtx c x).lineKey = s.lineKey := rfl
@[simp] theorem State.setCtx_pend (c : Nat) (x : Option Ctx) : (s.setCtx c x).pend = s.pend := rfl
@[simp] theorem State.setCtx_groups (c : Nat) (x : Option Ctx) : (s.setCtx c x).groups = s.groups := rfl
@[simp] theorem State.setCtx_logs (c : Nat) (x : Option Ctx) : (s.setCtx c x).logs = s.logs := rfl
@[simp] theorem State.setCtx_resident (c : Nat) (x : Option Ctx) : (s.setCtx c x).resident = s.resident := rfl
@[simp] theorem State.setCtx_badTiles (c : Nat) (x : Option Ctx) : (s.setCtx c x).badTiles = s.badTiles := rfl
@[simp] theorem State.setCtx_poison (c : Nat) (x : Option Ctx) : (s.setCtx c x).poison = s.poison := rfl
@[simp] theorem State.setCtx_watch (c : Nat) (x : Option Ctx) : (s.setCtx c x).watch = s.watch := rfl
@[simp] theorem State.setCtx_phases (c : Nat) (x : Option Ctx) : (s.setCtx c x).phases = s.phases := rfl
@[simp] theorem State.setCtx_inUse (c : Nat) (x : Option Ctx) : (s.setCtx c x).inUse = s.inUse := rfl
@[simp] theorem State.setCtx_retired (c : Nat) (x : Option Ctx) : (s.setCtx c x).retired = s.retired := rfl
@[simp] theorem State.setCtx_folds (c : Nat) (x : Option Ctx) : (s.setCtx c x).folds = s.folds := rfl
@[simp] theorem State.setCtx_paddocks (c : Nat) (x : Option Ctx) : (s.setCtx c x).paddocks = s.paddocks := rfl
@[simp] theorem State.setCtx_grids (c : Nat) (x : Option Ctx) : (s.setCtx c x).grids = s.grids := rfl
@[simp] theorem State.setCtx_queues (c : Nat) (x : Option Ctx) : (s.setCtx c x).queues = s.queues := rfl
@[simp] theorem State.setCtx_cards (c : Nat) (x : Option Ctx) : (s.setCtx c x).cards = s.cards := rfl
@[simp] theorem State.setCtx_cores (c : Nat) (x : Option Ctx) : (s.setCtx c x).cores = s.cores := rfl
@[simp] theorem State.setCtx_clusters (c : Nat) (x : Option Ctx) : (s.setCtx c x).clusters = s.clusters := rfl
@[simp] theorem State.setCtx_dies (c : Nat) (x : Option Ctx) : (s.setCtx c x).dies = s.dies := rfl
@[simp] theorem State.setCtx_heart (c : Nat) (x : Option Ctx) : (s.setCtx c x).heart = s.heart := rfl
@[simp] theorem State.setCtx_domTicks (c : Nat) (x : Option Ctx) : (s.setCtx c x).domTicks = s.domTicks := rfl
@[simp] theorem State.setCtx_holder (c : Nat) (x : Option Ctx) : (s.setCtx c x).holder = s.holder := rfl
@[simp] theorem State.setCtx_expiry (c : Nat) (x : Option Ctx) : (s.setCtx c x).expiry = s.expiry := rfl
@[simp] theorem State.setCtx_claimed (c : Nat) (x : Option Ctx) : (s.setCtx c x).claimed = s.claimed := rfl
@[simp] theorem State.setCtx_headroom (c : Nat) (x : Option Ctx) : (s.setCtx c x).headroom = s.headroom := rfl
@[simp] theorem State.setCtx_oper (c : Nat) (x : Option Ctx) : (s.setCtx c x).oper = s.oper := rfl
@[simp] theorem State.setCtx_firm (c : Nat) (x : Option Ctx) : (s.setCtx c x).firm = s.firm := rfl
@[simp] theorem State.setCtx_telem (c : Nat) (x : Option Ctx) : (s.setCtx c x).telem = s.telem := rfl
@[simp] theorem State.setCtx_corrected (c : Nat) (x : Option Ctx) : (s.setCtx c x).corrected = s.corrected := rfl
@[simp] theorem State.setCtx_msix (c : Nat) (x : Option Ctx) : (s.setCtx c x).msix = s.msix := rfl
@[simp] theorem State.setCtx_answer (c : Nat) (x : Option Ctx) : (s.setCtx c x).answer = s.answer := rfl
@[simp] theorem State.setCtx_remoteDown (c : Nat) (x : Option Ctx) : (s.setCtx c x).remoteDown = s.remoteDown := rfl
@[simp] theorem State.setCtx_stepping (c : Nat) (x : Option Ctx) : (s.setCtx c x).stepping = s.stepping := rfl
@[simp] theorem State.setCtx_domNum (c : Nat) (x : Option Ctx) : (s.setCtx c x).domNum = s.domNum := rfl
@[simp] theorem State.setCtx_agenda (c : Nat) (x : Option Ctx) : (s.setCtx c x).agenda = s.agenda := rfl
@[simp] theorem State.setCtx_draws (c : Nat) (x : Option Ctx) : (s.setCtx c x).draws = s.draws := rfl
@[simp] theorem State.setCtx_fresh (c : Nat) (x : Option Ctx) : (s.setCtx c x).fresh = s.fresh := rfl
@[simp] theorem State.setCtx_nextId (c : Nat) (x : Option Ctx) : (s.setCtx c x).nextId = s.nextId := rfl
@[simp] theorem State.setCtx_cur (c : Nat) (x : Option Ctx) : (s.setCtx c x).cur = s.cur := rfl

@[simp] theorem State.modCtx_mem (c : Nat) (f : Ctx → Ctx) : (s.modCtx c f).mem = s.mem := rfl
@[simp] theorem State.modCtx_marks (c : Nat) (f : Ctx → Ctx) : (s.modCtx c f).marks = s.marks := rfl
@[simp] theorem State.modCtx_lineKey (c : Nat) (f : Ctx → Ctx) : (s.modCtx c f).lineKey = s.lineKey := rfl
@[simp] theorem State.modCtx_pend (c : Nat) (f : Ctx → Ctx) : (s.modCtx c f).pend = s.pend := rfl
@[simp] theorem State.modCtx_groups (c : Nat) (f : Ctx → Ctx) : (s.modCtx c f).groups = s.groups := rfl
@[simp] theorem State.modCtx_logs (c : Nat) (f : Ctx → Ctx) : (s.modCtx c f).logs = s.logs := rfl
@[simp] theorem State.modCtx_resident (c : Nat) (f : Ctx → Ctx) : (s.modCtx c f).resident = s.resident := rfl
@[simp] theorem State.modCtx_badTiles (c : Nat) (f : Ctx → Ctx) : (s.modCtx c f).badTiles = s.badTiles := rfl
@[simp] theorem State.modCtx_poison (c : Nat) (f : Ctx → Ctx) : (s.modCtx c f).poison = s.poison := rfl
@[simp] theorem State.modCtx_watch (c : Nat) (f : Ctx → Ctx) : (s.modCtx c f).watch = s.watch := rfl
@[simp] theorem State.modCtx_phases (c : Nat) (f : Ctx → Ctx) : (s.modCtx c f).phases = s.phases := rfl
@[simp] theorem State.modCtx_inUse (c : Nat) (f : Ctx → Ctx) : (s.modCtx c f).inUse = s.inUse := rfl
@[simp] theorem State.modCtx_retired (c : Nat) (f : Ctx → Ctx) : (s.modCtx c f).retired = s.retired := rfl
@[simp] theorem State.modCtx_folds (c : Nat) (f : Ctx → Ctx) : (s.modCtx c f).folds = s.folds := rfl
@[simp] theorem State.modCtx_paddocks (c : Nat) (f : Ctx → Ctx) : (s.modCtx c f).paddocks = s.paddocks := rfl
@[simp] theorem State.modCtx_grids (c : Nat) (f : Ctx → Ctx) : (s.modCtx c f).grids = s.grids := rfl
@[simp] theorem State.modCtx_queues (c : Nat) (f : Ctx → Ctx) : (s.modCtx c f).queues = s.queues := rfl
@[simp] theorem State.modCtx_cards (c : Nat) (f : Ctx → Ctx) : (s.modCtx c f).cards = s.cards := rfl
@[simp] theorem State.modCtx_cores (c : Nat) (f : Ctx → Ctx) : (s.modCtx c f).cores = s.cores := rfl
@[simp] theorem State.modCtx_clusters (c : Nat) (f : Ctx → Ctx) : (s.modCtx c f).clusters = s.clusters := rfl
@[simp] theorem State.modCtx_dies (c : Nat) (f : Ctx → Ctx) : (s.modCtx c f).dies = s.dies := rfl
@[simp] theorem State.modCtx_heart (c : Nat) (f : Ctx → Ctx) : (s.modCtx c f).heart = s.heart := rfl
@[simp] theorem State.modCtx_domTicks (c : Nat) (f : Ctx → Ctx) : (s.modCtx c f).domTicks = s.domTicks := rfl
@[simp] theorem State.modCtx_holder (c : Nat) (f : Ctx → Ctx) : (s.modCtx c f).holder = s.holder := rfl
@[simp] theorem State.modCtx_expiry (c : Nat) (f : Ctx → Ctx) : (s.modCtx c f).expiry = s.expiry := rfl
@[simp] theorem State.modCtx_claimed (c : Nat) (f : Ctx → Ctx) : (s.modCtx c f).claimed = s.claimed := rfl
@[simp] theorem State.modCtx_headroom (c : Nat) (f : Ctx → Ctx) : (s.modCtx c f).headroom = s.headroom := rfl
@[simp] theorem State.modCtx_oper (c : Nat) (f : Ctx → Ctx) : (s.modCtx c f).oper = s.oper := rfl
@[simp] theorem State.modCtx_firm (c : Nat) (f : Ctx → Ctx) : (s.modCtx c f).firm = s.firm := rfl
@[simp] theorem State.modCtx_telem (c : Nat) (f : Ctx → Ctx) : (s.modCtx c f).telem = s.telem := rfl
@[simp] theorem State.modCtx_corrected (c : Nat) (f : Ctx → Ctx) : (s.modCtx c f).corrected = s.corrected := rfl
@[simp] theorem State.modCtx_msix (c : Nat) (f : Ctx → Ctx) : (s.modCtx c f).msix = s.msix := rfl
@[simp] theorem State.modCtx_answer (c : Nat) (f : Ctx → Ctx) : (s.modCtx c f).answer = s.answer := rfl
@[simp] theorem State.modCtx_remoteDown (c : Nat) (f : Ctx → Ctx) : (s.modCtx c f).remoteDown = s.remoteDown := rfl
@[simp] theorem State.modCtx_stepping (c : Nat) (f : Ctx → Ctx) : (s.modCtx c f).stepping = s.stepping := rfl
@[simp] theorem State.modCtx_domNum (c : Nat) (f : Ctx → Ctx) : (s.modCtx c f).domNum = s.domNum := rfl
@[simp] theorem State.modCtx_agenda (c : Nat) (f : Ctx → Ctx) : (s.modCtx c f).agenda = s.agenda := rfl
@[simp] theorem State.modCtx_draws (c : Nat) (f : Ctx → Ctx) : (s.modCtx c f).draws = s.draws := rfl
@[simp] theorem State.modCtx_fresh (c : Nat) (f : Ctx → Ctx) : (s.modCtx c f).fresh = s.fresh := rfl
@[simp] theorem State.modCtx_nextId (c : Nat) (f : Ctx → Ctx) : (s.modCtx c f).nextId = s.nextId := rfl
@[simp] theorem State.modCtx_cur (c : Nat) (f : Ctx → Ctx) : (s.modCtx c f).cur = s.cur := rfl

@[simp] theorem State.modFold_mem (u : Nat) (f : Fold → Fold) : (s.modFold u f).mem = s.mem := rfl
@[simp] theorem State.modFold_marks (u : Nat) (f : Fold → Fold) : (s.modFold u f).marks = s.marks := rfl
@[simp] theorem State.modFold_lineKey (u : Nat) (f : Fold → Fold) : (s.modFold u f).lineKey = s.lineKey := rfl
@[simp] theorem State.modFold_pend (u : Nat) (f : Fold → Fold) : (s.modFold u f).pend = s.pend := rfl
@[simp] theorem State.modFold_groups (u : Nat) (f : Fold → Fold) : (s.modFold u f).groups = s.groups := rfl
@[simp] theorem State.modFold_logs (u : Nat) (f : Fold → Fold) : (s.modFold u f).logs = s.logs := rfl
@[simp] theorem State.modFold_resident (u : Nat) (f : Fold → Fold) : (s.modFold u f).resident = s.resident := rfl
@[simp] theorem State.modFold_badTiles (u : Nat) (f : Fold → Fold) : (s.modFold u f).badTiles = s.badTiles := rfl
@[simp] theorem State.modFold_poison (u : Nat) (f : Fold → Fold) : (s.modFold u f).poison = s.poison := rfl
@[simp] theorem State.modFold_watch (u : Nat) (f : Fold → Fold) : (s.modFold u f).watch = s.watch := rfl
@[simp] theorem State.modFold_phases (u : Nat) (f : Fold → Fold) : (s.modFold u f).phases = s.phases := rfl
@[simp] theorem State.modFold_inUse (u : Nat) (f : Fold → Fold) : (s.modFold u f).inUse = s.inUse := rfl
@[simp] theorem State.modFold_retired (u : Nat) (f : Fold → Fold) : (s.modFold u f).retired = s.retired := rfl
@[simp] theorem State.modFold_paddocks (u : Nat) (f : Fold → Fold) : (s.modFold u f).paddocks = s.paddocks := rfl
@[simp] theorem State.modFold_grids (u : Nat) (f : Fold → Fold) : (s.modFold u f).grids = s.grids := rfl
@[simp] theorem State.modFold_queues (u : Nat) (f : Fold → Fold) : (s.modFold u f).queues = s.queues := rfl
@[simp] theorem State.modFold_ctxs (u : Nat) (f : Fold → Fold) : (s.modFold u f).ctxs = s.ctxs := rfl
@[simp] theorem State.modFold_cards (u : Nat) (f : Fold → Fold) : (s.modFold u f).cards = s.cards := rfl
@[simp] theorem State.modFold_cores (u : Nat) (f : Fold → Fold) : (s.modFold u f).cores = s.cores := rfl
@[simp] theorem State.modFold_clusters (u : Nat) (f : Fold → Fold) : (s.modFold u f).clusters = s.clusters := rfl
@[simp] theorem State.modFold_dies (u : Nat) (f : Fold → Fold) : (s.modFold u f).dies = s.dies := rfl
@[simp] theorem State.modFold_heart (u : Nat) (f : Fold → Fold) : (s.modFold u f).heart = s.heart := rfl
@[simp] theorem State.modFold_domTicks (u : Nat) (f : Fold → Fold) : (s.modFold u f).domTicks = s.domTicks := rfl
@[simp] theorem State.modFold_holder (u : Nat) (f : Fold → Fold) : (s.modFold u f).holder = s.holder := rfl
@[simp] theorem State.modFold_expiry (u : Nat) (f : Fold → Fold) : (s.modFold u f).expiry = s.expiry := rfl
@[simp] theorem State.modFold_claimed (u : Nat) (f : Fold → Fold) : (s.modFold u f).claimed = s.claimed := rfl
@[simp] theorem State.modFold_headroom (u : Nat) (f : Fold → Fold) : (s.modFold u f).headroom = s.headroom := rfl
@[simp] theorem State.modFold_oper (u : Nat) (f : Fold → Fold) : (s.modFold u f).oper = s.oper := rfl
@[simp] theorem State.modFold_firm (u : Nat) (f : Fold → Fold) : (s.modFold u f).firm = s.firm := rfl
@[simp] theorem State.modFold_telem (u : Nat) (f : Fold → Fold) : (s.modFold u f).telem = s.telem := rfl
@[simp] theorem State.modFold_corrected (u : Nat) (f : Fold → Fold) : (s.modFold u f).corrected = s.corrected := rfl
@[simp] theorem State.modFold_msix (u : Nat) (f : Fold → Fold) : (s.modFold u f).msix = s.msix := rfl
@[simp] theorem State.modFold_answer (u : Nat) (f : Fold → Fold) : (s.modFold u f).answer = s.answer := rfl
@[simp] theorem State.modFold_remoteDown (u : Nat) (f : Fold → Fold) : (s.modFold u f).remoteDown = s.remoteDown := rfl
@[simp] theorem State.modFold_stepping (u : Nat) (f : Fold → Fold) : (s.modFold u f).stepping = s.stepping := rfl
@[simp] theorem State.modFold_domNum (u : Nat) (f : Fold → Fold) : (s.modFold u f).domNum = s.domNum := rfl
@[simp] theorem State.modFold_agenda (u : Nat) (f : Fold → Fold) : (s.modFold u f).agenda = s.agenda := rfl
@[simp] theorem State.modFold_draws (u : Nat) (f : Fold → Fold) : (s.modFold u f).draws = s.draws := rfl
@[simp] theorem State.modFold_fresh (u : Nat) (f : Fold → Fold) : (s.modFold u f).fresh = s.fresh := rfl
@[simp] theorem State.modFold_nextId (u : Nat) (f : Fold → Fold) : (s.modFold u f).nextId = s.nextId := rfl
@[simp] theorem State.modFold_cur (u : Nat) (f : Fold → Fold) : (s.modFold u f).cur = s.cur := rfl

@[simp] theorem State.modFlock_mem (u l : Nat) (f : Flock → Flock) : (s.modFlock u l f).mem = s.mem := rfl
@[simp] theorem State.modFlock_marks (u l : Nat) (f : Flock → Flock) : (s.modFlock u l f).marks = s.marks := rfl
@[simp] theorem State.modFlock_lineKey (u l : Nat) (f : Flock → Flock) : (s.modFlock u l f).lineKey = s.lineKey := rfl
@[simp] theorem State.modFlock_pend (u l : Nat) (f : Flock → Flock) : (s.modFlock u l f).pend = s.pend := rfl
@[simp] theorem State.modFlock_groups (u l : Nat) (f : Flock → Flock) : (s.modFlock u l f).groups = s.groups := rfl
@[simp] theorem State.modFlock_logs (u l : Nat) (f : Flock → Flock) : (s.modFlock u l f).logs = s.logs := rfl
@[simp] theorem State.modFlock_resident (u l : Nat) (f : Flock → Flock) : (s.modFlock u l f).resident = s.resident := rfl
@[simp] theorem State.modFlock_badTiles (u l : Nat) (f : Flock → Flock) : (s.modFlock u l f).badTiles = s.badTiles := rfl
@[simp] theorem State.modFlock_poison (u l : Nat) (f : Flock → Flock) : (s.modFlock u l f).poison = s.poison := rfl
@[simp] theorem State.modFlock_watch (u l : Nat) (f : Flock → Flock) : (s.modFlock u l f).watch = s.watch := rfl
@[simp] theorem State.modFlock_phases (u l : Nat) (f : Flock → Flock) : (s.modFlock u l f).phases = s.phases := rfl
@[simp] theorem State.modFlock_inUse (u l : Nat) (f : Flock → Flock) : (s.modFlock u l f).inUse = s.inUse := rfl
@[simp] theorem State.modFlock_retired (u l : Nat) (f : Flock → Flock) : (s.modFlock u l f).retired = s.retired := rfl
@[simp] theorem State.modFlock_paddocks (u l : Nat) (f : Flock → Flock) : (s.modFlock u l f).paddocks = s.paddocks := rfl
@[simp] theorem State.modFlock_grids (u l : Nat) (f : Flock → Flock) : (s.modFlock u l f).grids = s.grids := rfl
@[simp] theorem State.modFlock_queues (u l : Nat) (f : Flock → Flock) : (s.modFlock u l f).queues = s.queues := rfl
@[simp] theorem State.modFlock_ctxs (u l : Nat) (f : Flock → Flock) : (s.modFlock u l f).ctxs = s.ctxs := rfl
@[simp] theorem State.modFlock_cards (u l : Nat) (f : Flock → Flock) : (s.modFlock u l f).cards = s.cards := rfl
@[simp] theorem State.modFlock_cores (u l : Nat) (f : Flock → Flock) : (s.modFlock u l f).cores = s.cores := rfl
@[simp] theorem State.modFlock_clusters (u l : Nat) (f : Flock → Flock) : (s.modFlock u l f).clusters = s.clusters := rfl
@[simp] theorem State.modFlock_dies (u l : Nat) (f : Flock → Flock) : (s.modFlock u l f).dies = s.dies := rfl
@[simp] theorem State.modFlock_heart (u l : Nat) (f : Flock → Flock) : (s.modFlock u l f).heart = s.heart := rfl
@[simp] theorem State.modFlock_domTicks (u l : Nat) (f : Flock → Flock) : (s.modFlock u l f).domTicks = s.domTicks := rfl
@[simp] theorem State.modFlock_holder (u l : Nat) (f : Flock → Flock) : (s.modFlock u l f).holder = s.holder := rfl
@[simp] theorem State.modFlock_expiry (u l : Nat) (f : Flock → Flock) : (s.modFlock u l f).expiry = s.expiry := rfl
@[simp] theorem State.modFlock_claimed (u l : Nat) (f : Flock → Flock) : (s.modFlock u l f).claimed = s.claimed := rfl
@[simp] theorem State.modFlock_headroom (u l : Nat) (f : Flock → Flock) : (s.modFlock u l f).headroom = s.headroom := rfl
@[simp] theorem State.modFlock_oper (u l : Nat) (f : Flock → Flock) : (s.modFlock u l f).oper = s.oper := rfl
@[simp] theorem State.modFlock_firm (u l : Nat) (f : Flock → Flock) : (s.modFlock u l f).firm = s.firm := rfl
@[simp] theorem State.modFlock_telem (u l : Nat) (f : Flock → Flock) : (s.modFlock u l f).telem = s.telem := rfl
@[simp] theorem State.modFlock_corrected (u l : Nat) (f : Flock → Flock) : (s.modFlock u l f).corrected = s.corrected := rfl
@[simp] theorem State.modFlock_msix (u l : Nat) (f : Flock → Flock) : (s.modFlock u l f).msix = s.msix := rfl
@[simp] theorem State.modFlock_answer (u l : Nat) (f : Flock → Flock) : (s.modFlock u l f).answer = s.answer := rfl
@[simp] theorem State.modFlock_remoteDown (u l : Nat) (f : Flock → Flock) : (s.modFlock u l f).remoteDown = s.remoteDown := rfl
@[simp] theorem State.modFlock_stepping (u l : Nat) (f : Flock → Flock) : (s.modFlock u l f).stepping = s.stepping := rfl
@[simp] theorem State.modFlock_domNum (u l : Nat) (f : Flock → Flock) : (s.modFlock u l f).domNum = s.domNum := rfl
@[simp] theorem State.modFlock_agenda (u l : Nat) (f : Flock → Flock) : (s.modFlock u l f).agenda = s.agenda := rfl
@[simp] theorem State.modFlock_draws (u l : Nat) (f : Flock → Flock) : (s.modFlock u l f).draws = s.draws := rfl
@[simp] theorem State.modFlock_fresh (u l : Nat) (f : Flock → Flock) : (s.modFlock u l f).fresh = s.fresh := rfl
@[simp] theorem State.modFlock_nextId (u l : Nat) (f : Flock → Flock) : (s.modFlock u l f).nextId = s.nextId := rfl
@[simp] theorem State.modFlock_cur (u l : Nat) (f : Flock → Flock) : (s.modFlock u l f).cur = s.cur := rfl

@[simp] theorem State.modFrag_mem (u l r : Nat) (f : Frag → Frag) : (s.modFrag u l r f).mem = s.mem := rfl
@[simp] theorem State.modFrag_marks (u l r : Nat) (f : Frag → Frag) : (s.modFrag u l r f).marks = s.marks := rfl
@[simp] theorem State.modFrag_lineKey (u l r : Nat) (f : Frag → Frag) : (s.modFrag u l r f).lineKey = s.lineKey := rfl
@[simp] theorem State.modFrag_pend (u l r : Nat) (f : Frag → Frag) : (s.modFrag u l r f).pend = s.pend := rfl
@[simp] theorem State.modFrag_groups (u l r : Nat) (f : Frag → Frag) : (s.modFrag u l r f).groups = s.groups := rfl
@[simp] theorem State.modFrag_logs (u l r : Nat) (f : Frag → Frag) : (s.modFrag u l r f).logs = s.logs := rfl
@[simp] theorem State.modFrag_resident (u l r : Nat) (f : Frag → Frag) : (s.modFrag u l r f).resident = s.resident := rfl
@[simp] theorem State.modFrag_badTiles (u l r : Nat) (f : Frag → Frag) : (s.modFrag u l r f).badTiles = s.badTiles := rfl
@[simp] theorem State.modFrag_poison (u l r : Nat) (f : Frag → Frag) : (s.modFrag u l r f).poison = s.poison := rfl
@[simp] theorem State.modFrag_watch (u l r : Nat) (f : Frag → Frag) : (s.modFrag u l r f).watch = s.watch := rfl
@[simp] theorem State.modFrag_phases (u l r : Nat) (f : Frag → Frag) : (s.modFrag u l r f).phases = s.phases := rfl
@[simp] theorem State.modFrag_inUse (u l r : Nat) (f : Frag → Frag) : (s.modFrag u l r f).inUse = s.inUse := rfl
@[simp] theorem State.modFrag_retired (u l r : Nat) (f : Frag → Frag) : (s.modFrag u l r f).retired = s.retired := rfl
@[simp] theorem State.modFrag_paddocks (u l r : Nat) (f : Frag → Frag) : (s.modFrag u l r f).paddocks = s.paddocks := rfl
@[simp] theorem State.modFrag_grids (u l r : Nat) (f : Frag → Frag) : (s.modFrag u l r f).grids = s.grids := rfl
@[simp] theorem State.modFrag_queues (u l r : Nat) (f : Frag → Frag) : (s.modFrag u l r f).queues = s.queues := rfl
@[simp] theorem State.modFrag_ctxs (u l r : Nat) (f : Frag → Frag) : (s.modFrag u l r f).ctxs = s.ctxs := rfl
@[simp] theorem State.modFrag_cards (u l r : Nat) (f : Frag → Frag) : (s.modFrag u l r f).cards = s.cards := rfl
@[simp] theorem State.modFrag_cores (u l r : Nat) (f : Frag → Frag) : (s.modFrag u l r f).cores = s.cores := rfl
@[simp] theorem State.modFrag_clusters (u l r : Nat) (f : Frag → Frag) : (s.modFrag u l r f).clusters = s.clusters := rfl
@[simp] theorem State.modFrag_dies (u l r : Nat) (f : Frag → Frag) : (s.modFrag u l r f).dies = s.dies := rfl
@[simp] theorem State.modFrag_heart (u l r : Nat) (f : Frag → Frag) : (s.modFrag u l r f).heart = s.heart := rfl
@[simp] theorem State.modFrag_domTicks (u l r : Nat) (f : Frag → Frag) : (s.modFrag u l r f).domTicks = s.domTicks := rfl
@[simp] theorem State.modFrag_holder (u l r : Nat) (f : Frag → Frag) : (s.modFrag u l r f).holder = s.holder := rfl
@[simp] theorem State.modFrag_expiry (u l r : Nat) (f : Frag → Frag) : (s.modFrag u l r f).expiry = s.expiry := rfl
@[simp] theorem State.modFrag_claimed (u l r : Nat) (f : Frag → Frag) : (s.modFrag u l r f).claimed = s.claimed := rfl
@[simp] theorem State.modFrag_headroom (u l r : Nat) (f : Frag → Frag) : (s.modFrag u l r f).headroom = s.headroom := rfl
@[simp] theorem State.modFrag_oper (u l r : Nat) (f : Frag → Frag) : (s.modFrag u l r f).oper = s.oper := rfl
@[simp] theorem State.modFrag_firm (u l r : Nat) (f : Frag → Frag) : (s.modFrag u l r f).firm = s.firm := rfl
@[simp] theorem State.modFrag_telem (u l r : Nat) (f : Frag → Frag) : (s.modFrag u l r f).telem = s.telem := rfl
@[simp] theorem State.modFrag_corrected (u l r : Nat) (f : Frag → Frag) : (s.modFrag u l r f).corrected = s.corrected := rfl
@[simp] theorem State.modFrag_msix (u l r : Nat) (f : Frag → Frag) : (s.modFrag u l r f).msix = s.msix := rfl
@[simp] theorem State.modFrag_answer (u l r : Nat) (f : Frag → Frag) : (s.modFrag u l r f).answer = s.answer := rfl
@[simp] theorem State.modFrag_remoteDown (u l r : Nat) (f : Frag → Frag) : (s.modFrag u l r f).remoteDown = s.remoteDown := rfl
@[simp] theorem State.modFrag_stepping (u l r : Nat) (f : Frag → Frag) : (s.modFrag u l r f).stepping = s.stepping := rfl
@[simp] theorem State.modFrag_domNum (u l r : Nat) (f : Frag → Frag) : (s.modFrag u l r f).domNum = s.domNum := rfl
@[simp] theorem State.modFrag_agenda (u l r : Nat) (f : Frag → Frag) : (s.modFrag u l r f).agenda = s.agenda := rfl
@[simp] theorem State.modFrag_draws (u l r : Nat) (f : Frag → Frag) : (s.modFrag u l r f).draws = s.draws := rfl
@[simp] theorem State.modFrag_fresh (u l r : Nat) (f : Frag → Frag) : (s.modFrag u l r f).fresh = s.fresh := rfl
@[simp] theorem State.modFrag_nextId (u l r : Nat) (f : Frag → Frag) : (s.modFrag u l r f).nextId = s.nextId := rfl
@[simp] theorem State.modFrag_cur (u l r : Nat) (f : Frag → Frag) : (s.modFrag u l r f).cur = s.cur := rfl

@[simp] theorem State.settle_mem (u l : Nat) : (s.settle u l).mem = s.mem := rfl
@[simp] theorem State.settle_marks (u l : Nat) : (s.settle u l).marks = s.marks := rfl
@[simp] theorem State.settle_lineKey (u l : Nat) : (s.settle u l).lineKey = s.lineKey := rfl
@[simp] theorem State.settle_pend (u l : Nat) : (s.settle u l).pend = s.pend := rfl
@[simp] theorem State.settle_groups (u l : Nat) : (s.settle u l).groups = s.groups := rfl
@[simp] theorem State.settle_logs (u l : Nat) : (s.settle u l).logs = s.logs := rfl
@[simp] theorem State.settle_resident (u l : Nat) : (s.settle u l).resident = s.resident := rfl
@[simp] theorem State.settle_badTiles (u l : Nat) : (s.settle u l).badTiles = s.badTiles := rfl
@[simp] theorem State.settle_poison (u l : Nat) : (s.settle u l).poison = s.poison := rfl
@[simp] theorem State.settle_watch (u l : Nat) : (s.settle u l).watch = s.watch := rfl
@[simp] theorem State.settle_phases (u l : Nat) : (s.settle u l).phases = s.phases := rfl
@[simp] theorem State.settle_inUse (u l : Nat) : (s.settle u l).inUse = s.inUse := rfl
@[simp] theorem State.settle_retired (u l : Nat) : (s.settle u l).retired = s.retired := rfl
@[simp] theorem State.settle_paddocks (u l : Nat) : (s.settle u l).paddocks = s.paddocks := rfl
@[simp] theorem State.settle_grids (u l : Nat) : (s.settle u l).grids = s.grids := rfl
@[simp] theorem State.settle_queues (u l : Nat) : (s.settle u l).queues = s.queues := rfl
@[simp] theorem State.settle_ctxs (u l : Nat) : (s.settle u l).ctxs = s.ctxs := rfl
@[simp] theorem State.settle_cards (u l : Nat) : (s.settle u l).cards = s.cards := rfl
@[simp] theorem State.settle_cores (u l : Nat) : (s.settle u l).cores = s.cores := rfl
@[simp] theorem State.settle_clusters (u l : Nat) : (s.settle u l).clusters = s.clusters := rfl
@[simp] theorem State.settle_dies (u l : Nat) : (s.settle u l).dies = s.dies := rfl
@[simp] theorem State.settle_heart (u l : Nat) : (s.settle u l).heart = s.heart := rfl
@[simp] theorem State.settle_domTicks (u l : Nat) : (s.settle u l).domTicks = s.domTicks := rfl
@[simp] theorem State.settle_holder (u l : Nat) : (s.settle u l).holder = s.holder := rfl
@[simp] theorem State.settle_expiry (u l : Nat) : (s.settle u l).expiry = s.expiry := rfl
@[simp] theorem State.settle_claimed (u l : Nat) : (s.settle u l).claimed = s.claimed := rfl
@[simp] theorem State.settle_headroom (u l : Nat) : (s.settle u l).headroom = s.headroom := rfl
@[simp] theorem State.settle_oper (u l : Nat) : (s.settle u l).oper = s.oper := rfl
@[simp] theorem State.settle_firm (u l : Nat) : (s.settle u l).firm = s.firm := rfl
@[simp] theorem State.settle_telem (u l : Nat) : (s.settle u l).telem = s.telem := rfl
@[simp] theorem State.settle_corrected (u l : Nat) : (s.settle u l).corrected = s.corrected := rfl
@[simp] theorem State.settle_msix (u l : Nat) : (s.settle u l).msix = s.msix := rfl
@[simp] theorem State.settle_answer (u l : Nat) : (s.settle u l).answer = s.answer := rfl
@[simp] theorem State.settle_remoteDown (u l : Nat) : (s.settle u l).remoteDown = s.remoteDown := rfl
@[simp] theorem State.settle_stepping (u l : Nat) : (s.settle u l).stepping = s.stepping := rfl
@[simp] theorem State.settle_domNum (u l : Nat) : (s.settle u l).domNum = s.domNum := rfl
@[simp] theorem State.settle_agenda (u l : Nat) : (s.settle u l).agenda = s.agenda := rfl
@[simp] theorem State.settle_draws (u l : Nat) : (s.settle u l).draws = s.draws := rfl
@[simp] theorem State.settle_fresh (u l : Nat) : (s.settle u l).fresh = s.fresh := rfl
@[simp] theorem State.settle_nextId (u l : Nat) : (s.settle u l).nextId = s.nextId := rfl
@[simp] theorem State.settle_cur (u l : Nat) : (s.settle u l).cur = s.cur := rfl

@[simp] theorem State.modGrid_mem (g : Nat) (f : Grid → Grid) : (s.modGrid g f).mem = s.mem := rfl
@[simp] theorem State.modGrid_marks (g : Nat) (f : Grid → Grid) : (s.modGrid g f).marks = s.marks := rfl
@[simp] theorem State.modGrid_lineKey (g : Nat) (f : Grid → Grid) : (s.modGrid g f).lineKey = s.lineKey := rfl
@[simp] theorem State.modGrid_pend (g : Nat) (f : Grid → Grid) : (s.modGrid g f).pend = s.pend := rfl
@[simp] theorem State.modGrid_groups (g : Nat) (f : Grid → Grid) : (s.modGrid g f).groups = s.groups := rfl
@[simp] theorem State.modGrid_logs (g : Nat) (f : Grid → Grid) : (s.modGrid g f).logs = s.logs := rfl
@[simp] theorem State.modGrid_resident (g : Nat) (f : Grid → Grid) : (s.modGrid g f).resident = s.resident := rfl
@[simp] theorem State.modGrid_badTiles (g : Nat) (f : Grid → Grid) : (s.modGrid g f).badTiles = s.badTiles := rfl
@[simp] theorem State.modGrid_poison (g : Nat) (f : Grid → Grid) : (s.modGrid g f).poison = s.poison := rfl
@[simp] theorem State.modGrid_watch (g : Nat) (f : Grid → Grid) : (s.modGrid g f).watch = s.watch := rfl
@[simp] theorem State.modGrid_phases (g : Nat) (f : Grid → Grid) : (s.modGrid g f).phases = s.phases := rfl
@[simp] theorem State.modGrid_inUse (g : Nat) (f : Grid → Grid) : (s.modGrid g f).inUse = s.inUse := rfl
@[simp] theorem State.modGrid_retired (g : Nat) (f : Grid → Grid) : (s.modGrid g f).retired = s.retired := rfl
@[simp] theorem State.modGrid_folds (g : Nat) (f : Grid → Grid) : (s.modGrid g f).folds = s.folds := rfl
@[simp] theorem State.modGrid_paddocks (g : Nat) (f : Grid → Grid) : (s.modGrid g f).paddocks = s.paddocks := rfl
@[simp] theorem State.modGrid_queues (g : Nat) (f : Grid → Grid) : (s.modGrid g f).queues = s.queues := rfl
@[simp] theorem State.modGrid_ctxs (g : Nat) (f : Grid → Grid) : (s.modGrid g f).ctxs = s.ctxs := rfl
@[simp] theorem State.modGrid_cards (g : Nat) (f : Grid → Grid) : (s.modGrid g f).cards = s.cards := rfl
@[simp] theorem State.modGrid_cores (g : Nat) (f : Grid → Grid) : (s.modGrid g f).cores = s.cores := rfl
@[simp] theorem State.modGrid_clusters (g : Nat) (f : Grid → Grid) : (s.modGrid g f).clusters = s.clusters := rfl
@[simp] theorem State.modGrid_dies (g : Nat) (f : Grid → Grid) : (s.modGrid g f).dies = s.dies := rfl
@[simp] theorem State.modGrid_heart (g : Nat) (f : Grid → Grid) : (s.modGrid g f).heart = s.heart := rfl
@[simp] theorem State.modGrid_domTicks (g : Nat) (f : Grid → Grid) : (s.modGrid g f).domTicks = s.domTicks := rfl
@[simp] theorem State.modGrid_holder (g : Nat) (f : Grid → Grid) : (s.modGrid g f).holder = s.holder := rfl
@[simp] theorem State.modGrid_expiry (g : Nat) (f : Grid → Grid) : (s.modGrid g f).expiry = s.expiry := rfl
@[simp] theorem State.modGrid_claimed (g : Nat) (f : Grid → Grid) : (s.modGrid g f).claimed = s.claimed := rfl
@[simp] theorem State.modGrid_headroom (g : Nat) (f : Grid → Grid) : (s.modGrid g f).headroom = s.headroom := rfl
@[simp] theorem State.modGrid_oper (g : Nat) (f : Grid → Grid) : (s.modGrid g f).oper = s.oper := rfl
@[simp] theorem State.modGrid_firm (g : Nat) (f : Grid → Grid) : (s.modGrid g f).firm = s.firm := rfl
@[simp] theorem State.modGrid_telem (g : Nat) (f : Grid → Grid) : (s.modGrid g f).telem = s.telem := rfl
@[simp] theorem State.modGrid_corrected (g : Nat) (f : Grid → Grid) : (s.modGrid g f).corrected = s.corrected := rfl
@[simp] theorem State.modGrid_msix (g : Nat) (f : Grid → Grid) : (s.modGrid g f).msix = s.msix := rfl
@[simp] theorem State.modGrid_answer (g : Nat) (f : Grid → Grid) : (s.modGrid g f).answer = s.answer := rfl
@[simp] theorem State.modGrid_remoteDown (g : Nat) (f : Grid → Grid) : (s.modGrid g f).remoteDown = s.remoteDown := rfl
@[simp] theorem State.modGrid_stepping (g : Nat) (f : Grid → Grid) : (s.modGrid g f).stepping = s.stepping := rfl
@[simp] theorem State.modGrid_domNum (g : Nat) (f : Grid → Grid) : (s.modGrid g f).domNum = s.domNum := rfl
@[simp] theorem State.modGrid_agenda (g : Nat) (f : Grid → Grid) : (s.modGrid g f).agenda = s.agenda := rfl
@[simp] theorem State.modGrid_draws (g : Nat) (f : Grid → Grid) : (s.modGrid g f).draws = s.draws := rfl
@[simp] theorem State.modGrid_fresh (g : Nat) (f : Grid → Grid) : (s.modGrid g f).fresh = s.fresh := rfl
@[simp] theorem State.modGrid_nextId (g : Nat) (f : Grid → Grid) : (s.modGrid g f).nextId = s.nextId := rfl
@[simp] theorem State.modGrid_cur (g : Nat) (f : Grid → Grid) : (s.modGrid g f).cur = s.cur := rfl

@[simp] theorem State.modPad_mem (p : Nat) (f : Paddock → Paddock) : (s.modPad p f).mem = s.mem := rfl
@[simp] theorem State.modPad_marks (p : Nat) (f : Paddock → Paddock) : (s.modPad p f).marks = s.marks := rfl
@[simp] theorem State.modPad_lineKey (p : Nat) (f : Paddock → Paddock) : (s.modPad p f).lineKey = s.lineKey := rfl
@[simp] theorem State.modPad_pend (p : Nat) (f : Paddock → Paddock) : (s.modPad p f).pend = s.pend := rfl
@[simp] theorem State.modPad_groups (p : Nat) (f : Paddock → Paddock) : (s.modPad p f).groups = s.groups := rfl
@[simp] theorem State.modPad_logs (p : Nat) (f : Paddock → Paddock) : (s.modPad p f).logs = s.logs := rfl
@[simp] theorem State.modPad_resident (p : Nat) (f : Paddock → Paddock) : (s.modPad p f).resident = s.resident := rfl
@[simp] theorem State.modPad_badTiles (p : Nat) (f : Paddock → Paddock) : (s.modPad p f).badTiles = s.badTiles := rfl
@[simp] theorem State.modPad_poison (p : Nat) (f : Paddock → Paddock) : (s.modPad p f).poison = s.poison := rfl
@[simp] theorem State.modPad_watch (p : Nat) (f : Paddock → Paddock) : (s.modPad p f).watch = s.watch := rfl
@[simp] theorem State.modPad_phases (p : Nat) (f : Paddock → Paddock) : (s.modPad p f).phases = s.phases := rfl
@[simp] theorem State.modPad_inUse (p : Nat) (f : Paddock → Paddock) : (s.modPad p f).inUse = s.inUse := rfl
@[simp] theorem State.modPad_retired (p : Nat) (f : Paddock → Paddock) : (s.modPad p f).retired = s.retired := rfl
@[simp] theorem State.modPad_folds (p : Nat) (f : Paddock → Paddock) : (s.modPad p f).folds = s.folds := rfl
@[simp] theorem State.modPad_grids (p : Nat) (f : Paddock → Paddock) : (s.modPad p f).grids = s.grids := rfl
@[simp] theorem State.modPad_queues (p : Nat) (f : Paddock → Paddock) : (s.modPad p f).queues = s.queues := rfl
@[simp] theorem State.modPad_ctxs (p : Nat) (f : Paddock → Paddock) : (s.modPad p f).ctxs = s.ctxs := rfl
@[simp] theorem State.modPad_cards (p : Nat) (f : Paddock → Paddock) : (s.modPad p f).cards = s.cards := rfl
@[simp] theorem State.modPad_cores (p : Nat) (f : Paddock → Paddock) : (s.modPad p f).cores = s.cores := rfl
@[simp] theorem State.modPad_clusters (p : Nat) (f : Paddock → Paddock) : (s.modPad p f).clusters = s.clusters := rfl
@[simp] theorem State.modPad_dies (p : Nat) (f : Paddock → Paddock) : (s.modPad p f).dies = s.dies := rfl
@[simp] theorem State.modPad_heart (p : Nat) (f : Paddock → Paddock) : (s.modPad p f).heart = s.heart := rfl
@[simp] theorem State.modPad_domTicks (p : Nat) (f : Paddock → Paddock) : (s.modPad p f).domTicks = s.domTicks := rfl
@[simp] theorem State.modPad_holder (p : Nat) (f : Paddock → Paddock) : (s.modPad p f).holder = s.holder := rfl
@[simp] theorem State.modPad_expiry (p : Nat) (f : Paddock → Paddock) : (s.modPad p f).expiry = s.expiry := rfl
@[simp] theorem State.modPad_claimed (p : Nat) (f : Paddock → Paddock) : (s.modPad p f).claimed = s.claimed := rfl
@[simp] theorem State.modPad_headroom (p : Nat) (f : Paddock → Paddock) : (s.modPad p f).headroom = s.headroom := rfl
@[simp] theorem State.modPad_oper (p : Nat) (f : Paddock → Paddock) : (s.modPad p f).oper = s.oper := rfl
@[simp] theorem State.modPad_firm (p : Nat) (f : Paddock → Paddock) : (s.modPad p f).firm = s.firm := rfl
@[simp] theorem State.modPad_telem (p : Nat) (f : Paddock → Paddock) : (s.modPad p f).telem = s.telem := rfl
@[simp] theorem State.modPad_corrected (p : Nat) (f : Paddock → Paddock) : (s.modPad p f).corrected = s.corrected := rfl
@[simp] theorem State.modPad_msix (p : Nat) (f : Paddock → Paddock) : (s.modPad p f).msix = s.msix := rfl
@[simp] theorem State.modPad_answer (p : Nat) (f : Paddock → Paddock) : (s.modPad p f).answer = s.answer := rfl
@[simp] theorem State.modPad_remoteDown (p : Nat) (f : Paddock → Paddock) : (s.modPad p f).remoteDown = s.remoteDown := rfl
@[simp] theorem State.modPad_stepping (p : Nat) (f : Paddock → Paddock) : (s.modPad p f).stepping = s.stepping := rfl
@[simp] theorem State.modPad_domNum (p : Nat) (f : Paddock → Paddock) : (s.modPad p f).domNum = s.domNum := rfl
@[simp] theorem State.modPad_agenda (p : Nat) (f : Paddock → Paddock) : (s.modPad p f).agenda = s.agenda := rfl
@[simp] theorem State.modPad_draws (p : Nat) (f : Paddock → Paddock) : (s.modPad p f).draws = s.draws := rfl
@[simp] theorem State.modPad_fresh (p : Nat) (f : Paddock → Paddock) : (s.modPad p f).fresh = s.fresh := rfl
@[simp] theorem State.modPad_nextId (p : Nat) (f : Paddock → Paddock) : (s.modPad p f).nextId = s.nextId := rfl
@[simp] theorem State.modPad_cur (p : Nat) (f : Paddock → Paddock) : (s.modPad p f).cur = s.cur := rfl

@[simp] theorem State.modCard_mem (c : Nat) (f : Card → Card) : (s.modCard c f).mem = s.mem := rfl
@[simp] theorem State.modCard_marks (c : Nat) (f : Card → Card) : (s.modCard c f).marks = s.marks := rfl
@[simp] theorem State.modCard_lineKey (c : Nat) (f : Card → Card) : (s.modCard c f).lineKey = s.lineKey := rfl
@[simp] theorem State.modCard_pend (c : Nat) (f : Card → Card) : (s.modCard c f).pend = s.pend := rfl
@[simp] theorem State.modCard_groups (c : Nat) (f : Card → Card) : (s.modCard c f).groups = s.groups := rfl
@[simp] theorem State.modCard_logs (c : Nat) (f : Card → Card) : (s.modCard c f).logs = s.logs := rfl
@[simp] theorem State.modCard_resident (c : Nat) (f : Card → Card) : (s.modCard c f).resident = s.resident := rfl
@[simp] theorem State.modCard_badTiles (c : Nat) (f : Card → Card) : (s.modCard c f).badTiles = s.badTiles := rfl
@[simp] theorem State.modCard_poison (c : Nat) (f : Card → Card) : (s.modCard c f).poison = s.poison := rfl
@[simp] theorem State.modCard_watch (c : Nat) (f : Card → Card) : (s.modCard c f).watch = s.watch := rfl
@[simp] theorem State.modCard_phases (c : Nat) (f : Card → Card) : (s.modCard c f).phases = s.phases := rfl
@[simp] theorem State.modCard_inUse (c : Nat) (f : Card → Card) : (s.modCard c f).inUse = s.inUse := rfl
@[simp] theorem State.modCard_retired (c : Nat) (f : Card → Card) : (s.modCard c f).retired = s.retired := rfl
@[simp] theorem State.modCard_folds (c : Nat) (f : Card → Card) : (s.modCard c f).folds = s.folds := rfl
@[simp] theorem State.modCard_paddocks (c : Nat) (f : Card → Card) : (s.modCard c f).paddocks = s.paddocks := rfl
@[simp] theorem State.modCard_grids (c : Nat) (f : Card → Card) : (s.modCard c f).grids = s.grids := rfl
@[simp] theorem State.modCard_queues (c : Nat) (f : Card → Card) : (s.modCard c f).queues = s.queues := rfl
@[simp] theorem State.modCard_ctxs (c : Nat) (f : Card → Card) : (s.modCard c f).ctxs = s.ctxs := rfl
@[simp] theorem State.modCard_cores (c : Nat) (f : Card → Card) : (s.modCard c f).cores = s.cores := rfl
@[simp] theorem State.modCard_clusters (c : Nat) (f : Card → Card) : (s.modCard c f).clusters = s.clusters := rfl
@[simp] theorem State.modCard_dies (c : Nat) (f : Card → Card) : (s.modCard c f).dies = s.dies := rfl
@[simp] theorem State.modCard_heart (c : Nat) (f : Card → Card) : (s.modCard c f).heart = s.heart := rfl
@[simp] theorem State.modCard_domTicks (c : Nat) (f : Card → Card) : (s.modCard c f).domTicks = s.domTicks := rfl
@[simp] theorem State.modCard_holder (c : Nat) (f : Card → Card) : (s.modCard c f).holder = s.holder := rfl
@[simp] theorem State.modCard_expiry (c : Nat) (f : Card → Card) : (s.modCard c f).expiry = s.expiry := rfl
@[simp] theorem State.modCard_claimed (c : Nat) (f : Card → Card) : (s.modCard c f).claimed = s.claimed := rfl
@[simp] theorem State.modCard_headroom (c : Nat) (f : Card → Card) : (s.modCard c f).headroom = s.headroom := rfl
@[simp] theorem State.modCard_oper (c : Nat) (f : Card → Card) : (s.modCard c f).oper = s.oper := rfl
@[simp] theorem State.modCard_firm (c : Nat) (f : Card → Card) : (s.modCard c f).firm = s.firm := rfl
@[simp] theorem State.modCard_telem (c : Nat) (f : Card → Card) : (s.modCard c f).telem = s.telem := rfl
@[simp] theorem State.modCard_corrected (c : Nat) (f : Card → Card) : (s.modCard c f).corrected = s.corrected := rfl
@[simp] theorem State.modCard_msix (c : Nat) (f : Card → Card) : (s.modCard c f).msix = s.msix := rfl
@[simp] theorem State.modCard_answer (c : Nat) (f : Card → Card) : (s.modCard c f).answer = s.answer := rfl
@[simp] theorem State.modCard_remoteDown (c : Nat) (f : Card → Card) : (s.modCard c f).remoteDown = s.remoteDown := rfl
@[simp] theorem State.modCard_stepping (c : Nat) (f : Card → Card) : (s.modCard c f).stepping = s.stepping := rfl
@[simp] theorem State.modCard_domNum (c : Nat) (f : Card → Card) : (s.modCard c f).domNum = s.domNum := rfl
@[simp] theorem State.modCard_agenda (c : Nat) (f : Card → Card) : (s.modCard c f).agenda = s.agenda := rfl
@[simp] theorem State.modCard_draws (c : Nat) (f : Card → Card) : (s.modCard c f).draws = s.draws := rfl
@[simp] theorem State.modCard_fresh (c : Nat) (f : Card → Card) : (s.modCard c f).fresh = s.fresh := rfl
@[simp] theorem State.modCard_nextId (c : Nat) (f : Card → Card) : (s.modCard c f).nextId = s.nextId := rfl
@[simp] theorem State.modCard_cur (c : Nat) (f : Card → Card) : (s.modCard c f).cur = s.cur := rfl

@[simp] theorem State.setByte_marks (k : Nat) (b : Byte) : (s.setByte k b).marks = s.marks := rfl
@[simp] theorem State.setByte_lineKey (k : Nat) (b : Byte) : (s.setByte k b).lineKey = s.lineKey := rfl
@[simp] theorem State.setByte_pend (k : Nat) (b : Byte) : (s.setByte k b).pend = s.pend := rfl
@[simp] theorem State.setByte_groups (k : Nat) (b : Byte) : (s.setByte k b).groups = s.groups := rfl
@[simp] theorem State.setByte_logs (k : Nat) (b : Byte) : (s.setByte k b).logs = s.logs := rfl
@[simp] theorem State.setByte_resident (k : Nat) (b : Byte) : (s.setByte k b).resident = s.resident := rfl
@[simp] theorem State.setByte_badTiles (k : Nat) (b : Byte) : (s.setByte k b).badTiles = s.badTiles := rfl
@[simp] theorem State.setByte_poison (k : Nat) (b : Byte) : (s.setByte k b).poison = s.poison := rfl
@[simp] theorem State.setByte_watch (k : Nat) (b : Byte) : (s.setByte k b).watch = s.watch := rfl
@[simp] theorem State.setByte_phases (k : Nat) (b : Byte) : (s.setByte k b).phases = s.phases := rfl
@[simp] theorem State.setByte_inUse (k : Nat) (b : Byte) : (s.setByte k b).inUse = s.inUse := rfl
@[simp] theorem State.setByte_retired (k : Nat) (b : Byte) : (s.setByte k b).retired = s.retired := rfl
@[simp] theorem State.setByte_folds (k : Nat) (b : Byte) : (s.setByte k b).folds = s.folds := rfl
@[simp] theorem State.setByte_paddocks (k : Nat) (b : Byte) : (s.setByte k b).paddocks = s.paddocks := rfl
@[simp] theorem State.setByte_grids (k : Nat) (b : Byte) : (s.setByte k b).grids = s.grids := rfl
@[simp] theorem State.setByte_queues (k : Nat) (b : Byte) : (s.setByte k b).queues = s.queues := rfl
@[simp] theorem State.setByte_ctxs (k : Nat) (b : Byte) : (s.setByte k b).ctxs = s.ctxs := rfl
@[simp] theorem State.setByte_cards (k : Nat) (b : Byte) : (s.setByte k b).cards = s.cards := rfl
@[simp] theorem State.setByte_cores (k : Nat) (b : Byte) : (s.setByte k b).cores = s.cores := rfl
@[simp] theorem State.setByte_clusters (k : Nat) (b : Byte) : (s.setByte k b).clusters = s.clusters := rfl
@[simp] theorem State.setByte_dies (k : Nat) (b : Byte) : (s.setByte k b).dies = s.dies := rfl
@[simp] theorem State.setByte_heart (k : Nat) (b : Byte) : (s.setByte k b).heart = s.heart := rfl
@[simp] theorem State.setByte_domTicks (k : Nat) (b : Byte) : (s.setByte k b).domTicks = s.domTicks := rfl
@[simp] theorem State.setByte_holder (k : Nat) (b : Byte) : (s.setByte k b).holder = s.holder := rfl
@[simp] theorem State.setByte_expiry (k : Nat) (b : Byte) : (s.setByte k b).expiry = s.expiry := rfl
@[simp] theorem State.setByte_claimed (k : Nat) (b : Byte) : (s.setByte k b).claimed = s.claimed := rfl
@[simp] theorem State.setByte_headroom (k : Nat) (b : Byte) : (s.setByte k b).headroom = s.headroom := rfl
@[simp] theorem State.setByte_oper (k : Nat) (b : Byte) : (s.setByte k b).oper = s.oper := rfl
@[simp] theorem State.setByte_firm (k : Nat) (b : Byte) : (s.setByte k b).firm = s.firm := rfl
@[simp] theorem State.setByte_telem (k : Nat) (b : Byte) : (s.setByte k b).telem = s.telem := rfl
@[simp] theorem State.setByte_corrected (k : Nat) (b : Byte) : (s.setByte k b).corrected = s.corrected := rfl
@[simp] theorem State.setByte_msix (k : Nat) (b : Byte) : (s.setByte k b).msix = s.msix := rfl
@[simp] theorem State.setByte_answer (k : Nat) (b : Byte) : (s.setByte k b).answer = s.answer := rfl
@[simp] theorem State.setByte_remoteDown (k : Nat) (b : Byte) : (s.setByte k b).remoteDown = s.remoteDown := rfl
@[simp] theorem State.setByte_stepping (k : Nat) (b : Byte) : (s.setByte k b).stepping = s.stepping := rfl
@[simp] theorem State.setByte_domNum (k : Nat) (b : Byte) : (s.setByte k b).domNum = s.domNum := rfl
@[simp] theorem State.setByte_agenda (k : Nat) (b : Byte) : (s.setByte k b).agenda = s.agenda := rfl
@[simp] theorem State.setByte_draws (k : Nat) (b : Byte) : (s.setByte k b).draws = s.draws := rfl
@[simp] theorem State.setByte_fresh (k : Nat) (b : Byte) : (s.setByte k b).fresh = s.fresh := rfl
@[simp] theorem State.setByte_nextId (k : Nat) (b : Byte) : (s.setByte k b).nextId = s.nextId := rfl
@[simp] theorem State.setByte_cur (k : Nat) (b : Byte) : (s.setByte k b).cur = s.cur := rfl

@[simp] theorem State.count_mem (a b n : Nat) : (s.count a b n).mem = s.mem := rfl
@[simp] theorem State.count_marks (a b n : Nat) : (s.count a b n).marks = s.marks := rfl
@[simp] theorem State.count_lineKey (a b n : Nat) : (s.count a b n).lineKey = s.lineKey := rfl
@[simp] theorem State.count_pend (a b n : Nat) : (s.count a b n).pend = s.pend := rfl
@[simp] theorem State.count_groups (a b n : Nat) : (s.count a b n).groups = s.groups := rfl
@[simp] theorem State.count_logs (a b n : Nat) : (s.count a b n).logs = s.logs := rfl
@[simp] theorem State.count_resident (a b n : Nat) : (s.count a b n).resident = s.resident := rfl
@[simp] theorem State.count_badTiles (a b n : Nat) : (s.count a b n).badTiles = s.badTiles := rfl
@[simp] theorem State.count_poison (a b n : Nat) : (s.count a b n).poison = s.poison := rfl
@[simp] theorem State.count_watch (a b n : Nat) : (s.count a b n).watch = s.watch := rfl
@[simp] theorem State.count_phases (a b n : Nat) : (s.count a b n).phases = s.phases := rfl
@[simp] theorem State.count_inUse (a b n : Nat) : (s.count a b n).inUse = s.inUse := rfl
@[simp] theorem State.count_retired (a b n : Nat) : (s.count a b n).retired = s.retired := rfl
@[simp] theorem State.count_folds (a b n : Nat) : (s.count a b n).folds = s.folds := rfl
@[simp] theorem State.count_paddocks (a b n : Nat) : (s.count a b n).paddocks = s.paddocks := rfl
@[simp] theorem State.count_grids (a b n : Nat) : (s.count a b n).grids = s.grids := rfl
@[simp] theorem State.count_queues (a b n : Nat) : (s.count a b n).queues = s.queues := rfl
@[simp] theorem State.count_ctxs (a b n : Nat) : (s.count a b n).ctxs = s.ctxs := rfl
@[simp] theorem State.count_cards (a b n : Nat) : (s.count a b n).cards = s.cards := rfl
@[simp] theorem State.count_cores (a b n : Nat) : (s.count a b n).cores = s.cores := rfl
@[simp] theorem State.count_clusters (a b n : Nat) : (s.count a b n).clusters = s.clusters := rfl
@[simp] theorem State.count_dies (a b n : Nat) : (s.count a b n).dies = s.dies := rfl
@[simp] theorem State.count_heart (a b n : Nat) : (s.count a b n).heart = s.heart := rfl
@[simp] theorem State.count_domTicks (a b n : Nat) : (s.count a b n).domTicks = s.domTicks := rfl
@[simp] theorem State.count_holder (a b n : Nat) : (s.count a b n).holder = s.holder := rfl
@[simp] theorem State.count_expiry (a b n : Nat) : (s.count a b n).expiry = s.expiry := rfl
@[simp] theorem State.count_claimed (a b n : Nat) : (s.count a b n).claimed = s.claimed := rfl
@[simp] theorem State.count_headroom (a b n : Nat) : (s.count a b n).headroom = s.headroom := rfl
@[simp] theorem State.count_oper (a b n : Nat) : (s.count a b n).oper = s.oper := rfl
@[simp] theorem State.count_firm (a b n : Nat) : (s.count a b n).firm = s.firm := rfl
@[simp] theorem State.count_corrected (a b n : Nat) : (s.count a b n).corrected = s.corrected := rfl
@[simp] theorem State.count_msix (a b n : Nat) : (s.count a b n).msix = s.msix := rfl
@[simp] theorem State.count_answer (a b n : Nat) : (s.count a b n).answer = s.answer := rfl
@[simp] theorem State.count_remoteDown (a b n : Nat) : (s.count a b n).remoteDown = s.remoteDown := rfl
@[simp] theorem State.count_stepping (a b n : Nat) : (s.count a b n).stepping = s.stepping := rfl
@[simp] theorem State.count_domNum (a b n : Nat) : (s.count a b n).domNum = s.domNum := rfl
@[simp] theorem State.count_agenda (a b n : Nat) : (s.count a b n).agenda = s.agenda := rfl
@[simp] theorem State.count_draws (a b n : Nat) : (s.count a b n).draws = s.draws := rfl
@[simp] theorem State.count_fresh (a b n : Nat) : (s.count a b n).fresh = s.fresh := rfl
@[simp] theorem State.count_nextId (a b n : Nat) : (s.count a b n).nextId = s.nextId := rfl
@[simp] theorem State.count_cur (a b n : Nat) : (s.count a b n).cur = s.cur := rfl

@[simp] theorem State.raiseMsix_mem (v : Nat) : (s.raiseMsix v).mem = s.mem := rfl
@[simp] theorem State.raiseMsix_marks (v : Nat) : (s.raiseMsix v).marks = s.marks := rfl
@[simp] theorem State.raiseMsix_lineKey (v : Nat) : (s.raiseMsix v).lineKey = s.lineKey := rfl
@[simp] theorem State.raiseMsix_pend (v : Nat) : (s.raiseMsix v).pend = s.pend := rfl
@[simp] theorem State.raiseMsix_groups (v : Nat) : (s.raiseMsix v).groups = s.groups := rfl
@[simp] theorem State.raiseMsix_logs (v : Nat) : (s.raiseMsix v).logs = s.logs := rfl
@[simp] theorem State.raiseMsix_resident (v : Nat) : (s.raiseMsix v).resident = s.resident := rfl
@[simp] theorem State.raiseMsix_badTiles (v : Nat) : (s.raiseMsix v).badTiles = s.badTiles := rfl
@[simp] theorem State.raiseMsix_poison (v : Nat) : (s.raiseMsix v).poison = s.poison := rfl
@[simp] theorem State.raiseMsix_watch (v : Nat) : (s.raiseMsix v).watch = s.watch := rfl
@[simp] theorem State.raiseMsix_phases (v : Nat) : (s.raiseMsix v).phases = s.phases := rfl
@[simp] theorem State.raiseMsix_inUse (v : Nat) : (s.raiseMsix v).inUse = s.inUse := rfl
@[simp] theorem State.raiseMsix_retired (v : Nat) : (s.raiseMsix v).retired = s.retired := rfl
@[simp] theorem State.raiseMsix_folds (v : Nat) : (s.raiseMsix v).folds = s.folds := rfl
@[simp] theorem State.raiseMsix_paddocks (v : Nat) : (s.raiseMsix v).paddocks = s.paddocks := rfl
@[simp] theorem State.raiseMsix_grids (v : Nat) : (s.raiseMsix v).grids = s.grids := rfl
@[simp] theorem State.raiseMsix_queues (v : Nat) : (s.raiseMsix v).queues = s.queues := rfl
@[simp] theorem State.raiseMsix_ctxs (v : Nat) : (s.raiseMsix v).ctxs = s.ctxs := rfl
@[simp] theorem State.raiseMsix_cards (v : Nat) : (s.raiseMsix v).cards = s.cards := rfl
@[simp] theorem State.raiseMsix_cores (v : Nat) : (s.raiseMsix v).cores = s.cores := rfl
@[simp] theorem State.raiseMsix_clusters (v : Nat) : (s.raiseMsix v).clusters = s.clusters := rfl
@[simp] theorem State.raiseMsix_dies (v : Nat) : (s.raiseMsix v).dies = s.dies := rfl
@[simp] theorem State.raiseMsix_heart (v : Nat) : (s.raiseMsix v).heart = s.heart := rfl
@[simp] theorem State.raiseMsix_domTicks (v : Nat) : (s.raiseMsix v).domTicks = s.domTicks := rfl
@[simp] theorem State.raiseMsix_holder (v : Nat) : (s.raiseMsix v).holder = s.holder := rfl
@[simp] theorem State.raiseMsix_expiry (v : Nat) : (s.raiseMsix v).expiry = s.expiry := rfl
@[simp] theorem State.raiseMsix_claimed (v : Nat) : (s.raiseMsix v).claimed = s.claimed := rfl
@[simp] theorem State.raiseMsix_headroom (v : Nat) : (s.raiseMsix v).headroom = s.headroom := rfl
@[simp] theorem State.raiseMsix_oper (v : Nat) : (s.raiseMsix v).oper = s.oper := rfl
@[simp] theorem State.raiseMsix_firm (v : Nat) : (s.raiseMsix v).firm = s.firm := rfl
@[simp] theorem State.raiseMsix_telem (v : Nat) : (s.raiseMsix v).telem = s.telem := rfl
@[simp] theorem State.raiseMsix_corrected (v : Nat) : (s.raiseMsix v).corrected = s.corrected := rfl
@[simp] theorem State.raiseMsix_answer (v : Nat) : (s.raiseMsix v).answer = s.answer := rfl
@[simp] theorem State.raiseMsix_remoteDown (v : Nat) : (s.raiseMsix v).remoteDown = s.remoteDown := rfl
@[simp] theorem State.raiseMsix_stepping (v : Nat) : (s.raiseMsix v).stepping = s.stepping := rfl
@[simp] theorem State.raiseMsix_domNum (v : Nat) : (s.raiseMsix v).domNum = s.domNum := rfl
@[simp] theorem State.raiseMsix_agenda (v : Nat) : (s.raiseMsix v).agenda = s.agenda := rfl
@[simp] theorem State.raiseMsix_draws (v : Nat) : (s.raiseMsix v).draws = s.draws := rfl
@[simp] theorem State.raiseMsix_fresh (v : Nat) : (s.raiseMsix v).fresh = s.fresh := rfl
@[simp] theorem State.raiseMsix_nextId (v : Nat) : (s.raiseMsix v).nextId = s.nextId := rfl
@[simp] theorem State.raiseMsix_cur (v : Nat) : (s.raiseMsix v).cur = s.cur := rfl

end Sys2Proof.Machine
end

