-- ==== Sys2Proof/Laws/Memory.lean ====
section
/-! SUPPORT. What the operations over memory do: reading after a write, the canonical form, which every one of them
keeps, and the fields of the state that each of them can change. -/

namespace Sys2Proof.Machine

/-- A run of operations over the state, each of which keeps a property, keeps it. -/
theorem State.run_keeps {β : Type} (inv : State → Prop) (op : State → β → State) (keeps : ∀ t e, inv t → inv (op t e))
    (es : List β) (s : State) (hs : inv s) : inv (es.foldl op s) :=
  List.foldlRecOn (motive := inv) es op hs fun t ht e _ => keeps t e ht

theorem MemoryCanonical.modCore {s : State} (h : MemoryCanonical s) (c : Nat) (f : Core → Core) : MemoryCanonical (s.modCore c f) := h

theorem MemoryCanonical.modFold {s : State} (h : MemoryCanonical s) (u : Nat) (f : Fold → Fold) : MemoryCanonical (s.modFold u f) := h

/-! ### Bytes -/

theorem State.setByte_wf {s : State} (k : Nat) (b : Byte) (h : MemoryCanonical s) : MemoryCanonical (s.setByte k b) :=
  Map.wf_set h

theorem State.byte_setByte {s : State} (h : MemoryCanonical s) (k j : Nat) (b : Byte) :
    (s.setByte k b).byte j = if j = k then b else s.byte j :=
  Map.get_set h

theorem State.setBytes_wf : ∀ (bs : List Byte) (s : State) (k : Nat), MemoryCanonical s → MemoryCanonical (s.setBytes k bs)
  | [], _, _, h => h
  | _ :: r, _, k, h => State.setBytes_wf r _ (k + 1) (State.setByte_wf k _ h)

/-- Bytes written change memory alone. -/
theorem State.setBytes_rest : ∀ (bs : List Byte) (s : State) (k : Nat), s.setBytes k bs = { s with mem := (s.setBytes k bs).mem }
  | [], _, _ => rfl
  | b :: r, s, k => by
    simp only [State.setBytes]
    rw [State.setBytes_rest r (s.setByte k b) (k + 1)]
    rfl

/-- What a byte reads as after bytes have been written. -/
theorem State.byte_setBytes : ∀ (bs : List Byte) (s : State) (k j : Nat), MemoryCanonical s →
    (s.setBytes k bs).byte j = if k ≤ j ∧ j < k + bs.length then (bs[j - k]?).getD 0 else s.byte j
  | [], s, k, j, _ => by
    have : ¬ (k ≤ j ∧ j < k + ([] : List Byte).length) := by simp
    rw [if_neg this]; rfl
  | b :: r, s, k, j, h => by
    simp only [State.setBytes]
    rw [State.byte_setBytes r (s.setByte k b) (k + 1) j (State.setByte_wf k b h), State.byte_setByte h]
    simp only [List.length_cons]
    by_cases h1 : j = k
    · subst h1
      rw [if_neg (by omega), if_pos rfl, if_pos (by omega)]
      simp
    · by_cases h2 : k + 1 ≤ j ∧ j < k + 1 + r.length
      · rw [if_pos h2, if_pos (by omega)]
        have e : j - k = (j - (k + 1)) + 1 := by omega
        rw [e, List.getElem?_cons_succ]
      · rw [if_neg h2, if_neg h1, if_neg (by omega)]

/-- The bytes of a range are the bytes of its addresses. -/
theorem State.bytes_eq_map (s : State) : ∀ n k, s.bytes k n = (List.range n).map fun j => s.byte (k + j)
  | 0, _ => rfl
  | n + 1, k => by
    rw [State.bytes, s.bytes_eq_map n (k + 1), List.range_succ_eq_map, List.map_cons, List.map_map]
    exact congrArg _ (List.map_congr_left fun j _ => congrArg s.byte (by omega))

/-- Bytes written read back. -/
theorem State.bytes_setBytes (bs : List Byte) (s : State) (k : Nat) (h : MemoryCanonical s) :
    (s.setBytes k bs).bytes k bs.length = bs := by
  rw [State.bytes_eq_map]
  refine List.ext_getElem (by simp) fun j hj hb => ?_
  rw [List.getElem_map, List.getElem_range, State.byte_setBytes bs s k (k + j) h, if_pos (by omega)]
  simp [List.getElem?_eq_getElem hb]

/-! ### Lines under a key (R401) -/

theorem State.writeAs_wf {s : State} (mat : Option (BitVec 512)) (k : Nat) (bs : List Byte) (h : MemoryCanonical s) :
    MemoryCanonical (s.writeAs mat k bs) := by
  unfold State.writeAs
  refine State.setBytes_wf bs _ k (State.run_keeps MemoryCanonical _ (fun t i ht => ?_) _ s h)
  split
  · exact ht
  · exact State.setBytes_wf _ t _ ht

/-- A write under a key changes memory and the key that lines were written under, and nothing else. -/
theorem State.writeAs_rest (s : State) (mat : Option (BitVec 512)) (k : Nat) (bs : List Byte) :
    s.writeAs mat k bs = { s with mem := (s.writeAs mat k bs).mem, lineKey := (s.writeAs mat k bs).lineKey } := by
  unfold State.writeAs
  rw [State.setBytes_rest]
  have := State.run_keeps (fun t : State => t = { s with mem := t.mem, lineKey := t.lineKey })
    (fun (t : State) i =>
      if Map.get none t.lineKey ((k / 64) + i) == mat then t
      else
        let u := t.setBytes ((k / 64 + i) * 64) (t.lineAs mat (k / 64 + i))
        { u with lineKey := Map.set none u.lineKey (k / 64 + i) mat })
    (fun t i ht => by
      split
      · exact ht
      · rw [State.setBytes_rest]
        rw [ht])
    (List.range ((k + bs.length - 1) / 64 + 1 - k / 64)) s rfl
  simp only at this ⊢
  rw [this]

/-- Where every line that is touched was last written in plaintext, plaintext bytes are written as they are. -/
theorem State.writeAs_plain (s : State) (k : Nat) (bs : List Byte) (h : s.lineKey = []) : s.writeAs none k bs = s.setBytes k bs := by
  unfold State.writeAs
  have : ∀ l : List Nat, l.foldl (fun (t : State) i =>
      if Map.get none t.lineKey ((k / 64) + i) == none then t
      else
        let u := t.setBytes ((k / 64 + i) * 64) (t.lineAs none (k / 64 + i))
        { u with lineKey := Map.set none u.lineKey (k / 64 + i) none }) s = s := by
    intro l
    induction l with
    | nil => rfl
    | cons a r ih => simp only [List.foldl, h, Map.get_nil, beq_self_eq_true, if_true]; simpa [h] using ih
  simp only
  rw [this]

/-- Where no line has been written under a key, bytes read in plaintext as they stand. -/
theorem State.readAs_plain (s : State) (k n : Nat) (h : s.lineKey = []) : s.readAs none k n = s.bytes k n := by
  simp [State.readAs, h]

/-! ### What an effect at a home can change -/

/-- `u` is `s` but for what an effect at a home can change: memory, the keys and marks of lines, the logs, the tiles that are
resident or cut off, the waiters that are looked at again, the error logs, and the count of free values. -/
def State.Homes (s u : State) : Prop :=
  u = { s with mem := u.mem, marks := u.marks, lineKey := u.lineKey, logs := u.logs, resident := u.resident, badTiles := u.badTiles,
               watch := u.watch, dies := u.dies, fresh := u.fresh }

theorem State.Homes.refl (s : State) : s.Homes s := rfl

theorem State.Homes.trans {s u v : State} (h : s.Homes u) (k : u.Homes v) : s.Homes v := by
  unfold State.Homes at *
  rw [k, h]

/-- A fold over steps each of which changes no more changes no more. -/
theorem State.Homes.fold {β : Type} {f : State → β → State} (hf : ∀ (u : State) b, u.Homes (f u b)) (l : List β) (s : State) : s.Homes (l.foldl f s) :=
  State.run_keeps (s.Homes ·) f (fun u b h => h.trans (hf u b)) l s (State.Homes.refl s)

theorem State.writeAs_homes (s : State) (mat : Option (BitVec 512)) (k : Nat) (bs : List Byte) : s.Homes (s.writeAs mat k bs) := by
  unfold State.Homes
  rw [State.writeAs_rest]

@[simp] theorem State.markMem_mem (s : State) (k n : Nat) (m : Option RaceMark) : (s.markMem k n m).mem = s.mem := by
  unfold State.markMem; split <;> rfl

/-- Marking changes the marks alone. -/
theorem State.markMem_rest (s : State) (k n : Nat) (m : Option RaceMark) : s.markMem k n m = { s with marks := (s.markMem k n m).marks } := by
  unfold State.markMem; split <;> rfl

theorem State.markMem_homes (s : State) (k n : Nat) (m : Option RaceMark) : s.Homes (s.markMem k n m) := by
  unfold State.Homes
  rw [State.markMem_rest]

theorem State.markMem_wf {s : State} (k n : Nat) (m : Option RaceMark) (h : MemoryCanonical s) : MemoryCanonical (s.markMem k n m) := by
  rw [State.markMem_rest]; exact h

theorem State.notify_wf {s : State} (k n : Nat) (h : MemoryCanonical s) : MemoryCanonical (s.notify k n) := h

theorem State.notify_homes (s : State) (k n : Nat) : s.Homes (s.notify k n) := rfl

/-! ### Logs of tiles (R101 to R103) -/

theorem State.applyEntry_wf {s : State} (e : LogEnt) (h : MemoryCanonical s) : MemoryCanonical (s.applyEntry e) := by
  unfold State.applyEntry
  dsimp only
  split
  · exact h
  · split <;> exact State.writeAs_wf _ _ _ h

/-- An entry applied changes memory and the keys of lines, and nothing else. -/
theorem State.applyEntry_rest (s : State) (e : LogEnt) :
    s.applyEntry e = { s with mem := (s.applyEntry e).mem, lineKey := (s.applyEntry e).lineKey } := by
  unfold State.applyEntry
  dsimp only
  split
  · rfl
  · split <;> exact State.writeAs_rest _ _ _ _

theorem State.applyEntry_homes (s : State) (e : LogEnt) : s.Homes (s.applyEntry e) := by
  unfold State.Homes
  rw [State.applyEntry_rest]

theorem State.applyTile_wf {s : State} (t : Nat) (h : MemoryCanonical s) : MemoryCanonical (s.applyTile t) := by
  unfold State.applyTile
  split
  · exact h
  · split
    · exact h
    · exact State.run_keeps MemoryCanonical State.applyEntry (fun _ e hu => State.applyEntry_wf e hu) _ s h

theorem State.applyTile_homes (s : State) (t : Nat) : s.Homes (s.applyTile t) := by
  unfold State.applyTile
  split
  · rfl
  · split
    · rfl
    · have h : s.Homes ((s.logs.filter (·.tile == t)).foldl State.applyEntry s) := State.Homes.fold State.applyEntry_homes _ s
      exact h.trans (by rfl)

/-- A tile that holds no error and is fetched has no log after it, and it is among the tiles that are resident. -/
theorem State.applyTile_logs (s : State) (t : Nat) (h : s.badTiles.contains t = false) (p : (s.poison.any fun n => n * 64 / tileBytes == t) = false) :
    (s.applyTile t).logs = s.logs.filter (·.tile ≠ t) ∧ (s.applyTile t).resident = keepResident t s.resident := by
  have keep := State.run_keeps (fun u : State => u = { s with mem := u.mem, lineKey := u.lineKey }) State.applyEntry
    (fun u e hu => by rw [State.applyEntry_rest, hu]) (s.logs.filter (·.tile == t)) s rfl
  simp only [State.applyTile, h, p, Bool.false_and, Bool.false_eq_true, if_false]
  constructor
  · rw [keep]
  · rw [keep]

theorem State.applyRange_wf {s : State} (k n : Nat) (h : MemoryCanonical s) : MemoryCanonical (s.applyRange k n) :=
  State.run_keeps MemoryCanonical _ (fun _ _ hu => State.applyTile_wf _ hu) _ s h

theorem State.applyRange_homes (s : State) (k n : Nat) : s.Homes (s.applyRange k n) :=
  State.Homes.fold (fun u i => u.applyTile_homes (k / tileBytes + i)) _ s

theorem State.makeRoom_wf (t : Nat) : ∀ (n : Nat) (s : State), MemoryCanonical s → MemoryCanonical (s.makeRoom t n)
  | 0, _, h => h
  | n + 1, s, h => by
    unfold State.makeRoom
    dsimp only
    split
    · exact h
    · split
      · exact h
      · exact State.makeRoom_wf t n _ (State.applyTile_wf _ h)

theorem State.makeRoom_homes (t : Nat) : ∀ (n : Nat) (s : State), s.Homes (s.makeRoom t n)
  | 0, _ => rfl
  | n + 1, s => by
    unfold State.makeRoom
    dsimp only
    split
    · rfl
    · split
      · rfl
      · exact (s.applyTile_homes _).trans (State.makeRoom_homes t n _)

theorem State.logUpdate_wf {s : State} (e : LogEnt) (h : MemoryCanonical s) : MemoryCanonical (s.logUpdate e) := by
  have h1 : MemoryCanonical ((s.markMem (e.tile * tileBytes + e.off) (ltyBytes e.lty) none).notify (e.tile * tileBytes + e.off) (ltyBytes e.lty)) :=
    State.notify_wf _ _ (State.markMem_wf _ _ _ h)
  unfold State.logUpdate
  dsimp only
  split
  · exact h
  · split
    · exact State.applyEntry_wf e h1
    · split
      · split
        · exact State.applyEntry_wf e (State.applyTile_wf _ h1)
        · exact State.applyTile_wf (s := State.evict _ _) _ h1
      · have h2 : ∀ u : State, MemoryCanonical u → MemoryCanonical ((u.evict e.tile).makeRoom e.tile 65537) := fun u hu =>
          State.makeRoom_wf e.tile 65537 (u.evict e.tile) hu
        split
        · exact h2 _ h1
        · split
          · exact State.applyEntry_wf e (h2 _ h1)
          · exact h2 _ h1

theorem State.logUpdate_homes (s : State) (e : LogEnt) : s.Homes (s.logUpdate e) := by
  have h1 : s.Homes ((s.markMem (e.tile * tileBytes + e.off) (ltyBytes e.lty) none).notify (e.tile * tileBytes + e.off) (ltyBytes e.lty)) :=
    (s.markMem_homes _ _ _).trans rfl
  unfold State.logUpdate
  dsimp only
  split
  · rfl
  · refine h1.trans ?_
    split
    · exact State.Homes.trans (by rfl) (State.applyEntry_homes _ e)
    · split
      · have h2 : ∀ u : State, u.Homes ((u.evict e.tile).applyTile e.tile) := fun u =>
          State.Homes.trans (u := u.evict e.tile) rfl (State.applyTile_homes _ _)
        split
        · exact (h2 _).trans (State.applyEntry_homes _ e)
        · exact h2 _
      · have h2 : ∀ u : State, u.Homes ((u.evict e.tile).makeRoom e.tile 65537) := fun u =>
          State.Homes.trans (u := u.evict e.tile) rfl (State.makeRoom_homes e.tile 65537 _)
        split
        · exact h2 _
        · split
          · exact (h2 _).trans (State.applyEntry_homes _ e)
          · exact (h2 _).trans rfl

/-! ### Effects at a home -/

theorem State.putHome_wf {s : State} (k key : Nat) (bs : List Byte) (m : Option RaceMark) (h : MemoryCanonical s) :
    MemoryCanonical (s.putHome k key bs m) := by
  unfold State.putHome
  split
  · exact State.notify_wf _ _ (State.markMem_wf _ _ _ (State.writeAs_wf _ _ _ h))
  · exact h

theorem State.putHome_homes (s : State) (k key : Nat) (bs : List Byte) (m : Option RaceMark) : s.Homes (s.putHome k key bs m) := by
  unfold State.putHome
  split
  · exact ((s.writeAs_homes _ _ _).trans (State.markMem_homes _ _ _ _)).trans rfl
  · rfl

theorem State.homeWrite_wf {s : State} (k key : Nat) (managed : Bool) (bs : List Byte) (m : Option RaceMark) (h : MemoryCanonical s) :
    MemoryCanonical (s.homeWrite k key managed bs m) := by
  unfold State.homeWrite
  split
  · exact State.logUpdate_wf _ h
  · exact State.putHome_wf _ _ _ _ h

theorem State.homeWrite_homes (s : State) (k key : Nat) (managed : Bool) (bs : List Byte) (m : Option RaceMark) :
    s.Homes (s.homeWrite k key managed bs m) := by
  unfold State.homeWrite
  split
  · exact s.logUpdate_homes _
  · exact s.putHome_homes _ _ _ _

theorem State.directWrite_wf {s : State} (k key : Nat) (managed replicated : Bool) (bs : List Byte) (m : Option RaceMark) (h : MemoryCanonical s) :
    MemoryCanonical (s.directWrite k key managed replicated bs m) := by
  unfold State.directWrite
  split
  · exact State.run_keeps MemoryCanonical _ (fun _ _ hu => State.putHome_wf _ _ _ _ hu) _ s h
  · split
    · exact State.putHome_wf _ _ _ _ (State.applyRange_wf _ _ h)
    · exact State.putHome_wf _ _ _ _ h

theorem State.directWrite_homes (s : State) (k key : Nat) (managed replicated : Bool) (bs : List Byte) (m : Option RaceMark) :
    s.Homes (s.directWrite k key managed replicated bs m) := by
  unfold State.directWrite
  split
  · exact State.Homes.fold (fun u j => u.putHome_homes j key bs m) _ s
  · split
    · exact (s.applyRange_homes _ _).trans (State.putHome_homes _ _ _ _ _)
    · exact s.putHome_homes _ _ _ _

theorem State.putAtomic_wf {s : State} (k key : Nat) (replicated : Bool) (bs : List Byte) (h : MemoryCanonical s) :
    MemoryCanonical (s.putAtomic k key replicated bs) := by
  have one : ∀ (t : State) (j : Nat), MemoryCanonical t →
      MemoryCanonical (if t.takes key j then (t.writeAs (t.matOf key) j bs).notify j bs.length else t) := fun t j ht => by
    split
    · exact State.writeAs_wf _ _ _ ht
    · exact ht
  unfold State.putAtomic
  dsimp only
  split
  · exact State.run_keeps MemoryCanonical _ one _ s h
  · exact one s k h

theorem State.putAtomic_homes (s : State) (k key : Nat) (replicated : Bool) (bs : List Byte) : s.Homes (s.putAtomic k key replicated bs) := by
  have one : ∀ (t : State) (j : Nat), t.Homes (if t.takes key j then (t.writeAs (t.matOf key) j bs).notify j bs.length else t) := fun t j => by
    split
    · exact (t.writeAs_homes _ _ _).trans rfl
    · rfl
  unfold State.putAtomic
  dsimp only
  split
  · exact State.Homes.fold one _ s
  · exact one s k

theorem State.homeValue_wf {s : State} (k n key : Nat) (managed : Bool) (h : MemoryCanonical s) : MemoryCanonical (s.homeValue k n key managed).1 := by
  unfold State.homeValue
  dsimp only
  split
  · exact State.applyRange_wf _ _ h
  · exact h

theorem State.homeValue_homes (s : State) (k n key : Nat) (managed : Bool) : s.Homes (s.homeValue k n key managed).1 := by
  unfold State.homeValue
  dsimp only
  split
  · exact s.applyRange_homes _ _
  · rfl

theorem State.homeUpdate_wf {s : State} (k key : Nat) (managed replicated : Bool) (aop : Nat) (ty : AtmTy) (a b : Nat) (h : MemoryCanonical s) :
    MemoryCanonical (s.homeUpdate k key managed replicated aop ty a b) := by
  unfold State.homeUpdate
  split
  · exact State.logUpdate_wf _ h
  · exact State.putAtomic_wf _ _ _ _ (State.homeValue_wf _ _ _ _ h)

theorem State.homeUpdate_homes (s : State) (k key : Nat) (managed replicated : Bool) (aop : Nat) (ty : AtmTy) (a b : Nat) :
    s.Homes (s.homeUpdate k key managed replicated aop ty a b) := by
  unfold State.homeUpdate
  split
  · exact s.logUpdate_homes _
  · exact (s.homeValue_homes _ _ _ _).trans (State.putAtomic_homes _ _ _ _ _)

end Sys2Proof.Machine
end

