-- ==== Sys2Proof/Laws/Buffer.lean ====
section
/-! SUPPORT. What performing buffered accesses, releases, and the writes of units that write at the home at once do: they
keep the canonical form of memory, and they change no more of the state than is named here. -/

namespace Sys2Proof.Machine

/-! ### What a release and a buffered access can change -/

/-- `u` is `s` but for what buffered accesses and releases can change: what an effect at a home can, the cores, the folds, the
cards, the parties with their phases, and the buffers themselves. -/
def State.Performs (s u : State) : Prop :=
  u = { s with mem := u.mem, marks := u.marks, lineKey := u.lineKey, logs := u.logs, resident := u.resident, badTiles := u.badTiles,
               watch := u.watch, dies := u.dies, fresh := u.fresh, cores := u.cores, folds := u.folds, cards := u.cards,
               phases := u.phases, inUse := u.inUse, retired := u.retired, pend := u.pend, groups := u.groups }

theorem State.Performs.refl (s : State) : s.Performs s := rfl

theorem State.Performs.trans {s u v : State} (h : s.Performs u) (k : u.Performs v) : s.Performs v := by
  unfold State.Performs at *
  rw [k, h]

theorem State.Performs.fold {β : Type} {f : State → β → State} (hf : ∀ (u : State) b, u.Performs (f u b)) (l : List β) (s : State) :
    s.Performs (l.foldl f s) :=
  State.run_keeps (s.Performs ·) f (fun u b h => h.trans (hf u b)) l s (State.Performs.refl s)

theorem State.Homes.performs {s u : State} (h : s.Homes u) : s.Performs u := by
  unfold State.Homes at h
  unfold State.Performs
  rw [h]

/-! ### Parties -/

theorem State.retire_performs (s : State) (p : BitVec 16) : s.Performs (s.retire p) := by
  unfold State.retire; split <;> rfl

@[simp] theorem State.retire_mem (s : State) (p : BitVec 16) : (s.retire p).mem = s.mem := by
  unfold State.retire; split <;> rfl

theorem State.newParty_performs (s : State) : s.Performs s.newParty.2 := by
  unfold State.newParty; dsimp only; split <;> rfl

@[simp] theorem State.newParty_mem (s : State) : s.newParty.2.mem = s.mem := by
  unfold State.newParty; dsimp only; split <;> rfl

theorem State.setParty_performs (s : State) (o : Owner) (p : BitVec 16) : s.Performs (s.setParty o p) := by
  cases o <;> rfl

@[simp] theorem State.setParty_mem (s : State) (o : Owner) (p : BitVec 16) : (s.setParty o p).mem = s.mem := by
  cases o <;> rfl

/-- What a release counted for its party can change. -/
theorem State.raiseTo_performs (s : State) (o : Owner) (n : Nat) : s.Performs (s.raiseTo o n) := by
  unfold State.raiseTo
  dsimp only
  split
  · have h : s.Performs (s.seal (s.partyOf o) n) := rfl
    exact ((h.trans (State.retire_performs _ _)).trans (State.newParty_performs _)).trans (State.setParty_performs _ _ _)
  · rfl

@[simp] theorem State.raiseTo_mem (s : State) (o : Owner) (n : Nat) : (s.raiseTo o n).mem = s.mem := by
  unfold State.raiseTo
  dsimp only
  split
  · simp; rfl
  · rfl

theorem canonical_of_mem {s t : State} (h : MemoryCanonical s) (e : t.mem = s.mem) : MemoryCanonical t := by
  unfold MemoryCanonical; rw [e]; exact h

/-! ### Performing -/

theorem State.perform_wf {s : State} (p : Pend) (h : MemoryCanonical s) : MemoryCanonical (s.perform p) := by
  unfold State.perform
  dsimp only
  split
  · exact MemoryCanonical.modCore (State.homeWrite_wf _ _ _ _ _ h) _ _
  · exact MemoryCanonical.modCore (State.homeUpdate_wf _ _ _ _ _ _ _ _ h) _ _
  · exact h
  · exact h
  · split
    · exact canonical_of_mem h (State.raiseTo_mem _ _ _)
    · exact h
  · exact h

/-- What performing one entry can change. -/
theorem State.perform_performs (s : State) (p : Pend) : s.Performs (s.perform p) := by
  unfold State.perform
  dsimp only
  split
  · exact (State.homeWrite_homes _ _ _ _ _ _).performs.trans rfl
  · exact (State.homeUpdate_homes _ _ _ _ _ _ _ _ _).performs.trans rfl
  · rfl
  · rfl
  · split
    · exact State.raiseTo_performs _ _ _
    · rfl
  · rfl

theorem State.makeRise_performs (s : State) (f : Pend) : s.Performs (s.makeRise f) :=
  State.Performs.trans (s.raiseTo_performs f.owner f.grp) (by rfl)

theorem State.leaveToken_performs (s : State) (g : StoreGrp) : s.Performs (s.leaveToken g) := rfl

theorem State.sweepGroups_performs (s : State) : s.Performs s.sweepGroups := by
  have h0 : ∀ (t : State) (r : List StoreGrp), t.Performs { t with groups := r } := fun _ _ => rfl
  unfold State.sweepGroups
  dsimp only
  exact (State.Performs.fold State.leaveToken_performs _ _).trans (h0 _ _)

@[simp] theorem State.sweepGroups_mem (s : State) : s.sweepGroups.mem = s.mem := by
  unfold State.sweepGroups
  dsimp only
  exact State.run_keeps (fun u : State => u.mem = s.mem) State.leaveToken (fun _ _ h => h) _ s rfl

theorem State.drain_wf {s : State} (seed : Pend → Bool) (h : MemoryCanonical s) : MemoryCanonical (s.drain seed) := by
  unfold State.drain
  dsimp only
  refine canonical_of_mem ?_ (State.sweepGroups_mem _)
  exact State.run_keeps MemoryCanonical State.perform (fun _ p hu => State.perform_wf p hu) _ _ h

/-- What a drain can change. -/
theorem State.drain_performs (s : State) (seed : Pend → Bool) : s.Performs (s.drain seed) := by
  have h0 : ∀ r : List Pend, s.Performs { s with pend := r } := fun _ => rfl
  unfold State.drain
  dsimp only
  exact ((h0 _).trans (State.Performs.fold State.perform_performs _ _)).trans (State.sweepGroups_performs _)

theorem State.Homes.pend {s u : State} (h : s.Homes u) : u.pend = s.pend := by
  unfold State.Homes at h
  rw [h]

theorem State.raiseTo_pend (s : State) (o : Owner) (n : Nat) (h : s.pend = []) : (s.raiseTo o n).pend = [] := by
  have h1 : ∀ (t : State) (q : BitVec 16), t.pend = [] → (t.retire q).pend = [] := fun t q ht => by
    unfold State.retire State.seal; split <;> simp [ht]
  have h2 : ∀ t : State, t.newParty.2.pend = t.pend := fun t => by
    unfold State.newParty; dsimp only; split <;> rfl
  have h3 : ∀ (t : State) (q : BitVec 16), (t.setParty o q).pend = t.pend := fun t q => by cases o <;> rfl
  have h4 : ∀ q : BitVec 16, (s.seal q n).pend = [] := fun q => by unfold State.seal; simp [h]
  unfold State.raiseTo
  dsimp only
  split
  · rw [h3, h2]; exact h1 _ _ (h4 _)
  · exact h4 _

theorem State.perform_pend (s : State) (p : Pend) (h : s.pend = []) : (s.perform p).pend = [] := by
  unfold State.perform
  dsimp only
  split
  · exact (State.homeWrite_homes _ _ _ _ _ _).pend.trans h
  · exact (State.homeUpdate_homes _ _ _ _ _ _ _ _ _).pend.trans h
  · exact h
  · exact h
  · split
    · exact s.raiseTo_pend _ _ h
    · exact h
  · exact h

theorem State.sweepGroups_pend (s : State) (h : s.pend = []) : s.sweepGroups.pend = [] := by
  unfold State.sweepGroups
  dsimp only
  exact State.run_keeps (fun u : State => u.pend = []) State.leaveToken (fun _ _ hu => hu) _ s h

/-- A drain that asks for everything picks everything. -/
theorem pickNeeded_all (rel : Pend → Pend → Bool) : ∀ l : List Pend, pickNeeded rel (fun _ => true) l = (l, [])
  | [] => rfl
  | e :: r => by simp [pickNeeded, pickNeeded_all rel r]

/-- A drain that asks for everything leaves nothing. -/
theorem State.drain_all (s : State) : (s.drain fun _ => true).pend = [] := by
  unfold State.drain
  dsimp only
  rw [pickNeeded_all]
  exact State.sweepGroups_pend _ (State.run_keeps (fun u : State => u.pend = []) State.perform (fun u p hu => u.perform_pend p hu) _ _ (by simp [pickNeeded_all]))

/-- With no store that counts on a token there is nothing to settle. -/
theorem State.sweepGroups_nil (s : State) (g : s.groups = []) : s.sweepGroups = s := by
  unfold State.sweepGroups
  rw [g]
  cases s
  cases g
  rfl

/-- With nothing buffered a drain only settles the tokens of stores. -/
theorem State.drain_nil (s : State) (seed : Pend → Bool) (h : s.pend = []) : s.drain seed = s.sweepGroups := by
  cases s
  cases h
  rfl

theorem State.expose_wf {s : State} (seed : Pend → Bool) (h : MemoryCanonical s) : MemoryCanonical (s.expose seed) := by
  unfold State.expose
  dsimp only
  refine canonical_of_mem ?_ (State.sweepGroups_mem _)
  refine State.run_keeps MemoryCanonical State.perform (fun _ p hu => State.perform_wf p hu) _ _ ?_
  unfold MemoryCanonical
  dsimp only
  split
  · exact h
  · exact State.drain_wf _ h

/-- What making entries visible on their core can change. -/
theorem State.expose_performs (s : State) (seed : Pend → Bool) : s.Performs (s.expose seed) := by
  have h0 : ∀ (t : State) (r : List Pend), t.Performs { t with pend := r } := fun _ _ => rfl
  unfold State.expose
  dsimp only
  refine ((State.Performs.trans ?_ (h0 _ _)).trans (State.Performs.fold State.perform_performs _ _)).trans (State.sweepGroups_performs _)
  split
  · rfl
  · exact s.drain_performs _

theorem State.drainOwner_wf {s : State} (o : Owner) (scope : Scope) (h : MemoryCanonical s) : MemoryCanonical (s.drainOwner o scope) := by
  unfold State.drainOwner
  split
  · exact State.expose_wf _ h
  · exact State.drain_wf _ h

theorem State.drainOwner_performs (s : State) (o : Owner) (scope : Scope) : s.Performs (s.drainOwner o scope) := by
  unfold State.drainOwner
  split
  · exact s.expose_performs _
  · exact s.drain_performs _

theorem State.release_wf {s : State} (o : Owner) (scope : Scope) (h : MemoryCanonical s) : MemoryCanonical (s.release o scope) :=
  canonical_of_mem (State.drainOwner_wf o scope h) (State.raiseTo_mem _ _ _)

/-- What a release made at once can change. -/
theorem State.release_performs (s : State) (o : Owner) (scope : Scope) : s.Performs (s.release o scope) :=
  (s.drainOwner_performs o scope).trans (State.raiseTo_performs _ _ _)

theorem State.settleRaises_wf {s : State} (h : MemoryCanonical s) : MemoryCanonical s.settleRaises := by
  unfold State.settleRaises
  dsimp only
  refine State.run_keeps MemoryCanonical State.makeRise (fun u f hu => canonical_of_mem hu (u.raiseTo_mem f.owner f.grp)) _ _ ?_
  split
  · exact State.drain_wf _ h
  · exact h

/-- What the rises that are at hand can change. -/
theorem State.settleRaises_performs (s : State) : s.Performs s.settleRaises := by
  unfold State.settleRaises
  dsimp only
  refine State.Performs.trans ?_ (State.Performs.fold State.makeRise_performs _ _)
  split
  · exact s.drain_performs _
  · rfl

theorem State.settleRaises_nil (s : State) (h : s.pend = []) : s.settleRaises = s := by
  unfold State.settleRaises
  rw [h]
  rfl

theorem State.acquire_wf {s : State} (core : Nat) (scope : Scope) (h : MemoryCanonical s) : MemoryCanonical (s.acquire core scope) := by
  unfold State.acquire
  dsimp only
  split
  · exact MemoryCanonical.modCore (State.settleRaises_wf h) _ _
  · exact State.settleRaises_wf h

/-- What an acquire can change. -/
theorem State.acquire_performs (s : State) (core : Nat) (scope : Scope) : s.Performs (s.acquire core scope) := by
  unfold State.acquire
  dsimp only
  split
  · exact s.settleRaises_performs.trans rfl
  · exact s.settleRaises_performs

/-- With nothing buffered an acquire changes the L1 of its core alone. -/
theorem State.acquire_nil (s : State) (core : Nat) (scope : Scope) (h : s.pend = []) :
    s.acquire core scope = { s with cores := (s.acquire core scope).cores } := by
  unfold State.acquire
  rw [s.settleRaises_nil h]
  dsimp only
  split <;> rfl

/-! ### Reads and writes of pieces -/

theorem State.homeLine_wf {s : State} (managed : Bool) (key num : Nat) (h : MemoryCanonical s) :
    MemoryCanonical (s.homeLine managed key num).1 := by
  unfold State.homeLine
  dsimp only
  split
  · exact State.applyRange_wf _ _ h
  · exact h

theorem State.lineFor_wf {s : State} (core : Nat) (l1 : Bool) (cpol : Cpol) (managed : Bool) (key num : Nat) (h : MemoryCanonical s) :
    MemoryCanonical (s.lineFor core l1 cpol managed key num).1 := by
  have home : ∀ t : State, MemoryCanonical t → MemoryCanonical (t.homeLine managed key num).1 := fun t ht =>
    State.homeLine_wf managed key num ht
  unfold State.lineFor
  dsimp only
  split
  · split
    · exact home s h
    · exact home s h
  · split
    · split <;> exact h
    · split
      · exact home s.flip.2 h
      · exact home s.flip.2 h

theorem State.readSite_wf {s : State} (o : Owner) (core : Nat) (l1 check : Bool) (cpol : Cpol) (t : Site) (h : MemoryCanonical s) :
    MemoryCanonical (s.readSite o core l1 check cpol t).1 := by
  unfold State.readSite
  generalize hd : (s.drain fun e => e.seenBy o core && e.overlaps t.loc t.n && e.isUpdate) = s1
  have h1 : MemoryCanonical s1 := by rw [← hd]; exact State.drain_wf _ h
  dsimp only
  split
  · split
    · exact State.lineFor_wf _ _ _ _ _ _ h1
    · split <;> exact State.lineFor_wf _ _ _ _ _ _ h1
  · split <;> exact h1
  · exact h1

theorem State.readSites_wf (o : Owner) (core : Nat) (l1 check : Bool) (cpol : Cpol) : ∀ (l : List Site) (s : State),
    MemoryCanonical s → MemoryCanonical (s.readSites o core l1 check cpol l).1
  | [], _, h => h
  | t :: r, s, h => by
    have h1 := State.readSite_wf o core l1 check cpol t h
    have h2 := State.readSites_wf o core l1 check cpol r _ h1
    unfold State.readSites
    dsimp only
    split
    · exact h1
    · split <;> exact h2

theorem State.writeSite_wf {s : State} (o : Owner) (core : Nat) (check : Bool) (t : Site) (bs : List Byte) (h : MemoryCanonical s) :
    MemoryCanonical (s.writeSite o core check t bs) := by
  unfold State.writeSite
  dsimp only
  split
  · split
    · exact MemoryCanonical.modCore (State.directWrite_wf _ _ _ _ _ _ h) _ _
    · exact State.directWrite_wf _ _ _ _ _ _ h
  · exact h
  · exact h

/-! ### Units that reach memory by virtual addresses -/

theorem State.writeVirt_wf {s t : State} (ctx va : Nat) (bs : List Byte) (h : MemoryCanonical s) (e : s.writeVirt ctx va bs = .ok t) :
    MemoryCanonical t := by
  unfold State.writeVirt at e
  split at e
  · cases e
  · next l k _ =>
    have h1 : MemoryCanonical (if l.ml then s.applyRange k bs.length else s) := by
      split
      · exact State.applyRange_wf _ _ h
      · exact h
    dsimp only at e
    generalize (if l.ml then s.applyRange k bs.length else s) = u at h1 e
    split at e
    · cases e
      exact State.directWrite_wf _ _ _ _ _ _ h1
    · cases e

/-- What a unit's write can change. -/
theorem State.writeVirt_homes {s t : State} (ctx va : Nat) (bs : List Byte) (e : s.writeVirt ctx va bs = .ok t) : s.Homes t := by
  unfold State.writeVirt at e
  split at e
  · cases e
  · next l k _ =>
    have h1 : s.Homes (if l.ml then s.applyRange k bs.length else s) := by
      split
      · exact s.applyRange_homes _ _
      · rfl
    dsimp only at e
    generalize (if l.ml then s.applyRange k bs.length else s) = u at h1 e
    split at e
    · cases e
      exact h1.trans (State.directWrite_homes _ _ _ _ _ _ _)
    · cases e

theorem State.unitWrite_wf {s t : State} (ctx va : Nat) (bs : List Byte) (h : MemoryCanonical s) (e : s.unitWrite ctx va bs = .ok t) :
    MemoryCanonical t := State.writeVirt_wf ctx va bs h e

theorem State.writeLines_wf (ctx : Nat) : ∀ (n : Nat) (s t : State) (va : Nat) (bs : List Byte), MemoryCanonical s →
    s.writeLines ctx va n bs = .ok t → MemoryCanonical t
  | 0, _, _, _, _, h, e => by cases e; exact h
  | n + 1, s, t, va, bs, h, e => by
    unfold State.writeLines at e
    split at e
    · cases e; exact h
    · split at e
      · cases e
      · next u hu => exact State.writeLines_wf ctx n u t _ _ (State.unitWrite_wf _ _ _ h hu) e

/-- The memory of the machine right after reset has its canonical form. -/
theorem State.reset_wf : MemoryCanonical State.reset := rfl

end Sys2Proof.Machine
end

