-- ==== Sys2Proof/Laws/Fetch.lean ====
section
/-! SUPPORT. Translation and fetch where every copy agrees: which of them serves (log 2) then makes no difference to what is
read, and they agree after the fetch as before. -/

namespace Sys2Proof.Machine

/-- `t` is `s` but for the free values drawn and the caches of the cores and the clusters. -/
def State.SameHome (s t : State) : Prop := t = { s with fresh := t.fresh, cores := t.cores, clusters := t.clusters }

theorem State.SameHome.refl (s : State) : s.SameHome s := rfl
theorem State.SameHome.trans {s t u : State} (h : s.SameHome t) (g : t.SameHome u) : s.SameHome u := by
  unfold State.SameHome at *; rw [g, h]
theorem State.SameHome.modCore {s t : State} (h : s.SameHome t) (c : Nat) (f : Core → Core) : s.SameHome (t.modCore c f) :=
  h.trans rfl
theorem State.SameHome.modCluster {s t : State} (h : s.SameHome t) (c : Nat) (f : Cluster → Cluster) : s.SameHome (t.modCluster c f) :=
  h.trans rfl
theorem State.SameHome.flip {s t : State} (h : s.SameHome t) : s.SameHome t.flip.2 := h.trans rfl
theorem State.SameHome.walk {s t : State} (h : s.SameHome t) (ctx va : Nat) : t.walk ctx va = s.walk ctx va := by
  rw [h]; unfold State.walk
  have w : ∀ (l : List (Nat × Nat × Nat)) (tbl : Nat),
      ({ s with fresh := t.fresh, cores := t.cores, clusters := t.clusters } : State).walkFrom va l tbl = s.walkFrom va l tbl := by
    intro l; induction l with
    | nil => intro _; rfl
    | cons p r ih => intro tbl; simp only [State.walkFrom, ih]; rfl
  simp only [w]; rfl

theorem State.SameHome.homeAnswers {s t : State} (h : s.SameHome t) (l : Leaf) (k : Nat) (a : Acc) :
    t.homeAnswers l k a = s.homeAnswers l k a := by
  rw [h]; unfold State.homeAnswers; rfl
theorem State.SameHome.homeLine {s t : State} (h : s.SameHome t) (key num : Nat) :
    (t.homeLine false key num).2 = (s.homeLine false key num).2 := by
  rw [h]; unfold State.homeLine State.readAs State.lineAs; rfl
theorem State.SameHome.rangeBad {s t : State} (h : s.SameHome t) (k n : Nat) : t.rangeBad k n = s.rangeBad k n := by
  rw [h]; unfold State.rangeBad State.lineBad; rfl

theorem State.SameHome.pend {s t : State} (h : s.SameHome t) : t.pend = s.pend := by rw [h]
theorem State.SameHome.groups {s t : State} (h : s.SameHome t) : t.groups = s.groups := by rw [h]
theorem State.SameHome.folds {s t : State} (h : s.SameHome t) : t.folds = s.folds := by rw [h]

theorem State.core_modCore {s : State} (h : Map.wf Core.init s.cores = true) (c : Nat) (f : Core → Core) (n : Nat) :
    (s.modCore c f).core n = if n = c then f (s.core c) else s.core n := Map.get_set h
theorem State.cluster_modCluster {s : State} (h : Map.wf Cluster.init s.clusters = true) (c : Nat) (f : Cluster → Cluster) (n : Nat) :
    (s.modCluster c f).cluster n = if n = c then f (s.cluster c) else s.cluster n := Map.get_set h

/-! ### Translation -/

/-- Every translation of the addresses `vas`, which lie in one page, that a core may use is the leaf `l`. -/
structure State.Serves (s : State) (core ctx : Nat) (vas : List Nat) (l : Leaf) : Prop where
  cores : Map.wf Core.init s.cores = true
  clusters : Map.wf Cluster.init s.clusters = true
  page : ∀ va ∈ vas, ∀ w ∈ vas, va / 2 ^ l.lg = w / 2 ^ l.lg
  walks : ∀ va ∈ vas, s.walk ctx va = .ok l
  tlb : ∀ va ∈ vas, (tlbFind (s.core core).tlb ctx va).all (· = l) = true
  shared : ∀ va ∈ vas, (tlbFind (s.cluster (clusterOf core)).tlb ctx va).all (· = l) = true

/-- The TLBs of `t` are those of `s`. -/
structure State.SameTlbs (s t : State) : Prop where
  clusters : t.clusters = s.clusters
  cores : Map.wf Core.init s.cores = true → Map.wf Core.init t.cores = true ∧ ∀ c, (t.core c).tlb = (s.core c).tlb

theorem State.SameTlbs.refl (s : State) : s.SameTlbs s := ⟨rfl, fun h => ⟨h, fun _ => rfl⟩⟩
theorem State.SameTlbs.trans {s t u : State} (h : s.SameTlbs t) (g : t.SameTlbs u) : s.SameTlbs u :=
  ⟨g.clusters.trans h.clusters, fun c => ⟨(g.cores (h.cores c).1).1, fun n => ((g.cores (h.cores c).1).2 n).trans ((h.cores c).2 n)⟩⟩
theorem State.SameTlbs.modCore {s t : State} (h : s.SameTlbs t) (c : Nat) (f : Core → Core) (hf : ∀ x, (f x).tlb = x.tlb) :
    s.SameTlbs (t.modCore c f) := h.trans ⟨rfl, fun w => ⟨Map.wf_set w, fun n => by
      rw [State.core_modCore w]; split
      · next e => rw [hf, e]
      · rfl⟩⟩
theorem State.SameTlbs.flip {s t : State} (h : s.SameTlbs t) : s.SameTlbs t.flip.2 := h.trans ⟨rfl, fun w => ⟨w, fun _ => rfl⟩⟩

/-- They serve as before where home and TLBs are the same. -/
theorem State.Serves.move {s t : State} {core ctx : Nat} {vas : List Nat} {l : Leaf} (h : s.Serves core ctx vas l) (g : s.SameHome t)
    (k : s.SameTlbs t) : t.Serves core ctx vas l where
  cores := (k.cores h.cores).1
  clusters := by rw [k.clusters]; exact h.clusters
  page := h.page
  walks va hv := by rw [g.walk, h.walks va hv]
  tlb va hv := by rw [(k.cores h.cores).2]; exact h.tlb va hv
  shared va hv := by unfold State.cluster; rw [k.clusters]; exact h.shared va hv

/-- A TLB that takes the translation of an address serves its page from then on, however large it is. -/
theorem tlbFind_tlbPut (n : Nat) (t : List TlbEnt) {ctx va w : Nat} {l : Leaf} (h : va / 2 ^ l.lg = w / 2 ^ l.lg) :
    (tlbFind (tlbPut n t ctx va l) ctx w).all (· = l) = true := by
  cases n <;> simp [tlbFind, tlbPut, h]

theorem State.Serves.putCoreTlb {s : State} {core ctx : Nat} {vas : List Nat} {l : Leaf} (h : s.Serves core ctx vas l) {va : Nat} (hv : va ∈ vas) :
    (s.putCoreTlb core ctx va l).Serves core ctx vas l ∧ ∀ c, ((s.putCoreTlb core ctx va l).core c).ic = (s.core c).ic := by
  refine ⟨⟨Map.wf_set h.cores, h.clusters, h.page, fun w hw => ?_, fun w hw => ?_, h.shared⟩, fun c => ?_⟩
  · exact (State.SameHome.walk (.modCore (.refl s) _ _) ctx w).trans (h.walks w hw)
  · rw [State.putCoreTlb, State.core_modCore h.cores, if_pos rfl]; exact tlbFind_tlbPut _ _ (h.page va hv w hw)
  · rw [State.putCoreTlb, State.core_modCore h.cores]; split
    · next e => rw [e]
    · rfl

theorem State.Serves.walkMiss {s : State} {core ctx : Nat} {vas : List Nat} {l : Leaf} (h : s.Serves core ctx vas l) {va : Nat} (hv : va ∈ vas) :
    ∃ t, s.walkMiss core ctx va = (t, .ok l) ∧ s.SameHome t ∧ t.Serves core ctx vas l ∧ ∀ c, (t.core c).ic = (s.core c).ic := by
  unfold State.walkMiss
  simp only [h.walks va hv]
  have g : (s.modCluster (clusterOf core) fun x => { x with tlb := tlbPut 4096 x.tlb ctx va l }).Serves core ctx vas l :=
    ⟨h.cores, Map.wf_set h.clusters, h.page, fun w hw => by rw [State.SameHome.walk (.modCluster (.refl s) _ _)]; exact h.walks w hw, h.tlb,
      fun w hw => by rw [State.cluster_modCluster h.clusters, if_pos rfl]; exact tlbFind_tlbPut _ _ (h.page va hv w hw)⟩
  exact ⟨_, rfl, .modCore (.modCluster (.refl s) _ _) _ _, g.putCoreTlb hv⟩

theorem State.Serves.flip {s : State} {core ctx : Nat} {vas : List Nat} {l : Leaf} (h : s.Serves core ctx vas l) : s.flip.2.Serves core ctx vas l :=
  h.move (.flip (.refl s)) (.flip (.refl s))

theorem State.Serves.coreMiss {s : State} {core ctx : Nat} {vas : List Nat} {l : Leaf} (h : s.Serves core ctx vas l) {va : Nat} (hv : va ∈ vas) :
    ∃ t, s.coreMiss core ctx va = (t, .ok l) ∧ s.SameHome t ∧ t.Serves core ctx vas l ∧ ∀ c, (t.core c).ic = (s.core c).ic := by
  unfold State.coreMiss
  cases hf : tlbFind (s.cluster (clusterOf core)).tlb ctx va with
  | none => exact h.walkMiss hv
  | some m =>
    have hm : m = l := by simpa [hf] using h.shared va hv
    subst hm
    simp only
    split
    · exact ⟨_, rfl, .modCore (.flip (.refl s)) _ _, h.flip.putCoreTlb hv⟩
    · obtain ⟨t, ht, hs, g⟩ := h.flip.walkMiss hv
      exact ⟨t, ht, .trans (.flip (.refl s)) hs, g⟩

/-- Translation answers the leaf of the page tables, whichever TLB serves it. -/
theorem State.Serves.translate {s : State} {core ctx : Nat} {vas : List Nat} {l : Leaf} (h : s.Serves core ctx vas l) {va : Nat} (hv : va ∈ vas) :
    ∃ t, s.translate core ctx va = (t, .ok l) ∧ s.SameHome t ∧ t.Serves core ctx vas l ∧ ∀ c, (t.core c).ic = (s.core c).ic := by
  unfold State.translate
  cases hf : tlbFind (s.core core).tlb ctx va with
  | none => exact h.coreMiss hv
  | some m =>
    have hm : m = l := by simpa [hf] using h.tlb va hv
    subst hm
    simp only
    split
    · exact ⟨_, rfl, .flip (.refl s), h.flip, fun _ => rfl⟩
    · obtain ⟨t, ht, hs, g⟩ := h.flip.coreMiss hv
      exact ⟨t, ht, .trans (.flip (.refl s)) hs, g⟩

/-- An access that the leaf allows and its home answers goes through it. -/
theorem State.Serves.access {s : State} {core ctx : Nat} {vas : List Nat} {l : Leaf} (h : s.Serves core ctx vas l) {va : Nat} (hv : va ∈ vas) {a : Acc}
    (canon : va < 2 ^ 57) (allows : l.allows a = true) (answers : s.homeAnswers l (l.keyOn core va) a = none) :
    ∃ t, s.access core ctx va a = (t, .ok l) ∧ s.SameHome t ∧ t.Serves core ctx vas l ∧ ∀ c, (t.core c).ic = (s.core c).ic := by
  obtain ⟨t, ht, hs⟩ := h.translate hv
  refine ⟨t, ?_, hs⟩
  unfold State.access
  rw [if_neg (by omega), ht]
  simp only [allows, Bool.not_true, Bool.false_eq_true, if_false]
  rw [answers]

/-! ### Fetch -/

/-- Every copy of the line at address 64 * `num` that a core may fetch from reads `d`, through the leaf `l`. -/
structure State.Fetches (s : State) (core ctx num : Nat) (l : Leaf) (d : Line) : Prop where
  serves : s.Serves core ctx [num * 64] l
  canon : num * 64 < 2 ^ 57
  ic : ((s.core core).ic.find? fun f => f.ctx == ctx && f.num == num).all (fun e => e.data = d) = true
  allows : l.allows .fetch = true
  plain : l.ml = false
  answers : s.homeAnswers l (l.keyOn core (num * 64)) .fetch = none
  sound : s.rangeBad (l.keyOn core (num * 64)) 64 = false
  home : BitVec.ofNat 512 (ofLe (s.homeLine false l.crypt (l.keyOn core (num * 64) / 64)).2) = d
  parity : parityOk d = true

/-- The copies agree in a state with the same home where translation and the instruction cache agree. -/
theorem State.Fetches.move {s t : State} {core ctx num : Nat} {l : Leaf} {d : Line} (h : s.Fetches core ctx num l d) (g : s.SameHome t)
    (serves : t.Serves core ctx [num * 64] l)
    (ic : ((t.core core).ic.find? fun f => f.ctx == ctx && f.num == num).all (fun e => e.data = d) = true) : t.Fetches core ctx num l d where
  serves := serves
  canon := h.canon
  ic := ic
  allows := h.allows
  plain := h.plain
  answers := by rw [g.homeAnswers, h.answers]
  sound := by rw [g.rangeBad, h.sound]
  home := by rw [g.homeLine, h.home]
  parity := h.parity

theorem State.Fetches.flip {s : State} {core ctx num : Nat} {l : Leaf} {d : Line} (h : s.Fetches core ctx num l d) :
    s.flip.2.Fetches core ctx num l d := h.move (.flip (.refl s)) h.serves.flip h.ic

/-- A line read from its home is the one, and the core's cache holds it from then on. -/
theorem State.Fetches.fromHome {s : State} {core ctx num : Nat} {l : Leaf} {d : Line} (h : s.Fetches core ctx num l d) :
    (s.homeLine false l.crypt (l.keyOn core (num * 64) / 64)).1 = s ∧
      (s.modCore core fun c => c.putIc { ctx := ctx, num := num, data := d }).Fetches core ctx num l d :=
  ⟨rfl, h.move (.modCore (.refl s) _ _) (h.serves.move (.modCore (.refl s) _ _) (.modCore (.refl s) _ _ fun _ => rfl))
    (by rw [State.core_modCore h.serves.cores, if_pos rfl]; simp [Core.putIc])⟩

/-- The fetch answers the line, whichever copy serves it. -/
theorem State.Fetches.fetch {s : State} {core ctx num : Nat} {l : Leaf} {d : Line} (h : s.Fetches core ctx num l d) :
    ∃ t, s.fetchLine core ctx num = (t, .ok d) ∧ s.SameHome t ∧ t.Fetches core ctx num l d := by
  obtain ⟨u, acc, hs, hu, hic⟩ := h.serves.access (List.mem_singleton_self _) h.canon h.allows h.answers
  have g : u.Fetches core ctx num l d := h.move hs hu (by rw [hic]; exact h.ic)
  unfold State.fetchLine
  simp only [acc, h.plain, g.fromHome.1, g.flip.fromHome.1, g.sound, g.flip.sound, g.home, g.flip.home, h.parity, Bool.false_eq_true, if_false,
    if_true]
  split
  · exact ⟨_, rfl, hs.modCore _ _, g.fromHome.2⟩
  · next e he =>
    have hd : e.data = d := by simpa [he] using g.ic
    split
    · rw [hd]; exact ⟨_, rfl, hs.flip, g.flip⟩
    · exact ⟨_, rfl, hs.flip.modCore _ _, g.flip.fromHome.2⟩

/-- The words of a table that lies in one line, all read from that line. -/
theorem Iss.tableWords_line {i : Iss} {num : Nat} {l : Leaf} {d : Line} (hk : lineKindCode d = 2) :
    ∀ (ns : List Nat) (s : State), s.Fetches i.x.core i.x.ctx num l d → (∀ n ∈ ns, n < 15) →
      ∃ t, i.tableWords s num ns = (t, .ok (some (ns.map (tableWord d)))) ∧ s.SameHome t ∧ t.Fetches i.x.core i.x.ctx num l d
  | [], s, h, _ => ⟨s, rfl, .refl s, h⟩
  | n :: ns, s, h, hn => by
    obtain ⟨t, ht, hs, g⟩ := h.fetch
    obtain ⟨u, hu, hs', g'⟩ := Iss.tableWords_line hk ns t g (fun m hm => hn m (List.mem_cons_of_mem _ hm))
    have hlt : n < 15 := hn n (List.mem_cons_self ..)
    refine ⟨u, ?_, hs.trans hs', g'⟩
    simp only [Iss.tableWords, Iss.tableLine, Nat.div_eq_of_lt hlt, Nat.add_zero, ht, hk, if_true, hu, Nat.mod_eq_of_lt hlt, List.map_cons]

/-! ### Reads of memory -/

/-- With nothing buffered, an unchecked read of pieces of plain memory whose lines are good answers, whichever copies serve it. -/
theorem State.readSites_answers (o : Owner) (core : Nat) (l1 : Bool) (cpol : Cpol) : ∀ (l : List Site) (s : State), s.pend = [] → s.groups = [] →
    (∀ t ∈ l, (∃ k, t.loc = .mem k ∧ s.rangeBad k t.n = false) ∧ t.managed = false) →
    ∃ u bs, s.readSites o core l1 false cpol l = (u, .ok bs) ∧ s.SameHome u ∧ s.SameTlbs u
  | [], s, _, _, _ => ⟨s, [], rfl, .refl s, .refl s⟩
  | t :: r, s, hp, hg, hl => by
    obtain ⟨⟨k, hk, hb⟩, hm⟩ := hl t (List.mem_cons_self ..)
    have line : ∃ u b m hit, s.lineFor core l1 cpol false t.crypt (k / 64) = (u, b, m, hit) ∧ s.SameHome u ∧ s.SameTlbs u := by
      have keeps (v : State) (f : Core → Core) (hf : ∀ x, (f x).tlb = x.tlb) : v.SameHome (v.modCore core f) ∧ v.SameTlbs (v.modCore core f) :=
        ⟨.modCore (.refl v) _ _, .modCore (.refl v) _ _ hf⟩
      have fl (v : State) (h : s.flip.2.SameHome v ∧ s.flip.2.SameTlbs v) : s.SameHome v ∧ s.SameTlbs v :=
        ⟨.trans (.flip (.refl s)) h.1, .trans (.flip (.refl s)) h.2⟩
      unfold State.lineFor
      simp only [State.homeLine, Bool.false_eq_true, if_false]
      split
      · refine ⟨_, _, _, _, rfl, ?_⟩
        split
        · exact keeps _ _ fun _ => by split <;> rfl
        · exact ⟨.refl s, .refl s⟩
      · split
        · refine ⟨_, _, _, _, rfl, fl _ ?_⟩
          split
          · exact keeps _ _ fun _ => rfl
          · exact ⟨.refl _, .refl _⟩
        · refine ⟨_, _, _, _, rfl, fl _ ?_⟩
          split
          · exact keeps _ _ fun _ => by split <;> rfl
          · exact ⟨.refl _, .refl _⟩
    obtain ⟨u, b, m, hit, hu, hs, ht⟩ := line
    have one : ∃ bs, s.readSite o core l1 false cpol t = (u, .ok bs) := by
      have bad : u.siteBad t = false := by unfold State.siteBad; rw [hk]; exact (hs.rangeBad _ _).trans hb
      unfold State.readSite
      simp only [State.drain_nil s _ hp, State.sweepGroups_nil s hg, hk, hm, hu, bad, Bool.and_false, Bool.false_eq_true, if_false, Bool.false_and]
      exact ⟨_, rfl⟩
    obtain ⟨bs, h1⟩ := one
    obtain ⟨v, cs, h2, hs', ht'⟩ := State.readSites_answers o core l1 cpol r u (by rw [hs]; exact hp) (by rw [hs]; exact hg) fun q hq => by
      obtain ⟨⟨j, hj, hb'⟩, hm'⟩ := hl q (List.mem_cons_of_mem _ hq)
      exact ⟨⟨j, hj, (hs.rangeBad _ _).trans hb'⟩, hm'⟩
    exact ⟨v, bs ++ cs, by simp only [State.readSites, h1, h2], hs.trans hs', ht.trans ht'⟩

/-- So does an unchecked read of a unit at an address of a plain page, of at most 8 bytes. -/
theorem Agent.read_answers {s : State} (u : Agent) {vas : List Nat} {l : Leaf} (h : s.Serves u.core u.ctx vas l) {va n : Nat} (hv : va ∈ vas)
    (check : u.check = false) (hp : s.pend = []) (hg : s.groups = []) (canon : va < 2 ^ 57) (hn : n ≤ 8) (allows : l.allows .read = true)
    (home : l.cls = 0) (plain : l.ml = false) (answers : s.homeAnswers l (l.keyOn u.core va) .read = none)
    (sound : s.rangeBad (l.keyOn u.core va) n = false) :
    ∃ t bs, u.read s none va n = (t, .ok bs) ∧ s.SameHome t ∧ t.Serves u.core u.ctx vas l := by
  obtain ⟨t, acc, hs, ht, _⟩ := h.access hv canon allows answers
  have sites : u.sites s none .read va n = (t, .ok [{ loc := .mem (l.keyOn u.core va), n := n, leaf := some l }]) := by
    unfold Agent.sites State.globalSites
    simp [acc, home, sitesAt, hn]
  obtain ⟨v, bs, hr, hs', ht'⟩ := State.readSites_answers u.owner u.core u.l1 .deflt
    [{ loc := .mem (l.keyOn u.core va), n := n, leaf := some l }] t (by rw [hs]; exact hp) (by rw [hs]; exact hg) fun q hq => by
      rw [List.mem_singleton] at hq; subst hq
      exact ⟨⟨_, rfl, (hs.rangeBad _ _).trans sound⟩, by simp [Site.managed, plain]⟩
  refine ⟨v, bs, ?_, hs.trans hs', ht.move hs' ht'⟩
  unfold Agent.read
  simp only [sites, check, hr]

end Sys2Proof.Machine
end

