-- ==== Sys2Proof/Laws/Issue.lean ====
section
/-! SUPPORT. What the shared operations on the issuing fragment do: who issues, how a fold is found after it has been
changed, how joins are settled, and how an instruction ends. -/

namespace Sys2Proof.Machine

@[simp] theorem Flock.asHeld_frags (k : Flock) (p : Park) : (k.asHeld p).frags = k.frags := by cases p <;> rfl
@[simp] theorem Flock.asHeld_splits (k : Flock) (p : Park) : (k.asHeld p).splits = k.splits := by cases p <;> rfl

/-- The fragment that a fold, a flock and an identity name. -/
theorem State.iss?_spec {s : State} {u l r : Nat} {i : Iss} (h : s.iss? u l r = some i) :
    i.s = s ∧ i.x.uid = u ∧ i.fl = l ∧ i.g.fid = r ∧
      s.fold? i.x.uid = some i.x ∧ (∃ k, i.x.flocks[i.fl]? = some k ∧ i.k = k.asHeld i.g.park) ∧
      i.k.frag? i.g.fid = some i.g := by
  unfold State.iss? at h
  split at h
  · cases h
  · next x hx =>
    split at h
    · cases h
    · next k hk =>
      split at h
      · cases h
      · next g hg =>
        cases h
        have hu : x.uid = u := by simpa using List.find?_some hx
        have hr : g.fid = r := by simpa using List.find?_some hg
        refine ⟨rfl, hu, rfl, hr, by simpa [hu] using hx, ⟨k, hk, rfl⟩, ?_⟩
        rw [← hr] at hg
        simpa [Flock.frag?] using hg

/-- What a holder of the turn is. -/
theorem State.issuer_spec {s : State} {i : Iss} (h : s.issuer = some i) :
    i.s = s ∧ s.fold? i.x.uid = some i.x ∧ (∃ k, i.x.flocks[i.fl]? = some k ∧ i.k = k.asHeld i.g.park) ∧
      i.k.frag? i.g.fid = some i.g := by
  unfold State.issuer at h
  split at h
  · obtain ⟨h1, -, -, -, h2, h3, h4⟩ := State.iss?_spec h
    exact ⟨h1, h2, h3, h4⟩
  · cases h

/-- An instruction of a flock runs for the holder of the turn. -/
theorem onFrag_issuer {s : State} {i : Iss} (h : s.issuer = some i) (f : Iss → State) : onFrag s f = .next (f i) := by
  simp [onFrag, h]

theorem find_map_uid (u : Nat) (f : Fold → Fold) (hf : ∀ x, (f x).uid = x.uid) (v : Nat) (l : List Fold) :
    (l.map fun x => if x.uid = u then f x else x).find? (·.uid == v)
      = (l.find? (·.uid == v)).map fun x => if x.uid = u then f x else x := by
  induction l with
  | nil => rfl
  | cons a l ih =>
    have hk : (if a.uid = u then f a else a).uid = a.uid := by split <;> simp [hf]
    rw [List.map_cons, List.find?_cons, List.find?_cons, hk]
    cases a.uid == v
    · exact ih
    · rfl

/-- A fold after a change that keeps its identity. -/
theorem State.fold?_modFold (s : State) (u : Nat) (f : Fold → Fold) (hf : ∀ x, (f x).uid = x.uid) (v : Nat) :
    (s.modFold u f).fold? v = (s.fold? v).map fun x => if x.uid = u then f x else x :=
  find_map_uid u f hf v s.folds

theorem State.fold?_modFold_other (s : State) (u : Nat) (f : Fold → Fold) (hf : ∀ x, (f x).uid = x.uid) {v : Nat} (h : v ≠ u) :
    (s.modFold u f).fold? v = s.fold? v := by
  rw [s.fold?_modFold u f hf]
  cases hx : s.fold? v with
  | none => rfl
  | some x =>
    have : x.uid = v := by simpa using List.find?_some hx
    simp [this, h]

theorem State.fold?_modFold_same (s : State) (u : Nat) (f : Fold → Fold) (hf : ∀ x, (f x).uid = x.uid) {x : Fold}
    (h : s.fold? u = some x) : (s.modFold u f).fold? u = some (f x) := by
  have : x.uid = u := by simpa using List.find?_some h
  rw [s.fold?_modFold u f hf, h]; simp [this]

@[simp] theorem Fold.modFlock_uid (x : Fold) (l : Nat) (f : Flock → Flock) : (x.modFlock l f).uid = x.uid := rfl

theorem modNth_get {α : Type} (f : α → α) (l m : Nat) (xs : List α) :
    (modNth f l xs)[m]? = if m = l then (xs[m]?).map f else xs[m]? := by
  induction xs generalizing l m with
  | nil => simp [modNth]
  | cons a xs ih => cases l <;> cases m <;> simp [modNth, ih]

/-! ### Joins -/

@[simp] theorem Flock.parkJoins_splits (k : Flock) : k.parkJoins.splits = k.splits := rfl

/-- Fusing and parking change the fragments and the splits of a flock only. -/
theorem Flock.fuse_rest (k : Flock) (sid : Nat) :
    k.fuse sid = { k with frags := (k.fuse sid).frags, splits := (k.fuse sid).splits } := by
  unfold Flock.fuse
  split
  · rfl
  · dsimp only
    split
    · split <;> rfl
    · rfl

theorem Flock.fuseAll_rest (l : List Split) : ∀ k : Flock,
    ∃ fs sp, l.foldl (fun a sp => a.fuse sp.sid) k = { k with frags := fs, splits := sp } := by
  induction l with
  | nil => intro k; exact ⟨k.frags, k.splits, rfl⟩
  | cons a l ih =>
    intro k
    obtain ⟨fs, sp, h⟩ := ih (k.fuse a.sid)
    exact ⟨fs, sp, by rw [List.foldl_cons, h, k.fuse_rest a.sid]⟩

/-- Settling the joins changes the fragments and the splits of a flock only. -/
theorem Flock.settle_rest : ∀ (n : Nat) (k : Flock), ∃ fs sp, k.settle n = { k with frags := fs, splits := sp }
  | 0, k => ⟨k.parkJoins.frags, k.splits, rfl⟩
  | n + 1, k => by
    obtain ⟨fs, sp, h⟩ := Flock.fuseAll_rest k.parkJoins.splits.reverse k.parkJoins
    obtain ⟨fs', sp', h'⟩ := Flock.settle_rest n (k.parkJoins.splits.reverse.foldl (fun a sp => a.fuse sp.sid) k.parkJoins)
    exact ⟨fs', sp', by simp only [Flock.settle]; rw [h', h]; rfl⟩

/-- Without a split outstanding no fragment stands at a join. -/
theorem Flock.parkJoins_none (k : Flock) (h : k.splits = []) : k.parkJoins = k := by
  have : ∀ g : Frag, k.joinOf g = none := by
    intro g
    unfold Flock.joinOf
    split
    · rfl
    · simp [Flock.split?, h]
  simp [Flock.parkJoins, this]

theorem Flock.settle_none : ∀ (n : Nat) (k : Flock), k.splits = [] → k.settle n = k
  | 0, k, h => k.parkJoins_none h
  | n + 1, k, h => by
    simp only [Flock.settle, k.parkJoins_none h, h, List.reverse_nil, List.foldl_nil]
    exact Flock.settle_none n k h

end Sys2Proof.Machine

namespace Sys2Proof

open Sys2Proof.Machine

/-- The end of an instruction: after changes to the fold, the flock and the fragment that keep their identities, the move
of the fragment and the settling of the joins leave the state that `Ends` describes. -/
theorem Ends.intro {i : Iss} {was : Flock} (hl : i.x.flocks[i.fl]? = some was) (b t : State) (e : Effect) (move : Frag → Frag)
    (fx : Fold → Fold) (fk : Flock → Flock) (hb : b.fold? i.x.uid = some i.x)
    (ht : t = ((b.modFold i.x.uid fx).modFlock i.x.uid i.fl fk).settle i.x.uid i.fl)
    (hu : ∀ x, (fx x).uid = x.uid) (hx : { fx i.x with flocks := i.x.flocks } = e.fold i.x)
    (hf : (fx i.x).flocks = i.x.flocks)
    (hk : { fk was with frags := was.frags, splits := was.splits } = e.flock was) (hs : (fk was).splits = was.splits)
    (hg : (fk was).frags = was.frags.map fun f => if f.fid = i.g.fid then move (e.frag f) else f) :
    Ends i b t e move := by
  have e1 : (b.modFold i.x.uid fx).fold? i.x.uid = some (fx i.x) := State.fold?_modFold_same _ _ _ hu hb
  have e2 : ((b.modFold i.x.uid fx).modFlock i.x.uid i.fl fk).fold? i.x.uid = some ((fx i.x).modFlock i.fl fk) :=
    State.fold?_modFold_same _ i.x.uid (·.modFlock i.fl fk) (fun _ => rfl) e1
  have e3 := State.fold?_modFold_same _ i.x.uid (·.modFlock i.fl fun k => k.settle k.splits.length) (fun _ => rfl) e2
  subst ht
  refine ⟨rfl, fun v hv => ?_, ?_⟩
  · rw [show (State.settle _ i.x.uid i.fl) = State.modFold _ i.x.uid _ from rfl,
      State.fold?_modFold_other _ _ _ (by intro x; rfl) hv,
      show State.modFlock _ i.x.uid i.fl fk = State.modFold _ i.x.uid _ from rfl,
      State.fold?_modFold_other _ _ _ (by intro x; rfl) hv, State.fold?_modFold_other _ _ _ hu hv]
  · refine ⟨_, was, (fk was).settle (fk was).splits.length, e3, ?_, ?_, hl, ?_, ?_, ?_⟩
    · rw [← hx]; rfl
    · intro m hm
      simp [Fold.modFlock, modNth_get, hm, hf]
    · simp [Fold.modFlock, modNth_get, hf, hl]
    · obtain ⟨fs, sp, h'⟩ := Flock.settle_rest (fk was).splits.length (fk was)
      rw [h', ← hk]
    · intro hz
      rw [Flock.settle_none _ _ (hs.trans hz)]
      exact ⟨hs.trans hz, hg⟩

theorem modFold_id (s : State) (u : Nat) : s.modFold u (fun x => x) = s := by simp [State.modFold]

theorem modFold_modFold (s : State) (u : Nat) (f g : Fold → Fold) (hf : ∀ x, (f x).uid = x.uid) :
    (s.modFold u f).modFold u g = s.modFold u fun x => g (f x) := by
  simp only [State.modFold, List.map_map, State.mk.injEq, true_and, and_true]
  apply List.map_congr_left
  intro x _
  by_cases h : x.uid = u <;> simp [h, hf]

theorem modNth_modNth {α : Type} (f g : α → α) (l : Nat) (xs : List α) :
    modNth g l (modNth f l xs) = modNth (fun a => g (f a)) l xs := by
  induction xs generalizing l with
  | nil => simp [modNth]
  | cons a xs ih => cases l <;> simp [modNth, ih]

theorem modNth_id {α : Type} (l : Nat) (xs : List α) : modNth (fun a => a) l xs = xs := by
  induction xs generalizing l with
  | nil => simp [modNth]
  | cons a xs ih => cases l <;> simp [modNth, ih]

theorem modFlock_id (s : State) (u l : Nat) : s.modFlock u l (fun k => k) = s := by
  simp [State.modFlock, State.modFold, Fold.modFlock, modNth_id]

theorem modFlock_modFlock (s : State) (u l : Nat) (f g : Flock → Flock) :
    (s.modFlock u l f).modFlock u l g = s.modFlock u l fun k => g (f k) := by
  unfold State.modFlock
  rw [modFold_modFold _ _ _ _ (by intro x; rfl)]
  simp [Fold.modFlock, modNth_modNth]

/-- An instruction that changes its fold by `fx` and its flock by `fk` and goes on at the next slot. -/
theorem Ends.of_next {i : Iss} {was : Flock} (hl : i.x.flocks[i.fl]? = some was) (b : State) (hb : b.fold? i.x.uid = some i.x)
    (fx : Fold → Fold) (fk : Flock → Flock) (hu : ∀ x, (fx x).uid = x.uid) (hf : (fx i.x).flocks = i.x.flocks)
    (hs : (fk was).splits = was.splits) (hg : (fk was).frags = was.frags) :
    Ends i b (i.next ((b.modFold i.x.uid fx).modFlock i.x.uid i.fl fk)) { fold := fx, flock := fk } (toNext i) := by
  refine Ends.intro hl b _ _ _ fx
    (fun k => (fk k).modFrag i.g.fid fun g => { g with pc := i.g.pc + 1, arriving := false, park := .ready }) hb ?_ hu ?_ hf ?_ ?_ ?_
  · unfold Iss.next Iss.modFrag State.modFrag; rw [modFlock_modFlock]
  · show _ = fx i.x
    rw [← hf]
  · show _ = fk was
    rw [← hg, ← hs]; rfl
  · exact hs
  · show ((fk was).modFrag _ _).frags = _
    simp only [Flock.modFrag, hg]; rfl

theorem Done.of_next {s : State} {i : Iss} (h : s.issuer = some i)
    (fx : Fold → Fold) (fk : Flock → Flock) (hu : ∀ x, (fx x).uid = x.uid) (hf : (fx i.x).flocks = i.x.flocks)
    (hs : ∀ k, (fk k).splits = k.splits) (hg : ∀ k, (fk k).frags = k.frags) :
    Done i (i.next ((i.s.modFold i.x.uid fx).modFlock i.x.uid i.fl fk)) { fold := fx, flock := fk } :=
  let ⟨hs', hx, ⟨_, hl, _⟩, _⟩ := State.issuer_spec h
  Ends.of_next hl i.s (hs' ▸ hx) fx fk hu hf (hs _) (hg _)

/-- An instruction that changes nothing but its place. -/
theorem Done.of_next_same {s : State} {i : Iss} (h : s.issuer = some i) : Done i (i.next i.s) {} := by
  have := Done.of_next h (fun x => x) (fun k => k) (fun _ => rfl) rfl (fun _ => rfl) fun _ => rfl
  rwa [modFold_id, modFlock_id] at this

/-- An instruction that changes its flock. -/
theorem Done.of_next_flock {s : State} {i : Iss} (h : s.issuer = some i) (fk : Flock → Flock)
    (hs : ∀ k, (fk k).splits = k.splits) (hg : ∀ k, (fk k).frags = k.frags) :
    Done i (i.next (i.modFlock i.s fk)) { flock := fk } := by
  have := Done.of_next h (fun x => x) fk (fun _ => rfl) rfl hs hg
  rwa [modFold_id] at this

/-- An instruction that changes its fold. -/
theorem Done.of_next_fold {s : State} {i : Iss} (h : s.issuer = some i) (fx : Fold → Fold) (hu : ∀ x, (fx x).uid = x.uid)
    (hf : (fx i.x).flocks = i.x.flocks) : Done i (i.next (i.modFold i.s fx)) { fold := fx } := by
  have := Done.of_next h fx (fun k => k) hu hf (fun _ => rfl) fun _ => rfl
  rwa [modFlock_id] at this

end Sys2Proof
end

