-- ==== Sys2Proof/Laws/Results.lean ====
section
/-! SUPPORT. What the shared shapes of instructions do: a flock-uniform instruction that executes, results of lanes written
back, results of masks and scalars, and the trap that is not taken. -/

namespace Sys2Proof

open Sys2Proof.Machine

/-- A run of operations over a fold, none of which touches a field, leaves the field as it was. -/
theorem Fold.run_field {β γ : Type} (field : Fold → γ) (op : Fold → β → Fold) (same : ∀ y e, field (op y e) = field y)
    (es : List β) (x : Fold) : field (es.foldl op x) = field x :=
  List.foldlRecOn (motive := fun y => field y = field x) es op rfl fun y hy e _ => (same y e).trans hy

/-! ### Writes of registers and flags leave the rest of the fold alone -/

@[simp] theorem Fold.setV_uid (x : Fold) (r t : Nat) (v : W32) : (x.setV r t v).uid = x.uid := rfl
@[simp] theorem Fold.setV_flocks (x : Fold) (r t : Nat) (v : W32) : (x.setV r t v).flocks = x.flocks := rfl
@[simp] theorem Fold.putV_uid (x : Fold) (t : Ty) (d th r : Nat) : (x.putV t d th r).uid = x.uid := by unfold Fold.putV; split <;> rfl
@[simp] theorem Fold.putV_flocks (x : Fold) (t : Ty) (d th r : Nat) : (x.putV t d th r).flocks = x.flocks := by unfold Fold.putV; split <;> rfl
@[simp] theorem Fold.orFlags_uid (x : Fold) (t : Nat) (f : W32) : (x.orFlags t f).uid = x.uid := by unfold Fold.orFlags; split <;> rfl
@[simp] theorem Fold.orFlags_flocks (x : Fold) (t : Nat) (f : W32) : (x.orFlags t f).flocks = x.flocks := by unfold Fold.orFlags; split <;> rfl
@[simp] theorem Fold.orFlags_zero (x : Fold) (t : Nat) : x.orFlags t 0 = x := rfl
@[simp] theorem Flock.putLatch_frags (k : Flock) (w : Nat) (n : BitVec 2) (t : Ty) (res : List LaneRes) : (k.putLatch w n t res).frags = k.frags := rfl
@[simp] theorem Flock.putLatch_splits (k : Flock) (w : Nat) (n : BitVec 2) (t : Ty) (res : List LaneRes) : (k.putLatch w n t res).splits = k.splits := rfl

theorem laneEffect_uid (i : Iss) (b : Wb) (res : List LaneRes) (x : Fold) : ((laneEffect i b res).fold x).uid = x.uid :=
  Fold.run_field Fold.uid _ (fun y r => by simp only [Fold.orFlags_uid]; split <;> simp) res x

theorem laneEffect_flocks (i : Iss) (b : Wb) (res : List LaneRes) (x : Fold) : ((laneEffect i b res).fold x).flocks = x.flocks :=
  Fold.run_field Fold.flocks _ (fun y r => by simp only [Fold.orFlags_flocks]; split <;> simp) res x

theorem raiseFlags_uid (i : Iss) (l : List (Nat × W32)) (x : Fold) : (raiseFlags i l x).uid = x.uid :=
  Fold.run_field Fold.uid _ (fun y r => by simp) l x

theorem raiseFlags_flocks (i : Iss) (l : List (Nat × W32)) (x : Fold) : (raiseFlags i l x).flocks = x.flocks :=
  Fold.run_field Fold.flocks _ (fun y r => by simp) l x

/-- Flags that are all clear raise nothing. -/
theorem raiseFlags_zero (i : Iss) : ∀ (l : List (Nat × W32)) (x : Fold), (∀ p ∈ l, p.2 = 0) → raiseFlags i l x = x
  | [], _, _ => rfl
  | p :: r, x, h => by
    have h1 : p.2 = 0 := h p (by simp)
    have := raiseFlags_zero i r x (fun q hq => h q (by simp [hq]))
    unfold raiseFlags at *
    simp only [List.foldl, h1, Fold.orFlags_zero]
    exact this

/-! ### Traps (R68) -/

/-- Where no flag raised has its trap enabled, the instruction only goes on. -/
theorem Iss.finish_quiet (i : Iss) (s : State) (l : List (Nat × W32)) (h : NoTrap i l) : i.finish s l = i.next s := by
  unfold Iss.finish
  have key : ((List.range 7).filter (bit (i.x.fpctl.toNat / 256 % 128))).filterMap (fun b =>
      let m := l.foldl (fun m p => if p.2.getLsbD b then m ||| bitMask p.1 else m) (0 : Mask)
      if m = 0 then none else some (({ cause := .trap b, addr := 0, aux := 0, page := none } : FInfo), m)) = [] := by
    rw [List.filterMap_eq_nil_iff]
    intro b hb
    rw [List.mem_filter, List.mem_range] at hb
    have hten : i.x.fpctl.getLsbD (8 + b) = true := by
      have h2 := hb.2
      have hlt := hb.1
      rw [bit, beq_iff_eq] at h2
      rw [BitVec.getLsbD, Nat.testBit_eq_decide_div_mod_eq, decide_eq_true_eq, Nat.pow_add, ← Nat.div_div_eq_div_mul]
      have e : (i.x.fpctl.toNat / 256 % 128).testBit b = (i.x.fpctl.toNat / 256).testBit b := by
        rw [show 128 = 2 ^ 7 from rfl, Nat.testBit_mod_two_pow]; simp [hlt]
      rw [Nat.testBit_eq_decide_div_mod_eq, Nat.testBit_eq_decide_div_mod_eq, h2] at e
      simpa using e.symm
    have hz : l.foldl (fun m p => if p.2.getLsbD b then m ||| bitMask p.1 else m) (0 : Mask) = 0 := by
      refine List.foldlRecOn (motive := (· = (0 : Mask))) l _ rfl fun m hm p hp => ?_
      rw [if_neg fun hc => ?_, hm]
      have := h p hp b hb.1 hc
      rw [hten] at this
      cases this
    show (if l.foldl (fun m p => if p.2.getLsbD b then m ||| bitMask p.1 else m) (0 : Mask) = 0 then none else some _) = none
    rw [if_pos hz]
  simp only [key]
  rfl

/-! ### Shapes of instructions -/

/-- A flock-uniform instruction that executes does what it says. -/
theorem Iss.uniform_runs {i : Iss} {h : Hdr} (hr : Runs i h) (f : State) : i.uniform h f = f := by
  unfold Iss.uniform Iss.executes
  rcases hr with hg | ha
  · rw [if_pos (by simp [hg])]
  · rw [if_pos]
    have : (i.active h != 0) = true := by rw [bne_iff_ne]; exact ha
    rw [this]; simp

/-- Results of lanes written back, and on to the next slot. -/
theorem Done.of_put {s : State} {i : Iss} (hi : s.issuer = some i) (b : Wb) (res : List LaneRes) :
    Done i (i.next (i.put i.s b res)) (laneEffect i b res) := by
  unfold Iss.put Iss.modFold Iss.modFlock
  cases hb : b.len with
  | true =>
    have := Done.of_next hi (laneEffect i b res).fold (fun k => k.putLatch i.w b.lat b.t res) (laneEffect_uid i b res) (laneEffect_flocks i b res i.x) (fun _ => rfl) fun _ => rfl
    have e : laneEffect i b res = { fold := (laneEffect i b res).fold, flock := fun k => k.putLatch i.w b.lat b.t res } := by
      simp [laneEffect, hb]
    rw [e]
    exact this
  | false =>
    have := Done.of_next_fold hi (laneEffect i b res).fold (laneEffect_uid i b res) (laneEffect_flocks i b res i.x)
    have e : laneEffect i b res = { fold := (laneEffect i b res).fold } := by
      unfold laneEffect; rw [hb]; rfl
    rw [e]
    exact this

/-- A vector instruction completes with the results of its active lanes where no trap is enabled for a flag they raise. -/
theorem Done.of_vector {s : State} {i : Iss} (hi : s.issuer = some i) (h : Hdr) (t : Ty) (d : BitVec 8) (f : Nat → Nat × W32)
    (ht : NoTrap i (LaneRes.flagsOf (laneResults i h f))) :
    Done i (i.vector h t d f) (laneEffect i (wbOf h t d) (laneResults i h f)) := by
  have e : i.vector h t d f = i.finish (i.put i.s (wbOf h t d) (laneResults i h f)) (LaneRes.flagsOf (laneResults i h f)) := rfl
  rw [e, Iss.finish_quiet i _ _ ht]
  exact Done.of_put hi (wbOf h t d) _

/-- Results that raise no flag take no trap. -/
theorem noTrap_quiet (i : Iss) (h : Hdr) (f : Nat → Nat) : NoTrap i (LaneRes.flagsOf (laneResults i h fun l => (f l, 0))) := by
  intro p hp b _ hb
  simp only [LaneRes.flagsOf, laneResults, List.map_map, List.mem_map] at hp
  obtain ⟨l, _, rfl⟩ := hp
  simp at hb

/-- An `SC` word that executes writes its result alone. -/
theorem Done.of_setS {s : State} {i : Iss} (hi : s.issuer = some i) (h : Hdr) (d : BitVec 7) (v : W64) :
    Done i (i.next (if h.nwb then i.s else i.setS i.s d v)) (scalarWrite h d v) := by
  unfold scalarWrite
  cases hn : h.nwb with
  | true => exact Done.of_next_same hi
  | false => exact Done.of_next_flock hi (·.setS d.toNat v) (fun _ => rfl) fun _ => rfl

end Sys2Proof
end

