-- ==== Sys2Proof/Laws/Words.lean ====
section
/-! SUPPORT. Packing and unpacking of fields, and that every field's code and every body's fields read back. -/

namespace Sys2Proof

/-- The fields fit their widths. -/
def Fits (l : List (Nat × Nat)) : Prop := ∀ p ∈ l, p.2 < 2 ^ p.1

theorem packFields_lt : ∀ {l : List (Nat × Nat)}, Fits l → packFields l < 2 ^ widthSum (l.map (·.1))
  | [], _ => by simp [packFields, widthSum]
  | (w, v) :: r, h => by
    have hv : v < 2 ^ w := h (w, v) (by simp)
    have hr : packFields r < 2 ^ widthSum (r.map (·.1)) := packFields_lt fun p hp => h p (by simp [hp])
    simp only [packFields, List.map, widthSum]
    generalize widthSum (List.map (fun x => x.1) r) = n at *
    calc v * 2 ^ n + packFields r < v * 2 ^ n + 2 ^ n := by omega
      _ = (v + 1) * 2 ^ n := by rw [Nat.add_mul, Nat.one_mul]
      _ ≤ 2 ^ w * 2 ^ n := Nat.mul_le_mul_right _ hv
      _ = 2 ^ (w + n) := by rw [Nat.pow_add]

/-- Fields that have been packed are read back. -/
theorem unpack_pack : ∀ {l : List (Nat × Nat)}, Fits l → unpackFields (l.map (·.1)) (packFields l) = l.map (·.2)
  | [], _ => rfl
  | (w, v) :: r, h => by
    have hv : v < 2 ^ w := h (w, v) (by simp)
    have hf : Fits r := fun p hp => h p (by simp [hp])
    have hr := packFields_lt hf
    simp only [packFields, List.map, unpackFields]
    generalize hn : widthSum (List.map (fun x => x.1) r) = n at *
    have hpos : 0 < 2 ^ n := Nat.two_pow_pos n
    rw [show (v * 2 ^ n + packFields r) / 2 ^ n = v by
      rw [Nat.add_comm, Nat.add_mul_div_right _ _ hpos, Nat.div_eq_of_lt hr, Nat.zero_add],
      Nat.mod_eq_of_lt hv, show (v * 2 ^ n + packFields r) % 2 ^ n = packFields r by
      rw [Nat.add_comm, Nat.add_mul_mod_self_right, Nat.mod_eq_of_lt hr]]
    rw [unpack_pack hf]

@[simp] theorem bitOf_eq_one (b : Bool) : (bitOf b == 1) = b := by cases b <;> rfl
theorem bitOf_lt (b : Bool) : bitOf b < 2 ^ 1 := by cases b <;> decide

theorem Src.code_lt (x : Src) : x.code < 2 ^ 9 := by
  cases x <;> simp only [Src.code] <;> omega

@[simp] theorem Src.ofCode_code (x : Src) : Src.ofCode x.code = some x := by
  cases x with
  | v n =>
    have h : (Src.v n).code = n.toNat := rfl
    have := n.isLt
    rw [h, Src.ofCode, if_pos (by omega)]
    simp
  | lat n =>
    have h : (Src.lat n).code = 256 + n.toNat := rfl
    have := n.isLt
    rw [h, Src.ofCode, if_neg (by omega), if_pos (by omega)]
    simp
  | s n =>
    have h : (Src.s n).code = 260 + n.toNat := rfl
    have := n.isLt
    rw [h, Src.ofCode, if_neg (by omega), if_neg (by omega), if_pos (by omega)]
    simp
  | c n =>
    have h : (Src.c n).code = 388 + n.toNat := rfl
    have := n.isLt
    rw [h, Src.ofCode, if_neg (by omega), if_neg (by omega), if_neg (by omega), if_pos (by omega)]
    simp

/-- A code names one source. -/
theorem Src.code_ofCode {k : Nat} {x : Src} (h : Src.ofCode k = some x) : x.code = k := by
  unfold Src.ofCode at h
  repeat' split at h
  all_goals cases h
  all_goals simp only [Src.code, BitVec.toNat_ofNat]; omega

@[simp] theorem Ty.ofCode_code (x : Ty) : Ty.ofCode x.code = some x := by cases x <;> rfl
theorem Ty.code_lt (x : Ty) : x.code < 2 ^ 5 := by cases x <;> decide
theorem Ty.code_ofCode {k : Nat} {x : Ty} (h : Ty.ofCode k = some x) : x.code = k := by
  unfold Ty.ofCode at h
  split at h <;> first | (cases h; rfl) | cases h

@[simp] theorem Rm.ofCode_code (x : Rm) : Rm.ofCode x.code = some x := by cases x <;> rfl
theorem Rm.code_lt (x : Rm) : x.code < 2 ^ 3 := by cases x <;> decide
theorem Rm.code_ofCode {k : Nat} {x : Rm} (h : Rm.ofCode k = some x) : x.code = k := by
  unfold Rm.ofCode at h
  split at h <;> first | (cases h; rfl) | cases h

@[simp] theorem Space.ofCode_code (x : Space) : Space.ofCode x.code = some x := by cases x <;> rfl
theorem Space.code_lt (x : Space) : x.code < 2 ^ 3 := by cases x <;> decide
theorem Space.code_ofCode {k : Nat} {x : Space} (h : Space.ofCode k = some x) : x.code = k := by
  unfold Space.ofCode at h
  split at h <;> first | (cases h; rfl) | cases h

@[simp] theorem Scope.ofCode_code (x : Scope) : Scope.ofCode x.code = some x := by cases x <;> rfl
theorem Scope.code_lt (x : Scope) : x.code < 2 ^ 3 := by cases x <;> decide
theorem Scope.code_ofCode {k : Nat} {x : Scope} (h : Scope.ofCode k = some x) : x.code = k := by
  unfold Scope.ofCode at h
  split at h <;> first | (cases h; rfl) | cases h

@[simp] theorem Ord4.ofCode_code (x : Ord4) : Ord4.ofCode x.code = some x := by cases x <;> rfl
theorem Ord4.code_lt (x : Ord4) : x.code < 2 ^ 2 := by cases x <;> decide
theorem Ord4.code_ofCode {k : Nat} {x : Ord4} (h : Ord4.ofCode k = some x) : x.code = k := by
  unfold Ord4.ofCode at h
  split at h <;> first | (cases h; rfl) | cases h

@[simp] theorem Cpol.ofCode_code (x : Cpol) : Cpol.ofCode x.code = some x := by cases x <;> rfl
theorem Cpol.code_lt (x : Cpol) : x.code < 2 ^ 3 := by cases x <;> decide
theorem Cpol.code_ofCode {k : Nat} {x : Cpol} (h : Cpol.ofCode k = some x) : x.code = k := by
  unfold Cpol.ofCode at h
  split at h <;> first | (cases h; rfl) | cases h

@[simp] theorem AtmTy.ofCode_code (x : AtmTy) : AtmTy.ofCode x.code = some x := by cases x <;> rfl
theorem AtmTy.code_lt (x : AtmTy) : x.code < 2 ^ 3 := by cases x <;> decide
theorem AtmTy.code_ofCode {k : Nat} {x : AtmTy} (h : AtmTy.ofCode k = some x) : x.code = k := by
  unfold AtmTy.ofCode at h
  split at h <;> first | (cases h; rfl) | cases h

@[simp] theorem PairTy.ofCode_code (x : PairTy) : PairTy.ofCode x.code = some x := by cases x <;> rfl
theorem PairTy.code_lt (x : PairTy) : x.code < 2 ^ 4 := by cases x <;> decide
theorem PairTy.code_ofCode {k : Nat} {x : PairTy} (h : PairTy.ofCode k = some x) : x.code = k := by
  unfold PairTy.ofCode at h
  split at h <;> first | (cases h; rfl) | cases h

@[simp] theorem PairOp.ofCode_code (x : PairOp) : PairOp.ofCode x.code = some x := by cases x <;> rfl
theorem PairOp.code_lt (x : PairOp) : x.code < 2 ^ 7 := by cases x <;> decide
theorem PairOp.code_ofCode {k : Nat} {x : PairOp} (h : PairOp.ofCode k = some x) : x.code = k := by
  unfold PairOp.ofCode at h
  split at h <;> first | (cases h; rfl) | cases h

/-! ### Bodies -/

theorem SysOp.fields_widths (o : SysOp) : o.fields.map (·.1) = SysOp.widths := rfl
@[simp] theorem SysOp.ofFields_fields (o : SysOp) : SysOp.ofFields (o.fields.map (·.2)) = some o := by
  cases o; simp [SysOp.ofFields, SysOp.fields]
theorem SysOp.fits (o : SysOp) : Fits o.fields := by
  intro p hp
  simp only [SysOp.fields, List.mem_cons, List.not_mem_nil, or_false] at hp
  rcases hp with rfl | rfl | rfl | rfl | rfl <;>
    first
      | exact BitVec.isLt _ | exact bitOf_lt _ | exact Src.code_lt _ | exact Nat.two_pow_pos _ | exact Ty.code_lt _ | exact Rm.code_lt _
      | exact Space.code_lt _ | exact Scope.code_lt _ | exact Ord4.code_lt _ | exact Cpol.code_lt _ | exact AtmTy.code_lt _
      | exact PairTy.code_lt _ | exact PairOp.code_lt _

theorem VrOp.fields_widths (o : VrOp) : o.fields.map (·.1) = VrOp.widths := rfl
@[simp] theorem VrOp.ofFields_fields (o : VrOp) : VrOp.ofFields (o.fields.map (·.2)) = some o := by
  cases o; simp [VrOp.ofFields, VrOp.fields]
theorem VrOp.fits (o : VrOp) : Fits o.fields := by
  intro p hp
  simp only [VrOp.fields, List.mem_cons, List.not_mem_nil, or_false] at hp
  rcases hp with rfl | rfl | rfl | rfl | rfl | rfl | rfl | rfl <;>
    first
      | exact BitVec.isLt _ | exact bitOf_lt _ | exact Src.code_lt _ | exact Nat.two_pow_pos _ | exact Ty.code_lt _ | exact Rm.code_lt _
      | exact Space.code_lt _ | exact Scope.code_lt _ | exact Ord4.code_lt _ | exact Cpol.code_lt _ | exact AtmTy.code_lt _
      | exact PairTy.code_lt _ | exact PairOp.code_lt _

theorem ViOp.fields_widths (o : ViOp) : o.fields.map (·.1) = ViOp.widths := rfl
@[simp] theorem ViOp.ofFields_fields (o : ViOp) : ViOp.ofFields (o.fields.map (·.2)) = some o := by
  cases o; simp [ViOp.ofFields, ViOp.fields]
theorem ViOp.fits (o : ViOp) : Fits o.fields := by
  intro p hp
  simp only [ViOp.fields, List.mem_cons, List.not_mem_nil, or_false] at hp
  rcases hp with rfl | rfl | rfl | rfl | rfl | rfl | rfl <;>
    first
      | exact BitVec.isLt _ | exact bitOf_lt _ | exact Src.code_lt _ | exact Nat.two_pow_pos _ | exact Ty.code_lt _ | exact Rm.code_lt _
      | exact Space.code_lt _ | exact Scope.code_lt _ | exact Ord4.code_lt _ | exact Cpol.code_lt _ | exact AtmTy.code_lt _
      | exact PairTy.code_lt _ | exact PairOp.code_lt _

theorem ScOp.fields_widths (o : ScOp) : o.fields.map (·.1) = ScOp.widths := rfl
@[simp] theorem ScOp.ofFields_fields (o : ScOp) : ScOp.ofFields (o.fields.map (·.2)) = some o := by
  cases o; simp [ScOp.ofFields, ScOp.fields]
theorem ScOp.fits (o : ScOp) : Fits o.fields := by
  intro p hp
  simp only [ScOp.fields, List.mem_cons, List.not_mem_nil, or_false] at hp
  rcases hp with rfl | rfl | rfl | rfl | rfl | rfl | rfl <;>
    first
      | exact BitVec.isLt _ | exact bitOf_lt _ | exact Src.code_lt _ | exact Nat.two_pow_pos _ | exact Ty.code_lt _ | exact Rm.code_lt _
      | exact Space.code_lt _ | exact Scope.code_lt _ | exact Ord4.code_lt _ | exact Cpol.code_lt _ | exact AtmTy.code_lt _
      | exact PairTy.code_lt _ | exact PairOp.code_lt _

theorem BrOp.fields_widths (o : BrOp) : o.fields.map (·.1) = BrOp.widths := rfl
@[simp] theorem BrOp.ofFields_fields (o : BrOp) : BrOp.ofFields (o.fields.map (·.2)) = some o := by
  cases o; simp [BrOp.ofFields, BrOp.fields]
theorem BrOp.fits (o : BrOp) : Fits o.fields := by
  intro p hp
  simp only [BrOp.fields, List.mem_cons, List.not_mem_nil, or_false] at hp
  rcases hp with rfl | rfl | rfl | rfl | rfl <;>
    first
      | exact BitVec.isLt _ | exact bitOf_lt _ | exact Src.code_lt _ | exact Nat.two_pow_pos _ | exact Ty.code_lt _ | exact Rm.code_lt _
      | exact Space.code_lt _ | exact Scope.code_lt _ | exact Ord4.code_lt _ | exact Cpol.code_lt _ | exact AtmTy.code_lt _
      | exact PairTy.code_lt _ | exact PairOp.code_lt _

theorem MemOp.fields_widths (o : MemOp) : o.fields.map (·.1) = MemOp.widths := rfl
@[simp] theorem MemOp.ofFields_fields (o : MemOp) : MemOp.ofFields (o.fields.map (·.2)) = some o := by
  cases o; simp [MemOp.ofFields, MemOp.fields]
theorem MemOp.fits (o : MemOp) : Fits o.fields := by
  intro p hp
  simp only [MemOp.fields, List.mem_cons, List.not_mem_nil, or_false] at hp
  rcases hp with rfl | rfl | rfl | rfl | rfl | rfl | rfl | rfl | rfl | rfl | rfl | rfl | rfl <;>
    first
      | exact BitVec.isLt _ | exact bitOf_lt _ | exact Src.code_lt _ | exact Nat.two_pow_pos _ | exact Ty.code_lt _ | exact Rm.code_lt _
      | exact Space.code_lt _ | exact Scope.code_lt _ | exact Ord4.code_lt _ | exact Cpol.code_lt _ | exact AtmTy.code_lt _
      | exact PairTy.code_lt _ | exact PairOp.code_lt _

theorem AtmOp.fields_widths (o : AtmOp) : o.fields.map (·.1) = AtmOp.widths := rfl
@[simp] theorem AtmOp.ofFields_fields (o : AtmOp) : AtmOp.ofFields (o.fields.map (·.2)) = some o := by
  cases o; simp [AtmOp.ofFields, AtmOp.fields]
theorem AtmOp.fits (o : AtmOp) : Fits o.fields := by
  intro p hp
  simp only [AtmOp.fields, List.mem_cons, List.not_mem_nil, or_false] at hp
  rcases hp with rfl | rfl | rfl | rfl | rfl | rfl | rfl | rfl | rfl | rfl <;>
    first
      | exact BitVec.isLt _ | exact bitOf_lt _ | exact Src.code_lt _ | exact Nat.two_pow_pos _ | exact Ty.code_lt _ | exact Rm.code_lt _
      | exact Space.code_lt _ | exact Scope.code_lt _ | exact Ord4.code_lt _ | exact Cpol.code_lt _ | exact AtmTy.code_lt _
      | exact PairTy.code_lt _ | exact PairOp.code_lt _

theorem XlOp.fields_widths (o : XlOp) : o.fields.map (·.1) = XlOp.widths := rfl
@[simp] theorem XlOp.ofFields_fields (o : XlOp) : XlOp.ofFields (o.fields.map (·.2)) = some o := by
  cases o; simp [XlOp.ofFields, XlOp.fields]
theorem XlOp.fits (o : XlOp) : Fits o.fields := by
  intro p hp
  simp only [XlOp.fields, List.mem_cons, List.not_mem_nil, or_false] at hp
  rcases hp with rfl | rfl | rfl | rfl | rfl | rfl | rfl | rfl <;>
    first
      | exact BitVec.isLt _ | exact bitOf_lt _ | exact Src.code_lt _ | exact Nat.two_pow_pos _ | exact Ty.code_lt _ | exact Rm.code_lt _
      | exact Space.code_lt _ | exact Scope.code_lt _ | exact Ord4.code_lt _ | exact Cpol.code_lt _ | exact AtmTy.code_lt _
      | exact PairTy.code_lt _ | exact PairOp.code_lt _

theorem CvOp.fields_widths (o : CvOp) : o.fields.map (·.1) = CvOp.widths := rfl
@[simp] theorem CvOp.ofFields_fields (o : CvOp) : CvOp.ofFields (o.fields.map (·.2)) = some o := by
  cases o; simp [CvOp.ofFields, CvOp.fields]
theorem CvOp.fits (o : CvOp) : Fits o.fields := by
  intro p hp
  simp only [CvOp.fields, List.mem_cons, List.not_mem_nil, or_false] at hp
  rcases hp with rfl | rfl | rfl | rfl | rfl | rfl | rfl | rfl | rfl | rfl <;>
    first
      | exact BitVec.isLt _ | exact bitOf_lt _ | exact Src.code_lt _ | exact Nat.two_pow_pos _ | exact Ty.code_lt _ | exact Rm.code_lt _
      | exact Space.code_lt _ | exact Scope.code_lt _ | exact Ord4.code_lt _ | exact Cpol.code_lt _ | exact AtmTy.code_lt _
      | exact PairTy.code_lt _ | exact PairOp.code_lt _

theorem MskOp.fields_widths (o : MskOp) : o.fields.map (·.1) = MskOp.widths := rfl
@[simp] theorem MskOp.ofFields_fields (o : MskOp) : MskOp.ofFields (o.fields.map (·.2)) = some o := by
  cases o; simp [MskOp.ofFields, MskOp.fields]
theorem MskOp.fits (o : MskOp) : Fits o.fields := by
  intro p hp
  simp only [MskOp.fields, List.mem_cons, List.not_mem_nil, or_false] at hp
  rcases hp with rfl | rfl | rfl | rfl | rfl | rfl <;>
    first
      | exact BitVec.isLt _ | exact bitOf_lt _ | exact Src.code_lt _ | exact Nat.two_pow_pos _ | exact Ty.code_lt _ | exact Rm.code_lt _
      | exact Space.code_lt _ | exact Scope.code_lt _ | exact Ord4.code_lt _ | exact Cpol.code_lt _ | exact AtmTy.code_lt _
      | exact PairTy.code_lt _ | exact PairOp.code_lt _

theorem SynOp.fields_widths (o : SynOp) : o.fields.map (·.1) = SynOp.widths := rfl
@[simp] theorem SynOp.ofFields_fields (o : SynOp) : SynOp.ofFields (o.fields.map (·.2)) = some o := by
  cases o; simp [SynOp.ofFields, SynOp.fields]
theorem SynOp.fits (o : SynOp) : Fits o.fields := by
  intro p hp
  simp only [SynOp.fields, List.mem_cons, List.not_mem_nil, or_false] at hp
  rcases hp with rfl | rfl | rfl | rfl | rfl | rfl | rfl | rfl <;>
    first
      | exact BitVec.isLt _ | exact bitOf_lt _ | exact Src.code_lt _ | exact Nat.two_pow_pos _ | exact Ty.code_lt _ | exact Rm.code_lt _
      | exact Space.code_lt _ | exact Scope.code_lt _ | exact Ord4.code_lt _ | exact Cpol.code_lt _ | exact AtmTy.code_lt _
      | exact PairTy.code_lt _ | exact PairOp.code_lt _

theorem EngOp.fields_widths (o : EngOp) : o.fields.map (·.1) = EngOp.widths := rfl
@[simp] theorem EngOp.ofFields_fields (o : EngOp) : EngOp.ofFields (o.fields.map (·.2)) = some o := by
  cases o; simp [EngOp.ofFields, EngOp.fields]
theorem EngOp.fits (o : EngOp) : Fits o.fields := by
  intro p hp
  simp only [EngOp.fields, List.mem_cons, List.not_mem_nil, or_false] at hp
  rcases hp with rfl | rfl | rfl | rfl | rfl | rfl | rfl | rfl | rfl <;>
    first
      | exact BitVec.isLt _ | exact bitOf_lt _ | exact Src.code_lt _ | exact Nat.two_pow_pos _ | exact Ty.code_lt _ | exact Rm.code_lt _
      | exact Space.code_lt _ | exact Scope.code_lt _ | exact Ord4.code_lt _ | exact Cpol.code_lt _ | exact AtmTy.code_lt _
      | exact PairTy.code_lt _ | exact PairOp.code_lt _

theorem MtxOp.fields_widths (o : MtxOp) : o.fields.map (·.1) = MtxOp.widths := rfl
@[simp] theorem MtxOp.ofFields_fields (o : MtxOp) : MtxOp.ofFields (o.fields.map (·.2)) = some o := by
  cases o; simp [MtxOp.ofFields, MtxOp.fields]
theorem MtxOp.fits (o : MtxOp) : Fits o.fields := by
  intro p hp
  simp only [MtxOp.fields, List.mem_cons, List.not_mem_nil, or_false] at hp
  rcases hp with rfl | rfl | rfl | rfl | rfl | rfl | rfl | rfl | rfl <;>
    first
      | exact BitVec.isLt _ | exact bitOf_lt _ | exact Src.code_lt _ | exact Nat.two_pow_pos _ | exact Ty.code_lt _ | exact Rm.code_lt _
      | exact Space.code_lt _ | exact Scope.code_lt _ | exact Ord4.code_lt _ | exact Cpol.code_lt _ | exact AtmTy.code_lt _
      | exact PairTy.code_lt _ | exact PairOp.code_lt _

theorem PairHalf.fields_widths (o : PairHalf) : o.fields.map (·.1) = PairHalf.widths := rfl
@[simp] theorem PairHalf.ofFields_fields (o : PairHalf) : PairHalf.ofFields (o.fields.map (·.2)) = some o := by
  cases o; simp [PairHalf.ofFields, PairHalf.fields]
theorem PairHalf.fits (o : PairHalf) : Fits o.fields := by
  intro p hp
  simp only [PairHalf.fields, List.mem_cons, List.not_mem_nil, or_false] at hp
  rcases hp with rfl | rfl | rfl | rfl | rfl | rfl | rfl | rfl | rfl <;>
    first
      | exact BitVec.isLt _ | exact bitOf_lt _ | exact Src.code_lt _ | exact Nat.two_pow_pos _ | exact Ty.code_lt _ | exact Rm.code_lt _
      | exact Space.code_lt _ | exact Scope.code_lt _ | exact Ord4.code_lt _ | exact Cpol.code_lt _ | exact AtmTy.code_lt _
      | exact PairTy.code_lt _ | exact PairOp.code_lt _

theorem hdrFields_widths (fmt opc : Nat) (h : Hdr) : (hdrFields fmt opc h).map (·.1) = hdrWidths := rfl

end Sys2Proof
end

