-- ==== Sys2Proof/Tests/Slice0.lean ====
section
/-! SUPPORT. Tests: ill-formed terms that the checks refuse, words of the spec's tables and examples, single steps on small
states, and for every statement a state and operands that meet its hypotheses. -/

namespace Sys2Proof.Tests

open Sys2Proof Sys2Proof.Machine

-- Each theorem here is checked by evaluation; one after another they need one thread's memory.
set_option Elab.async false

/-! ### Small states -/

/-- The header of an unguarded word. -/
def hdr : Hdr := { grd := 15, gneg := false, wait := 0, nwb := false, len := false, lat := 0 }
/-- A guarded one. -/
def hdrOff : Hdr := { hdr with grd := 0 }

def scOp : ScOp := { sd := 3, sa := .s 1, sb := .s 2, ty := .s64, imm := 0, immsel := false }
def vrOp : VrOp := { dst := 3, sa := .v 1, sb := .v 2, sc := .v 0, ty := .s32, rm := .rne, md := 0 }
def viOp : ViOp := { dst := 1, sa := .v 0, ty := .n32, rm := .rne, md := 0, imm := 5 }
def mskOp : MskOp := { md := 1, ma := 2, mb := 3, opnd := .v 0, mop := 0 }
def brOp : BrOp := { bc := 0, ss := 0, mb := 0, off := 4, joff := 0 }
def xlOp : XlOp := { dst := 1, sa := .v 1, sb := .v 2, mmem := 15, xop := 0, ty := .s32, md := 0 }
def cvOp : CvOp := { dst := 1, sa := .v 1, scl := .v 0, frm := .f32, dty := .s32, rm := .rne, amx := false, sat := false, md := 0 }
def sysOp : SysOp := { sd := 3, sa := .v 0, srid := 0, sop := 0, imm := 0 }
def synOp : SynOp := { bar := 0, lvl := 0, scope := .flock, fk := 0, sd := 3, sa := .v 0, tmo := 0 }
def memOp : MemOp := { data := 4, addr := .v 2, disp := 0, space := .fold, size := 2, scope := .flock, ord := .plain, cpol := .deflt, tokn := 0, toke := false, sext := false, vec := false }
def atmOp : AtmOp := { data := 4, addr := .v 2, opa := .v 6, opb := .v 0, aop := 0, ty := .s32, scope := .flock, ord := .plain, ret := true, disp := 0 }
def engOp : EngOp := { tid := 3, cb := 8, tag := 0, tokn := 0, toke := false, kind := 0, dst := 0, mcg := 0 }
def mtxOp : MtxOp := { tida := 0, tidb := 0, bank := 0, cb := 0, plog := 0, k := 0, mbar := 0, md := 0 }
def half : PairHalf := { op := .add, grd := 15, nwb := false, len := false, lat := 0, dst := 2, sa := .v 0, sb := .v 1, ty := .s32 }

/-- A fold of one flock of 16 lanes that runs, with a matrix stream. -/
def fold1 : Fold := { Fold.create 1 16 16 32 4096 128 4 8192 8190 (some 0) with run := .running }
def state1 : State := { State.reset with folds := [fold1], nextId := 2, cur := some (.frag 1 0 0) }
def iss1 : Iss := (state1.issuer).get (by decide)
theorem iss1_spec : state1.issuer = some iss1 := by simp [iss1]

/-- The first flock, or its first fragment, changed. -/
def withFlock (f : Flock → Flock) : State := state1.modFlock 1 0 f
def withFrag (f : Frag → Frag) : State := state1.modFrag 1 0 0 f

/-! ### Ill-formed terms: one for each check, beside a well-formed neighbour -/

/-- Every instruction of the list is well-formed, or none is. -/
def allWf (l : List Instr) : Bool := l.all Instr.wf
def noneWf (l : List Instr) : Bool := l.all fun i => !i.wf

/-- R138, R139: `GRD` 15 with `GNEG`; `LAT` without `LEN`; `NWB` with a destination; `LEN` in an `SC` word; any of them elsewhere. -/
theorem test_wf_headers :
    allWf [.vadd { hdr with len := true, lat := 3 } vrOp, .vadd { hdr with nwb := true } { vrOp with dst := 0 },
      .sadd { hdr with nwb := true } { scOp with sd := 0 }, .mand { hdrOff with gneg := true } mskOp] = true ∧
    noneWf [.vadd { hdr with gneg := true } vrOp, .vadd { hdr with lat := 3 } vrOp, .vadd { hdr with nwb := true } vrOp,
      .sadd { hdr with nwb := true } scOp, .sadd { hdr with len := true } scOp, .sadd { hdr with len := true, lat := 1 } scOp,
      .mand { hdr with nwb := true } mskOp, .mand { hdr with len := true } mskOp, .mand { hdr with lat := 1 } mskOp] = true := by
  decide

/-- R144, R166 to R171: types, source kinds, `IMM` beside a register, `IMMSEL`, unread sources. -/
theorem test_wf_scalar :
    allWf [.sadd hdr scOp, .sand hdr { scOp with ty := .b64 }, .sadd hdr { scOp with immsel := true, sb := .v 0, imm := 9 },
      .sclz hdr { scOp with sb := .v 0 }, .smov hdr { scOp with ty := .n32, sb := .v 0 },
      .smovi hdr { scOp with sa := .v 0, sb := .v 0, immsel := true }, .slea hdr { scOp with ty := .e5m2 },
      .mwin hdr { scOp with sd := 0 }, .ssel hdr { scOp with ty := .b64 }] = true ∧
    noneWf [.sadd hdr { scOp with ty := .b64 }, .sand hdr { scOp with ty := .s16 }, .sadd hdr { scOp with sa := .v 1 },
      .sadd hdr { scOp with sa := .lat 1 }, .sadd hdr { scOp with sb := .v 1 }, .sadd hdr { scOp with imm := 1 },
      .sadd hdr { scOp with immsel := true }, .sclz hdr scOp, .sclz hdr { scOp with sb := .v 0, immsel := true },
      .smov hdr { scOp with sb := .v 0, ty := .f32 }, .smovi hdr { scOp with sa := .v 0, sb := .v 0 },
      .smovi hdr { scOp with sb := .v 0, immsel := true }, .smovh hdr { scOp with sa := .v 0, sb := .v 0, immsel := true },
      .slea hdr { scOp with ty := .s4 }, .mwin hdr scOp, .mwin hdr { scOp with sd := 0, ty := .n64 },
      .ssel hdr scOp] = true := by
  decide

/-- R172 to R174: `OPND`, `MOP` and the mask fields that an operation does not use. -/
theorem test_wf_masks :
    allWf [.mand hdr mskOp, .mnot hdr { mskOp with mb := 0 }, .mpop hdr { mskOp with opnd := .s 3, md := 0, mb := 0 },
      .mfroms hdr { mskOp with opnd := .c 3, ma := 0, mb := 0, mop := 31 }] = true ∧
    noneWf [.mand hdr { mskOp with opnd := .s 1 }, .mand hdr { mskOp with mop := 1 }, .mnot hdr mskOp,
      .mpop hdr { mskOp with opnd := .c 3, md := 0, mb := 0 }, .mpop hdr { mskOp with opnd := .s 3, mb := 0 },
      .mffs hdr { mskOp with opnd := .s 3, md := 0 }, .mtos hdr { mskOp with opnd := .s 3, md := 0, mb := 0, mop := 2 },
      .mfroms hdr { mskOp with ma := 0, mb := 0 }, .mfroms hdr { mskOp with opnd := .c 3, mb := 0 },
      .mfroms hdr { mskOp with opnd := .c 3, ma := 0 }] = true := by
  decide

/-- Tables 7.4 to 7.6: the fields that a branch does not use, condition codes, and what stands in `JOFF` and `OFF`. -/
theorem test_wf_branches :
    allWf [.bra hdr brOp, .bra hdr { brOp with bc := 6, mb := 3 }, .brm hdr { brOp with bc := 3, mb := 1 },
      .split hdr { brOp with joff := 9 }, .join hdr { brOp with off := 0 }, .brx hdr { brOp with joff := 255 },
      .callx hdr { brOp with off := 127 }, .ret hdr { brOp with off := 0, ss := 1 }] = true ∧
    noneWf [.bra hdr { brOp with bc := 7 }, .bra hdr { brOp with mb := 1 }, .bra hdr { brOp with ss := 1 },
      .bra hdr { brOp with joff := 1 }, .brm hdr { brOp with bc := 4 }, .brm hdr { brOp with ss := 1 }, .split hdr brOp,
      .split hdr { brOp with joff := 9, bc := 1 }, .join hdr brOp, .exit hdr { brOp with off := 0, joff := 1 },
      .brx hdr { brOp with joff := 256 }, .call hdr { brOp with bc := 1 }, .call hdr { brOp with mb := 1 },
      .callx hdr { brOp with off := 128 }, .ret hdr brOp, .loopd hdr { brOp with joff := 1 },
      .bra { hdr with len := true } brOp] = true := by
  decide

/-- Tables 7.7 and 9.9: levels, numbers, scopes, kinds, and the fields that an entry does not use. -/
theorem test_wf_barriers :
    let bar : SynOp := { synOp with scope := .fold }
    allWf [.bara hdr bar, .barw hdr { bar with lvl := 1, bar := 7, scope := .paddock, tmo := 5 }, .bars hdr { bar with sa := .s 1 },
      .fsync hdr bar, .yield hdr { synOp with sd := 0 }, .fence hdr { synOp with sd := 0, fk := 3 },
      .fenceSc hdr { synOp with scope := .domain }, .tagw hdr { bar with sa := .s 1, bar := 1 }] = true ∧
    noneWf [.bara hdr synOp, .bara hdr { bar with fk := 1 }, .bara hdr { bar with tmo := 1 }, .bara hdr { bar with sa := .s 1 },
      .barw hdr { bar with lvl := 2, scope := .device }, .barw hdr { bar with lvl := 1, bar := 8, scope := .paddock },
      .barw hdr { bar with lvl := 1 }, .bars hdr bar, .bart hdr { bar with sa := .s 1, tmo := 1 }, .fsync hdr { bar with bar := 1 },
      .fsync hdr { bar with lvl := 1, scope := .paddock }, .yield hdr synOp, .yield hdr { bar with sd := 0 },
      .fence hdr { synOp with sd := 0 }, .fence hdr { synOp with sd := 0, fk := 4 }, .fence hdr { synOp with fk := 1 },
      .fenceSc hdr { synOp with scope := .die }, .fenceSc hdr { synOp with scope := .device, fk := 1 },
      .tagw hdr { bar with sa := .s 1, bar := 2 }, .tagw hdr bar, .tagw hdr { synOp with sa := .s 1 },
      .tagff hdr { bar with sa := .s 1, tmo := 1 }, .tokw hdr { bar with sa := .s 1, bar := 1 }] = true := by
  decide

/-- Table 7.9: immediates in range, unused fields, and the form of a special register's access by its scope (R197). -/
theorem test_wf_system :
    allWf [.trap hdr { sysOp with sd := 0, imm := 0x3FFFFFFF }, .dcall hdr { sysOp with sa := .c 3, imm := 65535 },
      .rdsr hdr { sysOp with srid := 0x13 }, .rdsr hdr { sysOp with sd := 0, srid := 0x10, imm := 255 },
      .wrsr hdr { sysOp with sd := 0, sa := .s 1, srid := 0x0D }, .curve hdr { sysOp with imm := 7 },
      .leaseRet hdr { sysOp with sop := 1 }, .ckpt hdr { sysOp with sa := .s 1 }] = true ∧
    noneWf [.trap hdr sysOp, .dcall hdr { sysOp with sa := .c 3, imm := 65536 }, .dcall hdr sysOp, .rdsr hdr { sysOp with srid := 0x0E },
      .rdsr hdr { sysOp with srid := 0x10 }, .rdsr hdr { sysOp with sd := 0, srid := 0x10, imm := 256 },
      .rdsr hdr { sysOp with srid := 0x13, imm := 1 }, .wrsr hdr { sysOp with srid := 0x0D, sa := .s 1 },
      .wrsr hdr { sysOp with sd := 0, srid := 0x0D }, .wrsr hdr { sysOp with sd := 0, sa := .s 1, srid := 0x10 },
      .curve hdr { sysOp with imm := 8 }, .leaseRet hdr sysOp, .leaseReq hdr sysOp, .launch hdr { sysOp with sa := .s 1, imm := 64 },
      .ckpt hdr { sysOp with sa := .s 1, srid := 1 }, .mark hdr { sysOp with imm := 1 }] = true := by
  decide

/-- R64, R141, R205, R208 to R220: type sets, register pairs, constants, unread sources, rounding codes, `MD`. -/
theorem test_wf_vector :
    allWf [.vadd hdr vrOp, .vadd hdr { vrOp with ty := .s64, dst := 2, sa := .v 2, sb := .v 4 }, .vabs hdr { vrOp with sb := .v 0 },
      .vshl hdr { vrOp with ty := .s64, dst := 2, sa := .v 2, sb := .v 5 }, .vcmp hdr { vrOp with dst := 15, md := 5 },
      .vsel hdr { vrOp with md := 15, sc := .v 9 }, .vfadd hdr { vrOp with ty := .f16, rm := .rd },
      .vfma hdr { vrOp with ty := .bf16, sc := .lat 1 }, .vmovi hdr viOp, .viota hdr { viOp with md := 1 },
      .mrd hdr { vrOp with ty := .b32 }, .mwr hdr { vrOp with ty := .f32, dst := 0, sc := .v 4 }] = true ∧
    noneWf [.vadd hdr { vrOp with ty := .f32 }, .vadd hdr { vrOp with ty := .s64, dst := 3, sa := .v 2, sb := .v 4 },
      .vadd hdr { vrOp with ty := .s64, dst := 2, sb := .v 4 }, .vadd hdr { vrOp with ty := .s64, dst := 2, sa := .v 2, sb := .v 5 },
      .vadd hdr { vrOp with ty := .s16, sa := .c 49 }, .vadd hdr { vrOp with sc := .v 1 }, .vadd hdr { vrOp with rm := .rz },
      .vadd hdr { vrOp with md := 1 }, .vmulh hdr { vrOp with ty := .s16 }, .vabs hdr { vrOp with ty := .n32, sb := .v 0 },
      .vabs hdr vrOp, .vcmp hdr { vrOp with dst := 16 }, .vcmp hdr { vrOp with md := 6 }, .vcmp { hdr with nwb := true } vrOp,
      .vfcmp hdr { vrOp with ty := .f32, md := 8 }, .vsel hdr { vrOp with md := 16 }, .vsel hdr { vrOp with md := 3, sc := .v 9 },
      .vfadd hdr { vrOp with ty := .f16, rm := .sr }, .vfmin hdr { vrOp with ty := .f16, rm := .rd }, .vsin hdr { vrOp with ty := .f32 },
      .vmovi hdr { viOp with sa := .s 1 }, .vmovi hdr { viOp with md := 1 }, .vmovi hdr { viOp with ty := .mxf4 },
      .viota hdr { viOp with md := 2 }, .viota hdr { viOp with ty := .s16 }, .mrd hdr vrOp, .mrd hdr { vrOp with ty := .b32, sc := .v 1 },
      .mwr hdr { vrOp with ty := .f32 }] = true := by
  decide

/-- R228 to R230: types of each operation, uniform selectors, `XOP`, `MD` and mask destinations. -/
theorem test_wf_cross_lane :
    let x : XlOp := { xlOp with ty := .b32 }
    allWf [.vshuf hdr x, .vrot hdr { x with sb := .c 3 }, .vvote hdr { x with sb := .v 0 }, .vred hdr { xlOp with sb := .v 0 },
      .vscan hdr { xlOp with sb := .v 0, md := 1, xop := 8, ty := .f16 }] = true ∧
    noneWf [.vshuf hdr xlOp, .vshuf hdr { x with xop := 1 }, .vshuf hdr { x with md := 1 }, .vshuf hdr { x with ty := .b64 }, .vrot hdr x,
      .vbcst hdr { x with sb := .v 3 }, .vvote hdr x, .vvote hdr { x with sb := .v 0, dst := 16 }, .vred hdr xlOp,
      .vred hdr { xlOp with sb := .v 0, md := 1 }, .vred hdr { xlOp with sb := .v 0, xop := 3 }, .vred hdr { xlOp with sb := .v 0, xop := 9 },
      .vscan hdr { xlOp with sb := .v 0, md := 2 }] = true := by
  decide

/-- R221 to R227: pairs of types, rounding, `SCEN`, `SPOS`, `DPOS` and `INS`, and the fixed fields of the packing forms. -/
theorem test_wf_convert :
    allWf [.vcvt hdr cvOp, .vcvt hdr { cvOp with frm := .e4m3, dty := .f16, scl := .v 5, md := 64 + 8 * 3 + 128 + 1 },
      .vqnt hdr { cvOp with dty := .mxf4, rm := .sr, amx := true, md := 128 + 7 }, .vexpd hdr { cvOp with frm := .e3m2, dty := .e5m2, md := 32 },
      .vbpk hdr { cvOp with frm := .s8, dty := .b32 }, .vbunpk hdr { cvOp with frm := .b32, dty := .n8 },
      .amaxrd hdr { cvOp with frm := .b32, dty := .f32, sa := .v 0, md := 1 }] = true ∧
    noneWf [.vcvt hdr { cvOp with rm := .sr }, .vcvt hdr { cvOp with frm := .s8, dty := .n8, rm := .rz }, .vcvt hdr { cvOp with dty := .b32 },
      .vcvt hdr { cvOp with amx := true }, .vcvt hdr { cvOp with scl := .v 1 }, .vcvt hdr { cvOp with md := 64 },
      .vcvt hdr { cvOp with md := 8 }, .vcvt hdr { cvOp with md := 1 }, .vcvt hdr { cvOp with md := 128 },
      .vcvt hdr { cvOp with dty := .f16, md := 128 + 2 }, .vqnt hdr { cvOp with frm := .s32, dty := .mxf4 },
      .vqnt hdr { cvOp with dty := .mxf4, md := 64 }, .vqnt hdr { cvOp with dty := .f16 }, .vexpd hdr { cvOp with frm := .e3m2, dty := .e4m3 },
      .vexpd hdr { cvOp with frm := .e3m2, dty := .e5m2, md := 40 }, .vexpd hdr { cvOp with frm := .e3m2, dty := .e5m2, sat := true },
      .vbpk hdr { cvOp with frm := .s16, dty := .b32 }, .vbpk hdr { cvOp with frm := .s8, dty := .b32, md := 128 },
      .vbunpk hdr { cvOp with frm := .b32, dty := .n8, md := 8 }, .vbunpk hdr { cvOp with frm := .b32, dty := .n8, scl := .v 1 },
      .amaxrd hdr { cvOp with frm := .b32, dty := .f32, sa := .v 0, md := 2 }, .amaxrd hdr { cvOp with frm := .b32, dty := .f32 }] = true := by
  decide

/-- R231 to R241: `SIZE`, `VEC`, register groups, orders and their scope, tokens, `SEXT`, spaces and addresses. -/
theorem test_wf_memory :
    let w : MemOp := { memOp with space := .window, addr := .s 1 }
    let s : MemOp := { memOp with addr := .s 1, size := 3 }
    let p : MemOp := { memOp with data := 0, size := 0, space := .global }
    allWf [.vld hdr memOp, .vld hdr { memOp with size := 5, vec := true, data := 8 }, .vst hdr { memOp with ord := .rel, scope := .die },
      .vld hdr { memOp with size := 1, sext := true }, .vld hdr { memOp with toke := true, tokn := 7 }, .sld hdr s, .vldw hdr w,
      .pref hdr p] = true ∧
    noneWf [.vld hdr { memOp with size := 6 }, .vld hdr { memOp with size := 4 }, .vld hdr { memOp with vec := true },
      .vld hdr { memOp with size := 3, data := 5 }, .vld hdr { memOp with ord := .rel, scope := .die }, .vld hdr { memOp with scope := .die },
      .vst hdr { memOp with ord := .acq }, .vld hdr { memOp with tokn := 7 }, .vld hdr { memOp with size := 2, sext := true },
      .vst hdr { memOp with size := 1, sext := true }, .vld hdr { memOp with space := .global, addr := .v 3 }, .vld hdr w,
      .sld hdr { s with size := 4 }, .sld hdr { s with data := 128 }, .sld hdr { s with addr := .v 2 }, .sst hdr { s with space := .priv },
      .vldw hdr { w with size := 1 }, .vldw hdr { w with addr := .v 2 }, .vldw hdr { w with cpol := .nol1 }, .vstw hdr memOp,
      .pref hdr { p with space := .fold }, .pref hdr { p with data := 1 }, .pref hdr { p with size := 1 }, .pref hdr { p with cpol := .stream },
      .pref hdr { p with toke := true }] = true := by
  decide

/-- R243 to R250: types of each operation, `OPB`, destination pairs, scopes and orders, and the `RED` column of Table 6.4. -/
theorem test_wf_atomics :
    let r : AtmOp := { atmOp with data := 0, ret := false }
    let w : AtmOp := { atmOp with opb := .s 1, ord := .acq, scope := .device }
    allWf [.atom hdr atmOp, .atom hdr { atmOp with aop := 11, ty := .n64, opa := .v 8, opb := .v 10 }, .atom hdr { atmOp with aop := 12, ty := .bf16 },
      .red hdr { r with ord := .rel, scope := .device }, .waita hdr w] = true ∧
    noneWf [.atom hdr { atmOp with aop := 13 }, .atom hdr { atmOp with aop := 9 }, .atom hdr { atmOp with aop := 12 }, .atom hdr { atmOp with ty := .f32 },
      .atom hdr { atmOp with opb := .v 1 }, .atom hdr { atmOp with addr := .v 3 }, .atom hdr { atmOp with ty := .s64, data := 5 },
      .atom hdr { atmOp with aop := 11, ty := .n64, data := 2, opa := .v 8, opb := .v 10 }, .atom hdr { atmOp with ret := false },
      .atom hdr { atmOp with scope := .die }, .atom hdr { r with ord := .acq, scope := .die }, .red hdr { r with aop := 7 },
      .red hdr atmOp, .red hdr { r with ord := .acqrel, scope := .die }, .red hdr { r with opb := .v 1 }, .waita hdr { w with aop := 8 },
      .waita hdr { w with ty := .f32 }, .waita hdr { w with opb := .v 8 }, .waita hdr { w with ord := .plain, scope := .flock }] = true := by
  decide

/-- R255 to R261, R271, R272: kinds, destinations, tokens, the group of a `CPYM` and the register group of `TIDW`. -/
theorem test_wf_engine :
    let t : EngOp := { engOp with cb := 120 }
    allWf [.cpy hdr engOp, .cpy hdr { engOp with kind := 3, dst := 127 }, .cpy hdr { engOp with kind := 4, tid := 0 },
      .cpym hdr { engOp with mcg := 3 }, .gath hdr { engOp with kind := 7, dst := 0x3FFFFF }, .coll hdr { engOp with kind := 2, dst := 0x2FFF },
      .tidw hdr t] = true ∧
    noneWf [.cpy hdr { engOp with mcg := 1 }, .cpy hdr { engOp with tokn := 1 }, .cpy hdr { engOp with dst := 0x100000 },
      .cpy hdr { engOp with kind := 2, dst := 4096 }, .cpy hdr { engOp with kind := 3, dst := 128 }, .cpy hdr { engOp with kind := 4 },
      .cpy hdr { engOp with kind := 5 }, .cpym hdr engOp, .cpym hdr { engOp with mcg := 3, kind := 1 }, .gath hdr { engOp with dst := 0x100000 },
      .gath hdr { engOp with kind := 3, dst := 128 }, .coll hdr { engOp with kind := 3 }, .coll hdr { engOp with dst := 0x3000 },
      .coll hdr { engOp with dst := 0x4000 }, .tidw hdr { t with cb := 121 }, .tidr hdr { t with tag := 1 }, .tidr hdr { t with dst := 1 }] = true := by
  decide

/-- Table 10.3: the fields that an entry does not use, row and register limits, and the programs of `MPROG`. -/
theorem test_wf_matrix :
    allWf [.mzero { mtxOp with bank := 1 }, .mma { mtxOp with tida := 4095, k := 1, plog := 6 }, .mst { mtxOp with tidb := 63, md := 6 },
      .mscale { mtxOp with md := 1 }, .marr { mtxOp with mbar := 3 }, .mwaitb { mtxOp with md := 1 }, .mloop { mtxOp with k := 5, cb := 1 },
      .mprog { mtxOp with md := 8 * 15, cb := 48, k := 3 }, .mend mtxOp] = true ∧
    noneWf [.mzero { mtxOp with tida := 1 }, .mzero { mtxOp with cb := 3 }, .mma mtxOp, .mma { mtxOp with k := 1, plog := 7 }, .mma { mtxOp with k := 1, md := 64 },
      .mma { mtxOp with k := 1, cb := 64 }, .mma { mtxOp with k := 1, mbar := 1 }, .mst { mtxOp with tidb := 64 }, .mst { mtxOp with md := 7 },
      .mscale { mtxOp with md := 2 }, .mbias { mtxOp with k := 1 }, .marr { mtxOp with md := 1 }, .mwaitb { mtxOp with md := 2 },
      .mloop { mtxOp with plog := 1 }, .mprog { mtxOp with md := 6 }, .mprog { mtxOp with md := 8 * 15, cb := 49 }, .mprog { mtxOp with md := 2 + 8 },
      .mprog { mtxOp with md := 2, tida := 64 }, .mprog { mtxOp with md := 1, tida := 1 }, .mprog { mtxOp with md := 4, k := 1 },
      .mend { mtxOp with mbar := 1 }] = true := by
  decide

/-- R150, R161: types of a half, unread sources, ports, and halves that meet. -/
theorem test_wf_pairs :
    let b : PairHalf := { half with dst := 6, sa := .v 4, sb := .v 5 }
    allWf [.pairWord half b, .pairWord half { b with op := .mov, sb := .v 0 }, .pairWord { half with len := true, lat := 1 } b] = true ∧
    noneWf [.pairWord { half with op := .fadd } b, .pairWord { half with op := .mov } b, .pairWord { half with lat := 1 } b,
      .pairWord { half with nwb := true } b, .pairWord half { b with dst := 2 }, .pairWord half { b with sa := .v 2 }, .pairWord { half with op := .mad } b,
      .pairWord { half with sa := .v 8, sb := .v 12 } { b with sa := .v 16, sb := .v 20 }, .pairWord { half with sa := .c 49, ty := .s16 } b,
      .pairWord { half with len := true, lat := 1 } { b with len := true, lat := 1 },
      .pairWord { half with len := true, lat := 1 } { b with sa := .lat 1 }] = true := by
  decide

/-! ### Words of the spec's tables and examples, decoded -/

/-- The decoder reads `i` from the word; it refuses the word with `e`. -/
def reads (k : LineKind) (w : IWord) (i : Instr) : Bool := match decode k w with | .ok j => j = i | .error _ => false
def refuses (k : LineKind) (w : IWord) (e : DecErr) : Bool := match decode k w with | .ok _ => false | .error f => f = e

/-- `SSUB.S64 s16, s2, 5` is `FMT` 3, `OPC` 2, `GRD` 15, `SD` 16, `SA` 262, `TY` 7, `IMM` 5, `IMMSEL` 1
(Tables 5.4, 5.6 and 6.1). -/
theorem test_decode_sc : reads .code 0x1817_8000_8418_0070_0000_0058#96 (.ssub hdr { sd := 16, sa := .s 2, sb := .v 0, ty := .s64, imm := 5, immsel := true }) = true := by decide +kernel
/-- `MFROMS m1, s3, 4`: `FMT` 9, `OPC` 11, `GRD` 15, `MD` 1, `OPND` 263, `MOP` 4. -/
theorem test_decode_msk : reads .code 0x485F_8000_4020_E400_0000_0000#96 (.mfroms hdr { md := 1, ma := 0, mb := 0, opnd := .s 3, mop := 4 }) = true := by decide +kernel
/-- `VROT.B32 v1, v2, 3`: `FMT` 7, `OPC` 2, `GRD` 15, `DST` 1, `SA` 2, `SB` 391, `MMEM` 15, `TY` 0. -/
theorem test_decode_xl : reads .code 0x3817_8000_0405_87F0_0000_0000#96 (.vrot hdr { dst := 1, sa := .v 2, sb := .c 3, mmem := 15, xop := 0, ty := .b32, md := 0 }) = true := by decide +kernel
/-- The `SPLIT` of chapter 07's example (4). -/
theorem test_decode_br : reads .code 0x201F_8000_0008_0000_0018_0004#96 (.split hdr { bc := 0, ss := 0, mb := 1, off := 3, joff := 4 }) = true := by decide +kernel
/-- The `EXIT` and the guarded `VSUB` of Table 5.12. -/
theorem test_decode_exit : reads .code 0x2047_8000_0000_0000_0000_0000#96 (.exit hdr { brOp with off := 0 }) = true := by decide +kernel
theorem test_decode_guarded : reads .code 0x0810_4000_1006_0200_0400_0000#96 (.vsub { hdr with grd := 0, gneg := true } { vrOp with dst := 4, sa := .v 3, sb := .v 2 }) = true := by decide +kernel
/-- Table 5.12: `VMOVI.S32 v0, 5`, and `VMUL.S32 _>lat1, v0, v0`, whose `NWB`, `LEN` and `LAT` are set. -/
theorem test_decode_vi : reads .code 0x100F_8000_0000_1000_0000_000A#96 (.vmovi hdr { viOp with dst := 0, ty := .s32 }) = true := by
  decide +kernel
theorem test_decode_latch : reads .code 0x081F_8034_0000_0000_0400_0000#96 (.vmul { hdr with nwb := true, len := true, lat := 1 } { vrOp with dst := 0, sa := .v 0, sb := .v 0 }) = true := by decide +kernel
/-- Table 5.12, the paired slot. -/
theorem test_decode_pair : reads .code 0xF80F_8010_0002_20FC_00C0_3861#96 (.pairWord half { half with op := .mul, dst := 3, sa := .v 1, sb := .c 2 }) = true := by decide +kernel
/-- The `VQNT` of chapter 08: `SCL` is the inline constant 0.5. -/
theorem test_decode_cv : reads .code 0x4017_8000_0C03_B54B_0400_0000#96 (.vqnt hdr { cvOp with dst := 3, scl := .c 49, dty := .e4m3, amx := true }) = true := by decide +kernel
/-- The `CURVE` of chapter 13 (10), and the `LAUNCH` of chapter 17 (2). -/
theorem test_decode_sys : reads .code 0x0047_8000_7000_0000_0000_0003#96 (.curve hdr { sysOp with sd := 14, imm := 3 }) = true ∧
    reads .code 0x002F_8000_5414_0000_0000_0000#96 (.launch hdr { sysOp with sd := 10, sa := .s 1 }) = true := by decide +kernel
/-- The `FSYNC` of chapter 20 (5). -/
theorem test_decode_syn : reads .code 0x502F_8000_0200_C000_0000_0000#96 (.fsync hdr { synOp with scope := .fold }) = true := by
  decide +kernel
/-- The gather of chapter 18 (5). -/
theorem test_decode_mem : reads .code 0x280F_8000_200C_0000_0010_0000#96 (.vld hdr { memOp with data := 8, addr := .v 6, space := .global }) = true := by decide +kernel
/-- The scatter-add of chapter 18 (7) and the `RED` of chapter 20 (9). -/
theorem test_decode_atm : reads .code 0x300F_8000_0018_0800_0000_0000#96 (.atom hdr { atmOp with data := 0, addr := .v 12, opa := .v 8, ret := false }) = true ∧
    reads .code 0x3010_8000_020B_8500_00C8_0000#96 (.red { hdr with grd := 1 } { atmOp with data := 0, addr := .s 1, opa := .c 1, ty := .n32, scope := .device, ord := .rel, ret := false }) = true := by
  decide +kernel
/-- The `CPY` of chapter 20 (3). -/
theorem test_decode_eng : reads .code 0x580F_8000_01CA_0000_0000_0000#96 (.cpy hdr { engOp with tid := 7, cb := 20 }) = true := by
  decide +kernel
/-- The `MMA` of chapter 14 (15), in a line of the matrix stream; in a code line the format is not one (R162). -/
theorem test_decode_mtx : reads .matrix 0x6017_8000_00C0_0800_0004_0000#96 (.mma { mtxOp with tida := 3, tidb := 2, k := 2 }) = true ∧
    refuses .code 0x6017_8000_00C0_0800_0004_0000#96 .format = true := by decide +kernel
/-- R143, R157, Table 5.9: a reserved format, an unassigned opcode before a reserved type, and a nonzero zero field. -/
theorem test_decode_refusals : refuses .code 0x9807_8000_0000_0000_0000_0000#96 .format = true ∧
    refuses .code 0x08BF_8000_0603_8B00_4C00_0000#96 .opc = true ∧ refuses .code 0x2047_8000_0000_0000_0000_0001#96 .field = true := by
  decide +kernel

/-! ### States and operands that meet the hypotheses of each statement

`runs i` is the state in which a fragment is about to run the word of `i`: a fold of 16 lanes with every lane active,
whose first four pages of 64 KB are mapped with every right, and whose core holds nothing in its caches. -/

def issOf (s : State) : Iss := s.issuer.getD iss1
theorem issuer_of (s : State) (h : s.issuer.isSome = true) : s.issuer = some (issOf s) := by
  unfold issOf; cases hs : s.issuer <;> simp_all
def issAt (s : State) (u l r : Nat) : Iss := (s.iss? u l r).getD iss1
theorem iss?_of (s : State) (u l r : Nat) (h : (s.iss? u l r).isSome = true) : s.iss? u l r = some (issAt s u l r) := by
  unfold issAt; cases hs : s.iss? u l r <;> simp_all

def cellsAt (a : Nat) (bs : List Byte) : List Host.Cell := (bs.zipIdx.filter (·.1 ≠ 0)).map fun p => (a + p.2, p.1)
/-- Bytes at a home address at which none is listed yet. -/
def place (a : Nat) (bs : List Byte) (s : State) : State :=
  { s with mem := s.mem.filter (fun c => decide (c.1 < a)) ++ cellsAt a bs ++ s.mem.filter (fun c => decide (a ≤ c.1)) }
def pageCells : List Host.Cell :=
  cellsAt 0x10000 (leBytes 8 (1 + 0x20000)) ++ cellsAt 0x20000 (leBytes 8 (1 + 0x30000)) ++ cellsAt 0x30000 (leBytes 8 (1 + 0x50000)) ++
    cellsAt 0x50000 (leBytes 8 (1 + 0x60000)) ++ cellsAt 0x60000 ((List.range 4).flatMap fun p => leBytes 8 (31 + 0x40000000 + 0x10000 * p))
def runs (i : Instr) : State :=
  let s : State := { State.reset with
    mem := pageCells, nextId := 2, cur := some (.frag 1 0 0), inUse := [0]
    folds := [{ Fold.create 1 16 16 256 65536 512 64 65536 0 none with run := .running }] }
  (s.setCtx 0 (some { root := 0x10000, privBase := 0, tidBase := 0x1000, fblk := 0, recs := 0, unwritten := [], fwRead := 0, full := false, error := false })).modFrag
    1 0 0 fun g => { g with arriving := false, buf := some { num := 0, data := makeLine 0 1 [encode i] } }

/-- Data at a mapped address of context 0, and changes of the first fold, its first flock and its first fragment. -/
def put (va : Nat) (bs : List Byte) (s : State) : State := place (0x40000000 + va) bs s
def inFold (f : Fold → Fold) (s : State) : State := s.modFold 1 f
def inFlock (f : Flock → Flock) (s : State) : State := s.modFlock 1 0 f
def inFrag (f : Frag → Frag) (s : State) : State := s.modFrag 1 0 0 f
def parked (p : Park) (s : State) : State := s.modFrag 1 0 0 fun g => { g with park := p }
/-- Scalar register `n`, lane 0 of vector register `n`. -/
def sreg (n : Nat) (v : W64) (s : State) : State := s.modFlock 1 0 (·.setS n v)
def vreg (n : Nat) (v : W32) (s : State) : State := s.modFold 1 (·.setV n 0 v)
/-- The first flock in two fragments of eight lanes under one split, the second as `p` says. -/
def halves (p : Park) (s : State) : State := s.modFlock 1 0 fun k =>
  { k with
    frags := k.frags.flatMap fun g => [{ g with members := 0xFF, exec := 0xFF, path := [0] },
      { g with fid := 1, members := 0xFF00, exec := 0xFF00, path := [0], park := p }]
    splits := [{ sid := 0, join := 20, entries := 1, serial := none }] }

theorem noTrap_zero (i : Iss) (h : i.x.fpctl = 0) (l : List (Nat × W32)) : NoTrap i l := by
  intro p _ b _ _; simp [h]

/-- The issuing fragment, unguarded and with a guard that leaves no lane. -/
theorem meets_issue : state1.issuer = some iss1 ∧ Runs iss1 hdr ∧ ¬ Runs iss1 hdrOff ∧ iss1.g.park = .ready ∧ iss1.active hdr ≠ 0 := by
  refine ⟨iss1_spec, .inl rfl, fun h => h.elim (by decide) (fun h => h (by decide +kernel)), by decide +kernel, by decide +kernel⟩

theorem meets_ScalarFamily : state1.issuer = some iss1 ∧ Runs iss1 hdr ∧ (∀ t ∈ [Ty.s32, .n32, .s64, .n64, .b32, .b64], t.isScalarIntB = true) ∧
    (∀ t ∈ [Ty.s32, .n32, .s64, .n64], t.isScalarInt = true) ∧ ∀ l, NoTrap iss1 l :=
  ⟨iss1_spec, .inl rfl, by decide, by decide, noTrap_zero _ (by decide +kernel)⟩

theorem meets_ScalarSingles : state1.issuer = some iss1 ∧ Runs iss1 hdr ∧ Ty.isScalarInt .n64 = true ∧ Ty.isAddr .b64 = true ∧ Ty.isAddr .e5m2 = true ∧
    (Instr.ssel hdr { scOp with ty := .b64 }).wf = true ∧ (Instr.scmp hdr scOp).wf = true ∧
    (Instr.smovh hdr { scOp with sa := .v 0, sb := .v 0, immsel := true, ty := .b64 }).wf = true :=
  ⟨iss1_spec, .inl rfl, by decide, by decide, by decide, by decide, by decide, by decide⟩

theorem meets_UniformGuardedOff : state1.issuer = some iss1 ∧ iss1.g.park = .ready ∧ ¬ Runs iss1 hdrOff :=
  ⟨meets_issue.1, meets_issue.2.2.2.1, meets_issue.2.2.1⟩

/-- `MFFS` of a mask whose first member is lane 0, and the last lane of a flock of 16. -/
theorem meets_MaskInstructions : state1.issuer = some iss1 ∧ Runs iss1 hdr ∧ iss1.mask 2 = 0 ∧
    (let s := withFlock fun k => { k with m := Map.set 0 k.m 2 0x8000 }
     s.issuer = some (issOf s) ∧ (issOf s).mask 2 ≠ 0 ∧ ((issOf s).mask 2).getLsbD 15 = true ∧ ∀ m < 15, ((issOf s).mask 2).getLsbD m = false) ∧
    (iss1.mask 15).getLsbD 0 = true :=
  ⟨iss1_spec, .inl rfl, by decide +kernel, ⟨issuer_of _ (by decide +kernel), by decide +kernel⟩, by decide +kernel⟩

theorem meets_VectorIntegers : state1.issuer = some iss1 ∧ ∀ t ∈ [Ty.s8, .n8, .s16, .n16, .s32, .n32, .s64, .n64, .b32, .b64], t.isIntB = true :=
  ⟨iss1_spec, by decide⟩

/-- A division by zero with no trap enabled, and with the trap of `DZ`, bit 1, enabled. -/
def trapState : State := state1.modFold 1 fun x => { x with fpctl := 0x7F00 }
theorem meets_DivisionAndTraps : state1.issuer = some iss1 ∧ Ty.isInt .s32 = true ∧ (∀ l, NoTrap iss1 l) ∧
    trapState.issuer = some (issOf trapState) ∧
    (let i := issOf trapState
     let res := laneResults i hdr fun l => ((quotient .s32 (operand i .s32 (.v 1) l) (operand i .s32 (.v 2) l)).1.toNat,
       (quotient .s32 (operand i .s32 (.v 1) l) (operand i .s32 (.v 2) l)).2)
     let raised (b : Nat) : Mask := res.foldl (fun m r => if r.flags.getLsbD b then m ||| bitMask r.lane else m) 0
     ((List.range 7).filter fun b => i.x.fpctl.getLsbD (8 + b) && raised b != 0) ≠ []) ∧ Ty.isFp .bf16 = true :=
  ⟨iss1_spec, by decide, noTrap_zero _ (by decide +kernel), issuer_of _ (by decide +kernel), by decide +kernel, by decide⟩

theorem meets_ComparesAndMoves : state1.issuer = some iss1 ∧ iss1.active hdrOff = 0 ∧ iss1.active hdr ≠ 0 ∧
    ({ vrOp with md := 5 } : VrOp).md.toNat < 6 ∧ ({ vrOp with md := 7 } : VrOp).md.toNat < 8 ∧ Ty.isInt .n64 = true ∧ (∀ l, NoTrap iss1 l) ∧
    (∀ l < 64, (0xFFFF : Mask).getLsbD l = ((iss1.active hdr).getLsbD l && (let a := operand iss1 .s32 (.v 1) l; let b := operand iss1 .s32 (.v 2) l; a == b))) ∧
    Ty.isSel .n8 = true ∧ Ty.isMovi .n64 = true ∧ ({ vrOp with md := 15 } : VrOp).md.toNat < 16 :=
  ⟨iss1_spec, by decide +kernel, by decide +kernel, by decide, by decide, by decide, noTrap_zero _ (by decide +kernel), by decide +kernel, by decide, by decide, by decide⟩

/-- NaN operands, the largest code that is none, the least and the greatest positive code, in `F16`. -/
theorem meets_FloatingPoint : state1.issuer = some iss1 ∧ (∀ t ∈ [Ty.f32, .f16, .bf16], t.isFp = true) ∧ (∀ l, NoTrap iss1 l) ∧
    (let f := fmtOf .f16
     (f.value 0x7E00).isNan = true ∧ (f.value 0xFC00).isNan = false ∧ 0xFC00 < 2 ^ Ty.bits .f16 ∧ 0 < 1 ∧ 1 < f.infCode ∧ 0x7BFF < f.infCode) :=
  ⟨iss1_spec, by decide, noTrap_zero _ (by decide +kernel), by decide +kernel⟩

theorem meets_PairWords : state1.issuer = some iss1 ∧ ∀ l, NoTrap iss1 l := ⟨iss1_spec, noTrap_zero _ (by decide +kernel)⟩

theorem meets_Conversions : state1.issuer = some iss1 ∧ (∀ l, NoTrap iss1 l) ∧ Ty.isInt cvOp.dty = true ∧ Ty.isInt cvOp.frm = false ∧
    Ty.isInt .s8 = true := ⟨iss1_spec, noTrap_zero _ (by decide +kernel), by decide, by decide, by decide⟩

/-- An undivided flock; and a divided one whose other fragment stands at the common join, or is ready, and is named. -/
theorem meets_CrossLanes : state1.issuer = some iss1 ∧ iss1.k.frags = [iss1.g] ∧ iss1.g.park = .ready ∧ (∀ l, NoTrap iss1 l) ∧
    (∀ p ∈ [Park.join, .ready],
      let s := halves p state1
      s.issuer.isSome = true ∧
      let i := issOf s
      i.g.park = .ready ∧ ∃ g ∈ i.k.frags, g.fid ≠ i.g.fid ∧ g.members &&& namedLanes i hdr xlOp ≠ 0 ∧ g.park = p ∧
        i.g.commonSplit g = some 0 ∧ g.path.head? = some 0 ∧ (∀ f ∈ i.k.frags, f.fid ≠ i.g.fid → f.park = p)) :=
  ⟨iss1_spec, by decide +kernel, by decide +kernel, noTrap_zero _ (by decide +kernel), by decide +kernel⟩

theorem ok_of {ε α : Type} {e : Except ε α} {v : α} (h : e.toOption = some v) : e = .ok v := by
  cases e <;> simp_all [Except.toOption]

theorem meets_BranchesAndCalls_uniform : state1.issuer = some iss1 ∧ Runs iss1 hdr ∧ Offset iss1 4 8194 ∧ OffRange iss1 (-2 ^ 31) ∧
    (iss1.sreg 0 == 0) = true ∧ (iss1.active hdr &&& ~~~iss1.mask 15 == 0) = true ∧ (iss1.mask 2 &&& iss1.active hdr != 0) = false :=
  ⟨iss1_spec, .inl rfl, by unfold Offset; decide +kernel, .inl (by decide +kernel), by decide +kernel, by decide +kernel, by decide +kernel⟩

/-- `LOOPD` with counters 0, 1 and 2, a return to 0 and one past the last pc. -/
theorem meets_BranchesAndCalls_calls : state1.issuer = some iss1 ∧ Runs iss1 hdr ∧ Offset iss1 4 8194 ∧ iss1.sreg 0 = (0 : Pc).zeroExtend 64 ∧
    (∀ v ∈ [(1 : W64), 2, 2 ^ 55], (sreg 0 v state1).issuer = some (issOf (sreg 0 v state1)) ∧ (issOf (sreg 0 v state1)).sreg 0 = v) :=
  ⟨iss1_spec, .inl rfl, by unfold Offset; decide +kernel, by decide +kernel, fun v h => by
    simp only [List.mem_cons, List.not_mem_nil, or_false] at h
    rcases h with rfl | rfl | rfl <;> exact ⟨issuer_of _ (by decide +kernel), by decide +kernel⟩⟩

/-- Every copy of a translation that a state holds is the leaf `l`. -/
def servesB (s : State) (core ctx : Nat) (vas : List Nat) (l : Leaf) : Bool :=
  Map.wf Core.init s.cores && Map.wf Cluster.init s.clusters && vas.all fun va => vas.all (fun w => va / 2 ^ l.lg == w / 2 ^ l.lg) &&
    (s.walk ctx va).toOption == some l && (tlbFind (s.core core).tlb ctx va).all (· = l) && (tlbFind (s.cluster (clusterOf core)).tlb ctx va).all (· = l)
theorem serves_of {s : State} {core ctx : Nat} {vas : List Nat} {l : Leaf} (h : servesB s core ctx vas l = true) : s.Serves core ctx vas l := by
  simp only [servesB, Bool.and_eq_true, List.all_eq_true, beq_iff_eq] at h
  exact ⟨h.1.1, h.1.2, fun va hv w hw => (h.2 va hv).1.1.1 w hw, fun va hv => ok_of (h.2 va hv).1.1.2, fun va hv => (h.2 va hv).1.2, fun va hv => (h.2 va hv).2⟩

/-- A table of one entry in the line at address 64, whose slot 0 is pc 5; lanes hold index 0, or one of them index 1. -/
def table1 : State := put 64 (leBytes 64 (makeLine 2 0 [BitVec.ofNat 96 (1 + 10 * 2 ^ 64)]).toNat) (runs (.brx hdr { brOp with off := 5 }))
def tableIss : Iss := issOf table1
def tableLine1 : Line := makeLine 2 0 [BitVec.ofNat 96 (1 + 10 * 2 ^ 64)]
theorem table1_fetches : tableIss.s.Fetches tableIss.x.core tableIss.x.ctx 1 { pte := 0x4000001F, lg := 16 } tableLine1 :=
  { serves := serves_of (by decide +kernel)
    canon := by decide, ic := by decide +kernel, allows := by decide, plain := by decide, answers := by decide +kernel, sound := by decide +kernel
    home := by decide +kernel, parity := by decide +kernel }
theorem meets_BranchesAndCalls_table : table1.issuer = some tableIss ∧ Offset tableIss 5 5 ∧ Offset tableIss 4 4 ∧
    tableIss.active hdrOff = 0 ∧ tableIss.active hdr ≠ 0 ∧
    ((tableIss.tableWords tableIss.s 1 [0, 1]).2 = .ok (some [1, 0]) ∧
     (tableIss.tableWords (tableIss.tableWords tableIss.s 1 [0, 1]).1 1 ((lanes (tableIss.active hdr)).map fun l => 2 + (tableIss.vreg 0 l).toNat)).2 =
       .ok (some ((lanes (tableIss.active hdr)).map fun _ => 10))) ∧
    (∀ l ∈ lanes (tableIss.active hdr), (tableIss.vreg 0 l).toNat < 1) ∧ ((15 : Pc).toNat : Int) = (5 : Pc).toNat + (BitVec.ofNat 32 10).toInt ∧
    (let s := vreg 0 1 table1
     s.issuer.isSome = true ∧ ∃ l ∈ lanes ((issOf s).active hdr), 1 ≤ ((issOf s).vreg 0 l).toNat) := by
  refine ⟨issuer_of _ (by decide +kernel), by unfold Offset; decide +kernel, by unfold Offset; decide +kernel, by decide +kernel, by decide +kernel,
    ?_, by decide +kernel, by decide, by decide +kernel⟩
  obtain ⟨t, ht, _, g⟩ := Iss.tableWords_line (by decide +kernel) [0, 1] _ table1_fetches (by decide)
  obtain ⟨u, hu, _⟩ := Iss.tableWords_line (i := tableIss) (by decide +kernel) ((lanes (tableIss.active hdr)).map fun l => 2 + (tableIss.vreg 0 l).toNat) t g
    (by decide +kernel)
  exact ⟨by rw [ht, show [0, 1].map (tableWord tableLine1) = [1, 0] from by decide +kernel],
    by rw [ht, hu, show ((lanes (tableIss.active hdr)).map fun l => 2 + (tableIss.vreg 0 l).toNat).map (tableWord tableLine1) =
      (lanes (tableIss.active hdr)).map fun _ => 10 from by decide +kernel]⟩

theorem meets_SplitsAndJoins : state1.issuer = some iss1 ∧ Runs iss1 hdr ∧ Offset iss1 3 8193 ∧ Offset iss1 4 8194 ∧
    iss1.active hdr &&& iss1.mask 2 = 0 ∧ iss1.active hdr &&& iss1.mask 2 ≠ iss1.active hdr ∧ iss1.k.splits = [] ∧ iss1.k.frags = [iss1.g] ∧
    iss1.g.path = [] ∧ (8193 : Pc) ≠ 8194 ∧ state1.splitsUsed iss1.x.core < 256 ∧ iss1.k.joinOf iss1.g = none ∧
    (let s := inFlock (fun k => { k with m := Map.set 0 k.m 2 0x00FF }) state1
     s.issuer.isSome = true ∧ (issOf s).active hdr &&& (issOf s).mask 2 ≠ 0 ∧ (issOf s).active hdr &&& (issOf s).mask 2 ≠ (issOf s).active hdr) ∧
    (∀ p ∈ [Park.join, .ready],
      let s := halves p state1
      s.issuer.isSome = true ∧
      let i := issOf s
      ∃ g, i.k.frags = [] ++ i.g :: [g] ∧ (∀ f ∈ [] ++ i.g :: [g], f.path = [0]) ∧ (∀ f ∈ [] ++ [g], f.fid ≠ i.g.fid) ∧
        (∀ f ∈ [] ++ [g], f.park = p ∧ (p = .ready → f.pc ≠ 20))) := by
  refine ⟨iss1_spec, .inl rfl, by unfold Offset; decide +kernel, by unfold Offset; decide +kernel, by decide +kernel, by decide +kernel, by decide +kernel,
    by decide +kernel, by decide +kernel, by decide, by decide +kernel, by decide +kernel, by decide +kernel, fun p hp => ?_⟩
  simp only [List.mem_cons, List.not_mem_nil, or_false] at hp
  rcases hp with rfl | rfl
  · exact ⟨by decide +kernel, ((issOf (halves .join state1)).k.frags[1]?).getD iss1.g, by decide +kernel⟩
  · exact ⟨by decide +kernel, ((issOf (halves .ready state1)).k.frags[1]?).getD iss1.g, by decide +kernel⟩

/-- All lanes leave; the lanes of mask 0 leave; and the lanes of one of two fragments leave. -/
theorem meets_Exits : state1.issuer = some iss1 ∧ iss1.g.members &&& ~~~iss1.active hdr = 0 ∧ (∀ f ∈ iss1.k.frags, f.fid = iss1.g.fid) ∧
    iss1.g.members &&& ~~~iss1.active hdrOff ≠ 0 ∧
    (let s := inFlock (fun k => { k with splits := [] }) (halves .ready state1)
     s.issuer.isSome = true ∧ (issOf s).k.splits = [] ∧ ∃ f ∈ (issOf s).k.frags, f.fid ≠ (issOf s).g.fid) ∧
    (state1.bar iss1.x 16).declared = true ∧ (state1.bar iss1.x 16).members &&& bitMask 0 ≠ 0 ∧ Map.wf BarSt.none iss1.x.bars = true :=
  ⟨iss1_spec, by decide +kernel⟩

def trapRuns : State := runs (.trap hdr { sysOp with sd := 0, imm := 5 })
theorem meets_TrapsAndYields : trapRuns.issuer = some (issOf trapRuns) ∧ Runs (issOf trapRuns) hdr ∧
    (trapRuns.ctx (issOf trapRuns).x.ctx).isSome = true ∧ (issOf trapRuns).k.splits = [] :=
  ⟨issuer_of _ (by decide +kernel), .inl rfl, by decide +kernel, by decide +kernel⟩
/-- A fragment that has yielded within its line, and one that has come to its boundary; it waits there while the other is ready. -/
def yielded (enters : Bool) : State :=
  { inFlock (fun k => { k with behind := [(0, 0)], frags := k.frags.map fun g => if g.fid = 0 then { g with arriving := enters } else g }) (halves .ready (runs .nop)) with
    agenda := [.issue 1 0 0] }
theorem meets_TrapsAndYields_seat : (∀ b ∈ [false, true], ((yielded b).iss? 1 0 0).isSome = true ∧ ((issAt (yielded b) 1 0 0).k.frags.map (·.fid)).Nodup ∧
      (0, 0) ∈ (issAt (yielded b) 1 0 0).k.behind ∧ (issAt (yielded b) 1 0 0).g.enters = b) ∧ (1, 1) ∉ (issAt (yielded true) 1 0 0).k.behind ∧
    (let s : State := { (yielded true).seatYielders with agenda := [] }
     (s.iss? 1 0 0).isSome = true ∧ (issAt s 1 0 0).k.dying = false ∧ (issAt s 1 0 0).isBehind = true) := by decide +kernel

/-- A lane that would set a reserved value of `SR.AMAX`, and `SR.FPCTL` with the last legal and the first reserved code. -/
theorem meets_SpecialRegisters : state1.issuer = some iss1 ∧ Runs iss1 hdr ∧
    ([0x010, 0x011, 0x012, 0x013, 0x000, 0x001, 0x01A, 0x01B].map Sr.ofId) =
      [some .amax, some .srstate, some .flags, some .fpctl, some .laneid, some .thread, some .cycle, some .lease] ∧
    Sr.lane .amax = true ∧ Sr.lane .cycle = false ∧
    (let val (l : Nat) : W32 := iss1.vreg 2 l
     ∀ l ∈ lanes (iss1.active hdr), ¬ ((val l).msb = true ∨ 0x7F800000 < (val l).toNat)) ∧
    (let i := issOf (vreg 2 0x7F800001 state1)
     let val (l : Nat) : W32 := i.vreg 2 l
     (∀ l < 64, (1 : Mask).getLsbD l = true ↔ (i.active hdr).getLsbD l = true ∧ ((val l).msb = true ∨ 0x7F800000 < (val l).toNat)) ∧ (1 : Mask) ≠ 0) ∧
    iss1.active hdr ≠ 0 ∧ (iss1.sval64 (.c 5)).toNat % 8 < 6 ∧ 6 ≤ (iss1.sval64 (.c 6)).toNat % 8 :=
  ⟨iss1_spec, .inl rfl, by decide, by decide, by decide, by decide +kernel⟩

/-- A `MARK` of the descriptor in the line at address 64: all zero, in a line of code, and with a reserved code. -/
def mark1 (l : Line) : State := put 64 (leBytes 64 l.toNat) (runs (.mark hdr { sysOp with sd := 0, imm := 5 }))
def markIss : Iss := issOf (mark1 (makeLine 2 0 []))
theorem meets_CheckpointsAndMarks : state1.issuer = some iss1 ∧ Runs iss1 hdr ∧ iss1.k.ckpt = none ∧
    (issOf (inFlock (fun k => { k with ckpt := some 5 }) state1)).k.ckpt = some 5 ∧ (5 : W64) < iss1.sval64 (.c 6) ∧ iss1.sval64 (.c 5) ≤ 5 ∧
    (mark1 (makeLine 2 0 [])).issuer = some markIss ∧ Offset markIss 5 5 ∧ Offset markIss 4 4 ∧ (4 : Pc).toNat % 5 ≠ 0 ∧
    markIss.k.frags.length = 1 ∧ (∀ sp ∈ markIss.k.splits, sp.serial = none) ∧ (markIss.tableLine markIss.s 1).2 = .ok (some (makeLine 2 0 [])) ∧
    descOk (BitVec.ofNat 480 (makeLine 2 0 []).toNat) = true ∧ bits (lineWord (makeLine 2 0 [])) 31 18 = 0 ∧
    ((issOf (mark1 (makeLine 0 0 []))).tableLine (mark1 (makeLine 0 0 [])) 1).2 = .ok none ∧
    ((issOf (mark1 (makeLine 2 0 [4]))).tableLine (mark1 (makeLine 2 0 [4])) 1).2 = .ok (some (makeLine 2 0 [4])) ∧
    descOk (BitVec.ofNat 480 (makeLine 2 0 [4]).toNat) = false ∧ (issOf (halves .ready state1)).k.frags.length ≠ 1 :=
  ⟨iss1_spec, .inl rfl, by decide +kernel, by decide +kernel, by decide +kernel, by decide +kernel, issuer_of _ (by decide +kernel),
    by unfold Offset; decide +kernel, by unfold Offset; decide +kernel, by decide, by decide +kernel, by decide +kernel, ok_of (by decide +kernel), by decide +kernel,
    by decide +kernel, ok_of (by decide +kernel), ok_of (by decide +kernel), by decide +kernel, by decide +kernel⟩

/-- A `LAUNCH` of the packet at address 64, one of address 65, and waits that each unit ends. -/
def launchRuns (v : W64) : State := sreg 1 v (runs (.launch hdr { sysOp with sa := .s 1 }))
def launchIss : Iss := issOf (launchRuns 64)
def callWaits (w : Instr) (p : Park) : State := parked p { runs w with cur := none }
/-- Pieces of plain memory whose lines are good. -/
def goodSites (s : State) (l : List Site) : Bool := l.all fun t => !t.managed && match t.loc with | .mem k => !s.rangeBad k t.n | _ => false
theorem goodSites_answer {s : State} {l : List Site} (o : Owner) (core : Nat) (l1 : Bool) (cpol : Cpol) (hp : s.pend = []) (hg : s.groups = [])
    (h : goodSites s l = true) : ∃ bs, (s.readSites o core l1 false cpol l).2 = .ok bs := by
  obtain ⟨u, bs, e, _, _⟩ := State.readSites_answers o core l1 cpol l s hp hg fun t ht => by
    have g := List.all_eq_true.mp h t ht
    cases hl : t.loc <;> simp_all
  exact ⟨bs, by rw [e]⟩
def launchBase : State := (launchRuns 64).release launchIss.owner .device
def launchSites : State × Except FInfo (List Site) := launchIss.resolve launchBase .global .read 0 64 64
theorem meets_UnitCalls_launch : ∃ sites bs, launchSites.2 = .ok sites ∧ sites.length = 8 ∧
    (launchSites.1.readSites launchIss.owner launchIss.x.core true (launchIss.checks .global) .deflt sites).2 = .ok bs := by
  have e : launchSites.2 = .ok (launchSites.2.toOption.getD []) := ok_of (by decide +kernel)
  have c : launchIss.checks .global = false := by decide +kernel
  obtain ⟨bs, hbs⟩ := goodSites_answer (s := launchSites.1) (l := launchSites.2.toOption.getD []) launchIss.owner launchIss.x.core true .deflt
    (by decide +kernel) (by decide +kernel) (by decide +kernel)
  exact ⟨_, bs, e, by decide +kernel, by rw [c]; exact hbs⟩
theorem meets_UnitCalls : (launchRuns 64).issuer = some launchIss ∧ Runs launchIss hdr ∧
    (launchIss.sval64 (.s 1)).toNat < 2 ^ 57 ∧ ((issOf (launchRuns 65)).sval64 (.s 1)).toNat % 64 ≠ 0 ∧
    (65535 : BitVec 30).toNat < 2 ^ 16 ∧
    (∀ p ∈ [Park.firmware 0 7, .firmware 1 0, .firmware 2 0, .firmware 3 0, .firmware 4 0],
      let s := callWaits (.dcall hdr { sysOp with sa := .c 1 }) p
      let i := issAt s 1 0 0
      (s.iss? 1 0 0).isSome = true ∧ i.x.run = .running ∧ i.k.stop = none ∧ i.g.sysDst = some 3 ∧ i.g.park = p) ∧
    (let s := callWaits (.launch hdr { sysOp with sa := .s 1 }) (.cmdproc 0)
     let i := issAt s 1 0 0
     (s.iss? 1 0 0).isSome = true ∧ i.x.run = .running ∧ i.k.stop = none ∧ i.g.sysDst = some 3 ∧ i.g.park = .cmdproc 0) :=
  ⟨issuer_of _ (by decide +kernel), .inl rfl, by decide +kernel, by decide +kernel, by decide, by decide +kernel, by decide +kernel⟩

/-- A marked `CURVE` to `t` of a fold of one flock; the cluster stands at point 0 in the low range. -/
def curveRuns (t : BitVec 30) : State := inFlock (fun k => { k with armed := some { pc := 5, desc := 0, markPc := 0 } }) (runs (.curve hdr { sysOp with imm := t }))
def curveIss (t : BitVec 30) : Iss := issOf (curveRuns t)
def curveBare : Iss := issOf (runs (.curve hdr sysOp))
theorem meets_CurveMoves_refused : (curveRuns 0).issuer = some (curveIss 0) ∧ Runs (curveIss 0) hdr ∧ (curveIss 0).g.current = some (.curve hdr sysOp) ∧
    (curveIss 0).k.frags = [(curveIss 0).g] ∧ (curveIss 0).k.splits = [] ∧ (5 : Pc).toNat = (curveIss 0).g.pc.toNat / 5 * 5 + 5 ∧
    (∀ b ∈ (curveIss 0).g.buf, ∀ j < 5, 0 < j → reads .code (slotWord b.data j) .nop = true) ∧
    curveBare.k.armed = none ∧ ((curveRuns 0).cluster 0).rdv = none ∧ ((curveRuns 0).cluster 0).point = 0 ∧
    (curveIss 0).x.newWidth 0 = (curveIss 0).x.width ∧ (curveRuns 7).curveRefusal (curveIss 7).x 7 0 false = some 3 ∧ (7 : BitVec 3) ≠ 0 :=
  ⟨issuer_of _ (by decide +kernel), .inl rfl, by decide +kernel⟩
theorem meets_CurveMoves_commits : (curveRuns 3).issuer = some (curveIss 3) ∧ (curveIss 3).g.current = some (.curve hdr { sysOp with imm := 3 }) ∧
    (curveRuns 3).foldsOnCluster 0 = [(curveIss 3).x] ∧ (curveIss 3).x.flocks = [(curveIss 3).k] ∧ (curveIss 3).x.moveTo = none ∧
    (curveRuns 3).folds = [(curveIss 3).x] ∧ (curveIss 3).x.size / (curveIss 3).x.width ≤ 64 ∧ BitVec.ofNat 3 3 ≠ ((curveRuns 3).cluster 0).point ∧
    (curveRuns 3).curveRefusal (curveIss 3).x 3 0 false = none :=
  ⟨issuer_of _ (by decide +kernel), by decide +kernel⟩
/-- A fold of 32 threads in flocks of `w` lanes, whose flocks stand at a marked `CURVE` with descriptor `d`, but for flock `fl`, which is about to
issue it, parked there in a rendezvous for the same point. -/
def curveOf (w fl : Nat) (d : BitVec 480) : State :=
  let c : Instr := .curve hdr { sysOp with imm := 0 }
  let s : State := { runs c with
    folds := [{ Fold.create 1 32 w 256 65536 512 64 65536 0 none with run := .running }], cur := some (.frag 1 fl 0) }
  let s := s.modFold 1 fun x => { x with flocks := x.flocks.map fun k =>
    { k with armed := some { pc := 5, desc := d, markPc := 0 }
             frags := k.frags.map fun g => { g with arriving := false, buf := some { num := 0, data := makeLine 0 1 [encode c] }, park := .curve } } }
  let s := s.modFrag 1 fl 0 fun g => { g with park := .ready }
  if fl = 0 then s else s.modCluster 0 fun x => { x with rdv := some { target := 0, opened := 0 } }
def regroupIss (w fl : Nat) (d : BitVec 480) : Iss := issOf (curveOf w fl d)
theorem meets_CurveMoves_splits :
    let s := curveOf 32 0 1
    let i := regroupIss 32 0 1
    s.issuer = some i ∧ Runs i hdr ∧ i.g.current = some (.curve hdr { sysOp with imm := 0 }) ∧ i.k.frags = [i.g] ∧ i.k.splits = [] ∧
    i.k.armed = some { pc := 5, desc := 1, markPc := 0 } ∧ (5 : Pc).toNat = i.g.pc.toNat / 5 * 5 + 5 ∧
    (∀ b ∈ i.g.buf, ∀ j < 5, 0 < j → reads .code (slotWord b.data j) .nop = true) ∧ i.x.newWidth 1 = 16 ∧
    s.foldsOnCluster 0 = [i.x] ∧ s.folds = [i.x] ∧ i.x.moveTo = none ∧ s.pend = [] ∧ s.groups = [] ∧ i.x.size / 16 ≤ 64 ∧ i.x.size = 32 * i.x.flocks.length ∧
    i.x.flocks = [i.k] ∧ 16 < i.x.width ∧ i.x.freshParties 16 ≤ s.poolFree ∧ (s.cluster 0).rdv = none ∧ s.curveRefusal i.x 0 1 false = none :=
  ⟨issuer_of _ (by decide +kernel), .inl rfl, by decide +kernel⟩
theorem meets_CurveMoves_merges :
    let s := curveOf 16 1 2
    let i := regroupIss 16 1 2
    s.issuer = some i ∧ Runs i hdr ∧ i.g.current = some (.curve hdr { sysOp with imm := 0 }) ∧ i.k.frags = [i.g] ∧ i.k.splits = [] ∧
    (5 : Pc).toNat = i.g.pc.toNat / 5 * 5 + 5 ∧ i.x.newWidth 2 = 32 ∧ s.foldsOnCluster 0 = [i.x] ∧ s.folds = [i.x] ∧ i.x.moveTo = none ∧
    s.pend = [] ∧ s.groups = [] ∧ i.x.size / 32 ≤ 64 ∧ i.x.size = 16 * i.x.flocks.length ∧ i.fl = 1 ∧
    i.k.armed = some { pc := 5, desc := 2, markPc := 0 } ∧ (s.cluster 0).rdv = some { target := 0, opened := 0 } ∧
    s.curveRefusal i.x 0 2 true = none ∧ s.disagree i.x 2 32 = false ∧
    ∃ k0 g0, i.x.flocks = [k0, i.k] ∧ k0.frags = [g0] ∧ k0.splits = [] ∧ k0.armed = i.k.armed ∧ g0.park = .curve ∧ g0.pc = i.g.pc ∧ g0.buf = i.g.buf ∧
      (g0.members ||| i.g.members) &&& lowMask 16 ≠ 0 := by
  refine ⟨issuer_of _ (by decide +kernel), .inl rfl, ?_⟩
  iterate 17 refine And.intro (by decide +kernel) ?_
  exact ⟨(regroupIss 16 1 2).x.flocks.headD (regroupIss 16 1 2).k,
    ((regroupIss 16 1 2).x.flocks.headD (regroupIss 16 1 2).k).frags.headD (regroupIss 16 1 2).g, by decide +kernel⟩

/-- A committed move whose cluster settles or has settled, and a rendezvous that is 3,999 and 4,000 ticks old. -/
def curveMoved : State := inFold (fun x => { x with moveTo := some 16 }) (callWaits (.curve hdr sysOp) .curve)
def curveOpen (n : Nat) : State :=
  { (callWaits (.curve hdr sysOp) .curve).modCluster 0 fun c => { c with rdv := some { target := 1, opened := 10 } } with heart := n }
theorem meets_CurveMoves_events :
    (∃ x, curveMoved.fold? x.uid = some x ∧ (curveMoved.cluster (x.core / 8)).settling = false ∧ x.moveTo ≠ none ∧ x.killAfter = false ∧ ∀ k ∈ x.flocks, k.splits = []) ∧
    (let s := curveMoved.modCluster 0 fun c => { c with settling := true }
     ∃ x, s.fold? x.uid = some x ∧ (s.cluster (x.core / 8)).settling = true) ∧
    (let s := inFold (fun x => { x with killAfter := true }) curveMoved
     ∃ x, s.fold? x.uid = some x ∧ (s.cluster (x.core / 8)).settling = false ∧ x.moveTo ≠ none ∧ x.killAfter = true ∧ x.run = .running) ∧
    ((curveOpen 4009).cluster 0).rdv = some { target := 1, opened := 10 } ∧ (curveOpen 4009).heart < 10 + 4000 ∧ 10 + 4000 ≤ (curveOpen 4010).heart ∧
    (∃ x k g, (curveOpen 4010).fold? x.uid = some x ∧ x.core / 8 = 0 ∧ x.run ≠ .saved ∧ x.moveTo = none ∧ x.flocks = [k] ∧ k.frags = [g] ∧ k.splits = [] ∧
      g.park = .curve ∧ g.sysDst = some 3) := by
  refine ⟨⟨(issAt curveMoved 1 0 0).x, by decide +kernel⟩,
    ⟨(issAt (curveMoved.modCluster 0 fun c => { c with settling := true }) 1 0 0).x, by decide +kernel⟩,
    ⟨(issAt (inFold (fun x => { x with killAfter := true }) curveMoved) 1 0 0).x, by decide +kernel⟩, by decide +kernel, by decide +kernel, by decide +kernel,
    ⟨(issAt (curveOpen 4010) 1 0 0).x, (issAt (curveOpen 4010) 1 0 0).k, (issAt (curveOpen 4010) 1 0 0).g, by decide +kernel⟩⟩

/-- Barrier 0 of the fold as `b` says. -/
def bar0 (b : BarSt) (s : State) : State := inFold (fun x => { x with bars := Map.set BarSt.none x.bars 0 b }) s
def member1 : BarSt := { BarSt.none with declared := true, members := 1 }
def barIss (b : BarSt) : Iss := issOf (bar0 b state1)
theorem meets_BarrierArrivalsAndMembers : state1.issuer = some iss1 ∧ (state1.bar iss1.x 0).declared = false ∧
    (bar0 member1 state1).issuer = some (barIss member1) ∧ Runs (barIss member1) hdr ∧ (barIss member1).g.park = .ready ∧
    ((bar0 member1 state1).bar (barIss member1).x 0).declared = true ∧ ((bar0 member1 state1).bar (barIss member1).x 0).members &&& bitMask 0 ≠ 0 ∧
    ((bar0 member1 state1).bar (barIss member1).x 0).broken = false ∧ Map.get 0 (barIss member1).k.passed 0 = 0 ∧
    ((bar0 { member1 with broken := true } state1).bar (barIss { member1 with broken := true }).x 0).broken = true ∧
    ((barIss member1).sval64 (.c 0)).setWidth 16 = ((bar0 member1 state1).bar (barIss member1).x 0).phase ∧
    ((barIss member1).sval64 (.c 1)).setWidth 16 ≠ ((bar0 member1 state1).bar (barIss member1).x 0).phase ∧
    ((bar0 { member1 with members := 2 } state1).bar (barIss { member1 with members := 2 }).x 0).members &&& bitMask 0 = 0 ∧
    (let i := issOf (inFlock (fun k => { k with passed := Map.set 0 k.passed 0 1 }) (bar0 member1 state1))
     Map.get 0 i.k.passed 0 &&& i.g.members ≠ 0) ∧
    (let i := issOf (inFlock (fun k => { k with passed := Map.set 0 k.passed 0 0xFF00 }) (halves .ready (bar0 member1 state1)))
     Map.get 0 i.k.passed 0 ≠ 0 ∧ Map.get 0 i.k.passed 0 &&& i.g.members = 0) :=
  ⟨iss1_spec, by decide +kernel, issuer_of _ (by decide +kernel), .inl rfl, by decide +kernel⟩

/-- A wait of the only member, of one of two, and waits in progress for phases that have passed or not. -/
def waitIss (b : BarSt) (p : Park) : Iss := issOf (parked p (bar0 b state1))
theorem meets_BarrierEnds : (bar0 member1 state1).issuer = some (barIss member1) ∧ Runs (barIss member1) hdr ∧
    (let s := bar0 member1 state1
     let i := barIss member1
     i.g.park = .ready ∧ i.k.frags = [i.g] ∧ i.k.splits = [] ∧ i.x.wants = none ∧ s.pend = [] ∧ s.groups = [] ∧ Map.wf BarSt.none i.x.bars = true ∧
     i.fl < 64 ∧ s.phaseOf i.k.party ≠ 0xFFFF ∧ i.x.width ≠ 0 ∧ (s.bar i.x 0).stream = false ∧
     (s.bar i.x 0).members &&& ~~~((s.bar i.x 0).arrived ||| (s.bar i.x 0).permanent ||| bitMask i.fl) = 0) ∧
    (let b := (bar0 { member1 with members := 3 } state1).bar (barIss { member1 with members := 3 }).x 0
     b.members &&& ~~~(b.arrived ||| b.permanent ||| bitMask 0) ≠ 0) ∧
    (waitIss member1 (.barrier 0 0xFFFF none)).g.park = .barrier 0 0xFFFF none ∧ ((waitIss member1 (.barrier 0 0xFFFF none)).s.bar (waitIss member1 (.barrier 0 0xFFFF none)).x 0).phase ≠ 0xFFFF ∧
    ((waitIss member1 (.barrier 0 0 none)).s.bar (waitIss member1 (.barrier 0 0 none)).x 0).phase = 0 ∧
    ((waitIss { member1 with broken := true } (.barrier 0 0 none)).s.bar (waitIss { member1 with broken := true } (.barrier 0 0 none)).x 0).broken = true :=
  ⟨issuer_of _ (by decide +kernel), .inl rfl, by decide +kernel⟩

def fenceWaits : State := callWaits (.fenceSc hdr { synOp with scope := .device }) (.fenceSc false)
theorem meets_FencesAndTicks : state1.issuer = some iss1 ∧ Runs iss1 hdr ∧ fenceWaits.iss? 1 0 0 = some (issAt fenceWaits 1 0 0) ∧
    fenceWaits.fenceWaiters false = [(1, 0, 0)] ∧ (issAt fenceWaits 1 0 0).g.fenceDst = some 3 ∧
    (∀ c, (fenceWaits.cluster c).rdv = none) ∧ state1.pend = [] ∧ ∀ c x, state1.ctx c = some x → x.unwritten = [] :=
  ⟨iss1_spec, .inl rfl, iss?_of _ _ _ _ (by decide +kernel), by decide +kernel, by decide +kernel, fun c => by
    unfold State.cluster; rw [show fenceWaits.clusters = [] from by decide +kernel]; rfl, by decide +kernel, fun c x h => by
    rw [State.ctx, show state1.ctxs = [] from by decide +kernel] at h; cases h⟩

/-- Tags 0 and 1 ready of four; a token with a reference; and waits at their deadlines. -/
def tagIss (m : Mask) : Iss := issOf (inFold (fun x => { x with tagReady := m }) state1)
def tokIss : Iss := issOf (inFold (fun x => { x with toks := [{ id := 9, lo := 0, hi := 16, tk := 7 }] }) state1)
def dueWait (w : Instr) (p : Park) : State := { callWaits w p with heart := 100 }
def dueBar : State := dueWait (.barw hdr { synOp with scope := .fold, tmo := 100 }) (.barrier 0 0 (some 100))
def dueTag : State := dueWait (.tagw hdr { synOp with scope := .fold, sa := .c 3, tmo := 99 }) (.tag 3 (some 99))
def dueDelay : State := dueWait (.fenceSc hdr { synOp with scope := .domain }) (.domDelay 7)
theorem meets_TagsTokensTimeouts : state1.issuer = some iss1 ∧ Runs iss1 hdr ∧ iss1.g.park = .ready ∧
    (iss1.sval64 (.c 15)).toNat < 2 ^ iss1.x.tags ∧ 2 ^ iss1.x.tags ≤ (iss1.sval64 (.c 16)).toNat ∧
    (tagIss 3).x.tagReady &&& (tagIss 3).sval64 (.c 3) = (tagIss 3).sval64 (.c 3) ∧ iss1.x.tagReady &&& iss1.sval64 (.c 3) ≠ iss1.sval64 (.c 3) ∧
    iss1.x.tagReady &&& iss1.sval64 (.c 3) = 0 ∧ ((tagIss 2).x.tagReady &&& (tagIss 2).sval64 (.c 3)).getLsbD 1 = true ∧
    (∀ j < 1, ((tagIss 2).x.tagReady &&& (tagIss 2).sval64 (.c 3)).getLsbD j = false) ∧ (∀ n < 8, iss1.tokCount n = 0) ∧ tokIss.tokCount 7 ≠ 0 ∧
    (dueBar.iss? 1 0 0).isSome = true ∧ (dueTag.iss? 1 0 0).isSome = true ∧ (dueDelay.iss? 1 0 0).isSome = true ∧
    (let i := issAt dueBar 1 0 0
     i.x.run = .running ∧ i.k.stop = none ∧ i.g.park = .barrier 0 0 (some 100) ∧ i.g.synOp = some { synOp with scope := .fold, tmo := 100 } ∧
       100 ≤ dueBar.heart ∧ (dueBar.bar i.x 0).phase = 0 ∧ (dueBar.bar i.x 0).broken = false) ∧
    (let i := issAt dueTag 1 0 0
     i.x.run = .running ∧ i.k.stop = none ∧ i.g.park = .tag 3 (some 99) ∧ i.g.synOp = some { synOp with scope := .fold, sa := .c 3, tmo := 99 }) ∧
    (issAt dueDelay 1 0 0).g.park = .domDelay 7 ∧ (issAt dueDelay 1 0 0).g.fenceDst = some 3 :=
  ⟨iss1_spec, .inl rfl, by decide +kernel⟩

/-! Loads, stores and atomics: scratchpad addresses 0 in every lane; one lane alone; a mapped address. -/

def oneLane (s : State) : State := inFrag (fun g => { g with exec := 1 }) s
def loadRead (i : Iss) (o : MemOp) (s : State) : State × List (Nat × List Byte) × List (Nat × FInfo) :=
  overLanes (i.loadLane o.space o.cpol (i.memAddr o) (2 ^ o.size.toNat)) (lanes (i.active hdr)) s
theorem meets_Loads : state1.issuer = some iss1 ∧ Runs iss1 hdr ∧ iss1.k.replayFid = none ∧ memOp.ord = .plain ∧ (loadRead iss1 memOp state1).2.2 = [] ∧
    (loadRead iss1 memOp state1).2.1 ≠ [] ∧ lanes (iss1.active hdrOff) = [] ∧
    (loadRead iss1 { memOp with ord := .acq, scope := .die } (state1.acquire 0 .die)).2.2 = [] ∧
    (∃ v b, iss1.loadLane .fold .deflt (iss1.memAddr { memOp with addr := .s 1, size := 3 }) 8 state1 0 = (b, .ok v)) ∧ (127 : BitVec 8).toNat < 128 ∧
    iss1.g.park = .ready ∧ (∃ y, state1.window iss1.x.ctx (iss1.sval64 (.s 1)).toNat = .ok y ∧
      ∀ l ∈ lanes (iss1.active hdr), y.winBusy 0 (winLane { memOp with space := .window, addr := .s 1 } 0 l) 1 = false) := by
  refine ⟨iss1_spec, .inl rfl, by decide +kernel, rfl, by decide +kernel, by decide +kernel, by decide +kernel, by decide +kernel,
    ⟨List.replicate 8 0, (iss1.loadLane .fold .deflt (iss1.memAddr { memOp with addr := .s 1, size := 3 }) 8 state1 0).1, ?_⟩, by decide, by decide +kernel,
    ⟨iss1.x, ok_of (by decide +kernel), by decide +kernel⟩⟩
  exact Prod.ext rfl (ok_of (by decide +kernel))

/-- The last eight bytes, one byte past them, and one off their alignment. -/
def scrIss (a : W32) : Iss := issOf (vreg 2 a state1)
theorem meets_LoadsAndPrefetches_scratch : (vreg 2 4088 state1).issuer = some (scrIss 4088) ∧ (vreg 2 4088 state1).pend = [] ∧
    (vreg 2 4088 state1).groups = [] ∧ (vreg 2 4088 state1).raceOn (scrIss 4088).x.gid = false ∧ (scrIss 4088).memAddr memOp 0 = 4088 ∧
    4088 + 8 ≤ (scrIss 4088).x.scrBytes ∧ 4088 % 8 = 0 ∧ (scrIss 4089).memAddr memOp 0 = 4089 ∧ (scrIss 4089).x.scrBytes < 4089 + 8 ∧
    4087 + 8 ≤ (scrIss 4087).x.scrBytes ∧ (scrIss 4087).memAddr memOp 0 = 4087 ∧ 4087 % 8 ≠ 0 :=
  ⟨issuer_of _ (by decide +kernel), by decide +kernel⟩

/-- Lane 0 past the end of the scratchpad, the other lanes at 0. -/
def partIss : Iss := issOf (vreg 2 4096 state1)
theorem meets_AccessOutcomes_part : (vreg 2 4096 state1).issuer = some partIss ∧ partIss.k.replayFid = none ∧ memOp.toke = false ∧
    (loadRead partIss memOp (vreg 2 4096 state1)).2.2 ≠ [] ∧ (loadRead partIss memOp (vreg 2 4096 state1)).2.1 ≠ [] :=
  ⟨issuer_of _ (by decide +kernel), by decide +kernel⟩
/-- The same lanes stored: lane 0 past the end of the scratchpad, the other lanes at 0. -/
theorem meets_AccessOutcomes_stored : (vreg 2 4096 state1).pend = [] ∧
    (let q := overLanes (fun t l => partIss.storeLane .fold false 2 (partIss.memAddr memOp l) (partIss.dataBytes 4 4 l) t l) (lanes (partIss.active hdr))
       { vreg 2 4096 state1 with nextId := 3 }
     (vreg 2 4096 state1).nextId = 2 ∧ q.2.2 ≠ [] ∧ q.2.1 ≠ [] ∧ ∀ p ∈ q.2.1, p.2 = false) := by decide +kernel
/-- A load with words of threads 0 and 1, and one with a word of thread 0 alone; a buffered store to address 0x40000000. -/
def item2 : LoadItem := { id := 9, lo := 0, hi := 16, words := [(64, 5), (65, 6)], tok := none, counts := true }
def buffered (v : Bool) : Pend :=
  { owner := .flock 1 0 16, core := 0, loc := .mem 0x40000000, kind := .write [1, 2], grp := 0, visible := v, checked := false, mark := none, managed := false, key := 0 }
theorem meets_AccessOutcomes_lands :
    (∃ x, (inFold (fun x => { x with loads := [item2] }) state1).fold? x.uid = some x ∧ x.run ≠ .saved ∧ x.loads = [item2] ∧
      (item2.words.filter fun p => p.1 % x.size ≠ 0) ≠ [] ∧ ([(64, (5 : W32))].filter fun p => p.1 % x.size ≠ 0) = []) ∧
    (let s := { state1 with pend := [buffered true, buffered true] }
     s.pend = [buffered true] ++ [buffered true] ∧ s.lineKey = [] ∧ Memory.wf s.mem = true ∧ (buffered true).isRelease = false ∧
       (buffered true).core = 0 ∧ (buffered true).loc = .mem 0x40000000 ∧ (buffered true).managed = false ∧ (buffered true).key = 0 ∧
       s.takes 0 0x40000000 = true ∧ ({ s with badTiles := [0x40000000 / 2048] } : State).takes 0 0x40000000 = false) ∧
    (let s := { state1 with pend := [buffered false] }
     s.pend = [buffered false] ∧ (buffered false).visible = false ∧ s.groups = []) := by
  refine ⟨⟨(issOf (inFold (fun x => { x with loads := [item2] }) state1)).x, by decide +kernel⟩, by decide +kernel, by decide +kernel⟩

/-- What the statement about stores asks of each lane: its pieces are in place, none is replicated, and none meets a conflict. -/
def storeEntry (i : Iss) (grp : Nat) (check : Bool) (p : Site × List Byte) : Pend :=
  { owner := i.owner, core := i.x.core, loc := p.1.loc, kind := .write p.2, grp := grp, visible := false, checked := check && p.1.checkable,
    mark := none, managed := p.1.managed, key := p.1.crypt }
def storeLane1 (i : Iss) (grp : Nat) (check : Bool) (place : State → Nat → State × Except FInfo (List Site)) (data : Nat → List Byte) (t : State)
    (l : Nat) : Option (State × List Site) :=
  match place t l with
  | (b, .ok sites) =>
    if sites ≠ [] ∧ ∀ p ∈ sites, p.replicated = false ∧ b.checkWrite i.owner check p = none then
      some ({ b with pend := b.pend ++ (spread sites (data l)).map (storeEntry i grp check) }, sites)
    else none
  | _ => none
def storeStart (s : State) (o : MemOp) (i : Iss) : State :=
  { s with
    nextId := s.nextId + 1
    pend := s.pend ++ if o.ord = .rel then [{ owner := i.owner, core := i.x.core, loc := .scr 0 0, kind := .release o.scope true false, grp := s.nextId,
                                              visible := false, checked := false, mark := none, managed := false, key := 0 }] else [] }
theorem meets_Stores : state1.issuer = some iss1 ∧ iss1.k.replayFid = none ∧ (lanes (iss1.active hdr)).length = 16 ∧ Runs iss1 hdr ∧
    (∀ o ∈ [memOp, { memOp with ord := .rel, scope := .die }],
      (eachLane (storeLane1 iss1 2 (iss1.checks o.space) (fun t l => iss1.resolve t o.space .write l (iss1.memAddr o l) 4) (iss1.dataBytes 4 4))
        (lanes (iss1.active hdr)) (storeStart state1 o iss1)).isSome = true ∧
      (eachLane (storeLane1 iss1 2 (iss1.checks o.space) (fun t l => iss1.resolve t o.space .write l (iss1.memAddr o l) 4)
        fun _ => leBytes 4 (iss1.k.sreg 4).toNat) [0] (storeStart state1 o iss1)).isSome = true) ∧
    (let o : MemOp := { memOp with space := .window, addr := .s 1 }
     ∃ y ∈ (state1.window iss1.x.ctx (iss1.sval64 o.addr).toNat).toOption, (∀ l ∈ lanes (iss1.active hdr), y.winBusy 0 (winLane o 0 l) (winWords o) = false) ∧
       (eachLane (storeLane1 iss1 2 false (fun t l => (t, winResolve o y 0 l)) (iss1.dataBytes 4 4)) (lanes (iss1.active hdr))
         (storeStart state1 o iss1)).isSome = true) ∧ iss1.active hdrOff = 0 := by
  refine ⟨iss1_spec, ?_, ?_, .inl rfl, ?_⟩ <;> decide +kernel

/-- A returning and a non-returning atomic of one lane at address 0x100. -/
def atomRuns (o : AtmOp) : State :=
  inFold (·.setV 2 1 0x10100) (vreg 2 0x100 (inFrag (fun g => { g with exec := 3 }) (runs (.atom hdr o))))
def atomIss (o : AtmOp) : Iss := issOf (atomRuns o)
def atomWord (i : Iss) (o : AtmOp) (t : State) (l : Nat) : Option (State × Nat × Leaf) :=
  match i.resolve t .global (.atomic o.ret) l (i.atmAddr o l) o.ty.bytes with
  | (b, .ok [{ loc := .mem k, n := n, leaf := some p }]) =>
    if n = o.ty.bytes ∧ p.ml = false ∧ p.rp = false ∧ b.rangeBad k n = false then some (b, k, p) else none
  | _ => none
def atomReturns (i : Iss) (o : AtmOp) (t : State) (l : Nat) : Option (State × Nat × Nat) :=
  (atomWord i o t l).map fun (b, k, p) =>
    let old := ofLe (b.readAs (b.matOf p.crypt) k o.ty.bytes)
    let new := atomNew o.aop.toNat o.ty old (i.atmA o l) (i.atmB o l)
    ((if new = old then b else (b.writeAs (b.matOf p.crypt) k (leBytes o.ty.bytes new)).notify k o.ty.bytes).modCore i.x.core fun c =>
      { c with l1 := c.l1.filter (·.num ≠ k / 64) }, k, old)
def atomBuffers (i : Iss) (o : AtmOp) (grp : Nat) (t : State) (l : Nat) : Option (State × Nat) :=
  (atomWord i o t l).map fun (b, k, p) =>
    ({ b with pend := b.pend ++ [{ owner := i.owner, core := i.x.core, loc := .mem k,
                                   kind := .update o.aop.toNat o.ty (BitVec.ofNat 64 (i.atmA o l)) (BitVec.ofNat 64 (i.atmB o l)), grp := grp,
                                   visible := false, checked := false, mark := none, managed := false, key := p.crypt }] }, k)
theorem meets_AtomicAccesses : AtmTy.ty .n64 = .n64 ∧ (∀ t ∈ [AtmTy.s32, .n32, .s64, .n64], t.ty.isInt = true) ∧ Ty.signed .n32 = false ∧
    (∀ o ∈ [atmOp, { atmOp with ret := false, data := 0 }],
      (atomRuns o).issuer.isSome = true ∧
      let i := atomIss o
      let start : State := { (atomRuns o) with nextId := (atomRuns o).nextId + 1 }
      i.k.replayFid = none ∧ o.ord = .plain ∧ lanes (i.active hdr) = [0, 1] ∧ (atomRuns o).pend = [] ∧ (atomRuns o).groups = [] ∧
      (o.ret = true → ((eachLane (atomReturns i o) [0, 1] start).map fun q => q.2.map (·.2.1)) = some [0x40000100, 0x40010100]) ∧
      (o.ret = false → ((eachLane (atomBuffers i o (atomRuns o).nextId) [0, 1] start).map fun q => q.2.map (·.2)) = some [0x40000100, 0x40010100])) ∧
    (atomRuns atmOp).lineKey = [] ∧ (∀ id, (atomRuns atmOp).matOf id = none) ∧ Memory.wf (atomRuns atmOp).mem = true :=
  ⟨rfl, by decide, by decide, by decide +kernel, by decide +kernel, fun id => by
    unfold State.matOf State.material
    rw [show (atomRuns atmOp).firm.keys = [] from by decide +kernel]
    split <;> rfl, by decide +kernel⟩

/-- A `WAITA` of one lane on the zero word at 0x100, for equality with 0 and with 1; waits in progress, one at its deadline. -/
def waitOp : AtmOp := { atmOp with opb := .s 1, ord := .acq, scope := .device, opa := .c 0 }
def waitRuns (o : AtmOp) : State := vreg 2 0x100 (oneLane (runs (.waita hdr o)))
def lane0 (o : AtmOp) : WaitLane := { lane := 0, addr := 0x100, line := 0x1000004, a := if o.opa = .c 0 then 0 else 1, last := 0 }
def waitingAt (o : AtmOp) : State := parked (.waita [lane0 o] (some 0)) { waitRuns o with cur := none }
/-- The same lane in the watch table of its die, written since it was entered. -/
def wokenAt (o : AtmOp) : State := { waitingAt o with watch := [{ die := 0, ctx := 0, line := 0x1000004, fold := 1, flock := 0, frag := 0, due := true, lane := none }] }
theorem meets_WaitsOnMemory : (waitRuns waitOp).issuer = some (issOf (waitRuns waitOp)) ∧ (issOf (waitRuns waitOp)).active hdrOff = 0 ∧
    (∀ o ∈ [waitOp, { waitOp with opa := .c 1 }],
      let i := issOf (waitRuns o)
      let q := overLanes (fun t l => i.waitRead o t l (i.atmAddr o l)) (lanes (i.active hdr)) (waitRuns o)
      i.k.replayFid = none ∧ i.active hdr ≠ 0 ∧ q.2.2 = [] ∧
      (q.2.1.map fun p => ({ lane := p.1, addr := (i.atmAddr o p.1).toNat, line := p.2.1, a := i.atmA o p.1, last := p.2.2 } : WaitLane)) = [lane0 o]) ∧
    waitCond 0 .s32 0 0 = true ∧ waitCond 0 .s32 0 1 = false ∧
    (∀ s ∈ [waitingAt waitOp, wokenAt waitOp],
     let i := issAt s 1 0 0
     (s.iss? 1 0 0).isSome = true ∧ i.x.run = .running ∧ i.k.stop = none ∧ i.k.replayFid = none ∧ i.g.park = .waita [lane0 waitOp] (some 0) ∧
       i.g.current = some (.waita hdr waitOp) ∧ 0 ≤ s.heart ∧ ((i.waitRead waitOp s 0 0x100).2).toOption = some (0x1000004, 0)) ∧
    (waitingAt waitOp).watchOf 1 0 0 0x1000004 = none ∧ ((wokenAt waitOp).watchOf 1 0 0 0x1000004).any (·.due) = true := by
  refine ⟨issuer_of _ (by decide +kernel), ?_, ?_, ?_, ?_, ?_, ?_⟩ <;> decide +kernel

/-- A store to a replicated page whose commit waits. -/
def commitHeld : Held := { s := [], m := [], lat := [], latOk := 0 }
def commitWaits : State :=
  (fun s => { s with mem := s.mem.map fun c => if c.1 = 0x60000 then (c.1, 0x5F) else c })
    (vreg 2 0x100 (oneLane (callWaits (.vst hdr { memOp with space := .global }) (.commit commitHeld))))
theorem meets_WaitsOnMemory_unanswered : (commitWaits.iss? 1 0 0).isSome = true ∧
    (let i := issAt commitWaits 1 0 0
     let r := i.resolve { commitWaits with nextId := commitWaits.nextId + 1 } .global .write 0 (i.memAddr memOp 0) 4
     let p : Leaf := { pte := 0x4000005F, lg := 16 }
     let t : Site := { loc := .mem 0x40000100, n := 4, leaf := some p }
     commitWaits.pend = [] ∧ i.x.run = .running ∧ i.k.stop = none ∧ i.g.park = .commit commitHeld ∧ i.g.current = some (.vst hdr { memOp with space := .global }) ∧
       i.k.replayFid = none ∧ memOp.toke = false ∧
       lanes (i.active hdr) = [0] ∧ r.2.toOption = some [t] ∧ p.rp = true ∧ (r.1.checkWrite i.owner (i.checks .global) t).isNone = true) ∧
    (∃ x, state1.fold? x.uid = some x) := ⟨by decide +kernel, by decide +kernel, ⟨iss1.x, by decide +kernel⟩⟩

/-! Engine jobs: record 3 on the first page of the record table, record 1023 on the second, the data of both on pages of their own. -/

/-- A record of `F32` elements at `base`, of rank 1 with `n` elements, or of rank 2 with rows of 16 and eight rows. -/
def rec1 (base n : Nat) : Line := BitVec.ofNat 512 (base + 9 * 2 ^ 128 + 2 ^ 133 + 2 ^ 143 + n * 2 ^ 192)
def rec2 (base : Nat) : Line := BitVec.ofNat 512 (base + 9 * 2 ^ 128 + 2 * 2 ^ 133 + 2 ^ 143 + 16 * 2 ^ 192 + 8 * 2 ^ 224 + 16 * 2 ^ 384)
def engRuns (w : Instr) (d e : Line) : State := put 0x10FC0 (leBytes 64 e.toNat) (put 0x10C0 (leBytes 64 d.toNat) (runs w))
def engOk (s : State) (tids : List Nat) (req : Iss → List Line → State × Except FInfo JobReq) : Bool :=
  let i := issOf s
  let r := (i.recAgent true).namedAll true tids i.s
  s.issuer.isSome && i.active hdr != 0 && i.active hdrOff == 0 && (i.s.freeCard i.x.core).isSome && i.s.poolFree != 0 &&
    (match r.2 with
     | .error _ => false
     | .ok l =>
       let c := req { i with s := r.1 } l
       match c.2 with
       | .error _ => false
       | .ok q => q.tagFolds == [1] && (c.1.fold? 1).any fun z => decide (0 < z.tags) && decide (0 < q.total))
def slot0 (s : State) : Option Fold := ((issOf s).s.window 0 0x400000).toOption

/-- Kind 0 moves the whole record, its largest extent; kinds 2 to 4, a gather, a collective and a multicast issue too. -/
theorem meets_EngineIssue_cpy : engOk (sreg 8 (64 * 2 ^ 32) (engRuns (.cpy hdr engOp) (rec1 0x2000 64) 0)) [3]
    (fun j l => failWith j.s (j.cpyReq engOp l none)) = true := by decide +kernel
def cpy2 : EngOp := { engOp with kind := 2, dst := 1023 }
theorem meets_EngineIssue_cpy2 : engOk (sreg 9 (2 ^ 32) (sreg 8 (2 ^ 32) (engRuns (.cpy hdr cpy2) (rec1 0x2000 64) (rec1 0x22000 64)))) [3, 1023]
    (fun j l => failWith j.s (j.cpyReq cpy2 l none)) = true := by decide +kernel
def cpy3 : EngOp := { engOp with kind := 3, dst := 20 }
def cpy3Runs : State := sreg 20 0x400000 (sreg 8 (2 ^ 32) (engRuns (.cpy hdr cpy3) (rec1 0x2000 64) 0))
theorem meets_EngineIssue_cpy3 : engOk cpy3Runs [3] (fun j l => failWith j.s (j.cpyReq cpy3 l (slot0 cpy3Runs))) = true ∧
    (slot0 cpy3Runs).isSome = true := by decide +kernel
def cpy4 : EngOp := { engOp with kind := 4, tid := 0, dst := 20 }
def cpy4Runs : State := sreg 20 0x400000 (sreg 8 (64 * 2 ^ 32) (engRuns (.cpy hdr cpy4) 0 0))
theorem meets_EngineIssue_cpy4 : engOk cpy4Runs [] (fun j l => failWith j.s (j.cpyReq cpy4 l (slot0 cpy4Runs))) = true ∧
    (slot0 cpy4Runs).isSome = true := by decide +kernel
def gathRuns (o : EngOp) : State :=
  sreg 20 0x400000 (sreg 11 (8 * 2 ^ 32) (sreg 10 (16 * 2 ^ 32) (sreg 9 1 (sreg 8 0x3000 (engRuns (.gath hdr o) (rec2 0x2000) 0)))))
theorem meets_EngineIssue_gath : engOk (gathRuns engOp) [3] (fun j l => failWith j.s (j.gathReq engOp l none)) = true ∧
    engOk (gathRuns cpy3) [3] (fun j l => failWith j.s (j.gathReq cpy3 l (slot0 (gathRuns cpy3)))) = true := by decide +kernel
def collOp : EngOp := { engOp with dst := 1023 }
/-- Two ranks, this device's the first, devices 0 and 5: the list of devices reads the line that the two numbers have brought near. -/
def collRuns : State := put 0x30000 [2, 0, 0, 0, 0, 0, 5, 0] (sreg 8 0x30000 (engRuns (.coll hdr collOp) (rec1 0x2000 64) (rec1 0x22000 64)))
def collNamed : State × Except FInfo (List Line) := ((issOf collRuns).agent false).namedAll true [3, 1023] collRuns
def collIss : Iss := { issOf collRuns with s := collNamed.1 }
def collHead : State × Except FInfo (List Byte) := (collIss.agent false).read collIss.s none 0x30000 4
theorem pair_of {α ε β : Type} {r : α × Except ε β} {v : β} (h : r.2.toOption = some v) : r = (r.1, .ok v) := by rw [← ok_of h]
theorem collHead_eq : collHead = (collHead.1, .ok [2, 0, 0, 0]) := pair_of (by decide +kernel)
theorem collReq_of {i : Iss} {o : EngOp} {d e : Line} {a : Nat} {s t u : State} {b1 b2 : List Byte} (ha : (i.k.sreg o.cb.toNat).toNat = a) (h64 : a % 64 = 0)
    (h0 : (i.agent false).read i.s none a 4 = (s, .ok [2, 0, 0, 0])) (h1 : (i.agent false).read s none (a + 4) 2 = (t, .ok b1))
    (h2 : (i.agent false).read t none (a + 6) 2 = (u, .ok b2))
    (ok : recTy d = recTy e ∧ collTypes.contains (recTy d) = true ∧ recPlane d = false ∧ recPlane e = false ∧
      collCounts o.kind.toNat 2 (boxCount (wholeBox d)) (boxCount (wholeBox e)) = true) :
    ∃ q, i.collReq o [d, e] = (u, .ok q) ∧ q.tagFolds = [i.x.uid] ∧ q.total = boxCount (wholeBox e) := by
  refine ⟨{
      kind := .coll, recs := [d, e], vals := [2, 0, BitVec.ofNat 64 (ofLe b1), BitVec.ofNat 64 (ofLe b2)], tagFolds := [i.x.uid]
      reads := [boxFoot d (wholeBox d)], writes := [boxFoot e (wholeBox e)], total := boxCount (wholeBox e) }, ?_, rfl, rfl⟩
  obtain ⟨p, q, r, v, w⟩ := ok
  unfold Iss.collReq
  rw [ha]
  simp only [h64, h0, ne_eq, not_true_eq_false, if_false]
  rw [show ofLe (List.take 2 [(2 : Byte), 0, 0, 0]) = 2 from by decide, show ofLe (List.drop 2 [(2 : Byte), 0, 0, 0]) = 0 from by decide,
    show List.range 2 = [0, 1] from rfl]
  have q' : recTy d ∈ collTypes := by simpa using q
  simp [eachOf, andThen, h1, h2, ← p, q', r, v, w]
theorem collHead_serves : collHead.1.Serves (collIss.agent false).core (collIss.agent false).ctx [0x30004, 0x30006] { pte := 0x4003001F, lg := 16 } := serves_of (by decide +kernel)
theorem meets_EngineIssue_coll : collRuns.issuer = some (issOf collRuns) ∧ (issOf collRuns).active hdr ≠ 0 ∧ ((issOf collRuns).s.freeCard 0).isSome = true ∧
    (issOf collRuns).s.poolFree ≠ 0 ∧ collNamed.2.toOption = some [rec1 0x2000 64, rec1 0x22000 64] ∧ collOp.tag.toNat < 2 ∧
    ∃ c q, collIss.collReq collOp [rec1 0x2000 64, rec1 0x22000 64] = (c, .ok q) ∧ q.tagFolds = [1] ∧ q.total = 64 ∧
      ∀ z, c.fold? 1 = some z → z.tags = 64 := by
  refine ⟨issuer_of _ (by decide +kernel), by decide +kernel, by decide +kernel, by decide +kernel, by decide +kernel, by decide, ?_⟩
  have hp : collHead.1.pend = [] := by decide +kernel
  have hg : collHead.1.groups = [] := by decide +kernel
  obtain ⟨t, b1, r1, s1, v1⟩ := (collIss.agent false).read_answers collHead_serves (va := 0x30004) (n := 2) (by decide) (by decide +kernel) hp hg
    (by decide) (by decide) (by decide) (by decide) (by decide) (by decide +kernel) (by decide +kernel)
  obtain ⟨u, b2, r2, s2, _⟩ := (collIss.agent false).read_answers v1 (va := 0x30006) (n := 2) (by decide) (by decide +kernel)
    (s1.pend.trans hp) (s1.groups.trans hg) (by decide) (by decide) (by decide) (by decide) (by decide)
    (by rw [s1.homeAnswers]; decide +kernel) (by rw [s1.rangeBad]; decide +kernel)
  have hz : ∀ z, u.fold? 1 = some z → z.tags = 64 := fun z h => by
    have f : u.folds = collHead.1.folds := s2.folds.trans s1.folds
    have all : (collHead.1.folds.all fun x => x.tags == 64) = true := by decide +kernel
    rw [State.fold?, f] at h
    simpa using List.all_eq_true.mp all z (List.mem_of_find?_eq_some h)
  obtain ⟨q, hq, h1, h2⟩ := collReq_of (i := collIss) (o := collOp) (d := rec1 0x2000 64) (e := rec1 0x22000 64) (a := 0x30000) (by decide +kernel) (by decide) collHead_eq r1 r2
    (by decide +kernel)
  have hu : collIss.x.uid = 1 := by decide +kernel
  have hn : boxCount (wholeBox (rec1 0x22000 64)) = 64 := by decide +kernel
  exact ⟨u, q, hq, by rw [h1, hu], by rw [h2, hn], hz⟩

def cpymOp : EngOp := { engOp with mcg := 1 }
def cpymRuns : State := sreg 8 (64 * 2 ^ 32) (engRuns (.cpym hdr cpymOp) (rec1 0x2000 64) 0)
theorem meets_EngineIssue_cpym : engOk cpymRuns [3] (fun j l => failWith j.s (j.cpymReq cpymOp l)) = true ∧
    (issOf cpymRuns).s.mcHeld 0 [1] = false ∧ (issOf (inFold (fun x => { x with tagReady := 1 }) cpymRuns)).s.mcHeld 0 [1] = true ∧
    (let s := parked .multicast { cpymRuns with cur := none }
     let i := issAt s 1 0 0
     (s.iss? 1 0 0).isSome = true ∧ i.x.run = .running ∧ i.k.stop = none ∧ i.g.park = .multicast ∧ i.g.current = some (.cpym hdr cpymOp)) := by
  decide +kernel

/-- A card of a job of `n` elements of which `k` are done. -/
def card (kind : JobKind) (n k : Nat) (vals : List W64) (recs : List Line) : Card :=
  { cid := 5, idx := 0, core := 0, fold := 1, ctx := 0, kind := kind, word := 0, o := engOp, recs := recs, vals := vals, tagFolds := [1], tok := none,
    party := 2, reads := [], writes := [], done := k, ahead := [], total := n, error := false, stop := none }
/-- No lane, and a record that cannot be read. -/
theorem meets_EngineIssue_off : (let s := { engRuns (.cpy hdrOff engOp) (rec1 0x2000 64) 0 with badTiles := [0x400010C0 / 2048] }
    let i := issOf s
    s.issuer.isSome = true ∧ i.active hdrOff = 0 ∧
      (match (i.recAgent false).namedAll false [3] i.s with
       | (_, .error f) => f.cause == .memError
       | _ => false) = true) := by decide +kernel
def allCards (s : State) (l : List Card) : State := { s with cards := s.cards ++ l, inUse := s.inUse ++ l.map (·.party.toNat) }
/-- No free card: the 64 cards of the core are taken. -/
theorem meets_EngineIssue_full : (issOf (allCards cpymRuns ((List.range 64).map fun j => { card .cpy 1 0 [] [] with cid := 5 + j, idx := j }))).s.freeCard 0 = none := by
  decide +kernel
/-- A box that fills its record, one past it, and an empty one. -/
theorem meets_EngineIssue_box : recRank (rec1 0x2000 64) = 1 ∧ recMx (rec1 0x2000 64) = false ∧ recPlane (rec1 0x2000 64) = false ∧
    boxOk (rec1 0x2000 64) [(0, 64)] = true ∧ boxOk (rec1 0x2000 64) [(1, 64)] = false ∧ boxOk (rec1 0x2000 64) [(0, 0)] = false ∧
    (let i := issOf (sreg 8 (64 * 2 ^ 32) state1)
     (i.cpyReq engOp [rec1 0x2000 64] none).toOption.isSome = true ∧ (i.cpyReq { engOp with kind := 1 } [rec1 0x2000 64] none).toOption.isSome = true) := by
  decide +kernel

def chunkIn (e d : Bool) : ChunkIn := { error := e, disagree := d, peers := [[0]] }
def jobState (c : Card) : State := allCards { runs .nop with cur := none } [c]
def jobOk (c : Card) : Bool :=
  let s := jobState c
  s.card? 5 == some c && c.kind != .arr && c.stop == none && c.part.isEmpty && !s.heldBack c && !s.unmatched c && !s.targetGone c &&
    (match s.fold? c.fold with | none => false | some x => x.run == .running && x.resident && !x.run.away)
/-- The same record with `F16` elements. -/
def f16 (d : Line) : Line := d ^^^ BitVec.ofNat 512 (3 * 2 ^ 128)
def cpyCard : Card := card .cpy 64 63 [64 * 2 ^ 32] [f16 (rec1 0x2FF81 64)]
def gathCard : Card := card .gath 16 15 [0x12000, 1, 16 * 2 ^ 32, 8 * 2 ^ 32] [f16 (rec2 0x2FFE1)]
def collCard : Card := card .coll 64 63 [2, 1] [f16 (rec1 0x2FF81 64), f16 (rec1 0xFF81 64)]
/-- The last element of a job of each kind; and a job whose elements are all done. -/
theorem meets_EngineProgress : jobOk cpyCard = true ∧ cpyCard.done < cpyCard.total ∧
    (∀ c ∈ [cpyCard, gathCard, collCard], jobOk c = true ∧
      (((jobState c).chunkWork c (chunkIn false false)).2.toOption.any fun r => r = (c.total, none)) = true ∧
      c.done < c.total ∧ c.dying = false ∧ c.done < c.items ∧ c.past (c.elemOf c.done) = false ∧ ((jobState c).chunkWork c (chunkIn false false)).1.cards = (jobState c).cards ∧
      (((jobState c).takeItem c (chunkIn false false) c.done).2.toOption.any fun e => e.out.isNone) = true ∧
      ((jobState c).takeItem c (chunkIn false false) c.done).1.cards = (jobState c).cards) ∧
    (chunkIn false false).only = none ∧ jobOk (card .cpy 64 64 [] []) = true ∧ (jobState (card .cpy 64 64 [] [])).owed (card .cpy 64 64 [] []) = false ∧ (jobState cpyCard).phaseOf 2 ≠ 0xFFFF ∧ (2 : BitVec 16).toNat ∈ (jobState cpyCard).inUse ∧
    (chunkIn true false).error = true ∧ (chunkIn false true).disagree = true := by
  decide +kernel

/-- The last element of a copy read alone, as it is to be written; and the same job with its fold killed. -/
def takenCard : Card := { cpyCard with part := [{ item := 63, els := [(63, 0)], scs := [], wrote := [] }] }
def onlyIn : ChunkIn := { chunkIn false false with only := some 63 }
theorem meets_EngineProgress_item : (jobState takenCard).card? 5 = some takenCard ∧ takenCard.dying = false ∧ (jobState takenCard).heldBack takenCard = false ∧
    onlyIn.only = some 63 ∧ 63 < takenCard.items ∧ takenCard.past (takenCard.elemOf 63) = false ∧ takenCard.places.length = 1 ∧
    (takenCard.part.all fun m => ((jobState takenCard).putItem takenCard m 0).2.toOption.isSome &&
      ((jobState takenCard).putItem takenCard m 0).1.cards == (jobState takenCard).cards) = true ∧
    (let c : Card := { card .cpy 1 0 [2 ^ 32] [f16 (rec1 0x2FF81 64)] with dying := true, part := [{ item := 0, els := [(0, 0)], scs := [], wrote := [] }] }
     let d : Card := { c with done := c.elemOf 0 / c.chunk * c.chunk }
     (jobState c).card? 5 = some c ∧ c.kind ≠ .arr ∧ c.stop = none ∧ c.done < c.total ∧ c.elemOf 0 < c.total ∧
       (((jobState c).chunkWork d (chunkIn false false)).2.toOption.any fun r => r.2 == none) = true ∧
       ((jobState c).chunkWork d (chunkIn false false)).1.cards = (jobState c).cards) := by
  decide +kernel

/-- A chunk from the scratchpad to the scratchpad window of the same fold, and elements of one byte at an address and at its home. -/
def winCard : Card := { card .cpy 64 0 [0, 0x400000] [] with o := { engOp with kind := 4, tid := 0 } }
def code8 (base n : Nat) : Line := rec1 base n ^^^ BitVec.ofNat 512 (5 * 2 ^ 128)
def unit1 : Agent := { owner := .card 5, core := 0, ctx := 0, check := false, l1 := false, who := none }
theorem meets_EngineProgress_moves :
    (∀ c ∈ [winCard, cpyCard], (jobState c).card? 5 = some c ∧ (jobState c).chunkReady c = true ∧ (jobState c).targetGone c = false ∧ (jobState c).pend = [] ∧
      (jobState c).groups = [] ∧ c.part = [] ∧ (chunkIn false false).error = false ∧ c.kind = .cpy ∧ ((jobState c).nextChunk c).1 = c.done) ∧
    (∃ x, (jobState winCard).fold? 1 = some x ∧ (jobState winCard).raceOn x.gid = false ∧ x.uid = 1 ∧ Map.wf 0 x.v = true ∧ Map.wf 0 x.scr = true ∧
      Map.wf 0 x.acc = true) ∧
    winCard.o.kind = 4 ∧ winCard.tagFolds = [1] ∧ winRegion 0x400000 < 3 ∧
    (let d := f16 (rec1 0x2FF81 64)
     cpyCard.o.kind = 0 ∧ cpyCard.recs = [d] ∧ recPlane d = false ∧ recMx d = false ∧ recBits d % 8 = 0 ∧
       ((((jobState cpyCard).cardAgent cpyCard).loadBox 3 d (rangesOf (cpyCard.vals.take (recRank d))) cpyCard.elems (jobState cpyCard)).2.toOption.any
         fun r => r.2 = []) = true) ∧
    (let d := code8 0x2000 64
     let p : Leaf := { pte := 0x4000001F, lg := 16 }
     let site : Site := { loc := .mem 0x40002005, n := 1, leaf := some p }
     recPlane d = false ∧ recBits d = 8 ∧ recBase d = 0x2000 ∧ p.ml = false ∧ p.rp = false ∧ p.crypt = 0 ∧
     ∀ a ∈ [Acc.read, .write],
       let r := unit1.sites (jobState winCard) (residOf 3 d) a (recBase d + 5) 1
       r.2.toOption = some [site] ∧ r.1.pend = [] ∧ r.1.groups = [] ∧ r.1.lineKey = [] ∧ Memory.wf r.1.mem = true ∧ r.1.rangeBad 0x40002005 1 = false ∧
         r.1.takes 0 0x40002005 = true) := by
  refine ⟨?_, ⟨(jobState winCard).folds.headD fold1, ?_⟩, ?_⟩ <;> decide +kernel
/-- A chunk whose source lies in a tile that an uncorrectable error has cut off. -/
def badCard : Card := card .cpy 64 63 [64 * 2 ^ 32] [f16 (rec1 0x2FF81 64)]
theorem meets_EngineProgress_fails : jobOk badCard = true ∧
    (match ((fun s : State => { s with badTiles := [0x4002FFFF / 2048] }) (jobState badCard)).chunkWork badCard (chunkIn false false) with
     | (_, .error f) => f.cause == .memError
     | _ => false) = true := by decide +kernel

def tidRuns (w : Instr) (d : Line) : State := put 0x10C0 (leBytes 64 d.toNat) (runs w)
theorem meets_TensorRecords :
    (∃ s, s = tidRuns (.tidr hdr engOp) (rec1 0x2000 64) ∧ s.issuer = some (issOf s) ∧ Runs (issOf s) hdr ∧
      (((issOf s).agent false).record s 3).2.toOption = some (rec1 0x2000 64)) ∧
    (let s := tidRuns (.tidw hdr engOp) 0
     let i := issOf s
     let r := (i.agent false).sites s none .write 0x10C0 64
     let p : Leaf := { pte := 0x4000001F, lg := 16 }
     s.issuer.isSome = true ∧ r.2.toOption = some (sitesAt p 0x400010C0 64) ∧ r.1.pend = [] ∧ r.1.lineKey = [] ∧ Memory.wf r.1.mem = true ∧
       p.ml = false ∧ p.rp = false ∧ p.crypt = 0 ∧ recValid 0 = false ∧ recValid (rec1 0x2000 64) = true ∧ recFormOk (rec1 0x2000 64) = true ∧
       recFormOk (rec1 0x2000 0) = false ∧ Map.wf Core.init r.1.cores = true) ∧
    (let s := tidRuns (.tidw hdr engOp) 0
     let i := issOf s
     let b := ((i.agent false).sites s none .write 0x10C0 64).1.release i.owner .device
     (((i.agent false).write { b with cores := [] } ((((i.agent false).sites s none .write 0x10C0 64).2.toOption).getD []) 0x10C0 (leBytes 64 0)).2.toOption).isSome = true) :=
  ⟨⟨_, rfl, issuer_of _ (by decide +kernel), .inl rfl, by decide +kernel⟩, by decide +kernel, by decide +kernel⟩

/-! The matrix stream. -/

def streamState (f : Stream → Stream) (s : State) : State :=
  { (inFold (fun x => { x with stream := some (f (Stream.create 0)) }) s) with cur := some (.stream 1) }
def seqOf (s : State) : Seq := s.sequencer.getD { s := state1, x := fold1, m := Stream.create 0 }
theorem sequencer_of (s : State) (h : s.sequencer.isSome = true) : s.sequencer = some (seqOf s) := by
  unfold seqOf; cases hs : s.sequencer <;> simp_all
def stream0 : State := streamState id state1
def zeroOp (d : Nat) : ArrayOp := { opc := 1, o := mtxOp, regs := [], recs := [], card := 5, kdone := d, rgdone := 0, stop := none }
def queued (a : ArrayOp) (s : State) : State := streamState (fun m => { m with queue := [a] }) s
def streamQ (c : W64) : Seq := seqOf (streamState (fun m => { m with q := Map.set 0 m.q 0 c }) state1)

/-- Counters 0, 1 and 2, the farthest targets on both sides, and the last scratchpad word that a program may load. -/
theorem meets_StreamInstructions_regs : stream0.sequencer = some (seqOf stream0) ∧ (streamQ 0).q 0 = 0 ∧ (streamQ 1).q 0 = 1 ∧ 2 ≤ (streamQ 2).q 0 ∧
    (0 : Int) ≤ (seqOf stream0).m.pc.toNat + (4095 : BitVec 13).toInt ∧ ((seqOf stream0).m.pc.toNat + (4095 : BitVec 13).toInt) < 2 ^ 55 ∧
    ((seqOf stream0).m.pc.toNat + (0x1FFF : BitVec 13).toInt) < 0 ∧ (seqOf stream0).m.queue = [] ∧ (seqOf (queued (zeroOp 0) state1)).m.queue ≠ [] ∧
    128 * (31 : BitVec 13).toNat + 8 * 16 ≤ (seqOf stream0).x.scrBytes ∧ (seqOf stream0).x.scrBytes < 128 * (32 : BitVec 13).toNat + 8 * 1 ∧
    stream0.raceOn (seqOf stream0).x.gid = false ∧ stream0.pend = [] ∧ stream0.groups = [] :=
  ⟨sequencer_of _ (by decide +kernel), by decide +kernel⟩

/-- The leader gives its flock all 128 rows, and one more than there are; then lanes at row 0 inside and outside a window. -/
def winIss (lim : BitVec 10) (s : State) : Iss := issOf (inFlock (fun k => { k with accLim := lim }) s)
theorem meets_StreamInstructions_window : state1.issuer = some iss1 ∧ Runs iss1 hdr ∧ iss1.x.leader = some iss1.fl ∧ (iss1.sval64 (.c 0)).toNat < iss1.x.flocks.length ∧
    (let w := scalarSecond iss1 { scOp with immsel := true, imm := 128 * 65536 + 128 }
     w.extractLsb' 0 10 ≤ w.extractLsb' 16 10 ∧ (w.extractLsb' 16 10).toNat ≤ iss1.x.accRows ∧ w.extractLsb' 10 6 = 0 ∧ w.extractLsb' 26 38 = 0) ∧
    ¬ ((scalarSecond iss1 { scOp with immsel := true, imm := 129 * 65536 }).extractLsb' 16 10).toNat ≤ iss1.x.accRows ∧
    ((lanes (iss1.active hdr)).filter fun l => !(decide (iss1.k.accBase.toNat ≤ iss1.raw32 (.c 0) l) && decide (iss1.raw32 (.c 0) l < iss1.k.accLim.toNat))) ≠ [] ∧
    (let i := winIss 1 state1
     ((lanes (i.active hdr)).filter fun l => !(decide (i.k.accBase.toNat ≤ i.raw32 (.c 0) l) && decide (i.raw32 (.c 0) l < i.k.accLim.toNat) &&
       decide (i.raw32 (.c 0) l < 256))) = [] ∧ lanes (i.active hdr) ≠ [] ∧ (∀ l ∈ lanes (i.active hdr), i.x.bankOwned (i.raw32 (.c 0) l / 128) = false)) ∧
    (let i := winIss 1 { queued (zeroOp 0) state1 with cur := some (.frag 1 0 0) }
     ∃ l ∈ lanes (i.active hdr), i.x.bankOwned (i.raw32 (.c 0) l / 128) = true) ∧ lanes (iss1.active hdrOff) = [] ∧ state1.pend = [] ∧ state1.groups = [] :=
  ⟨iss1_spec, .inl rfl, by decide +kernel⟩

/-- Barrier 0 with the stream and no flock, and with a flock that has not arrived; waits for a phase that has passed or not. -/
def streamBar (b : BarSt) (f : Stream → Stream) : State := streamState f (bar0 b state1)
def bothBar : BarSt := { BarSt.none with declared := true, stream := true }
theorem meets_StreamInstructions_barriers : (streamBar bothBar id).sequencer = some (seqOf (streamBar bothBar id)) ∧
    (stream0.bar (seqOf stream0).x 0).declared = false ∧ ((streamBar member1 id).bar (seqOf (streamBar member1 id)).x 0).stream = false ∧
    (let s := streamBar bothBar id
     let q := seqOf s
     let v := s.bar q.x 0
     v.declared = true ∧ v.stream = true ∧ s.pend = [] ∧ s.groups = [] ∧ q.x.wants = none ∧ Map.wf BarSt.none q.x.bars = true ∧ s.phaseOf q.m.party ≠ 0xFFFF ∧
       q.m.queue = [] ∧ v.streamArrived = false ∧ v.broken = false ∧ v.members &&& ~~~(v.arrived ||| v.permanent) = 0 ∧ q.m.waiting = none ∧
       Map.get 0 q.m.lastArr 0 = 0) ∧
    (let s := streamBar { bothBar with members := 1 } id
     (s.bar (seqOf s).x 0).members &&& ~~~((s.bar (seqOf s).x 0).arrived ||| (s.bar (seqOf s).x 0).permanent) ≠ 0) ∧
    ((streamBar { bothBar with streamArrived := true } id).bar (seqOf (streamBar { bothBar with streamArrived := true } id)).x 0).streamArrived = true ∧
    (seqOf (streamBar bothBar fun m => { m with waiting := some (0, 0xFFFF) })).m.waiting = some (0, 0xFFFF) ∧
    Map.get 0 (seqOf (streamBar bothBar fun m => { m with lastArr := [(0, 1)] })).m.lastArr 0 = 0 + 1 ∧
    Map.get 0 (seqOf (streamBar bothBar fun m => { m with lastArr := [(0, 0x10000)] })).m.lastArr 0 = 0xFFFF + 1 ∧
    (mtxOp.md.getLsbD 0 = false ∧ ({ mtxOp with md := 1 } : MtxOp).md.getLsbD 0 = true) :=
  ⟨sequencer_of _ (by decide +kernel), by decide +kernel⟩

/-- Operations of each kind on the last bank; a full queue; and records on pages of their own. -/
def arrRuns (d e : Line) : State := streamState id (engRuns .nop d e)
def arrOk (s : State) (tids : List Nat) (req : List Line → Except FInfo ArrayReq) : Bool :=
  let q := seqOf s
  s.sequencer.isSome && decide (q.m.queue.length < 4) && s.poolFree != 0 && (s.freeCard q.x.core).isSome &&
    (match ((q.agent false).namedAll true tids s).2 with | .error _ => false | .ok l => (req l).toOption.isSome)
def mx (d : Line) : Line := d ^^^ BitVec.ofNat 512 (7 * 2 ^ 128 + 2 ^ 141)
def mmaOp : MtxOp := { mtxOp with tida := 3, tidb := 1023, k := 8 }
theorem meets_ArrayUnit_issue : (let s := arrRuns (f16 (rec1 0x2000 64)) (f16 (rec1 0x22000 64))
     arrOk s [] (fun _ => .ok { recs := [], regs := [], reads := [], writes := [] }) = true ∧
     arrOk s [3, 1023] ((seqOf s).mmaReq false mmaOp) = true ∧ arrOk s [3] ((seqOf s).mstReq mmaOp) = true ∧ arrOk s [3] ((seqOf s).vecReq mmaOp) = true ∧
     (3 + 1) * 128 ≤ (seqOf s).x.accRows) ∧
    (let s := arrRuns (mx (rec1 0x2000 64)) (mx (rec1 0x22000 64))
     arrOk s [3, 1023] ((seqOf s).mmaReq true mmaOp) = true) ∧
    (seqOf stream0).x.accRows < (1 + 1) * 128 ∧ 4 ≤ (seqOf (streamState (fun m => { m with queue := List.replicate 4 (zeroOp 0) }) state1)).m.queue.length := by
  decide +kernel

/-- `MZERO` and `MSCALE` at the head of the queue, not done and done. -/
def scaleOp : ArrayOp := { zeroOp 0 with opc := 5, o := { mtxOp with tida := 3 }, regs := [0], recs := [f16 (rec1 0x2FFFF 1)] }
def headSeq (a : ArrayOp) : Seq := (State.seq? (queued a (runs .nop)) 1).getD (seqOf stream0)
theorem meets_ArrayUnit_work :
    (∀ a ∈ [zeroOp 0, scaleOp, zeroOp 1],
      (queued a (runs .nop)).seq? (headSeq a).x.uid = some (headSeq a) ∧ (headSeq a).m.queue = a :: [] ∧ a.stop = none ∧ (headSeq a).x.run = .running ∧
        (queued a (runs .nop)).cards = [] ∧ Map.wf 0 (headSeq a).x.acc = true) ∧
    (zeroOp 0).isDone = false ∧ scaleOp.isDone = false ∧ (zeroOp 1).isDone = true ∧
    (let r := (queued scaleOp (runs .nop)).vecVals (headSeq scaleOp).x scaleOp
     r.2.toOption.isSome = true ∧ r.1.folds = (queued scaleOp (runs .nop)).folds) := by
  decide +kernel

/-- An `MMA` of two records of one element each, and an `MST` to one, whose elements lie across the ends of pages. -/
def mmaStep : ArrayOp :=
  { zeroOp 0 with opc := 2, o := { mtxOp with tida := 3, tidb := 1023, k := 1 }, regs := [0, 0], recs := [f16 (rec1 0x2FFFF 1), f16 (rec1 0xFFFF 1)] }
def mstStep : ArrayOp := { zeroOp 0 with opc := 4, o := { mtxOp with tida := 3 }, regs := [0], recs := [f16 (rec1 0x2FFFF 1)] }
theorem meets_ArrayUnit_progress :
    (∀ a ∈ [mmaStep, mstStep], a.isDone = false ∧ (queued a (runs .nop)).seq? (headSeq a).x.uid = some (headSeq a) ∧ (headSeq a).m.queue = a :: []) ∧
    (let s := queued mmaStep (runs .nop)
     let u := s.arrayAgent (headSeq mmaStep).x mmaStep
     let ra := mmaStep.recs.headD 0
     let rb := (mmaStep.recs[1]?).getD 0
     let ks := List.range (1 * depth (recTy ra))
     let p := eachOf (fun t i => eachOf (fun v k => u.tileVal v 3 ra [0] (dropA mmaStep.o) (startAt [0] ra 0 + k) (startAt [0] ra 1 + i)) ks t) (List.range 16) s
     let r := eachOf (fun t j => eachOf (fun v k => u.tileVal v 1023 rb [0] (dropB mmaStep.o) (startAt [0] rb 0 + k) (startAt [0] rb 1 + j)) ks t) (List.range 256) p.1
     recRank ra = 1 ∧ mmaStep.rgdone < 8 ∧ p.2.toOption.isSome = true ∧ r.2.toOption.isSome = true ∧ r.1.folds = s.folds) ∧
    (let s := queued mstStep (runs .nop)
     let x := (headSeq mstStep).x
     let d := mstStep.recs.headD 0
     let xs := ((List.range 256).filter fun j => decide (startAt [0] d 1 + 0 < sizeAt d 1) && decide (startAt [0] d 0 + j < sizeAt d 0)).map fun j =>
       (j, (fmtOf .f32).value (x.accW 0 j).toNat)
     let codes := rowCodes x (recTy d) 0 false (xs.map fun p => (p.1, p.2.mul (.pow2 0))) (headSeq mstStep).m.qsr
     let r := eachOf (fun t p => (s.arrayAgent x mstStep).writeElem t 3 d (tileElem [0] d (startAt [0] d 0 + p.1) (startAt [0] d 1 + 0)) p.2) codes.1 s
     recMx d = false ∧ mstStep.o.md.getLsbD 5 = false ∧ codes.1.length = 1 ∧ r.2.toOption.isSome = true ∧ r.1.folds = s.folds ∧
       (s.mstRow x (headSeq mstStep).m mstStep).2.toOption.isSome = true ∧ (s.mstRow x (headSeq mstStep).m mstStep).1.folds = s.folds) := by
  refine ⟨?_, ?_, ?_⟩ <;> decide +kernel

/-! Launches, folds and the dispatcher. -/

def lrec1 : LaunchRec :=
  { width := 16, resident := false, contain := true, race := false, prio := 0, clo := 0, chi := 7, regs := 8, fold := 16, scr := 0, acc := 0, pad := 1,
    tags := 0, fentry := 0, mentry := none, rentry := none, rmentry := none, cbase := 0, badr := 0, nbar := 0, tidlo := 0, tidn := 0,
    hw := List.replicate 8 0, pmap := 0, pmapn := 0, argsz := 0, ibt := 0, coid := 0, priv := 4096 }
/-- A grid of `n` folds whose completion word stands on the second page. -/
def grid (n : Nat) : Grid :=
  { gid := 9, ctx := 0, queue := 1, lrec := lrec1, lrecAddr := 0, paddr := 0, bars := [], pmap := [], gx := n, gy := 1, gz := 1, cword := 0x10000, irq := true,
    msix := 3, dom := false, args := 0x20000, seed := 0, prev := none, nextF := n, ended := 0, foldKilled := false, killed := false, since := 0, age := 0,
    failed := none, reserved := [], resumes := [] }
def gridState (g : Grid) (f : Fold → Fold) : State :=
  { inFold (fun x => f { x with gid := 9, pad := 8 }) (runs .nop) with grids := [g], cur := none, nextId := 10 }
def foldOf (s : State) : Fold := (s.fold? 1).getD fold1
def settles (c : Nat) (s : State) : State := s.modCluster c fun x => { x with settling := true }

theorem meets_FoldLifetime_start :
    (let s := gridState (grid 1) fun x => { x with run := .placed }
     s.fold? (foldOf s).uid = some (foldOf s) ∧ s.grid? (foldOf s).gid = some (grid 1) ∧ (grid 1).lrec.resident = false ∧
       s.folds.filter (fun y => y.pad == (foldOf s).pad) = [foldOf s] ∧ (foldOf s).run = .placed ∧ (s.cluster ((foldOf s).core / 8)).settling = false ∧
       ((settles 0 s).cluster ((foldOf s).core / 8)).settling = true) ∧
    (let g : Grid := { grid 1 with lrec := { lrec1 with argsz := 57, rentry := some 8 } }
     let s := put 0x20000 [5] (gridState g fun x => { x with run := .placed })
     let x := foldOf s
     x.roll = none ∧ x.preqAfter = false ∧ (∀ y ∈ s.folds, y.uid = x.uid → y = x) ∧ g.lrec.rentry ≠ none ∧ x.stream = none ∧
     ∀ n < 2,
       let roll : Option W64 := if n = 0 then none else some 7
       let a : State := s.acquire x.core .device
       let b : State := { a with folds := a.folds.map fun y => if y.uid = x.uid then
         { y with run := .running, roll := roll, flocks := y.flocks.map fun k => match roll, g.lrec.rentry with
           | some n, some e => { k with ckpt := some n, frags := k.frags.map fun f => { f with pc := e } }
           | _, _ => k } else y }
       (b.argWords g).2.toOption = some [5, 0, 0, 0, 0, 0, 0] ∧ (b.argWords g).1.folds = b.folds ∧ (a.fold? x.uid).isSome = true) ∧
    (let s := gridState (grid 2) fun x => { x with run := .placed }
     s.pend = [] ∧ s.clusters = [] ∧ (s.cluster 0).settling = false ∧ (s.cluster 0).rdv = none ∧
       ∃ y ∈ ({ s with folds := s.folds ++ [{ foldOf s with uid := 4 }] } : State).folds, y.gid = (foldOf s).gid ∧ y.uid ≠ (foldOf s).uid) := by
  decide +kernel

/-- The last fold of its grid, of two with no interrupt and a fold killed, and one of two of its grid. -/
def ends (k : Fold) : Fold := { k with flocks := k.flocks.map fun f => { f with frags := [], party := 2 } }
theorem meets_FoldLifetime_end :
    (let s := { gridState (grid 1) ends with inUse := [2] }
     let x := foldOf s
     s.fold? x.uid = some x ∧ s.grid? x.gid = some (grid 1) ∧ x.run = .running ∧ (∀ k ∈ x.flocks, k.frags = []) ∧ x.flocks ≠ [] ∧
       x.stream = none ∧ (∀ c ∈ s.cards, c.fold ≠ x.uid) ∧ s.pend = [] ∧ s.groups = [] ∧ (∀ k ∈ x.flocks, k.party.toNat ∈ s.inUse) ∧
       (∀ y ∈ s.folds, y.gid = x.gid → y.uid = x.uid) ∧ (grid 1).killed = false ∧ (grid 1).gx * (grid 1).gy * (grid 1).gz ≤ (grid 1).ended + 1 ∧
       (grid 1).lrec.ibt = 0 ∧ (s.unitWrite 0 0x10000 (leBytes 8 ((if (grid 1).foldKilled then 1 else 0) + s.heart % 2 ^ 56 * 2 ^ 8))).toOption.isSome = true) ∧
    (let s := gridState (grid 2) ends
     let t : State := { s with folds := s.folds ++ [{ foldOf s with uid := 4 }] }
     t.fold? 1 = some (foldOf s) ∧ ∃ y ∈ t.folds, y.gid = (foldOf s).gid ∧ y.uid ≠ 1) := by
  decide +kernel

/-- No head; a head that fits nowhere (no cluster is open to its points); one that fits. -/
def headState (g : Grid) : State := { State.reset with grids := [g], nextId := 10, dies := [] }
def openState (g : Grid) : State := (List.range 3).foldl (fun s d => s.modDie d fun x => { x with cur := 0, target := 0 }) (headState g)
def head1 : Grid := { grid 2 with nextF := 1 }
theorem meets_DispatcherAndRotation_place : (headState (grid 1)).heads = [] ∧
    (let g : Grid := { head1 with lrec := { lrec1 with hw := List.replicate 8 0, regs := 8, fold := 2 ^ 20 } }
     (openState g).heads = [g] ∧ (openState g).placeUnit g [] = none) ∧
    (let s := openState head1
     s.heads = [head1] ∧ head1.resumes = [] ∧ (∀ y ∈ s.folds, y.uid < s.nextId) ∧ lrec1.fold / lrec1.width + 1 ≤ s.poolFree ∧
       Map.wf Cluster.init s.clusters = true ∧
       (let a : State := { s with
          nextId := s.nextId + 1, paddocks := s.paddocks ++ [{ pid := s.nextId, gid := head1.gid, bars := padBars head1.bars 1 }] }
        (a.bestSpot lrec1 lrec1.need (a.padClusters head1 [] [.fresh head1.nextF])).isSome = true)) := by
  decide +kernel

/-- A head that has failed, at its next age point, which is due, and one tick before it. -/
theorem meets_DispatcherAndRotation_due :
    (let g : Grid := { head1 with age := 7, failed := some 10 }
     (openState g).heads = [g] ∧ g.failed = some 10 ∧ 10 + 625 * (g.age + 1) ≤ 5010 ∧ 5009 < 10 + 625 * (g.age + 1) ∧
       ({ openState g with heart := 5010 } : State).heads = [g] ∧ ({ openState g with heart := 5009 } : State).heads = [g]) ∧
    (∀ f ∈ head1.failed, (openState head1).heart < f + 625 * (head1.age + 1)) := by decide +kernel

/-- Age 7, whose point is the eighth, at its tick and one before; the last die, with cluster 0 occupied and the others empty. -/
theorem meets_DispatcherAndRotation_age :
    (let g : Grid := { head1 with age := 7, failed := some 10 }
     let s : State := { openState g with heart := 5010 }
     s.grid? g.gid = some g ∧ 10 + 625 * (g.age + 1) ≤ s.heart ∧ 5009 < 10 + 625 * (g.age + 1)) ∧
    (let s := openState head1
     (s.die 2).rotms ≠ 0 ∧ (s.die 2).cur < 6 ∧ 6 ≤ ((s.modDie 2 fun x => { x with cur := 6 }).die 2).cur ∧ ((s.modDie 2 fun x => { x with rotms := 0 }).die 2).rotms = 0 ∧ (s.die 2).rotbusy = false ∧ (s.die 2).map.length = 18 ∧
       Map.wf Die.init s.dies = true ∧
       (let t : State := { s with folds := [{ fold1 with core := 288 }] }
        ((List.range 18).filter fun j => (t.foldsOnCluster (2 * 18 + ((t.die 2).map[j]?).getD 0)).isEmpty) = (List.range 17).map (· + 1)) ∧
       (let t : State := { s.modDie 2 fun x => { x with rotbusy := true } with folds := [{ fold1 with core := 288 }] }
        (t.die 2).rotms ≠ 0 ∧ (t.die 2).cur < 6 ∧ (t.die 2).rotbusy = true ∧ (t.die 2).map = List.range 18 ∧ Map.wf Die.init t.dies = true ∧
          (t.folds.map (·.uid)).Nodup ∧ t.clusters = [] ∧ (t.cluster 0).rdv = none ∧ (t.die 2).map[0]? = some 0 ∧ (t.die 2).map[(0 + 1) % 18]? = some 1 ∧
          ∃ x ∈ t.folds, x.run = .running ∧ x.wants = none ∧ x.core / 8 = 18 * 2 + 0 ∧ x.core / 144 ≠ 1)) := by
  decide +kernel

/-! Queues. -/

def queue1 : Queue :=
  { base := 0x30000, logn := 6, prio := 0, devq := false, enable := true, ctx := 0, qnum := 0, widx := 0x8, ridx := 0x10000, err := false, ecause := 0,
    wseen := 70, read := 69, pre := [], waiting := none, waits := false, prevLaunch := none }
def queueState (f : Queue → Queue) (s : State) : State := { s with cur := none }.setQueue 5 (some (f queue1))
def queued1 (p : Line) (s : State) : State := queueState (fun x => { x with pre := [p] }) s
/-- An address of context 0 that no entry maps. -/
def hole : Nat := 0x40000

theorem meets_QueueWork_index : (∀ w ∈ [0, 69, 70, 133, 134], (let s := queueState id (put 8 (leBytes 8 w) (runs .nop))
     s.queue 5 = some queue1 ∧ (s.ctx queue1.ctx).any (fun c => !c.error) = true ∧ (s.unitRead queue1.ctx queue1.widx 8).2.toOption = some (leBytes 8 w) ∧ ofLe (leBytes 8 w) = w)) ∧
    133 = queue1.read + 2 ^ queue1.logn ∧
    (let s := queueState (fun x => { x with widx := hole }) (runs .nop)
     (s.unitRead 0 hole 8).2.toOption = none) := by decide +kernel

def pkt (kind rest : Nat) : Line := BitVec.ofNat 512 (kind + rest)
def packetMeets (p : Line) (s : State) : Bool :=
  let s := queued1 p s
  s.queue 5 == some { queue1 with pre := [p] } && (s.ctx 0).any (fun c => !c.error) && s.grids.all (·.queue != 5) &&
    (({ s with draws := 0 } : State).unitWrite 0 queue1.ridx (leBytes 8 (queue1.read + 1))).toOption.isSome
/-- Each kind with the largest values that its fields hold, the least reserved kind, and layouts that are broken. -/
theorem meets_QueueWork_packets :
    (∀ k ∈ [0, 7, 3], packetMeets (pkt k 0) (runs .nop) = true) ∧
    (∀ k ∈ [4, 5, 6], pktOk (pkt k (2 ^ 63)) = false) ∧ (∀ k ∈ [1, 2], pktOk (pkt k (2 ^ 511)) = false) := by decide +kernel
def wait1 : Line := pkt 4 (2 ^ 64 * 0x1FFFC + 2 ^ 128)
theorem meets_QueueWork_waitmem : packetMeets wait1 (runs .nop) = true ∧ pktOk wait1 = true ∧
    (let s := queued1 wait1 (put 0x1FFFC [1] (runs .nop))
     let r := s.unitRead 0 0x1FFFC 4
     r.2.toOption = some (leBytes 4 1) ∧ r.1.queues = s.queues) ∧ waitCond 0 .n32 1 1 = true ∧ waitCond 0 .n32 1 2 = false := by decide +kernel
def signal1 : Line := pkt 5 (2 ^ 12 + 2 ^ 64 * 0x2FFF8 + 2 ^ 128 * (2 ^ 64 - 1))
theorem meets_QueueWork_signal : packetMeets signal1 (runs .nop) = true ∧ pktOk signal1 = true ∧
    ((queued1 signal1 (runs .nop)).unitWrite 0 0x2FFF8 (leBytes 8 (2 ^ 64 - 1))).toOption.isSome = true := by decide +kernel
def stamp1 : Line := pkt 6 (2 ^ 64 * 0x2FFF8)
theorem meets_QueueWork_stamp : packetMeets stamp1 (runs .nop) = true ∧ pktOk stamp1 = true ∧
    ((queued1 stamp1 (runs .nop)).unitWrite 0 0x2FFF8 (leBytes 8 0)).toOption.isSome = true := by decide +kernel
theorem meets_QueueWork_timeout : (let s := queueState (fun x => { x with waiting := some 9, waits := true }) (runs .nop)
    (s.queue 5).any (fun x => x.waiting == some 9) = true ∧ s.heart < 9 ∧ 9 ≤ ({ s with heart := 9 } : State).heart) := by decide +kernel

/-- A launch record of folds of 16 threads at point 0 to 7, with one barrier and a map of one entry; and the entries, at their
largest values. -/
def recBytes : List Byte :=
  [1, 112, 1, 16, 0, 0, 241, 3] ++ List.replicate 8 0 ++ List.replicate 24 255 ++ List.replicate 8 0 ++ [224, 255, 1, 0, 0, 0, 0, 0, 1] ++ List.replicate 23 0 ++ [240, 255, 1, 0, 0, 0, 0, 0, 1] ++ List.replicate 22 0 ++ [16] ++ List.replicate 144 0
def barBytes : List Byte := [30, 0, 0, 0, 0, 0, 0, 0, 1, 0, 0, 0, 0, 0, 0, 0]
def mapBytes : List Byte := [0, 0, 0, 0, 1, 0, 0, 0, 53, 0, 0, 0, 0, 0, 0, 0]
def launchP (kind d : Nat) : Line := pkt kind (2 ^ 9 + 2 ^ 32 * d + 2 ^ 53 + 2 ^ 74 * 2 ^ 20 + 2 ^ 128 * 0xFF00 + 2 ^ 192 * 0x2FFF8 + 2 ^ 256 * 0x20001)
theorem meets_QueueWork_dims :
    (∀ k ∈ [1, 2], pktOk (launchP k 1) = true ∧ (launchP k 1).extractLsb' 0 8 = BitVec.ofNat 8 k ∧ (launchP k 1).getLsbD 8 = false) ∧
    ((launchP 1 1).extractLsb' 32 21).toNat = 1 ∧ ((launchP 1 1).extractLsb' 74 21).toNat = 2 ^ 20 ∧
    ((launchP 1 0).extractLsb' 32 21).toNat = 0 ∧ ((launchP 1 (2 ^ 20 + 1)).extractLsb' 32 21).toNat = 2 ^ 20 + 1 := by decide +kernel
theorem meets_QueueWork_record : recordOk recBytes 0 = true ∧ recordOk (recBytes.set 2 0x81) 0 = false ∧
    (parseRecord recBytes).badr = 0x1FFE0 ∧ (parseRecord recBytes).nbar = 1 ∧ (parseRecord recBytes).pmap = 0x1FFF0 ∧
    (parseRecord recBytes).pmapn = 1 := by decide +kernel
theorem meets_QueueWork_entries : (let l := parseRecord recBytes
    barOk l barBytes = true ∧ mapEntryOk mapBytes = true ∧ mapDisjoint [parseEntry mapBytes] = true ∧ mapPads [parseEntry mapBytes] l.pad (2 ^ 20) = true ∧
      unplaceable l [parseEntry mapBytes] (2 ^ 20) = false) := by decide +kernel
def recCells : List Host.Cell := (recBytes.zipIdx.filter (·.1 ≠ 0)).map fun p => (0x4000FF00 + p.2, p.1)
theorem meets_QueueWork_read : (({ queued1 (launchP 1 1) (runs .nop) with mem := pageCells ++ recCells } : State).unitRead 0 0xFF00 256).2.toOption =
    some recBytes := by decide +kernel
theorem meets_QueueWork_lists :
    (let s := queued1 (launchP 1 1) (put 0x1FFF0 mapBytes (put 0x1FFE0 barBytes (runs .nop)))
     let b := s.readEntries 0 0x1FFE0 1
     let d := b.1.readEntries 0 0x1FFF0 1
     b.2.toOption = some [barBytes] ∧ d.2.toOption = some [mapBytes] ∧ d.1.queues = s.queues) := by decide +kernel

/-! Descriptors, teardown, shootdown and pre-emption. -/

def hostPut (bs : List Byte) (s : State) : State := place (2 ^ 52 + 0x1040) bs s
/-- The mailbox takes every command while none runs, the same command again while one runs, and no other; and none in recovery. -/
def mailRuns (num : Nat) (args : List Nat) : State :=
  let s := runs .nop
  { s with firm := { s.firm with mbCmd := num, mbStatus := 255, mbValue := (mailboxWords args).map (BitVec.ofNat 64) } }
def inRecovery (s : State) : State := { s with firm := { s.firm with boot := .recovery } }
theorem mailbox_takes {s : State} (h : s.firm.boot ≠ .recovery) (g : s.firm.mbStatus ≠ 255) (num : Nat) (args : List Nat) : MailboxTakes num args s :=
  ⟨h, fun e => absurd e g⟩
theorem meets_QueuesContextsShootdowns_mailbox (num : Nat) (args : List Nat) : MailboxTakes num args (runs .nop) ∧ MailboxTakes num args (mailRuns num args) ∧
    ¬ MailboxTakes (num + 1) args (mailRuns num args) ∧ ¬ MailboxTakes num args (inRecovery (runs .nop)) :=
  ⟨mailbox_takes (by decide +kernel) (by decide +kernel) _ _, ⟨by show (runs .nop).firm.boot ≠ .recovery; decide +kernel, fun _ => ⟨rfl, rfl⟩⟩,
   fun h => absurd (h.2 rfl).1 (by show num ≠ num + 1; omega), fun h => h.1 rfl⟩

/-- The least and the greatest ring, and a ring of 2^3 entries. -/
def descBytes (n e : Nat) : List Byte := [0, 0, 64, 0, 0, 0, 0, 0, BitVec.ofNat 8 n, BitVec.ofNat 8 e, 0, 0, 0, 0, 0, 0, 64] ++ List.replicate 7 0 ++ [8] ++ List.replicate 39 0
theorem meets_QueuesContextsShootdowns_queues : (1023 < 1024 ∧ 0x1040 + 63 < 2 ^ 51) ∧
    (∀ n ∈ [4, 16], ∀ e ∈ [0, 8], (parseQueue ((hostPut (descBytes n e) (runs .nop)).bytes (2 ^ 52 + 0x1040) 64)).any (fun x => x.enable == (e == 8)) = true) ∧
    (runs .nop).queues = [] ∧ parseQueue ((hostPut (descBytes 3 0) (runs .nop)).bytes (2 ^ 52 + 0x1040) 64) = none ∧
    Map.wf none (runs .nop).queues = true := by decide +kernel
/-- The index word of the queue in a managed tile with a log, a line of which holds an error; and a queue whose preceding launch is grid 9. -/
def tileState : State :=
  let s := hostPut (descBytes 4 8) (runs .nop)
  { s with mem := s.mem.map (fun c => if c.1 = 0x60000 then (c.1, 0x3F) else c), poison := [0x40000000 / 64]
           logs := [{ tile := 0x40000000 / 2048, off := 8, lop := 0, lty := 2, val := 0, key := 0 }] }
theorem meets_QueuesContextsShootdowns_tile : ((parseQueue (tileState.bytes (2 ^ 52 + 0x1040) 64)).any fun x => x.enable && !x.devq &&
      (tileState.virt x.ctx x.ridx .read).toOption.any fun p => p.1.ml && p.2 == 0x40000008) = true ∧ 0x40000008 % 2048 ≤ 2040 ∧
    (∃ e ∈ tileState.logs, e.tile = 0x40000008 / 2048) ∧ (∃ n ∈ tileState.poison, n * 64 / 2048 = 0x40000008 / 2048) ∧
    ((parseQueue (descBytes 4 8)).any fun x => ((({ runs .nop with queues := [(5, some { x with prevLaunch := some 9 })] } : State).queue 5).any fun y =>
      y.ctx == x.ctx && y.qnum == x.qnum && y.prevLaunch == some 9)) = true := by decide +kernel
def partCard : Card := { card .cpy 1 0 [] [] with part := [{ item := 0, els := [], scs := [], wrote := [] }] }
theorem meets_QueuesContextsShootdowns_teardown : ((runs .nop).ctx 0).isSome = true ∧ Map.wf none (runs .nop).queues = true ∧
    Map.wf none (runs .nop).ctxs = true ∧ (∃ k ∈ (jobState partCard).cards, k.ctx = 0 ∧ k.part ≠ [] ∧ k.stop = none) ∧
    ((jobState partCard).ctx 0).isSome = true ∧ (∀ k ∈ (runs .nop).cards, k.ctx = 0 → k.part = [] ∨ k.stop ≠ none) ∧ Map.wf Core.init (runs .nop).cores = true ∧ Map.wf Cluster.init (runs .nop).clusters = true ∧
    (let s : State := { runs .nop with folds := [] }
     (s.ctx 0).isSome = true ∧ s.pend = [] ∧ s.logs = [] ∧ ∀ x ∈ s.folds, x.ctx ≠ 0) := by decide +kernel
def ctxDesc (v : Nat) : CtxDesc := { root := 0x10000, privBase := 0, tidBase := 0x1000, fblk := BitVec.ofNat 512 v, addr := 0x2000 }
/-- A ring of 2^4 and of 2^3 records; the last context, without folds, and context 0 with one. -/
theorem meets_QueuesContextsShootdowns_ctx : 63 < 64 ∧ fblkOk (ctxDesc (4 * 2 ^ 64)).fblk = true ∧ fblkOk (ctxDesc (3 * 2 ^ 64)).fblk = false ∧
    (∃ x ∈ (runs .nop).folds, x.ctx = 0) ∧ (∀ x ∈ (runs .nop).folds, x.ctx ≠ 63) := by decide +kernel
/-- The last pages of the address space, with a fold under way, with an element under way, and without. -/
theorem meets_QueuesContextsShootdowns_shootdown : ((runs .nop).ctx 0).isSome = true ∧ (2 ^ 57 - 65536) + 1 * 65536 ≤ 2 ^ 57 ∧
    (∃ x ∈ (inFold (fun x => { x with run := .moving 431 }) (runs .nop)).folds, x.ctx = 0 ∧ ∃ m, x.run = .moving m) ∧
    (∃ e ∈ (jobState partCard).cards, e.ctx = 0 ∧ e.part ≠ [] ∧ e.stop = none) ∧ (∀ e ∈ (runs .nop).cards, e.ctx = 0 → e.part = [] ∨ e.stop ≠ none) ∧
    (∀ x ∈ (runs .nop).folds, x.ctx = 0 → ∀ m, x.run ≠ .moving m) ∧ Map.wf Core.init (runs .nop).cores = true ∧
    Map.wf Cluster.init (runs .nop).clusters = true :=
  ⟨by decide +kernel, by decide, ⟨_, List.mem_singleton.mpr rfl, by decide +kernel, 431, by decide +kernel⟩,
   by decide +kernel, by decide +kernel, by intro x hx _ m; rw [show x = foldOf (runs .nop) from by simpa using (show x ∈ [foldOf (runs .nop)] from by
        rw [show [foldOf (runs .nop)] = (runs .nop).folds from by decide +kernel]; exact hx),
        show (foldOf (runs .nop)).run = .running from by decide +kernel]; simp,
   by decide +kernel, by decide +kernel⟩

/-- The last core and slot; a fold in slot 0 of core 0, a unit by itself; and a core that is stopping one. -/
def pqState (f : Fold → Fold) : State := gridState (grid 1) f
theorem no_rdv (f : Fold → Fold) (c : Nat) : ((pqState f).cluster c).rdv = none := by
  unfold State.cluster; rw [show (pqState f).clusters = [] from rfl]; rfl
theorem meets_PreemptionRequests_jobs : (let s := allCards (pqState id) [partCard, { partCard with cid := 6, part := [] }]
    let x := foldOf s
    (s.cards.map (·.cid)).Nodup ∧ (∀ k ∈ s.cards, k.kind ≠ .arr ∧ k.fold = x.uid ∧ k.stop = none) ∧ x ∈ s.folds ∧ x.moveTo = none ∧
      (s.cards.map fun k => k.part.isEmpty) = [false, true] ∧ s.inSlot 0 0 = some x ∧ ((s.core 0).preq = 0) ∧ s.grid? x.gid = some (grid 1)) := by decide +kernel
theorem meets_PreemptionRequests : 431 < 432 ∧ 15 < 16 ∧ (∀ c, ((pqState id).cluster c).rdv = none) ∧ ((pqState id).folds.map (·.uid)).Nodup ∧
    (∀ x ∈ (pqState id).folds, ∀ y ∈ (pqState id).folds, x.pad = y.pad ∨ x.gid = y.gid → x.ctx = y.ctx) ∧
    ((pqState id).core 431).preq ≠ 1 ∧ ((pqState id).core 431).preq ≠ 2 ∧ (pqState id).inSlot 431 15 = none ∧
    (∀ x ∈ (pqState id).foldsOnCore 431, x.run = .running ∧ x.preqAfter = false) ∧ ((pqState id).core 0).preq = 0 ∧
    (let s := pqState id
     let x := foldOf s
     s.inSlot 0 0 = some x ∧ x.run = .running ∧ s.unitOf x = [x] ∧ s.grid? x.gid = some (grid 1) ∧ (s.ctx (grid 1).ctx).isSome = true) ∧
    (∀ x ∈ (pqState id).folds, x.ctx = 0 → x.run = .running) ∧ (∀ x ∈ (pqState id).folds, x.ctx = 63 → x.run = .running) ∧
    (((pqState id).modCore 0 fun c => { c with preq := 1 }).core 0).preq = 1 ∧ (((pqState id).modCore 0 fun c => { c with preq := 2 }).core 0).preq = 2 ∧
    (∀ c, ((((pqState id).modCore 0 fun c => { c with preq := 1 })).cluster c).rdv = none) ∧ ∀ a, MailboxTakes 4 a (pqState id) :=
  ⟨by decide, by decide, no_rdv id, by
    iterate 12 refine And.intro (by decide +kernel) ?_
    exact ⟨no_rdv id, mailbox_takes (by decide +kernel) (by decide +kernel) 4⟩⟩

/-! Saves, migrations and the service of faults. -/

/-- A fold that stands at its stop, with the given state of its course. -/
def atStop (r : FoldRun) (x : Fold) : Fold :=
  { x with run := r, flocks := x.flocks.map fun k => { k with frags := k.frags.map fun g => { g with arriving := true } } }
def saveState (base : Nat) (f : Fold → Fold) : State :=
  { gridState (grid 1) (fun x => f (atStop .saving { x with size := 0, flocks := [], regs := 0, scrBytes := 0, accRows := 0, v := [] })) with
    ctxs := [(0, some { root := 0x10000, privBase := 0, tidBase := 0x1000, fblk := BitVec.ofNat 512 (base * 2 ^ 192), recs := 0, unwritten := [], fwRead := 0, full := false, error := false })] }
def imageOf (s : State) : List Byte := let x := foldOf s; s.saveImage { x with lease := x.lease.suspend s.heart }

theorem meets_SavesAndResumption_stop : (∀ m ∈ [none, some 431], (let s := pqState (atStop (.stopping m))
      let x := foldOf s
      s.fold? x.uid = some x ∧ x.loads = [] ∧ x.moveTo = none ∧ (∀ k ∈ x.flocks, k.stop ≠ none ∨ ∀ g ∈ k.frags, g.atStop = true) ∧ x.flocks ≠ [] ∧
        s.pend = [] ∧ s.groups = [] ∧ s.cards = [] ∧ x.run = .stopping m)) ∧
    (∃ c ∈ (jobState partCard).cards, c.fold = 1 ∧ ¬ (c.part = [] ∨ c.stop ≠ none)) ∧
    (let s := parked (.lease none) (pqState (atStop (.stopping none)))
     ¬ ∀ k ∈ (foldOf s).flocks, k.stop ≠ none ∨ ∀ g ∈ k.frags, g.atStop = true) := by decide +kernel
theorem meets_SavesAndResumption_save : (foldOf (saveState 0 id)).run = .saving ∧ (foldOf (saveState 0 id)).argFault = none ∧
    (foldOf (saveState 0 id)).stream = none ∧ (saveState 0 id).fold? 1 = some (foldOf (saveState 0 id)) ∧
    ((saveState 0 id).writeLines 0 0 (imageOf (saveState 0 id)).length (imageOf (saveState 0 id))).toOption.isSome = true := by decide +kernel
theorem meets_SavesAndResumption_fault : ((saveState (2 ^ 36) id).ctx 0).elim 0 (·.saveBase) = 2 ^ 36 ∧
    ((saveState (2 ^ 36) id).writeLines 0 (2 ^ 36) (imageOf (saveState (2 ^ 36) id)).length (imageOf (saveState (2 ^ 36) id))).toOption.isNone = true := by decide +kernel
theorem meets_SavesAndResumption_resume : (let s := pqState fun x => { x with run := .saved }
      let x := foldOf s
      s.folds.find? (fun y => y.ctx == x.ctx && y.pidx == x.pidx && y.run == .saved) = some x ∧ s.grid? x.gid = some (grid 1) ∧ (grid 1).killed = false ∧
        (∀ y ∈ s.unitOf x, y.run = .saved) ∧ x.pad ∉ (grid 1).resumes) ∧
    (let s := pqState id
     s.fold? 1 = some (foldOf s) ∧ ∀ y ∈ s.folds, y.ctx = (foldOf s).ctx → y.pidx = (foldOf s).pidx → y.run ≠ .saved) ∧
    (pqState id).firm.boot ≠ .recovery ∧ (pqState id).firm.mbStatus ≠ 255 := by decide +kernel

/-- Requests at an idle core and at one with a request in state 1 and 2, for the fold in slot 0 and for an empty slot 15; and a
transfer within a cluster, with and without a place. -/
def migState (f : Fold → Fold) (n : Nat) : State := (pqState f).modCore 0 fun c => { c with mig := n }
theorem meets_Migrations_request : (BitVec.ofNat 32 (431 * 16 + 15)).extractLsb' 13 19 = 0 ∧ ((BitVec.ofNat 32 (431 * 16 + 15)).extractLsb' 0 4).toNat = 15 ∧
    (∀ n ∈ [1, 2, 3], ((migState id n).core 0).mig = n) ∧ ((pqState id).core 0).mig = 0 ∧ (pqState id).inSlot 0 15 = none ∧
    (let s := migState id 3
     s.inSlot 0 0 = some (foldOf s) ∧ s.fold? 1 = some (foldOf s) ∧ (foldOf s).run = .running ∧ (s.cluster ((foldOf s).core / 8)).rdv = none) := by decide +kernel
theorem meets_Migrations_transfer : (let s := pqState (fun x => { x with run := .moving 7 })
      let x := foldOf s
      s.fold? x.uid = some x ∧ x.run = .moving 7 ∧ x.preqAfter = false ∧ Map.wf Core.init s.cores = true ∧ s.canMove x 7 = true ∧
        s.cardNumbers 7 (s.cards.filter (·.fold == x.uid)).length = some [] ∧ 7 / 144 = x.core / 144) ∧
    (∀ c ∈ [8, 431], let s := (List.range 3).foldl (fun s d => s.modDie d fun x => { x with cur := 0, target := 0 }) (pqState (fun x => { x with run := .moving c }))
      let x := foldOf s
      s.fold? x.uid = some x ∧ x.run = .moving c ∧ s.canMove x c = true ∧ c / 8 ≠ x.core / 8 ∧
        s.cardNumbers c (s.cards.filter (·.fold == x.uid)).length = some [] ∧ x.lease.active = false ∧ x.lease.susp = false) ∧
    (let s := pqState (fun x => { x with run := .moving 432 })
     s.canMove (foldOf s) 432 = false) := by decide +kernel

/-- The last die: with `AUTO` and no hot core, and with a fold on a hot core. -/
def sampleState (auto : Bool) (t : Int) : State :=
  ((pqState fun x => { x with core := 431 }).modDie 2 fun d => { d with auto := auto, migthr := 90, cur := 0, target := 0 }).modCore 431 fun c =>
    { c with temp := { c.temp with now := t } }
theorem meets_Migrations_sample : 2 < 3 ∧ ((sampleState false 0).die 2).auto = false ∧ ((sampleState true 90000).die 2).auto = true ∧ Map.wf Core.init (sampleState true 90000).cores = true ∧
    (∀ k, k / 144 = 2 → ¬ (((sampleState true 90000).die 2).migthr : Int) * 1000 < (sampleState true 90000).coreTemp k) ∧
    (let s := sampleState true 90001
     (s.die 2).auto = true ∧ 431 / 144 = 2 ∧ ((s.die 2).migthr : Int) * 1000 < s.coreTemp 431 ∧ (s.core 431).mig = 0 ∧ Map.wf Core.init s.cores = true ∧
       s.hottestFold 431 = some (foldOf s) ∧ (s.coolTarget 431 (foldOf s)).isSome = true) ∧
    (∀ j, j / 144 = 2 → j ≠ 431 → ¬ (((sampleState true 90001).die 2).migthr : Int) * 1000 < (sampleState true 90001).coreTemp j) := by
  refine ⟨by decide, by decide +kernel, by decide +kernel, by decide +kernel, ?_, by decide +kernel, ?_⟩
  · intro k hk
    have h : ∀ j < 144, ¬ (((sampleState true 90000).die 2).migthr : Int) * 1000 < (sampleState true 90000).coreTemp (288 + j) := by decide +kernel
    have := h (k - 288) (by omega)
    rwa [show 288 + (k - 288) = k from by omega] at this
  · intro k hk hn
    have h : ∀ j < 143, ¬ (((sampleState true 90001).die 2).migthr : Int) * 1000 < (sampleState true 90001).coreTemp (288 + j) := by decide +kernel
    have := h (k - 288) (by omega)
    rwa [show 288 + (k - 288) = k from by omega] at this

/-- Record 2^32 + 7 of the flock. -/
def stopState (r : Resume) : State := inFlock (fun k => { k with stop := some { awaits := [2 ^ 32 + 7], resume := r, frag := 0, grow := false } }) (pqState id)
theorem meets_FaultService_ack : ∀ r ∈ [Resume.replay, .again, .past], (let s := stopState r
    let x := foldOf s
    Map.wf Core.init s.cores = true ∧ s.folds.find? (fun y => y.lcore == 0 && s.awaitsIn y 7) = some x ∧ s.fold? x.uid = some x ∧
      (x.flocks[0]?).any (fun k => (k.stop.any fun p => p.awaits == [2 ^ 32 + 7] && p.resume == r)) = true ∧ (2 ^ 32 + 7) % 2 ^ 32 = 7 ∧
      x.argFault = none ∧ s.grid? x.gid = some (grid 1) ∧ (grid 1).lrec.contain = true ∧ x.run = .running ∧ x.moveTo = none ∧
      (inFold (fun y => { y with run := .saved }) s).folds.find? (fun y => y.lcore == 0 && s.awaitsIn y 7) = some ({ x with run := .saved } : Fold)) := by decide +kernel

/-- A ring at the second page with record 1 not yet read, and a pool in the first. -/
def ringCtx (recs fb : Nat) : Ctx :=
  { root := 0x10000, privBase := 0, tidBase := 0x1000, fblk := BitVec.ofNat 512 fb, recs := recs, unwritten := [], fwRead := 0, full := false, error := false }
def ringFblk : Nat := 0x10000 + 4 * 2 ^ 64 + 0x8000 * 2 ^ 256 + 0x5000 * 2 ^ 320 + 0x6000 * 2 ^ 384
def ringState (recs cause addr : Nat) (s : State) : State :=
  { put 0x10000 (leBytes 64 (cause + addr * 2 ^ 128 + (2 ^ 32 + 7) * 2 ^ 384)) s with ctxs := [(0, some (ringCtx recs ringFblk))] }
def recRead (s : State) : Option (List Byte) :=
  let b := s.setCtx 0 (some { ringCtx 1 ringFblk with fwRead := 1 })
  (b.readVirt 0 0x10000 64).toOption
theorem meets_FaultService_ring : (ringCtx 0 ringFblk).recs ≤ (ringCtx 0 ringFblk).fwRead ∧ (ringCtx 1 ringFblk).fwRead < (ringCtx 1 ringFblk).recs ∧
    (∀ a ∈ [0x4FFF, 0x6000], recRead (ringState 1 Cause.pageAbsent.code a (runs .nop)) = some (leBytes 64 (Cause.pageAbsent.code + a * 2 ^ 128 + (2 ^ 32 + 7) * 2 ^ 384)) ∧
      ¬ ((ringCtx 1 ringFblk).fillLo ≤ a ∧ a < (ringCtx 1 ringFblk).fillHi)) ∧
    (let s := ringState 1 Cause.privGrow.code 0 (put 0x8000 ((List.range 6).flatMap fun j => leBytes 8 (1 + 0x50000000 + 0x10000 * j))
       (inFlock (fun k => { k with privHwm := 2 ^ 24 - 32 }) (stopState .again)))
     let b := s.setCtx 0 (some { ringCtx 1 ringFblk with fwRead := 1 })
     (recRead s).any (fun bs => bits (ofLe bs) 7 0 == Cause.privGrow.code && bits (ofLe bs) 447 384 == 2 ^ 32 + 7 && bits (ofLe bs) 51 46 == 0) = true ∧
       b.folds.find? (fun z => z.ctx == 0 && z.lcore == 0 && z.slot == 0 && b.awaitsIn z (2 ^ 32 + 7)) = some (foldOf s) ∧
       (∀ z ∈ b.folds, z.ctx = 0 → b.awaitsIn z (2 ^ 32 + 7) = true → z.uid = 1) ∧ b.fold? 1 = some (foldOf s) ∧
       (b.mapPrivate 0 (foldOf s).pidx (2 ^ 24 - 32)).isSome = true) := by decide +kernel

/-! Control, power and the outside world. -/

/-- The last core; slots 0 and 15; the least field values that are taken and refused; tiles at both ends; log entries. -/
def vio1 : VioEnt := { ctx := 1, cls := 2, die := 2, core := 3, seq := 1024, addr := 5 }
theorem meets_CoreControl : 431 < 432 ∧ (pqState id).inSlot 0 15 = none ∧ (pqState id).inSlot 0 0 = some (foldOf (pqState id)) ∧
    (foldOf (pqState id)).run = .running ∧ Map.wf Die.init (pqState id).dies = true ∧ MemoryCanonical (pqState id) ∧
    (∀ a, MailboxTakes 6 a (pqState id)) ∧ (∀ a, MailboxTakes 7 a (pqState id)) ∧ (∀ a, MailboxTakes 8 a (pqState id)) ∧ ((pqState id).die 2).cur ≠ 7 ∧
    240 * 2 ^ 30 ≤ ((60 : W32) ++ (0 : W32)).toNat ∧ ((59 : W32) ++ (0xFFFFFFFF : W32)).toNat < 240 * 2 ^ 30 ∧ ((pqState id).core 431).tileclr = 0 ∧
    2 < 3 ∧ 1023 < 1024 ∧ (∀ e ∈ ((pqState id).die 2).viol, (e.seq - 1) % 1024 ≠ 1023) ∧
    (((pqState id).modDie 2 fun d => { d with viol := [vio1] }).die 2).viol = [vio1] ∧
    (((pqState id).modDie 2 fun d => { d with viol := [vio1] }).die 2).cur < 7 ∧ (((pqState id).modDie 2 fun d => { d with cur := 7 }).die 2).cur = 7 ∧ (vio1.seq - 1) % 1024 = 1023 := by
  have m := mailbox_takes (s := pqState id) (by decide +kernel) (by decide +kernel)
  refine ⟨by decide, by decide +kernel, by decide +kernel, by decide +kernel, by decide +kernel, (?_ : Memory.wf (pqState id).mem = true), m 6, m 7, m 8, ?_⟩ <;>
    decide +kernel

/-- A die in each P-state with a target, the other dies in another. -/
def psState (cur tgt other : Nat) : State :=
  [0, 1, 2].foldl (fun s d => s.modDie d fun x => if d = 2 then { x with cur := cur, target := tgt } else { x with cur := other, target := other }) State.reset
theorem meets_PowerStates : 2 < 3 ∧ ((BitVec.ofNat 32 7).extractLsb' 0 3).toNat = 7 ∧ ((psState 6 6 7).die 2).cur = 6 ∧
    (∀ e < 3, e ≠ 2 → 7 ≤ ((psState 6 6 7).die e).cur) ∧ ((psState 5 5 0).die 2).cur ≠ 6 ∧ ((psState 6 6 6).die 0).cur < 7 ∧
    State.reset.oper.oob = false ∧ State.reset.firm.boot ≠ .recovery ∧ (inRecovery State.reset).firm.boot = .recovery ∧ ({ State.reset with oper := { State.reset.oper with oob := true } } : State).oper.oob = true ∧
    (∀ p ∈ [(0, 2), (2, 0), (2, 2), (0, 3), (3, 2), (5, 6), (6, 7), (7, 6)], (let s := psState p.1 p.2 0
      (s.die 2).cur = p.1 ∧ (s.die 2).target = p.2 ∧ (s.die 2).fsafe = false ∧ (s.die 2).hot = false ∧ (s.die 2).shold = false ∧
        (s.die 2).demand ≤ (s.die 2).grant ∧ s.clusters = [] ∧ ((s.modDie 2 fun y => { y with demand := 61, grant := 60 }).die 2).grant < ((s.modDie 2 fun y => { y with demand := 61, grant := 60 }).die 2).demand ∧ Map.wf Die.init s.dies = true ∧ Map.wf Cluster.init s.clusters = true ∧ s.folds = [])) ∧
    (∃ f ∈ ({ psState 5 6 0 with folds := [{ fold1 with core := 431 }] } : State).folds, f.core / 144 = 2 ∧ f.run ≠ .saved) := by decide +kernel

def oobState : State := { State.reset with oper := { State.reset.oper with oob := true } }
theorem meets_OperatorRegisters : (oobState.oper.oob = true ∧ false = false) ∧ ¬ (oobState.oper.oob = true ∧ true = false) ∧
    ¬ (State.reset.oper.oob = true ∧ false = false) ∧ 0xA4 ∉ [0, 0x10, 0x14, 0x18, 0x20, 0x24, 0x30, 0x40, 0xA0] ∧
    Map.wf Core.init State.reset.cores = true := by decide +kernel

/-- A leader and none; a fragment that waits for the arbiter with each kind of request; a lease that runs, to its last tick. -/
def leaseState (us : Option W64) : State :=
  { parked (.lease us) (runs (if us.isSome then .leaseReq hdr { sysOp with sa := .s 1 } else .leaseRet hdr { sysOp with sop := 1 })) with
    holder := 1, expiry := 1, cur := none }
def leases : List Lease := [fold1.lease, { fold1.lease with remain := 4, until' := 500, active := true }, { fold1.lease with remain := 4, susp := true }]
theorem meets_PowerBudget_grant : State.reset.holder = 3 ∧
    ({ State.reset with holder := 2 } : State).holder ≠ 3 ∧ ((({ State.reset with holder := 2 } : State).die 2).cur < 7) ∧
    7 ≤ ((({ State.reset with holder := 2 } : State).modDie 2 fun x => { x with cur := 7 }).die 2).cur ∧ ({ State.reset with expiry := 1 } : State).heart < 1 ∧ State.reset.expiry ≤ State.reset.heart ∧ ({ State.reset with holder := 2 } : State).leaseWaiters = [] ∧
    (∀ x ∈ ({ State.reset with holder := 2, folds := [fold1] } : State).folds, x.lease.active = false ∧ x.lease.susp = false) ∧
    Map.wf Die.init State.reset.dies = true ∧ 30 + 60 + 60 + 60 ≤ 5 * State.reset.oper.ceil := by decide +kernel
/-- The fold of the request holds no lease, one that runs, or one that is suspended; another fold holds none. -/
def leaseOk (l : Lease) (us : Option W64) : Bool :=
  let t := inFold (fun x => { x with lease := l }) (leaseState us)
  let s : State := { t with folds := t.folds ++ [{ fold1 with uid := 4, core := 431 }] }
  let i := issAt s 1 0 0
  s.holder != 3 && decide (s.heart < s.expiry) && s.leaseWaiters == [(i.x.uid, i.fl, i.g.fid)] && (s.iss? 1 0 0).isSome && i.x.uid == 1 && i.fl == 0 && i.g.fid == 0 &&
    i.g.park == .lease us && i.g.sysDst == some 3 && i.x.run == .running && i.k.stop == none &&
    decide ((s.folds.map (·.uid)).Nodup) && s.folds.all (fun x => x.uid == 1 || (!x.lease.active && !x.lease.susp)) &&
    decide ((s.die (i.x.core / 144)).grant ≤ 5 * s.oper.ceil) && decide (s.oper.granted ≤ s.oper.ceil) && decide ((s.die s.holder).cur < 7) && i.x.lease == l
theorem meets_PowerBudget_lease : ∀ l ∈ leases, leaseOk l none = true ∧ ∀ n ∈ [0, 1, 4000, 4001], leaseOk l (some (BitVec.ofNat 64 n)) = true := by decide +kernel
/-- What a lease costs is Config's, so either clause is met: a ceiling at which the headroom covers it, and one at which it does not. -/
theorem meets_PowerBudget_cost (c room : Nat) : 2 + Config.leaseWatts c ≤ room ∨ room < 2 + Config.leaseWatts c := by omega
def leaseFold (u : Nat) : Fold := { fold1 with lease := { remain := 4, until' := u, active := true, susp := false, dropped := false } }
/-- At a lowered ceiling of 250 W, and demands that leave no headroom, whatever a lease costs; and on a die whose grant lies above it. -/
theorem meets_PowerBudget_drop : (let s : State := { State.reset with folds := [leaseFold 18], holder := 1, expiry := 1, oper := { State.reset.oper with ceil := 50 } }
    s.holder ≠ 3 ∧ s.heart < s.expiry ∧ (s.die s.holder).cur < 7 ∧ s.leaseWaiters = [] ∧ s.fold? 1 = some (leaseFold 18) ∧ (leaseFold 18).lease.active = true ∧
      s.oper.ceil < s.oper.granted ∧ (grants s.oper.ceil [s.die 0, s.die 1, s.die 2] [400, 400, 400]).2 < 2 ∧ (leaseFold 18).resident = true ∧
      5 * s.oper.ceil < ((s.modDie 0 fun d => { d with grant := 251 }).die ((leaseFold 18).core / 144)).grant) := by decide +kernel
theorem meets_PowerBudget_expiry : State.reset.fold? 1 = none ∧ ∀ u ∈ [18, 19], (let s : State := { State.reset with folds := [leaseFold u], heart := 9 }
    s.fold? (leaseFold u).uid = some (leaseFold u) ∧ (leaseFold u).lease.active = true ∧ ((leaseFold u).lease.until' ≤ 2 * s.heart ↔ u = 18)) := by decide +kernel

def leadState (h : Nat) : State :=
  { State.reset with holder := h, heart := 10000, expiry := 10000, folds := [leaseFold 20000], firm := { State.reset.firm with boot := .running } }
def askLease : Request := { peer := 0, cls := 3, addr := 0x2004, kind := .read, size := 4, data := [], opa := 0, opb := 0, ty := .n32 }
theorem meets_Leadership : 2 < 3 ∧ Map.wf Die.init (leadState 3).dies = true ∧ (leadState 3).holder = 3 ∧ (((leadState 3).modDie 2 fun x => { x with cur := 6 }).die 2).cur < 7 ∧ 7 ≤ (((leadState 3).modDie 2 fun x => { x with cur := 7 }).die 2).cur ∧
    (let s : State := { leadState 2 with claimed := some 10000, expiry := 510000 }
     s.holder ≠ 3 ∧ s.heart < s.expiry ∧ s.claimed = some s.heart ∧ 1 < s.holder ∧ (s.die 1).cur < 7) ∧
    (let s := leadState 2
     s.expiry ≤ s.heart ∧ s.firm.boot ≠ .recovery ∧ askLease.cls = 3 ∧ askLease.addr = 0x2004 ∧ askLease.kind = .read ∧ askLease.size = 4) ∧
    (leadState 3).firm.boot = .running ∧ (leadState 2).holder ≠ 3 ∧ (leadState 2).expiry ≤ (leadState 2).heart ∧
    ({ leadState 2 with expiry := 10001 } : State).heart < ({ leadState 2 with expiry := 10001 } : State).expiry ∧
    (leadState 2).fold? 1 = some (leaseFold 20000) ∧ (leaseFold 20000).lease.active = true ∧ ((leadState 2).die 2).fsafe = false ∧
    ((leadState 2).die 2).lastGrant + 9375 ≤ (leadState 2).heart ∧ ({ leadState 2 with heart := 9374 } : State).heart < ((leadState 2).die 2).lastGrant + 9375 := by
  decide +kernel

/-- A vault one m°C below and at the limits; a core's sensor that passes, is stuck, out of range and in disagreement. -/
theorem meets_HeatAndSensors_rdv (c : Nat) : (State.reset.cluster c).rdv = none := rfl
def vaultState (t : Int) : State := State.reset.modCluster 53 fun c => { c with vault := [Sensor.init t, Sensor.init 25000, Sensor.init 25000, Sensor.init 25000] }
theorem meets_HeatAndSensors : 53 < 54 ∧ Map.wf Die.init (vaultState 0).dies = true ∧ 110000 ≤ (vaultState 110000).tNow 53 ∧
    (vaultState 109999).tNow 53 < 110000 ∧ ((vaultState 110000).cluster 53).wasHot = false ∧
    (∀ c < 54, c / 18 = 2 → (vaultState 99999).tNow c < 100000) ∧ (∃ c < 54, c / 18 = 2 ∧ 100000 ≤ (vaultState 100000).tNow c) ∧
    (((vaultState 0).modDie 2 fun x => { x with hot := true }).die 2).hot = true ∧ 431 < 432 ∧ Map.wf Core.init (vaultState 0).cores = true ∧
    (∀ n ∈ [none, some 0], ({ Sensor.init 25000 with suspect := true, okSince := n } : Sensor).fails (List.replicate 7 (Sensor.init 25000)) = none) ∧
    ((Sensor.init 40000).fails (List.replicate 7 (Sensor.init 25000))).isSome = false ∧ ((Sensor.init 40001).fails (List.replicate 7 (Sensor.init 25000))).isSome = true ∧
    ((Sensor.init 25000).fails (List.replicate 7 { Sensor.init 25000 with before := 27001 })).isSome = true ∧
    ((Sensor.init 150001).fails (List.replicate 7 (Sensor.init 150000))).isSome = true := by decide +kernel


/-! Requests from outside, errors, firmware, and the whole machine. -/

def request (k : ReqKind) (a cls : Nat) : Request :=
  { peer := 4095, cls := cls, addr := a, size := 4, kind := k, ty := .n32, opa := 5, opb := 0, data := [1, 2, 3, 4] }
def outState (f : State → State) : State := f { State.reset with firm := { State.reset.firm with peers := [(4095, some 0)], boot := .running } }
/-- The last four bytes below the overflow area of the last die and the first of it, bytes past memory; aligned and not; under a key without
material; a die at PS7; a bad tile; a bad line; and each kind. -/
theorem meets_OutsideRequests :
    (let s := outState id
     let last := dramBytes - 2 ^ 26 - 4
     let lostAt (t : State) (a : Nat) : Bool := (t.die (a / (80 * 2 ^ 30))).cur == 7 ||
       decide (t.firm.overflow ≤ a % (80 * 2 ^ 30)) && decide (a % (80 * 2 ^ 30) < t.firm.overflow + 2 ^ 26)
     Map.get none ({ State.reset with firm := { State.reset.firm with boot := .running } } : State).firm.peers 4095 = none ∧ Map.get none s.firm.peers 4095 = some 0 ∧ State.reset.firm.boot ≠ .running ∧
     s.firm.boot = .running ∧ dramBytes < dramBytes - 3 + 4 ∧ ¬ dramBytes < last + 4 ∧
     lostAt s last = false ∧ lostAt s (last + 3) = false ∧ lostAt s (last + 4) = true ∧
     lostAt (s.modDie 2 fun d => { d with cur := 7 }) last = true ∧
     last / tileBytes ∉ s.badTiles ∧ last / tileBytes ∈ ({ s with badTiles := [last / tileBytes] } : State).badTiles ∧
     last / 64 ∉ s.poison ∧ last / 64 ∈ ({ s with poison := [last / 64] } : State).poison ∧
     s.logs = [] ∧ s.lineKey = [] ∧ last % 4 = 0 ∧ (last - 2) % 4 ≠ 0 ∧ Memory.wf s.mem = true ∧ (8191 ≠ 0 ∧ Map.get none s.firm.keys 8191 = none) ∧
     ([request .read 0 0, request .write 0 0, request (.atomic 0 true) 0 0, request (.waita 0) 0 0].map (·.cls) = [0, 0, 0, 0]) ∧
     (waitCond 0 AtmTy.n32.ty 5 5 = true ∧ waitCond 0 AtmTy.n32.ty 4 5 = false)) := by decide +kernel

/-- Units 9 and 11, 0, and 3 and 8; the last line; places corrected 24 h before; a tile with a log and one without; a mark of a retired
number, and a retired number that a buffered write bears. -/
theorem meets_ErrorsAndSweeps : Map.wf 0 State.reset.telem = true ∧ Map.wf Die.init State.reset.dies = true ∧ Map.wf Core.init State.reset.cores = true ∧
    9 ≤ 9 ∧ 11 ≤ 11 ∧ 2 < 3 ∧ dramBytes - 1 < dramBytes ∧ 431 < 432 ∧
    (let s : State := { State.reset with heart := 86400 * 62500000, corrected := [(432 * 2 ^ 64 + (dramBytes - 64), 0), ((8 * 512 + 431) * 2 ^ 64 + 5, 0)] }
     (∃ q ∈ s.corrected, q.1 = 432 * 2 ^ 64 + (dramBytes - 1) / 64 * 64 ∧ s.heart ≤ q.2 + 86400 * 62500000) ∧
     (∃ q ∈ s.corrected, q.1 = (8 * 512 + 431) * 2 ^ 64 + 5 ∧ s.heart ≤ q.2 + 86400 * 62500000)) ∧ State.reset.corrected = [] ∧
    (let s : State := { State.reset with logs := [{ tile := (dramBytes - 64) / tileBytes, off := 0, lop := 0, lty := 0, val := 0, key := 0 }] }
     (∃ e ∈ s.logs, e.tile = (dramBytes - 1) / 64 * 64 / tileBytes)) ∧ State.reset.logs = [] ∧
    (let s : State := { State.reset with retired := [2], marks := [(0, { party := 2, phase := 0 }), (1, { party := 3, phase := 0 })] }
     ∃ p ∈ s.marks, p.2.party.toNat ∈ s.retired) ∧
    (let s := { inFold (fun x => { x with run := .saved, scrMark := [(5, { party := 2, phase := 0 })] }) state1 with retired := [2, 3] }
     (s.folds.any fun x => (x.run == .saved || x.run == .restoring) && x.scrMark.any (·.2.party.toNat == 2)) = true ∧
       (s.folds.any fun x => (x.run == .saved || x.run == .restoring) && x.scrMark.any (·.2.party.toNat == 3)) = false) ∧
    (let s := gridState (grid 1) id
     let p : ArraySpot := { unit := 3, addr := 7, core := 431, fold := some (foldOf s).uid }
     p.unit ≤ 5 ∧ s.fold? (foldOf s).uid = some (foldOf s) ∧ s.grid? (foldOf s).gid = some (grid 1) ∧ (grid 1).lrec.contain = true ∧
       (foldOf s).run = .running ∧ (foldOf s).moveTo = none) := by decide +kernel

/-- A slot that cannot be read fails; whether one that can boots is Config's, so either clause is met by one of two states; and a request to
each part in recovery. -/
theorem meets_BootAndRecovery (w : Map Byte) (a : FlashSlot) : flashFailure { FlashSlot.empty with readable := false } = 4 ∧ (4 : Nat) ≠ 0 ∧
    (flashFailure a = 0 ∨ flashFailure a ≠ 0) ∧ (flashFailure (Config.windowSlot w) = 0 ∨ flashFailure (Config.windowSlot w) ≠ 0) ∧
    (2 < 3 ∧ [false, false, true][2]? = some true ∧ ∀ e < 2, [false, false, true][e]? ≠ some true) ∧ (∀ d < 3, ([] : List Bool)[d]? ≠ some true) ∧
    ({ State.reset.firm with boot := .recovery } : Firm).boot = .recovery ∧ 2 ^ 26 - 1 < 2 ^ 26 ∧ State.reset.firm.boot ≠ .recovery ∧
    (request .write 0 0).cls = 0 ∧ ((request .write 4 3).cls = 3 ∧ (request .write 4 3).addr ≠ 0) ∧
    (let r := request .read (2 ^ 26 - 4) 4
     r.cls = 4 ∧ r.kind = .read ∧ r.addr + r.size ≤ 2 ^ 26) ∧
    (let r := request .read 0 3
     r.cls = 3 ∧ r.addr = 0 ∧ r.kind = .read) :=
  ⟨by decide, by decide, by omega, by omega, by decide, by decide, rfl, by decide, by decide, by decide, by decide, by decide, by decide⟩

theorem meets_KeysAndMeasurements : (∀ n < 3, ({ State.reset.firm with active := n } : Firm).active ≤ 2) ∧ (outState id).firm.boot = .running ∧
    1 ≤ 1 ∧ 8191 < 8192 ∧ (outState id).firm.spdm = false ∧ ({ (outState id).firm with spdm := true } : Firm).spdm = true ∧
    Map.wf none (outState id).firm.keys = true ∧ (outState id).pend = [] ∧ (outState id).groups = [] := by decide +kernel

/-- A line of five words in memory, whole and with one bit flipped; and lines that fail one check each. -/
def nops (btm : Nat) : Line := makeLine 0 btm [0, 0, 0, 0, encode (.exit hdr brOp)]
def lineState (d : Line) : State := put 0 (leBytes 64 d.toNat) (runs .nop)
def fetched (d : Line) : Option Line :=
  let s := lineState d
  let r := s.access 0 0 0 .fetch
  match r.2 with
  | .error _ => none
  | .ok l => if ((r.1.core 0).ic.isEmpty && r.1.lineKey.isEmpty && l.crypt == 0 && !l.ml && l.keyOn 0 0 % 64 == 0 && !r.1.lineBad (l.keyOn 0 0 / 64)) = true then
      some (BitVec.ofNat 512 (ofLe (r.1.bytes (l.keyOn 0 0 / 64 * 64) 64))) else none
def evenLine (d : Line) : Bool :=
  (List.range 5).all (fun j => ((d.extractLsb' (96 * j) 96).cpop.toNat + (d.getLsbD (490 + j)).toNat) % 2 == 0) && (d.extractLsb' 480 32).cpop.toNat % 2 == 0
theorem meets_LineEntry_whole : fetched (nops 1) = some (nops 1) ∧ evenLine (nops 1) = true := by decide +kernel
theorem meets_LineEntry_flipped : fetched (nops 1 ^^^ 1) = some (nops 1 ^^^ 1) ∧ evenLine (nops 1 ^^^ 1) = false := by decide +kernel
/-- The same fetch where the line of the page holds an error. -/
theorem meets_LineEntry_bad :
    (let s : State := { lineState (nops 1) with poison := [0x40000000 / 64] }
     let r := s.access 0 0 0 .fetch
     r.2.toOption.any (fun l => !l.ml && l.crypt == 0 && l.keyOn 0 0 % 64 == 0 && r.1.lineBad (l.keyOn 0 0 / 64)) &&
       (r.1.core 0).ic.isEmpty && r.1.lineKey.isEmpty) = true := by decide +kernel
theorem meets_LineEntry_checks :
    (let d := nops 16
     d.extractLsb' 496 2 = 0 ∧ d.extractLsb' 498 14 = 0 ∧ (∀ j < 5, d.getLsbD (485 + j) = decide (d.extractLsb' (96 * j + 91) 5 = 31)) ∧
       d.getLsbD (480 + 4) = true ∧ d.getLsbD 480 = false ∧ d.extractLsb' 496 2 ≠ 1) ∧
    ¬ (∀ j < 5, (nops 16 ^^^ BitVec.ofNat 512 (2 ^ 489)).getLsbD (485 + j) = decide ((nops 16 ^^^ BitVec.ofNat 512 (2 ^ 489)).extractLsb' (96 * j + 91) 5 = 31)) := by
  decide +kernel

/-- The turns: a fragment that holds its line, one that enters it, a stream, an event, and no agenda. -/
def turnIss (s : State) : Iss := issAt s 1 0 0
def slotRuns (s : State) (w : Instr) : Bool :=
  let i := turnIss s
  (match i.g.buf with
   | none => false
   | some b => (decode .code (slotWord b.data (i.g.pc.toNat % 5))).toOption == some w && b.num == i.g.pc.toNat / 5 && !afterCurve b.data (i.g.pc.toNat % 5)) &&
    (usesFlock w).v.all (fun n => decide (n < i.x.regs)) && (usesFlock w).lat.isEmpty && (List.range 8).all (fun n => !(usesFlock w).wait.getLsbD n || i.tokCount n == 0) &&
    !i.mustHold (usesFlock w) && i.g.park == .ready && i.x.run == .running && i.x.argFault == none && i.k.stop == none && !i.k.dying &&
    i.k.replayFid == none && !i.k.heldBy 0 && !i.isBehind && !i.fenced w && !i.g.pending && !(s.cluster (i.x.core / 8)).settling
def turnState (s : State) : State := { s with agenda := [.issue 1 0 0], cur := none }
theorem meets_StepRunsDecoded_issue : (turnState (runs (.vfma hdr vrOp))).agenda = .issue 1 0 0 :: [] ∧
    (turnState (runs (.vfma hdr vrOp))).seatYielders.folds = (turnState (runs (.vfma hdr vrOp))).folds ∧
    (({ turnState (runs (.vfma hdr vrOp)) with agenda := [] } : State).iss? 1 0 0).isSome = true ∧
    (turnIss { turnState (runs (.vfma hdr vrOp)) with agenda := [] }).g.arriving = false ∧
    slotRuns { turnState (runs (.vfma hdr { vrOp with ty := .f32 })) with agenda := [] } (.vfma hdr { vrOp with ty := .f32 }) = true := by decide +kernel
theorem meets_StepRunsDecoded_enter :
    (let s := inFrag (fun g => { g with arriving := true, buf := none }) (lineState (nops 1))
     let r := (turnIss s).enter
     (turnIss s).g.arriving = true ∧ (r.2.any fun b => b.num == 0 && b.data == nops 1) = true ∧ (r.1.iss? 1 0 0).isSome = true ∧
       (turnIss r.1).g.pc = (turnIss s).g.pc) := by decide +kernel
def mendBuf : LineBuf := { num := 0, data := makeLine 1 1 [encode (.mend mtxOp)] }
theorem meets_StepRunsDecoded_rest :
    (let s := streamState (fun m => { m with arriving := false, buf := some mendBuf }) (runs .nop)
     let x := foldOf s
     (s.fold? x.uid = some x ∧ x.run = .running ∧ x.argFault = none) ∧
       (x.stream.any fun m => !m.ended && m.stop == none && !m.arriving && m.buf == some mendBuf && m.pc.toNat / 5 == 0) = true ∧
       (decode .matrix (slotWord mendBuf.data 0)).toOption = some (.mend mtxOp)) ∧
    (Instr.backgroundSweepDone).hasWord = false ∧ State.reset.agenda = [] := by decide +kernel

/-- A word of every format with an unassigned opcode. -/
def badWord (fmt : Nat) : IWord := BitVec.ofNat 96 (255 * 2 ^ 83 + fmt * 2 ^ 91)
theorem meets_UnassignedOpcodes : (∀ f < 13, badWord f ≠ 0 ∧ ((badWord f).extractLsb' 91 5).toNat = f ∧ ((badWord f).extractLsb' 83 8).toNat = 255) ∧
    (let b : LineBuf := { num := 0, data := makeLine 0 1 [badWord 11] }
     (turnIss (inFrag (fun g => { g with buf := some b }) (runs .nop))).g.buf = some b ∧ slotWord b.data ((turnIss (runs .nop)).g.pc.toNat % 5) = badWord 11) ∧
    (let b : LineBuf := { num := 0, data := makeLine 1 1 [badWord 12] }
     let s := streamState (fun m => { m with arriving := false, buf := some b }) (runs .nop)
     s.fold? 1 = some (foldOf s) ∧ ((foldOf s).stream.any fun m => !m.ended && m.stop == none && !m.arriving && m.buf == some b && m.pc.toNat / 5 == 0) = true ∧
       slotWord b.data 0 = badWord 12 ∧ 11 < 255) := by decide +kernel

theorem meets_NopWord : (1 : IWord) ≠ 0 ∧ (1 : IWord).extractLsb' 83 13 = 0 ∧ state1.issuer = some iss1 ∧
    (stream0.cur = some (.stream 1) ∧ stream0.fold? 1 = some (foldOf stream0) ∧ (foldOf stream0).stream.isSome = true) :=
  ⟨by decide, by decide, iss1_spec, by decide +kernel⟩

theorem meets_DecodeEncode : (Instr.vfma hdr { vrOp with ty := .f32 }).hasWord = true ∧ (Instr.vfma hdr { vrOp with ty := .f32 }).wf = true := by decide
theorem meets_DecodeAccepts : (decode .code 0x280F_8000_1004_0000_8010_0000#96).toOption.isSome = true ∧
    (let w : IWord := BitVec.ofNat 96 (13 * 2 ^ 91)
     12 < w.extractLsb' 91 5 ∧ w.extractLsb' 91 5 < 31) ∧
    (let w : IWord := BitVec.ofNat 96 (12 * 2 ^ 91)
     w.extractLsb' 91 5 = 12) ∧ ((1 : IWord) ≠ 0 ∧ (1 : IWord).extractLsb' 91 5 ≠ 12) := by decide +kernel

theorem meets_MemoryStaysCanonical : MemoryCanonical ({ State.reset with agenda := [.event .backgroundSweepDone] } : State) ∧
    ∃ t, step ({ State.reset with agenda := [.event .backgroundSweepDone] } : State) = .next t :=
  ⟨(by decide : Memory.wf State.reset.mem = true), _, rfl⟩

/-! ### Examples of the spec, by one step -/

/-- A field of the state after one step. -/
def after {α : Type} (s : State) (i : Instr) (f : State → α) : Option α := match exec i s with | .next t => some (f t) | _ => none
def lane (t : State) (r l : Nat) : W32 := Map.get 0 (foldOf t).v (r * 16 + l)
def vals (l : List (Nat × W32)) : State := inFold (fun x => { x with v := l }) state1

/-- Table 5.12, slots 0 to 4: 5; `lat1` = 25; 25 + 7; 5 + 32 beside 32 * 2; 64 - 37 under a guard that holds. -/
theorem test_movi : after state1 (.vmovi hdr { viOp with dst := 0, ty := .s32 }) (fun t => (lane t 0 0, lane t 0 15)) = some (5, 5) := by decide +kernel
theorem test_latch : after (vals [(15, 5)]) (.vmul { hdr with nwb := true, len := true, lat := 1 } { vrOp with dst := 0, sa := .v 0, sb := .v 0 })
    (fun t => ((foldOf t).flocks.map fun k => (Map.get 0 k.lat (64 + 15), k.latOk), lane t 0 15)) = some ([(25, 2)], 5) := by decide +kernel
theorem test_pair : after (vals [(15, 5), (31, 32)]) (.pairWord half { half with op := .mul, dst := 3, sa := .v 1, sb := .c 2 })
    (fun t => (lane t 2 15, lane t 3 15)) = some (37, 64) := by decide +kernel
theorem test_guarded_sub : after (vals [(47, 37), (63, 64)]) (.vsub { hdr with grd := 0, gneg := true } { vrOp with dst := 4, sa := .v 3, sb := .v 2 })
    (fun t => lane t 4 15) = some 27 := by decide +kernel

/-- The example of R121: state 1 becomes 0x0004_2021 and the quarter ulp rounds away, inexact. -/
theorem test_stochastic : after (inFold (fun x => { x with v := [(31, 0x3F804000)], srstate := [(15, 1)] }) state1)
    (.vcvt hdr { cvOp with dst := 3, sa := .v 1, scl := .c 48, frm := .f32, dty := .bf16, rm := .sr })
    (fun t => (lane t 3 15, Map.get 0 (foldOf t).srstate 15)) = some (0x3F81, 0x42021) := by decide +kernel

/-- Table 3.12: the words at 0x040 and 0x080 of the tile after its log has been applied. -/
def log12 : List LogEnt :=
  let e (off lop lty : Nat) (v : W64) : LogEnt := { tile := 2, off := off, lop := lop, lty := lty, val := v, key := 0 }
  [e 0x40 1 4 7, e 0x80 7 8 0x3FC00000, e 0x40 0 2 0, e 0x40 1 4 3]
theorem test_log : (let t := (place 0x1040 [100] (place 0x1080 (leBytes 4 0x40000000) { State.reset with logs := log12 })).applyRange 0x1040 4
    (ofLe (t.bytes 0x1040 4), ofLe (t.bytes 0x1080 4), t.logs)) = (3, 0x40600000, []) := by decide +kernel

/-- Table 16.9: where the sections begin, and the last line of the area. -/
def winograd : Fold :=
  let x := Fold.create 1 64 64 48 4096 128 1 64 0 (some 0)
  { x with stream := some (Stream.create 0) }
theorem test_save_offsets : State.reset.saveOffsets winograd = [256, 1536, 1792, 2816, 15104, 15872, 16128, 16128, 20736, 151808, 153856] ∧
    State.reset.saveLines winograd = (154056 + 63) / 64 := by decide +kernel

/-- Table 5.12: the line word of line 0. -/
theorem test_line_word : (makeLine 0 1 [0x100F_8000_0000_1000_0000_000A, 0x081F_8034_0000_0000_0400_0000, 0x080F_8000_0603_8B00_0400_0000,
    0xF80F_8010_0002_20FC_00C0_3861, 0x0810_4000_1006_0200_0400_0000]).extractLsb' 480 32 = 0x3D01 := by decide +kernel

/-- The example of R418: a ceiling of 700 W with the third die parked, and one of 900 W. -/
def powerDies : List Die := [Die.init, Die.init, { Die.init with cur := 6 }]
theorem test_grants_short : grants 140 powerDies [420, 380, 0] = ([340, 309, 20], 1) := by decide
theorem test_grants_full : grants 180 powerDies [420, 380, 0] = ([420, 380, 20], 50) := by decide

end Sys2Proof.Tests
end

section
/-! The opcode map (chapter 06, R157 and R158): the decoder on a word that stands in the line of its format, the opcodes of
Tables 6.1 to 6.3, and `NOP`. -/

namespace Sys2Proof

open Sys2Proof.Machine

/-! ### The decoder on a word of an assigned format -/

/-- The format of a word, its bits 95 to 91 (Table 5.2). -/
def formatOf (w : IWord) : Nat := (w.extractLsb' 91 5).toNat

/-- The opcode of a word, its bits 90 to 83 (Table 5.2). -/
def opcodeOf (w : IWord) : Nat := (w.extractLsb' 83 8).toNat

/-- Unpacking a word under the widths of Table 5.2 reads its format and its opcode first. -/
theorem unpackFields_hdrWidths (w : IWord) : ∃ grd gneg wait nwb len lat body,
    unpackFields (hdrWidths ++ [66]) w.toNat = [formatOf w, opcodeOf w, grd, gneg, wait, nwb, len, lat, body] := by
  have hopc : w.toNat % 2 ^ 91 / 2 ^ 83 % 2 ^ 8 = w.toNat / 2 ^ 83 % 2 ^ 8 := by omega
  simp only [formatOf, opcodeOf, BitVec.extractLsb'_toNat, Nat.shiftRight_eq_div_pow]
  rw [← hopc]
  exact ⟨_, _, _, _, _, _, _, rfl⟩

/-- Where a word other than `NOP` stands in the kind of line of its format, the opcode is judged first, and then the fields
(Table 5.9). -/
theorem decode_of_assigned_format {k : LineKind} {w : IWord} (h0 : w ≠ 0) (hfmt : formatOf w ≤ 12)
    (hk : formatOf w = 12 ↔ k = .matrix) : ∃ h body, decode k w =
      if opcAssigned (formatOf w) (opcodeOf w) then checked (decodeBody (formatOf w) (opcodeOf w) h body) else .error .opc := by
  obtain ⟨grd, gneg, wait, nwb, len, lat, body, hunpack⟩ := unpackFields_hdrWidths w
  have hn : w.toNat ≠ 0 := fun h => h0 (BitVec.eq_of_toNat_eq h)
  have hpair : formatOf w ≠ 31 := by omega
  have hplace : ¬(12 < formatOf w ∨ (formatOf w = 12 ∧ k = .code) ∨ (formatOf w ≠ 12 ∧ k = .matrix)) := by
    cases k <;> simp_all
  simp only [decode, hunpack, if_neg hn, if_neg hpair, if_neg hplace]
  exact ⟨_, body, rfl⟩

/-- The checks of an instruction's fields answer an instruction or `DECODE_FIELD`. -/
theorem checked_ne_opc (i : Option Instr) : checked i ≠ .error .opc := by
  cases i with
  | none => simp [checked]
  | some i => cases hwf : i.wf <;> simp [checked, hwf]

/-- A word in the kind of line of its format faults with `DECODE_OPC` exactly where its opcode is not assigned. -/
theorem decode_eq_opc_iff {k : LineKind} {w : IWord} (h0 : w ≠ 0) (hfmt : formatOf w ≤ 12)
    (hk : formatOf w = 12 ↔ k = .matrix) :
    decode k w = .error .opc ↔ opcAssigned (formatOf w) (opcodeOf w) = false := by
  obtain ⟨h, body, heq⟩ := decode_of_assigned_format h0 hfmt hk
  rw [heq]
  cases opcAssigned (formatOf w) (opcodeOf w) with
  | true => simp [checked_ne_opc]
  | false => simp

/-! ### The opcodes of Tables 6.1 to 6.3 -/

/-- The opcodes of the tables, a list for each format from `SYS` (0) to `MTX` (12). -/
def tableOpcodes : List (List Nat) :=
  [List.range' 0 10, List.range' 1 22 ++ List.range' 32 8 ++ List.range' 48 8 ++ [64, 65], [1, 2],
    List.range' 1 16 ++ List.range' 24 6 ++ [32], List.range' 1 10, List.range' 1 7, List.range' 1 3, List.range' 1 6,
    List.range' 1 6, [1, 2, 3, 4, 5, 8, 9, 10, 11, 12], [1, 2, 3, 4, 5, 6, 16, 17, 24, 25, 26, 27], [1, 2, 3, 4, 8, 9],
    List.range' 1 11]

theorem format_le_of_tableOpcodes {fmt : Nat} {l : List Nat} (hl : tableOpcodes[fmt]? = some l) : fmt ≤ 12 :=
  Nat.le_of_lt_succ (List.getElem?_eq_some_iff.mp hl).1

/-- The decoder's assigned opcodes are those of the tables. -/
theorem opcAssigned_eq_contains {fmt : Nat} {l : List Nat} (hl : tableOpcodes[fmt]? = some l) (opc : Nat) :
    opcAssigned fmt opc = l.contains opc := by
  match fmt, hl with
  | 0, rfl | 1, rfl | 2, rfl | 3, rfl | 4, rfl | 5, rfl | 6, rfl | 7, rfl | 8, rfl | 9, rfl | 10, rfl | 11, rfl | 12, rfl => rfl
  | n + 13, hl => exact absurd (format_le_of_tableOpcodes hl) (by omega)

/-- The kind of line in which a format stands (Table 6.5). -/
def lineOfFormat (fmt : Nat) : LineKind := if fmt = 12 then .matrix else .code

theorem eq_twelve_iff_lineOfFormat (fmt : Nat) : fmt = 12 ↔ lineOfFormat fmt = .matrix := by
  unfold lineOfFormat
  split <;> simp_all

/-- R157: in the line of its format, a word faults with `DECODE_OPC` exactly where its opcode stands in none of the tables. -/
theorem decode_eq_opc_iff_not_mem {w : IWord} {l : List Nat} (h0 : w ≠ 0) (hl : tableOpcodes[formatOf w]? = some l) :
    decode (lineOfFormat (formatOf w)) w = .error .opc ↔ opcodeOf w ∉ l := by
  rw [decode_eq_opc_iff h0 (format_le_of_tableOpcodes hl) (eq_twelve_iff_lineOfFormat _), opcAssigned_eq_contains hl]
  simp

/-! ### A slot that does not decode, at issue -/

/-- A fragment whose slot does not decode faults with the cause of the decoder's error. -/
theorem Machine.Iss.decodeSlot_of_error {i : Iss} {b : LineBuf} {e : DecErr}
    (he : decode .code (slotWord b.data (i.g.pc.toNat % 5)) = .error e) :
    i.decodeSlot b = .stay (i.fault (DecErr.cause e) i.g.exec 0 0) := by
  simp only [Iss.decodeSlot, he]

/-- The stream of a running fold may issue, and its fetch buffer holds the line of its pc, as `b`. -/
structure StreamReady (s : State) (x : Fold) (m : Stream) (b : LineBuf) : Prop where
  fold : s.fold? x.uid = some x
  stream : x.stream = some m
  run : x.run = .running
  ended : m.ended = false
  stop : m.stop = none
  arg : x.argFault = none
  arriving : m.arriving = false
  buf : m.buf = some b
  line : b.num = m.pc.toNat / 5

/-- A stream that holds its line, and whose slot does not decode, faults with the cause of the decoder's error. -/
theorem Machine.State.prepStream_of_error {s : State} {x : Fold} {m : Stream} {b : LineBuf} {e : DecErr} (h : StreamReady s x m b)
    (he : decode .matrix (slotWord b.data (m.pc.toNat % 5)) = .error e) :
    s.prepStream x.uid = .stay (s.faultStream x.uid { cause := DecErr.cause e, addr := 0, aux := 0, page := none }) := by
  obtain ⟨hfold, hstream, hrun, hended, hstop, harg, harriving, hbuf, hline⟩ := h
  simp [State.prepStream, hfold, hstream, hrun, hended, hstop, harg, harriving, hbuf, hline, he]

/-- Settles O56: the decoder judges the opcode against the tables before the fields, and at issue its error is the fault. -/
theorem unassignedOpcodes : Obligations.UnassignedOpcodes := by
  unfold Obligations.UnassignedOpcodes
  intro w h0 fmt opc last k
  refine ⟨fun l hl => ?_, fun i b l hslot hl hcode hopc => ?_,
    fun s x m b hfold hstream hrun hended hstop harg harriving hbuf hline hslot hmtx hopc => ?_⟩
  · exact ⟨(decode_eq_opc_iff_not_mem h0 hl).mpr, fun hmem herr => (decode_eq_opc_iff_not_mem h0 hl).mp herr hmem⟩
  · have herr : decode .code w = .error .opc := by
      simpa [lineOfFormat, show formatOf w ≠ 12 from hcode] using (decode_eq_opc_iff_not_mem h0 hl).mpr hopc
    exact Iss.decodeSlot_of_error (e := .opc) (by rw [hslot]; exact herr)
  · have hl : tableOpcodes[formatOf w]? = some (List.range' 1 11) := by rw [show formatOf w = 12 from hmtx]; rfl
    have hnot : opcodeOf w ∉ List.range' 1 11 := by
      rw [List.mem_range'_1]
      exact fun h => absurd h.2 (Nat.not_lt.mpr hopc)
    have herr : decode .matrix w = .error .opc := by
      simpa [lineOfFormat, show formatOf w = 12 from hmtx] using (decode_eq_opc_iff_not_mem h0 hl).mpr hnot
    exact State.prepStream_of_error (e := .opc) ⟨hfold, hstream, hrun, hended, hstop, harg, harriving, hbuf, hline⟩ (by rw [hslot]; exact herr)

/-! ### `NOP` (R158) -/

/-- The all-zero word is `NOP` in either kind of line. -/
theorem decode_zero (k : LineKind) : decode k 0 = .ok .nop := rfl

/-- A word whose format and opcode bits are zero is one of `SYS` with opcode 0. -/
theorem format_opcode_zero {w : IWord} (h : w.extractLsb' 83 13 = 0) : formatOf w = 0 ∧ opcodeOf w = 0 := by
  have hbits : w.toNat / 2 ^ 83 % 2 ^ 13 = 0 := by
    simpa [BitVec.extractLsb'_toNat, Nat.shiftRight_eq_div_pow] using congrArg BitVec.toNat h
  simp only [formatOf, opcodeOf, BitVec.extractLsb'_toNat, Nat.shiftRight_eq_div_pow]
  omega

/-- `SYS` opcode 0 has no instruction with a body: it is `NOP` as the all-zero word alone. -/
theorem decodeBody_sys_zero (h : Hdr) (body : Nat) : decodeBody 0 0 h body = none := by
  simp only [decodeBody, sysCtor, Option.bind_fun_none]

theorem decode_sys_zero {w : IWord} (h0 : w ≠ 0) (h : w.extractLsb' 83 13 = 0) : decode .code w = .error .field := by
  obtain ⟨hfmt, hopc⟩ := format_opcode_zero h
  obtain ⟨hdr, body, heq⟩ := decode_of_assigned_format (k := .code) h0 (by omega) (by simp [hfmt])
  rw [heq, hfmt, hopc, decodeBody_sys_zero]
  rfl

/-- `NOP` of a fragment only goes on at the next slot. -/
theorem exec_nop_frag {s : State} {i : Iss} (h : s.issuer = some i) : exec .nop s = .next (i.next i.s) := by
  have hcur : ∀ u, s.cur ≠ some (.stream u) := fun u hc => by simp [State.issuer, hc] at h
  rw [← onFrag_issuer h fun j => j.next j.s]
  show execNop s = _
  unfold execNop
  split
  · next u hc => exact absurd hc (hcur u)
  · rfl

/-- `NOP` of a stream only goes on at the next slot. -/
theorem exec_nop_stream {s : State} {u : Nat} (h : s.cur = some (.stream u)) : exec .nop s = .next (s.streamNext u) := by
  show execNop s = _
  simp only [execNop, h]

theorem does_nop {s : State} {i : Iss} (h : s.issuer = some i) : Does i .nop {} := by
  obtain ⟨hs, -⟩ := State.issuer_spec h
  exact ⟨i.next i.s, by rw [hs, exec_nop_frag h, hs], Done.of_next_same h⟩

/-- Settles O57: the all-zero word decodes before the opcode is looked at, and `SYS` opcode 0 has no other instruction. -/
theorem nopWord : Obligations.NopWord := by
  unfold Obligations.NopWord
  exact ⟨decode_zero .code, decode_zero .matrix, rfl, fun w => decode_sys_zero, fun s i => does_nop,
    fun s u x m hcur _ _ => exec_nop_stream hcur, rfl, fun i => rfl⟩

end Sys2Proof
end

section
/-! Integers as bit vectors: the arithmetic on numbers by which the meanings of chapters 07 and 08 compute, at any width,
as the operations on bit vectors of which the statements speak. -/

namespace Sys2Proof

open Sys2Proof.Machine

/-! ### Values and widths -/

theorem sval_toNat {w : Nat} (x : BitVec w) : sval w x.toNat = x.toInt := by
  cases w with
  | zero => simp [sval, BitVec.of_length_zero]
  | succ w =>
    simp only [sval, Nat.mod_eq_of_lt x.isLt, Nat.add_sub_cancel, BitVec.toInt_eq_toNat_cond]
    have : 2 * x.toNat < 2 ^ (w + 1) ↔ x.toNat < 2 ^ w := by omega
    simp only [this]

theorem ival_toNat (sg : Bool) {w : Nat} (x : BitVec w) :
    ival sg w x.toNat = if sg then x.toInt else (x.toNat : Int) := by
  simp [ival, sval_toNat, Nat.mod_eq_of_lt x.isLt]

/-- Only the low `w` bits count. -/
@[simp] theorem ival_mod (sg : Bool) (w x : Nat) : ival sg w (x % 2 ^ w) = ival sg w x := by
  simp [ival, sval]

theorem ofNat_wrap (w : Nat) (x : Int) : BitVec.ofNat w (wrap w x) = BitVec.ofInt w x := by
  apply BitVec.eq_of_toNat_eq
  have : (x % (2 ^ w : Nat)).toNat < 2 ^ w := by
    have := Int.emod_lt_of_pos x (b := (2 ^ w : Nat)) (by exact_mod_cast Nat.two_pow_pos w)
    omega
  simp only [wrap, BitVec.toNat_ofNat, BitVec.toNat_ofInt, Nat.mod_eq_of_lt this]

/-- A result in a scalar register is extended from its type (R65). -/
theorem ofNat_fill (t : Ty) (r : Nat) : BitVec.ofNat 64 (fill 64 t r) = extended t (BitVec.ofNat t.bits r) := by
  have hv : ival t.signed t.bits r = ival t.signed t.bits (BitVec.ofNat t.bits r).toNat := by simp
  rw [fill, ofNat_wrap, hv, ival_toNat, extended]
  cases t.signed with
  | true => rfl
  | false => simp only [Bool.false_eq_true, if_false, BitVec.ofInt_natCast, BitVec.ofNat_toNat]

theorem extended_64 (t : Ty) (v : W64) : extended t v = v := by simp [extended]

/-- The types of set IB of chapter 07 have 32 or 64 bits (R167). -/
theorem bits_of_isScalarIntB {t : Ty} : t.isScalarIntB = true → t.bits = 32 ∨ t.bits = 64 := by cases t <;> decide

/-- What is computed at 64 bits or at 32 is computed at the width of the type. -/
theorem at_scalar_width {α : Type} {t : Ty} (ht : t.isScalarIntB = true) (F : (n : Nat) → BitVec n → BitVec n → α) (a b : W64) :
    (if t.bits = 64 then F 64 a b else F 32 (a.setWidth 32) (b.setWidth 32)) = F t.bits (a.setWidth _) (b.setWidth _) := by
  have hw := bits_of_isScalarIntB ht
  generalize t.bits = n at hw
  obtain rfl | rfl := hw <;> simp

theorem Ty.bits_pos (t : Ty) : 0 < t.bits := by cases t <;> decide

/-! ### Order -/

theorem ival_lt_iff (t : Ty) {w : Nat} (a b : BitVec w) :
    ival t.signed w a.toNat < ival t.signed w b.toNat ↔ lessThan t a b = true := by
  rw [ival_toNat, ival_toNat, lessThan]
  cases t.signed with
  | true => exact BitVec.slt_iff_toInt_lt.symm
  | false => simp [BitVec.ult]

theorem ival_eq_iff (sg : Bool) {w : Nat} (a b : BitVec w) : ival sg w a.toNat = ival sg w b.toNat ↔ a = b := by
  rw [ival_toNat, ival_toNat]
  cases sg with
  | true => exact BitVec.toInt_inj
  | false => simp only [Bool.false_eq_true, if_false, Int.ofNat_inj, BitVec.toNat_inj]

/-! ### Arithmetic and shifts -/

theorem ofNat_sub_toNat {w : Nat} (a b : BitVec w) : BitVec.ofNat w (a.toNat + 2 ^ w - b.toNat) = a - b := by
  apply BitVec.eq_of_toNat_eq
  have := b.isLt
  rw [BitVec.toNat_ofNat, BitVec.toNat_sub, show a.toNat + 2 ^ w - b.toNat = 2 ^ w - b.toNat + a.toNat by omega]

theorem ofNat_highProduct (t : Ty) {w : Nat} (a b : BitVec w) :
    BitVec.ofNat w (wrap (2 * w) (ival t.signed w a.toNat * ival t.signed w b.toNat) / 2 ^ w) = highProduct t a b := by
  have high (p : Int) : BitVec.ofNat w (wrap (2 * w) p / 2 ^ w) = (BitVec.ofInt (2 * w) p >>> w).setWidth w := by
    apply BitVec.eq_of_toNat_eq
    simp [wrap, BitVec.toNat_ofInt, Nat.shiftRight_eq_div_pow]
  rw [high, BitVec.ofInt_mul, ival_toNat, ival_toNat, highProduct]
  cases t.signed with
  | true => rfl
  | false => simp

theorem ofNat_shiftLeft {w : Nat} (a : BitVec w) (n : Nat) : BitVec.ofNat w (a.toNat * 2 ^ n) = a <<< n := by
  apply BitVec.eq_of_toNat_eq
  simp [Nat.shiftLeft_eq]

theorem ofNat_shiftRight {w : Nat} (a : BitVec w) (n : Nat) : BitVec.ofNat w (a.toNat / 2 ^ n) = a >>> n := by
  apply BitVec.eq_of_toNat_eq
  simp [Nat.shiftRight_eq_div_pow, Nat.mod_eq_of_lt (Nat.lt_of_le_of_lt (Nat.div_le_self _ _) a.isLt)]

theorem ofNat_sshiftRight {w : Nat} (a : BitVec w) (n : Nat) :
    BitVec.ofNat w (wrap w (sval w a.toNat / (2 ^ n : Nat))) = a.sshiftRight n := by
  rw [ofNat_wrap, sval_toNat, BitVec.sshiftRight, Int.shiftRight_eq_div_pow]

/-! ### Counts of bits -/

/-- The ones of the low bits, counted from the highest. -/
theorem popc_succ (n x : Nat) : popc (n + 1) x = popc n x + x / 2 ^ n % 2 := by
  induction n generalizing x with
  | zero => simp [popc]
  | succ n ih =>
    rw [popc, ih, popc, Nat.div_div_eq_div_mul, Nat.pow_succ']
    omega

theorem cpopNatRec_eq_popc {w : Nat} (a : BitVec w) (n : Nat) : a.cpopNatRec n 0 = popc n a.toNat := by
  induction n with
  | zero => rfl
  | succ n ih =>
    have hbit : (a.getLsbD n).toNat = a.toNat / 2 ^ n % 2 := by
      rw [BitVec.getLsbD, Nat.testBit_eq_decide_div_mod_eq]
      rcases Nat.mod_two_eq_zero_or_one (a.toNat / 2 ^ n) with h | h <;> simp [h]
    rw [BitVec.cpopNatRec_succ, BitVec.cpopNatRec_eq, ih, popc_succ, hbit, Nat.zero_add]

theorem ofNat_popc {w : Nat} (a : BitVec w) : BitVec.ofNat w (popc w a.toNat) = a.cpop := by
  rw [← cpopNatRec_eq_popc, BitVec.cpop]

theorem bitLenTo_le_iff {w x : Nat} (hx : x < 2 ^ w) (n : Nat) : bitLenTo w x ≤ n ↔ x < 2 ^ n := by
  induction w generalizing x n with
  | zero =>
    have h0 : x = 0 := by omega
    simp only [bitLenTo, h0, Nat.zero_le, Nat.two_pow_pos]
  | succ w ih =>
    by_cases h0 : x = 0
    · simp only [bitLenTo, h0, if_true, Nat.zero_le, Nat.two_pow_pos]
    · rw [bitLenTo, if_neg h0]
      cases n with
      | zero => simp [h0]
      | succ n =>
        have := ih (x := x / 2) (by omega) n
        omega

/-- The leading zeros are what is left of the bits above the highest one. -/
theorem ofNat_clz {w : Nat} (a : BitVec w) : BitVec.ofNat w (clz w a.toNat) = a.clz := by
  have hlen := bitLenTo_le_iff a.isLt
  rw [clz, Nat.mod_eq_of_lt a.isLt]
  by_cases h0 : a = 0
  · have : bitLenTo w a.toNat ≤ 0 := (hlen 0).mpr (by simp [h0])
    rw [BitVec.clz_eq_iff_eq_zero.mpr h0, Nat.le_zero.mp this]
    rfl
  · have hw : 0 < w := Nat.pos_of_ne_zero fun h => h0 (by subst h; exact BitVec.of_length_zero)
    have hupper := (hlen (w - a.clz.toNat)).mpr BitVec.toNat_lt_two_pow_sub_clz
    have hlower := (not_congr (hlen (w - 1 - a.clz.toNat))).mpr
      (Nat.not_lt.mpr (BitVec.two_pow_sub_clz_le_toNat_of_ne_zero hw h0))
    rw [show w - bitLenTo w a.toNat = a.clz.toNat by omega]
    simp

/-- The lowest member of a mask. -/
theorem ffs_eq_of_lowest {a : Mask} {n : Nat} (hn : n < 64) (h1 : a.getLsbD n = true) (h0 : ∀ m < n, a.getLsbD m = false) :
    ffs a = n := by
  have : (List.range 64).find? a.getLsbD = some n :=
    List.find?_range_eq_some.mpr ⟨h1, List.mem_range.mpr hn, fun m hm => by simp [h0 m hm]⟩
  rw [ffs, lanes, List.headD_eq_head?_getD, List.head?_filter, this, Option.getD_some]

theorem ffs_zero : ffs 0 = 64 := by decide

/-! ### Division (Table 1.7) -/

@[simp] theorem divQ_mod (sg : Bool) (w a b : Nat) : divQ sg w (a % 2 ^ w) (b % 2 ^ w) = divQ sg w a b := by
  simp [divQ]

@[simp] theorem divR_mod (sg : Bool) (w a b : Nat) : divR sg w (a % 2 ^ w) (b % 2 ^ w) = divR sg w a b := by
  simp [divR]

theorem ival_eq_zero_iff (sg : Bool) {w : Nat} (b : BitVec w) : ival sg w b.toNat = 0 ↔ b = 0 := by
  rw [← ival_eq_iff sg b 0, ival_toNat sg 0]
  cases sg <;> simp

theorem ofNat_eq_intMin (w : Nat) : BitVec.ofNat w (2 ^ (w - 1)) = BitVec.intMin w :=
  BitVec.eq_of_toNat_eq (by rw [BitVec.toNat_ofNat, BitVec.toNat_intMin])

theorem ofNat_eq_intMax (w : Nat) : BitVec.ofNat w (2 ^ (w - 1) - 1) = BitVec.intMax w := by
  have : 2 ^ (w - 1) - 1 < 2 ^ w :=
    Nat.lt_of_lt_of_le (Nat.sub_lt (Nat.two_pow_pos _) Nat.one_pos) (Nat.pow_le_pow_right Nat.two_pos (Nat.sub_le w 1))
  exact BitVec.eq_of_toNat_eq (by rw [BitVec.toNat_ofNat, Nat.mod_eq_of_lt this, BitVec.toNat_intMax])

theorem ofNat_eq_allOnes (w : Nat) : BitVec.ofNat w (2 ^ w - 1) = BitVec.allOnes w :=
  BitVec.eq_of_toNat_eq (by
    rw [BitVec.toNat_ofNat, BitVec.toNat_allOnes, Nat.mod_eq_of_lt (Nat.sub_lt (Nat.two_pow_pos w) Nat.one_pos)])

/-- Table 1.7 names the least value over -1, which a signed type alone has. -/
theorem overflows_iff {sg : Bool} {w : Nat} (hw : 0 < w) (a b : BitVec w) :
    (sg && decide (ival sg w a.toNat = intMin true w) && decide (ival sg w b.toNat = -1)) = true ↔
      sg = true ∧ a = BitVec.intMin w ∧ b = BitVec.allOnes w := by
  have hmin : intMin true w = (BitVec.intMin w).toInt := by rw [BitVec.toInt_intMin_of_pos hw]; simp [intMin]
  have hneg : (-1 : Int) = (BitVec.allOnes w).toInt := by rw [BitVec.toInt_allOnes, if_pos hw]
  cases sg with
  | true => simp only [ival_toNat, if_true, hmin, hneg, BitVec.toInt_inj, Bool.true_and, Bool.and_eq_true, decide_eq_true_eq, true_and]
  | false => simp

/-- The quotient of a division by zero. -/
theorem ofNat_quotient_zero (sg : Bool) {w : Nat} (a : BitVec w) :
    BitVec.ofNat w (if sg then (if 0 ≤ ival sg w a.toNat then 2 ^ (w - 1) - 1 else 2 ^ (w - 1)) else 2 ^ w - 1) =
      if sg then (if a.msb then BitVec.intMin w else BitVec.intMax w) else BitVec.allOnes w := by
  cases sg with
  | true =>
    rw [if_pos rfl, if_pos rfl, ival_toNat, if_pos rfl, BitVec.msb_eq_toInt]
    by_cases h : a.toInt < 0
    · rw [if_neg (Int.not_le.mpr h), if_pos (by simpa using h), ofNat_eq_intMin]
    · rw [if_pos (Int.not_lt.mp h), if_neg (by simpa using h), ofNat_eq_intMax]
  | false => exact ofNat_eq_allOnes w

/-- The quotient rounded towards zero. -/
theorem ofInt_tdiv_ival (sg : Bool) {w : Nat} (a b : BitVec w) :
    BitVec.ofInt w ((ival sg w a.toNat).tdiv (ival sg w b.toNat)) = if sg then a.sdiv b else a / b := by
  rw [ival_toNat, ival_toNat]
  cases sg with
  | true => exact BitVec.eq_of_toInt_eq (by simp [BitVec.toInt_ofInt, BitVec.toInt_sdiv])
  | false =>
    have : (a.toNat : Int).tdiv b.toNat = (a.toNat / b.toNat : Nat) := rfl
    simp only [Bool.false_eq_true, if_false, this, BitVec.ofInt_natCast]
    exact BitVec.eq_of_toNat_eq (by simp [Nat.mod_eq_of_lt (Nat.lt_of_le_of_lt (Nat.div_le_self _ _) a.isLt)])

/-- The remainder that goes with it, of the sign of the dividend. -/
theorem ofInt_tmod_ival (sg : Bool) {w : Nat} (a b : BitVec w) :
    BitVec.ofInt w ((ival sg w a.toNat).tmod (ival sg w b.toNat)) = if sg then a.srem b else a % b := by
  rw [ival_toNat, ival_toNat]
  cases sg with
  | true => simp only [if_true, ← BitVec.toInt_srem, BitVec.ofInt_toInt]
  | false =>
    have : (a.toNat : Int).tmod b.toNat = (a.toNat % b.toNat : Nat) := rfl
    simp only [Bool.false_eq_true, if_false, this, BitVec.ofInt_natCast]
    exact BitVec.eq_of_toNat_eq (by simp [Nat.mod_eq_of_lt (Nat.lt_of_le_of_lt (Nat.mod_le _ _) a.isLt)])

/-- The quotients of the model are those of Table 1.7. -/
theorem divQ_eq_quotient (t : Ty) {w : Nat} (hw : 0 < w) (a b : BitVec w) :
    (BitVec.ofNat w (divQ t.signed w a.toNat b.toNat).1, (divQ t.signed w a.toNat b.toNat).2) = quotient t a b := by
  simp only [divQ, quotient, ival_eq_zero_iff, overflows_iff hw]
  by_cases hb : b = 0
  · simp only [if_pos hb, ofNat_quotient_zero]
  · simp only [if_neg hb]
    by_cases ho : t.signed = true ∧ a = BitVec.intMin w ∧ b = BitVec.allOnes w
    · rw [if_pos ho, if_pos ho.1, if_pos ho.2, ofNat_eq_intMin, ho.2.1]
    · simp only [if_neg ho, ofNat_wrap, ofInt_tdiv_ival]
      by_cases hs : t.signed = true
      · simp only [if_pos hs, if_neg fun h => ho ⟨hs, h⟩]
      · simp only [if_neg hs]

/-- The remainders of the model are those of Table 1.7. -/
theorem divR_eq_remainder (t : Ty) {w : Nat} (hw : 0 < w) (a b : BitVec w) :
    (BitVec.ofNat w (divR t.signed w a.toNat b.toNat).1, (divR t.signed w a.toNat b.toNat).2) = remainder t a b := by
  simp only [divR, remainder, ival_eq_zero_iff, overflows_iff hw]
  by_cases hb : b = 0
  · simp only [if_pos hb, Nat.mod_eq_of_lt a.isLt, BitVec.ofNat_toNat, BitVec.setWidth_eq]
  · simp only [if_neg hb]
    by_cases ho : t.signed = true ∧ a = BitVec.intMin w ∧ b = BitVec.allOnes w
    · rw [if_pos ho, if_pos ho.1, if_pos ho.2]
      rfl
    · simp only [if_neg ho, ofNat_wrap, ofInt_tmod_ival]
      by_cases hs : t.signed = true
      · simp only [if_pos hs, if_neg fun h => ho ⟨hs, h⟩]
      · simp only [if_neg hs]

end Sys2Proof
end

section
/-! Flock-uniform instructions: how one that executes ends, and what the write of a mask and of an exception flag do. -/

namespace Sys2Proof

open Sys2Proof.Machine

/-- A flock-uniform instruction that executes does what its end says. -/
theorem Does.of_uniform {s t : State} {i : Iss} {h : Hdr} {w : Instr} {f : Iss → State} {e : Effect} (hi : s.issuer = some i)
    (hr : Runs i h) (hw : exec w s = onFrag s f) (hf : f i = i.uniform h t) (ht : Done i t e) : Does i w e := by
  obtain ⟨hs, -⟩ := State.issuer_spec hi
  exact ⟨t, by rw [hs, hw, onFrag_issuer hi, hf, Iss.uniform_runs hr], ht⟩

/-! ### Writes of the issuing fragment and of masks -/

/-- An instruction that changes its fragment. -/
theorem Done.of_next_frag {s : State} {i : Iss} (hi : s.issuer = some i) (f : Frag → Frag) (hf : ∀ g, (f g).fid = g.fid) :
    Done i (i.next (i.modFrag i.s f)) { frag := f } := by
  obtain ⟨hs, hx, ⟨was, hl, -⟩, -⟩ := State.issuer_spec hi
  have hmove (k : Flock) (move : Frag → Frag) : ((k.modFrag i.g.fid f).modFrag i.g.fid move).frags =
      k.frags.map fun g => if g.fid = i.g.fid then move (f g) else g := by
    simp only [Flock.modFrag, List.map_map]
    refine List.map_congr_left fun g _ => ?_
    by_cases hg : g.fid = i.g.fid <;> simp [hg, hf]
  refine Ends.intro hl i.s _ _ _ (fun x => x)
    (fun k => (k.modFrag i.g.fid f).modFrag i.g.fid fun g => { g with pc := i.g.pc + 1, arriving := false, park := .ready })
    (hs ▸ hx) ?_ (fun _ => rfl) rfl rfl rfl rfl (hmove was _)
  rw [modFold_id]
  exact congrArg (State.settle · i.x.uid i.fl) (modFlock_modFlock i.s _ _ (·.modFrag i.g.fid f) (·.modFrag i.g.fid _))

/-- An instruction that writes a mask (R172). -/
theorem Done.of_setMask {s : State} {i : Iss} (hi : s.issuer = some i) (n : Nat) (v : Mask) :
    Done i (i.next (i.setMask i.s n v)) (maskWrite i n v) := by
  unfold Iss.setMask maskWrite
  by_cases hn : n = 15
  · simp only [if_pos hn]
    exact Done.of_next_frag hi _ fun _ => rfl
  · simp only [if_neg hn]
    exact Done.of_next_flock hi _ (fun _ => rfl) fun _ => rfl

/-- An instruction that writes a scalar. -/
theorem Done.of_next_setS {s : State} {i : Iss} (hi : s.issuer = some i) (d : BitVec 7) (v : W64) :
    Done i (i.next (i.setS i.s d v)) { flock := (·.setS d.toNat v) } :=
  Done.of_next_flock hi (·.setS d.toNat v) (fun _ => rfl) fun _ => rfl

/-! ### Flags beside a write of the flock -/

theorem orFlags_modFlock (x : Fold) (t : Nat) (fl : W32) (l : Nat) (f : Flock → Flock) :
    (x.modFlock l f).orFlags t fl = (x.orFlags t fl).modFlock l f := by
  unfold Fold.orFlags
  split <;> rfl

theorem raiseFlags_modFlock (i : Iss) (l : Nat) (f : Flock → Flock) (r : List (Nat × W32)) (x : Fold) :
    raiseFlags i r (x.modFlock l f) = (raiseFlags i r x).modFlock l f := by
  induction r generalizing x with
  | nil => rfl
  | cons p r ih =>
    simp only [raiseFlags, List.foldl_cons, orFlags_modFlock] at ih ⊢
    exact ih _

/-- An instruction that writes its flock and raises flags, none of which takes a trap. -/
theorem Done.of_finish {s : State} {i : Iss} (hi : s.issuer = some i) (fk : Flock → Flock) (hs : ∀ k, (fk k).splits = k.splits)
    (hg : ∀ k, (fk k).frags = k.frags) (r : List (Nat × W32)) (hr : NoTrap i r) :
    Done i (i.finish (i.modFold (i.modFlock i.s fk) (raiseFlags i r)) r) { fold := raiseFlags i r, flock := fk } := by
  have hcomm : i.modFold (i.modFlock i.s fk) (raiseFlags i r) = (i.s.modFold i.x.uid (raiseFlags i r)).modFlock i.x.uid i.fl fk := by
    unfold Iss.modFold Iss.modFlock State.modFlock
    rw [modFold_modFold _ _ _ _ fun x => Fold.modFlock_uid x _ _, modFold_modFold _ _ _ _ (raiseFlags_uid i r)]
    simp only [raiseFlags_modFlock]
  rw [Iss.finish_quiet i _ r hr, hcomm]
  exact Done.of_next hi _ fk (raiseFlags_uid i r) (raiseFlags_flocks i r _) hs hg

end Sys2Proof
end

section
/-! The scalar family and the scalar singles (R166 to R171). -/

namespace Sys2Proof

open Sys2Proof.Machine

/-! ### Operands and results at the width of the type (R166) -/

theorem scB_eq (i : Iss) (o : ScOp) : i.scB o = (scalarSecond i o).toNat := by
  unfold Iss.scB scalarSecond
  split <;> rfl

theorem ofNat_scA (i : Iss) (o : ScOp) : BitVec.ofNat 64 (i.scA o) = i.sval64 o.sa := by simp [Iss.scA]

theorem ofNat_scB (i : Iss) (o : ScOp) : BitVec.ofNat 64 (i.scB o) = scalarSecond i o := by simp [scB_eq]

theorem scA_mod (i : Iss) (o : ScOp) (w : Nat) : i.scA o % 2 ^ w = ((i.sval64 o.sa).setWidth w).toNat :=
  (BitVec.toNat_setWidth w _).symm

theorem scB_mod (i : Iss) (o : ScOp) (w : Nat) : i.scB o % 2 ^ w = ((scalarSecond i o).setWidth w).toNat := by
  rw [scB_eq, BitVec.toNat_setWidth]

/-- The write of an `SC` word, at the width of its type. -/
theorem scalarEffect_eq (i : Iss) (h : Hdr) {o : ScOp} (ht : o.ty.isScalarIntB = true) (f : (w : Nat) → BitVec w → BitVec w → BitVec w) :
    scalarEffect i h o f = scalarWrite h o.sd
      (extended o.ty (f o.ty.bits ((i.sval64 o.sa).setWidth _) ((scalarSecond i o).setWidth _))) := by
  rw [scalarEffect, ← at_scalar_width ht fun n a b => extended o.ty (f n a b), extended_64]

theorem putS_eq (i : Iss) (h : Hdr) (d : BitVec 7) (v : W64) : i.putS h i.s d v = i.modFlock i.s (scalarWrite h d v).flock := by
  unfold Iss.putS scalarWrite
  cases h.nwb with
  | true => exact (modFlock_id i.s _ _).symm
  | false => rfl

theorem scalarWrite_splits (h : Hdr) (d : BitVec 7) (v : W64) (k : Flock) : ((scalarWrite h d v).flock k).splits = k.splits := by
  unfold scalarWrite
  cases h.nwb <;> rfl

theorem scalarWrite_frags (h : Hdr) (d : BitVec 7) (v : W64) (k : Flock) : ((scalarWrite h d v).flock k).frags = k.frags := by
  unfold scalarWrite
  cases h.nwb <;> rfl

theorem raiseFlags_map (i : Iss) (ls : List Nat) (fl : W32) :
    raiseFlags i (ls.map fun l => (l, fl)) = fun x => ls.foldl (fun y l => y.orFlags (i.thread l) fl) x :=
  funext fun x => by rw [raiseFlags, List.foldl_map]

section

variable {s : State} {i : Iss} {h : Hdr} {o : ScOp} {w : Instr}

/-- An `SC` word that writes `v` to its destination. -/
theorem Does.of_putS {f : Iss → State} {v : W64} (hi : s.issuer = some i) (hr : Runs i h) (hw : exec w s = onFrag s f)
    (hf : f i = i.uniform h (i.next (i.putS h i.s o.sd v))) : Does i w (scalarWrite h o.sd v) :=
  .of_uniform hi hr hw hf (.of_setS hi h o.sd v)

/-- An `SC` word whose result is `g` of its operands as numbers does what `f` says of them as bit vectors, where `g`
computes `f`. -/
theorem Does.of_scalar {g : Nat → Nat → Nat} {f : (n : Nat) → BitVec n → BitVec n → BitVec n} (hi : s.issuer = some i) (hr : Runs i h)
    (ht : o.ty.isScalarIntB = true) (hw : exec w s = onFrag s fun j => j.scalar h o g)
    (hg : ∀ a b : BitVec o.ty.bits, BitVec.ofNat _ (g a.toNat b.toNat) = f _ a b) : Does i w (scalarEffect i h o f) := by
  rw [scalarEffect_eq i h ht, ← hg, ← scA_mod, ← scB_mod, ← ofNat_fill]
  exact .of_putS hi hr hw rfl

/-- A division whose result and flags `f` are those of `q` does what `q` says, where no trap is enabled for the flags. -/
theorem Does.of_scalarDiv {f : Bool → Nat → Nat → Nat → Nat × W32} {q : (n : Nat) → BitVec n → BitVec n → BitVec n × W32}
    (hi : s.issuer = some i) (hr : Runs i h) (ht : o.ty.isScalarIntB = true) (hw : exec w s = onFrag s fun j => j.scalarDiv h o f)
    (hmod : ∀ sg n a b, f sg n (a % 2 ^ n) (b % 2 ^ n) = f sg n a b)
    (hq : ∀ a b : BitVec o.ty.bits,
      (BitVec.ofNat _ (f o.ty.signed o.ty.bits a.toNat b.toNat).1, (f o.ty.signed o.ty.bits a.toNat b.toNat).2) = q _ a b) :
    let fl : W32 := if o.ty.bits = 64 then (q 64 (i.sval64 o.sa) (scalarSecond i o)).2
      else (q 32 ((i.sval64 o.sa).setWidth 32) ((scalarSecond i o).setWidth 32)).2
    let raised := (lanes (i.active h)).map fun l => (l, fl)
    NoTrap i raised → Does i w { scalarEffect i h o (fun n a b => (q n a b).1) with fold := raiseFlags i raised } := by
  rw [scalarEffect_eq i h ht, at_scalar_width ht fun n a b => (q n a b).2, ← hq, ← scA_mod, ← scB_mod, hmod, ← ofNat_fill]
  intro fl raised htrap
  refine .of_uniform hi hr hw ?_ (.of_finish hi _ (scalarWrite_splits h o.sd _) (scalarWrite_frags h o.sd _) raised htrap)
  rw [raiseFlags_map, ← putS_eq]
  rfl

end

/-! ### The fields of `SC` words (R166 to R171) -/

theorem isScalarInt_iff (t : Ty) : t.isScalarInt = true ↔ t ∈ [Ty.s32, .n32, .s64, .n64] := by cases t <;> decide

theorem isScalarIntB_iff (t : Ty) : t.isScalarIntB = true ↔ t ∈ [Ty.s32, .n32, .s64, .n64, .b32, .b64] := by cases t <;> decide

theorem isScalarIntB_of_isScalarInt {t : Ty} (h : t.isScalarInt = true) : t.isScalarIntB = true := by simp [Ty.isScalarIntB, h]

theorem wfScBin_ty {tys : Ty → Bool} {h : Hdr} {o : ScOp} (hwf : wfScBin tys h o = true) : tys o.ty = true := by
  simp only [wfScBin, Bool.and_eq_true] at hwf
  obtain ⟨⟨⟨-, hty⟩, -⟩, -⟩ := hwf
  exact hty

theorem wfScUn_spec {tys : Ty → Bool} {h : Hdr} {o : ScOp} (hwf : wfScUn tys h o = true) :
    tys o.ty = true ∧ o.sb = .v 0 ∧ o.immsel = false := by
  simp only [wfScUn, ScOp.noSecond, Src.unread, Bool.and_eq_true, beq_iff_eq, Bool.not_eq_true'] at hwf
  obtain ⟨⟨⟨-, hty⟩, -⟩, ⟨himm, hsb⟩, -⟩ := hwf
  exact ⟨hty, hsb, himm⟩

theorem wfScImm_spec {tys : Ty → Bool} {h : Hdr} {o : ScOp} (hwf : wfScImm tys h o = true) :
    tys o.ty = true ∧ o.sa = .v 0 ∧ o.sb = .v 0 ∧ o.immsel = true := by
  simp only [wfScImm, Src.unread, Bool.and_eq_true, beq_iff_eq] at hwf
  obtain ⟨⟨⟨⟨-, hty⟩, hsa⟩, hsb⟩, himm⟩ := hwf
  exact ⟨hty, hsa, hsb, himm⟩

theorem scalarFamily_types (h : Hdr) (o : ScOp) :
    (∀ w ∈ [Instr.sadd h o, .ssub h o, .smul h o, .smulh h o, .sdiv h o, .srem h o, .smin h o, .smax h o],
      w.wf = true → o.ty ∈ [.s32, .n32, .s64, .n64]) ∧
    (∀ w ∈ [Instr.sand h o, .sor h o, .sxor h o, .sshl h o, .sshr h o, .ssra h o, .sclz h o, .spop h o],
      w.wf = true → o.ty ∈ [.s32, .n32, .s64, .n64, .b32, .b64]) := by
  have hint (hwf : wfScBin Ty.isScalarInt h o = true) := (isScalarInt_iff o.ty).mp (wfScBin_ty hwf)
  have hbits (hwf : wfScBin Ty.isScalarIntB h o = true) := (isScalarIntB_iff o.ty).mp (wfScBin_ty hwf)
  have hcount (hwf : wfScUn Ty.isScalarIntB h o = true) := (isScalarIntB_iff o.ty).mp (wfScUn_spec hwf).1
  simp only [List.forall_mem_cons, List.not_mem_nil, false_implies, implies_true, and_true]
  exact ⟨⟨hint, hint, hint, hint, hint, hint, hint, hint⟩, hbits, hbits, hbits, hbits, hbits, hbits, hcount, hcount⟩

/-! ### Table 7.2 -/

section

variable {s : State} {i : Iss} {h : Hdr} {o : ScOp}

theorem does_smin (hi : s.issuer = some i) (hr : Runs i h) (ht : o.ty.isScalarIntB = true) :
    Does i (.smin h o) (scalarEffect i h o fun _ a b => if lessThan o.ty b a then b else a) :=
  .of_scalar hi hr ht rfl fun a b => by simp only [ival_lt_iff]; split <;> simp

theorem does_smax (hi : s.issuer = some i) (hr : Runs i h) (ht : o.ty.isScalarIntB = true) :
    Does i (.smax h o) (scalarEffect i h o fun _ a b => if lessThan o.ty a b then b else a) :=
  .of_scalar hi hr ht rfl fun a b => by simp only [ival_lt_iff]; split <;> simp

theorem does_smov (hi : s.issuer = some i) (hr : Runs i h) (ht : o.ty.isScalarIntB = true) :
    Does i (.smov h o) (scalarEffect i h o fun _ a _ => a) :=
  .of_scalar hi hr ht rfl fun a _ => by simp

end

/-- Settles O1: each row of Table 7.2 computes on numbers what its operation on bit vectors is. -/
theorem scalarFamily : Obligations.ScalarFamily := by
  unfold Obligations.ScalarFamily
  refine ⟨fun s i h o hi hr ht => ⟨?sadd, ?ssub, ?smul, ?smulh, ?sand, ?sor, ?sxor, ?sshl, ?sshr, ?ssra, does_smin hi hr ht,
    does_smax hi hr ht, ?sclz, ?spop, does_smov hi hr ht, (scalarFamily_types h o).1, (scalarFamily_types h o).2, ?unary⟩,
    fun s i h o hi hr ht => ⟨?sdiv, ?srem⟩⟩
  case sadd => exact .of_scalar hi hr ht rfl fun a b => by simp [BitVec.ofNat_add]
  case ssub => exact .of_scalar hi hr ht rfl ofNat_sub_toNat
  case smul => exact .of_scalar hi hr ht rfl fun a b => by simp [BitVec.ofNat_mul]
  case smulh => exact .of_scalar hi hr ht rfl (ofNat_highProduct o.ty)
  case sand => exact .of_scalar hi hr ht rfl fun a b => by simp
  case sor => exact .of_scalar hi hr ht rfl fun a b => by simp
  case sxor => exact .of_scalar hi hr ht rfl fun a b => by simp
  case sshl => exact .of_scalar hi hr ht rfl fun a b => ofNat_shiftLeft a _
  case sshr => exact .of_scalar hi hr ht rfl fun a b => ofNat_shiftRight a _
  case ssra => exact .of_scalar hi hr ht rfl fun a b => ofNat_sshiftRight a _
  case sclz => exact .of_scalar hi hr ht rfl fun a _ => ofNat_clz a
  case spop => exact .of_scalar hi hr ht rfl fun a _ => ofNat_popc a
  case unary =>
    have hsb (hwf : wfScUn Ty.isScalarIntB h o = true) := (wfScUn_spec hwf).2
    simpa only [List.forall_mem_cons, List.not_mem_nil, false_implies, implies_true, and_true] using ⟨hsb, hsb⟩
  case sdiv =>
    exact .of_scalarDiv hi hr (isScalarIntB_of_isScalarInt ht) rfl divQ_mod (divQ_eq_quotient o.ty o.ty.bits_pos)
  case srem =>
    exact .of_scalarDiv hi hr (isScalarIntB_of_isScalarInt ht) rfl divR_mod (divR_eq_remainder o.ty o.ty.bits_pos)

/-! ### Comparison, selection, moves and addresses (R168 to R171) -/

section

variable {s : State} {i : Iss} {h : Hdr} {o : ScOp}

/-- The outcome of a comparison under a type (R168). -/
theorem ofNat_cmpBits (t : Ty) {w : Nat} (a b : BitVec w) :
    BitVec.ofNat 64 (cmpBits (ival t.signed w a.toNat) (ival t.signed w b.toNat)) =
      if lessThan t a b then 1 else if a == b then 2 else 4 := by
  simp only [cmpBits, ival_lt_iff, ival_eq_iff, beq_iff_eq]
  split
  · rfl
  · split <;> rfl

theorem does_scmp (hi : s.issuer = some i) (hr : Runs i h) (ht : o.ty.isScalarIntB = true) :
    Does i (.scmp h o) (scalarWrite h o.sd
      (if (if o.ty.bits = 64 then lessThan o.ty (i.sval64 o.sa) (scalarSecond i o)
          else lessThan o.ty ((i.sval64 o.sa).setWidth 32) ((scalarSecond i o).setWidth 32)) then 1
        else if (if o.ty.bits = 64 then i.sval64 o.sa == scalarSecond i o
          else (i.sval64 o.sa).setWidth 32 == (scalarSecond i o).setWidth 32) then 2 else 4)) := by
  rw [at_scalar_width ht fun _ a b => lessThan o.ty a b, at_scalar_width ht fun _ a b => a == b, ← ofNat_cmpBits, ← scA_mod,
    ← scB_mod, ival_mod, ival_mod]
  exact .of_putS hi hr rfl rfl

theorem does_ssel (hi : s.issuer = some i) (hr : Runs i h) :
    Does i (.ssel h o) (scalarWrite h o.sd (if i.sreg o.sd ≠ 0 then i.sval64 o.sa else scalarSecond i o)) := by
  rw [← ofNat_scA, ← ofNat_scB, ← apply_ite (BitVec.ofNat 64)]
  exact .of_putS hi hr rfl rfl

theorem does_smovi (hi : s.issuer = some i) (hr : Runs i h) : Does i (.smovi h o) (scalarWrite h o.sd (extended o.ty o.imm)) :=
  .of_putS hi hr rfl rfl

/-- The old low half below the immediate (R170). -/
theorem ofNat_halves (x : W64) (y : W32) : BitVec.ofNat 64 (x.toNat % 2 ^ 32 + y.toNat * 2 ^ 32) = y ++ x.setWidth 32 := by
  have hlow : x.toNat % 2 ^ 32 < 2 ^ 32 := Nat.mod_lt _ (Nat.two_pow_pos 32)
  apply BitVec.eq_of_toNat_eq
  rw [BitVec.toNat_append, BitVec.toNat_setWidth, ← Nat.shiftLeft_add_eq_or_of_lt hlow, BitVec.toNat_ofNat, Nat.shiftLeft_eq]
  have := y.isLt
  omega

theorem does_smovh (hi : s.issuer = some i) (hr : Runs i h) :
    Does i (.smovh h o) (scalarWrite h o.sd (o.imm ++ (i.sreg o.sd).setWidth 32)) := by
  rw [← ofNat_halves]
  exact .of_putS hi hr rfl rfl

/-- The bytes of an element (R171). -/
theorem isAddr_bytes {t : Ty} : t.isAddr = true →
    BitVec.ofNat 64 (t.bits / 8) = match t.bits with | 8 => 1 | 16 => 2 | 32 => 4 | _ => 8 := by
  cases t <;> decide

theorem does_slea (hi : s.issuer = some i) (hr : Runs i h) (ht : o.ty.isAddr = true) :
    Does i (.slea h o) (scalarWrite h o.sd (i.sval64 o.sa + scalarSecond i o *
      (match o.ty.bits with | 8 => 1 | 16 => 2 | 32 => 4 | _ => 8))) := by
  rw [← isAddr_bytes ht, ← ofNat_scA, ← ofNat_scB, ← BitVec.ofNat_mul, ← BitVec.ofNat_add]
  exact .of_putS hi hr rfl rfl

/-- `SMOV` of 64 bits moves the source whole. -/
theorem does_smov_b64 (hi : s.issuer = some i) (hr : Runs i h) (ht : o.ty = .b64) :
    Does i (.smov h o) (scalarWrite h o.sd (i.sval64 o.sa)) := by
  have h64 : o.ty.bits = 64 := by rw [ht]; rfl
  have hb : o.ty.isScalarIntB = true := by rw [ht]; rfl
  have := does_smov hi hr hb
  rwa [scalarEffect, if_pos h64] at this

/-- `SMOV` of 32 bits extends the low half under the type. -/
theorem does_smov_narrow (hi : s.issuer = some i) (hr : Runs i h) (ht : o.ty = .s32 ∨ o.ty = .n32) :
    Does i (.smov h o) (scalarWrite h o.sd (extended o.ty ((i.sval64 o.sa).setWidth 32))) := by
  have h32 : o.ty.bits ≠ 64 := by rcases ht with ht | ht <;> rw [ht] <;> decide
  have hb : o.ty.isScalarIntB = true := by rcases ht with ht | ht <;> rw [ht] <;> rfl
  have := does_smov hi hr hb
  rwa [scalarEffect, if_neg h32] at this

end

/-- Settles O2: each entry writes its value, computed on numbers, as the bit vector that it is. -/
theorem scalarSingles : Obligations.ScalarSingles := by
  unfold Obligations.ScalarSingles
  intro s i h o hi hr
  refine ⟨fun ht => does_scmp hi hr (isScalarIntB_of_isScalarInt ht), does_ssel hi hr, does_smovi hi hr, does_smovh hi hr,
    does_slea hi hr, does_smov_b64 hi hr, does_smov_narrow hi hr, ?scmp, ?ssel, ?smov, ?smovi, ?smovh, ?slea⟩
  case scmp => exact fun hwf => (isScalarInt_iff o.ty).mp (wfScBin_ty hwf)
  case ssel =>
    intro (hwf : wfScBin (· == .b64) h o = true)
    simpa using wfScBin_ty hwf
  case smov =>
    intro (hwf : wfScUn (fun t => t == .b64 || t == .s32 || t == .n32) h o = true)
    obtain ⟨hty, hrest⟩ := wfScUn_spec hwf
    exact ⟨by simpa [or_assoc] using hty, hrest⟩
  case smovi =>
    intro (hwf : wfScImm (fun t => t == .s64 || t == .n64) h o = true)
    obtain ⟨hty, hrest⟩ := wfScImm_spec hwf
    exact ⟨by simpa using hty, hrest⟩
  case smovh =>
    intro (hwf : wfScImm (· == .b64) h o = true)
    obtain ⟨hty, hsa, -, himm⟩ := wfScImm_spec hwf
    exact ⟨by simpa using hty, hsa, himm⟩
  case slea =>
    intro ht
    have hno : o.ty.isAddr = false := by
      simp only [List.mem_cons, List.not_mem_nil, or_false] at ht
      rcases ht with ht | ht | ht | ht <;> rw [ht] <;> rfl
    exact Bool.eq_false_iff.mpr fun hwf => by simp [wfScBin_ty hwf] at hno

end Sys2Proof
end

section
/-! The mask instructions (R172 to R174). -/

namespace Sys2Proof

open Sys2Proof.Machine

/-! ### Results (R172 to R174) -/

section

variable {s : State} {i : Iss} {h : Hdr} {o : MskOp} {w : Instr}

/-- A mask operation writes `f` of its sources to `m[MD]`. -/
theorem Does.of_maskOp (f : Mask → Mask → Mask) (hi : s.issuer = some i) (hr : Runs i h) (hw : exec w s = onFrag s fun j => j.maskOp h o f) :
    Does i w (maskWrite i o.md.toNat (f (i.mask o.ma.toNat) (i.mask o.mb.toNat))) :=
  .of_uniform hi hr hw rfl (.of_setMask hi _ _)

theorem does_mfroms (hi : s.issuer = some i) (hr : Runs i h) :
    Does i (.mfroms h o) (maskWrite i o.md.toNat (i.sval64 o.opnd <<< o.mop.toNat)) :=
  .of_uniform hi hr rfl rfl (.of_setMask hi _ _)

/-- A mask single with a scalar destination writes `f` of its source there. -/
theorem Does.of_maskToS (f : Mask → W64) (hi : s.issuer = some i) (hr : Runs i h) {d : BitVec 7} (hd : o.opnd = .s d)
    (hw : exec w s = onFrag s fun j => j.maskToS h o f) : Does i w { flock := (·.setS d.toNat (f (i.mask o.ma.toNat))) } :=
  .of_uniform hi hr hw (by simp only [Iss.maskToS, hd]) (.of_next_setS hi d _)

theorem does_mpop (hi : s.issuer = some i) (hr : Runs i h) {d : BitVec 7} (hd : o.opnd = .s d) :
    Does i (.mpop h o) { flock := (·.setS d.toNat (i.mask o.ma.toNat).cpop) } := by
  rw [← ofNat_popc]
  exact .of_maskToS (fun a => BitVec.ofNat 64 (popc 64 a.toNat)) hi hr hd rfl

theorem does_mffs (hi : s.issuer = some i) (hr : Runs i h) {d : BitVec 7} (hd : o.opnd = .s d) {n : Nat}
    (hn : ffs (i.mask o.ma.toNat) = n) : Does i (.mffs h o) { flock := (·.setS d.toNat (BitVec.ofNat 64 n)) } := by
  rw [← hn]
  exact .of_maskToS (fun a => BitVec.ofNat 64 (ffs a)) hi hr hd rfl

end

/-! ### The fields of `MSK` words (R172, R174) -/

theorem mop_of_wfMsk2 {h : Hdr} {o : MskOp} (hwf : wfMsk2 h o = true) : o.mop = 0 := by
  simp only [wfMsk2, Bool.and_eq_true, beq_iff_eq] at hwf
  exact hwf.2

theorem wfMsk1_spec {h : Hdr} {o : MskOp} (hwf : wfMsk1 h o = true) : o.mop = 0 ∧ o.mb = 0 := by
  simp only [wfMsk1, Bool.and_eq_true, beq_iff_eq] at hwf
  exact ⟨mop_of_wfMsk2 hwf.1, hwf.2⟩

theorem uni_cases {x : Src} (hx : x.uni = true) : (∃ d, x = .s d) ∨ ∃ c, x = .c c := by
  cases x with
  | v n => cases hx
  | lat n => cases hx
  | s d => exact .inl ⟨d, rfl⟩
  | c c => exact .inr ⟨c, rfl⟩

theorem opnd_of_wf_mfroms {h : Hdr} {o : MskOp} (hwf : (Instr.mfroms h o).wf = true) : (∃ d, o.opnd = .s d) ∨ ∃ c, o.opnd = .c c := by
  simp only [Instr.wf, Bool.and_eq_true] at hwf
  obtain ⟨⟨⟨-, huni⟩, -⟩, -⟩ := hwf
  exact uni_cases huni

theorem wfMskS_spec {h : Hdr} {o : MskOp} (hwf : wfMskS h o = true) : o.mop = 0 ∧ o.md = 0 ∧ ∃ d, o.opnd = .s d := by
  simp only [wfMskS, Bool.and_eq_true, beq_iff_eq] at hwf
  obtain ⟨⟨⟨⟨-, hopnd⟩, hmd⟩, -⟩, hmop⟩ := hwf
  refine ⟨hmop, hmd, ?_⟩
  cases hx : o.opnd with
  | s d => exact ⟨d, rfl⟩
  | v n | lat n | c n => simp [hx] at hopnd

/-- Settles O4: the mask family and `MFROMS` write a mask, the mask singles a scalar. -/
theorem maskInstructions : Obligations.MaskInstructions := by
  unfold Obligations.MaskInstructions
  refine ⟨fun s i h o hi hr => ?_, fun s i h o d hi hr hd => ?_⟩
  · refine ⟨.of_maskOp (· &&& ·) hi hr rfl, .of_maskOp (· ||| ·) hi hr rfl, .of_maskOp (· ^^^ ·) hi hr rfl,
      .of_maskOp (fun a b => a &&& ~~~b) hi hr rfl, .of_maskOp (fun a _ => ~~~a) hi hr rfl, .of_maskOp (fun a _ => a) hi hr rfl,
      does_mfroms hi hr, fun hwf => (wfMsk1_spec hwf).2, opnd_of_wf_mfroms, ?maskFields, ?scalarFields⟩
    case maskFields =>
      have h2 (hwf : wfMsk2 h o = true) := mop_of_wfMsk2 hwf
      have h1 (hwf : wfMsk1 h o = true) := (wfMsk1_spec hwf).1
      simpa only [List.forall_mem_cons, List.not_mem_nil, false_implies, implies_true, and_true] using ⟨h2, h2, h2, h2, h1, h1⟩
    case scalarFields =>
      have hS (hwf : wfMskS h o = true) := wfMskS_spec hwf
      simpa only [List.forall_mem_cons, List.not_mem_nil, false_implies, implies_true, and_true] using ⟨hS, hS, hS⟩
  · exact ⟨does_mpop hi hr hd, .of_maskToS (fun a => a) hi hr hd rfl, fun ha => does_mffs hi hr hd (ha ▸ ffs_zero),
      fun n hn h1 h0 => does_mffs hi hr hd (ffs_eq_of_lowest hn h1 h0)⟩

end Sys2Proof
end

section
/-! The operands and results of lanes as bit vectors (R64, R65, R203, R204). -/

namespace Sys2Proof

open Sys2Proof.Machine

/-! ### An operand has the bits of its type (R204) -/

/-- What a format delivers has its sign bit and the bits below it. -/
theorem Fmt.deliver_lt {f : Fmt} (hmax : f.maxCode < f.signBit) (hinf : f.infCode < f.signBit) (hnan : f.nanCode < f.signBit)
    (md : Mode) (x : FVal) : (f.deliver md x).1 < 2 * f.signBit := by
  have hsigned (n : Bool) {c : Nat} (hc : c < f.signBit) : f.signed n c < 2 * f.signBit := by
    unfold Fmt.signed
    split <;> omega
  have hover (n : Bool) : f.overflow md n < 2 * f.signBit := by
    unfold Fmt.overflow
    split
    · exact hsigned n hmax
    · omega
    · have hcode (c : Bool) : (if c then f.maxCode else f.infCode) < f.signBit := by cases c <;> assumption
      exact hsigned n (hcode _)
  cases x with
  | nan g => exact Nat.lt_of_lt_of_le hnan (Nat.le_mul_of_pos_left _ Nat.two_pos)
  | inf n => exact hsigned n hinf
  | fin n m e =>
    simp only [Fmt.deliver]
    split
    · exact hsigned n (by omega)
    · split
      · exact hover n
      · exact hsigned n (by omega)

theorem wrap_lt (w : Nat) (x : Int) : wrap w x < 2 ^ w := by
  have := Int.emod_lt_of_pos x (b := (2 ^ w : Nat)) (by exact_mod_cast Nat.two_pow_pos w)
  rw [wrap]
  omega

theorem constRaw_lt (w c : Nat) : constRaw w c < 2 ^ w := by
  unfold constRaw
  split
  · exact wrap_lt w _
  · exact Nat.mod_lt _ (Nat.two_pow_pos w)

theorem constOf_lt (t : Ty) (c : Nat) : constOf t c < 2 ^ t.bits := by
  unfold constOf
  split
  case isTrue hfp =>
    have hbits : 2 * (fmtOf t).signBit = 2 ^ t.bits ∧ (fmtOf t).maxCode < (fmtOf t).signBit ∧
        (fmtOf t).infCode < (fmtOf t).signBit ∧ (fmtOf t).nanCode < (fmtOf t).signBit := by
      revert hfp
      cases t <;> decide
    obtain ⟨hsize, hmax, hinf, hnan⟩ := hbits
    exact hsize ▸ Fmt.deliver_lt hmax hinf hnan _ _
  case isFalse => exact constRaw_lt _ c

theorem raw64_lt (i : Iss) (x : Src) (l : Nat) : i.raw64 x l < 2 ^ 64 := by
  cases x with
  | v n =>
    have hlow := (i.vreg n.toNat l).isLt
    have hhigh := (i.vreg (n.toNat + 1) l).isLt
    simp only [Iss.raw64]
    omega
  | lat n => exact BitVec.isLt _
  | s n => exact BitVec.isLt _
  | c n => exact constRaw_lt 64 n.toNat

theorem opnd_lt (i : Iss) (t : Ty) (x : Src) (l : Nat) : i.opnd t x l < 2 ^ t.bits := by
  cases x with
  | c n => exact constOf_lt t n.toNat
  | v n | lat n | s n =>
    simp only [Iss.opnd]
    split
    case isTrue h64 => exact h64 ▸ raw64_lt i _ l
    case isFalse => exact Nat.mod_lt _ (Nat.two_pow_pos _)

@[simp] theorem toNat_operand (i : Iss) (t : Ty) (x : Src) (l : Nat) : (operand i t x l).toNat = i.opnd t x l :=
  Nat.mod_eq_of_lt (opnd_lt i t x l)

/-! ### Of a result only the bits of its type count (R65) -/

theorem putV_mod (x : Fold) (t : Ty) (d th r : Nat) : x.putV t d th (r % 2 ^ t.bits) = x.putV t d th r := by
  unfold Fold.putV fill
  split
  case isTrue h64 =>
    have hlow : BitVec.ofNat 32 (r % 2 ^ 64) = BitVec.ofNat 32 r := BitVec.eq_of_toNat_eq (by simp only [BitVec.toNat_ofNat]; omega)
    have hhigh : BitVec.ofNat 32 (r % 2 ^ 64 / 2 ^ 32) = BitVec.ofNat 32 (r / 2 ^ 32) :=
      BitVec.eq_of_toNat_eq (by simp only [BitVec.toNat_ofNat]; omega)
    rw [h64, hlow, hhigh]
  case isFalse => rw [ival_mod]

/-- The result of a lane cut to the bits of a type. -/
def LaneRes.cut (t : Ty) (r : LaneRes) : LaneRes := { r with val := r.val % 2 ^ t.bits }

theorem putLatch_cut (k : Flock) (w : Nat) (n : BitVec 2) (t : Ty) (res : List LaneRes) :
    k.putLatch w n t (res.map (LaneRes.cut t)) = k.putLatch w n t res := by
  simp only [Flock.putLatch, LaneRes.cut, List.foldl_map, fill, ival_mod, List.isEmpty_map]

theorem laneEffect_cut (i : Iss) (b : Wb) (res : List LaneRes) : laneEffect i b (res.map (LaneRes.cut b.t)) = laneEffect i b res := by
  simp only [laneEffect, putLatch_cut, List.foldl_map, LaneRes.cut, putV_mod]

theorem laneResults_cut (i : Iss) (h : Hdr) (t : Ty) (f : Nat → Nat × W32) :
    (laneResults i h f).map (LaneRes.cut t) = laneResults i h fun l => ((f l).1 % 2 ^ t.bits, (f l).2) := by
  simp only [laneResults, List.map_map]
  rfl

/-! ### Vector instructions (R203) -/

section

variable {s : State} {i : Iss} {h : Hdr} {w : Instr}

/-- What an instruction of a flock answers for its issuer. -/
theorem exec_issuer {f : Iss → State} (hi : s.issuer = some i) (hw : exec w s = onFrag s f) : exec w i.s = .next (f i) := by
  obtain ⟨hs, -⟩ := State.issuer_spec hi
  rw [hs, hw, onFrag_issuer hi]

/-- A vector instruction does what its results say. -/
theorem VectorDoes.of_vector {t : Ty} {d : BitVec 8} {f : Iss → Nat → Nat × W32} (hi : s.issuer = some i)
    (hw : exec w s = onFrag s fun j => j.vector h t d (f j)) : VectorDoes i w h t d (f i) :=
  fun htrap => ⟨_, exec_issuer hi hw, .of_vector hi h t d (f i) htrap⟩

/-- One that raises no flag gives each active lane the result `f`, where `g` computes `f`. -/
theorem VectorGives.of_vector {t : Ty} {d : BitVec 8} {g : Iss → Nat → Nat} {f : Nat → BitVec t.bits} (hi : s.issuer = some i)
    (hw : exec w s = onFrag s fun j => j.vector h t d fun l => (g j l, 0)) (hg : ∀ l, BitVec.ofNat t.bits (g i l) = f l) :
    VectorGives i w h t d f := by
  have hcut : (laneResults i h fun l => ((f l).toNat, 0)) =
      (laneResults i h fun l => (g i l, 0)).map (LaneRes.cut (wbOf h t d).t) := by
    simp only [wbOf, laneResults_cut, ← hg, BitVec.toNat_ofNat]
  rw [VectorGives, hcut, laneEffect_cut]
  exact VectorDoes.of_vector hi hw (noTrap_quiet i h (g i))

variable {o : VrOp}

theorem VectorGives.of_vec1 (f : BitVec o.ty.bits → BitVec o.ty.bits) {g : Nat → Nat} (hi : s.issuer = some i)
    (hw : exec w s = onFrag s fun j => j.vec1 h o g) (hg : ∀ a : BitVec o.ty.bits, BitVec.ofNat _ (g a.toNat) = f a) :
    VectorGives i w h o.ty o.dst fun l => f (operand i o.ty o.sa l) :=
  .of_vector hi hw fun l => by rw [← hg, toNat_operand]

theorem VectorGives.of_vec2 (f : BitVec o.ty.bits → BitVec o.ty.bits → BitVec o.ty.bits) {g : Nat → Nat → Nat}
    (hi : s.issuer = some i) (hw : exec w s = onFrag s fun j => j.vec2 h o g)
    (hg : ∀ a b : BitVec o.ty.bits, BitVec.ofNat _ (g a.toNat b.toNat) = f a b) :
    VectorGives i w h o.ty o.dst fun l => f (operand i o.ty o.sa l) (operand i o.ty o.sb l) :=
  .of_vector hi hw fun l => by rw [← hg, toNat_operand, toNat_operand]

/-- A shift, whose amount counts modulo the width (R209). -/
theorem VectorGives.of_vecShift (f : BitVec o.ty.bits → Nat → BitVec o.ty.bits) {g : Nat → Nat → Nat}
    (hi : s.issuer = some i) (hw : exec w s = onFrag s fun j => j.vecShift h o g)
    (hg : ∀ (a : BitVec o.ty.bits) (n : Nat), BitVec.ofNat _ (g a.toNat n) = f a n) :
    VectorGives i w h o.ty o.dst fun l => f (operand i o.ty o.sa l) (i.raw32 o.sb l % o.ty.bits) :=
  .of_vector hi hw fun l => by rw [← hg, toNat_operand]

end

end Sys2Proof
end

section
/-! The vector integer family (R209). -/

namespace Sys2Proof

open Sys2Proof.Machine

/-! ### Results of Table 8.3 under a type -/

@[simp] theorem ofNat_mod_two_pow (w x : Nat) : BitVec.ofNat w (x % 2 ^ w) = BitVec.ofNat w x :=
  BitVec.eq_of_toNat_eq (by simp)

section

variable (t : Ty) (a b : BitVec t.bits)

theorem ofNat_addOf : BitVec.ofNat _ (addOf t a.toNat b.toNat) = a + b := by simp [addOf, BitVec.ofNat_add]

theorem ofNat_subOf : BitVec.ofNat _ (subOf t a.toNat b.toNat) = a - b := by rw [subOf, ofNat_mod_two_pow, ofNat_sub_toNat]

theorem ofNat_mulOf : BitVec.ofNat _ (mulOf t a.toNat b.toNat) = a * b := by simp [mulOf, BitVec.ofNat_mul]

theorem ofNat_madOf (c : BitVec t.bits) : BitVec.ofNat _ (madOf t a.toNat b.toNat c.toNat) = a * b + c := by
  simp [madOf, BitVec.ofNat_add, BitVec.ofNat_mul]

theorem ofNat_minOf : BitVec.ofNat _ (minOf t a.toNat b.toNat) = if lessThan t b a then b else a := by
  simp only [minOf, ival_lt_iff]
  split <;> simp

theorem ofNat_maxOf : BitVec.ofNat _ (maxOf t a.toNat b.toNat) = if lessThan t a b then b else a := by
  simp only [maxOf, ival_lt_iff]
  split <;> simp

theorem ofNat_absOf : BitVec.ofNat _ (absOf t a.toNat) = a.abs := by
  rw [absOf, ofNat_wrap, sval_toNat, BitVec.abs, BitVec.msb_eq_toInt, BitVec.neg_eq]
  by_cases h : a.toInt < 0
  · rw [show ((a.toInt.natAbs : Nat) : Int) = -a.toInt by omega, BitVec.ofInt_neg, BitVec.ofInt_toInt, if_pos (by simpa using h)]
  · rw [show ((a.toInt.natAbs : Nat) : Int) = a.toInt by omega, BitVec.ofInt_toInt, if_neg (by simpa using h)]

theorem ofNat_notOf : BitVec.ofNat _ (notOf t a.toNat) = ~~~a := by
  rw [notOf, ← BitVec.toNat_not, BitVec.ofNat_toNat, BitVec.setWidth_eq]

theorem ofNat_shlOf (n : Nat) : BitVec.ofNat _ (shlOf t a.toNat n) = a <<< n := by
  rw [shlOf, ofNat_mod_two_pow, ofNat_shiftLeft]

end

/-! ### The types of the family (R209) -/

theorem isInt_iff (t : Ty) : t.isInt = true ↔ t ∈ [Ty.s8, .n8, .s16, .n16] ++ [Ty.s32, .n32, .s64, .n64] := by
  cases t <;> decide

theorem isIntB_iff (t : Ty) :
    t.isIntB = true ↔ t ∈ [Ty.s8, .n8, .s16, .n16] ++ [Ty.s32, .n32, .s64, .n64] ++ [Ty.b32, .b64] := by
  cases t <;> decide

theorem wfVrBase_ty {tys : Ty → Bool} {h : Hdr} {o : VrOp} (hwf : wfVrBase h o tys = true) : tys o.ty = true := by
  simp only [wfVrBase, Bool.and_eq_true] at hwf
  obtain ⟨⟨⟨-, hty⟩, -⟩, -⟩ := hwf
  exact hty

theorem wfVr1_ty {tys : Ty → Bool} {h : Hdr} {o : VrOp} (hwf : wfVr1 tys h o = true) : tys o.ty = true := by
  simp only [wfVr1, Bool.and_eq_true] at hwf
  obtain ⟨⟨⟨hbase, -⟩, -⟩, -⟩ := hwf
  exact wfVrBase_ty hbase

theorem wfVr2_ty {tys : Ty → Bool} {h : Hdr} {o : VrOp} (hwf : wfVr2 tys h o = true) : tys o.ty = true := by
  simp only [wfVr2, Bool.and_eq_true] at hwf
  obtain ⟨⟨⟨hbase, -⟩, -⟩, -⟩ := hwf
  exact wfVrBase_ty hbase

theorem wfVr3_ty {tys : Ty → Bool} {h : Hdr} {o : VrOp} (hwf : wfVr3 tys h o = true) : tys o.ty = true := by
  simp only [wfVr3, Bool.and_eq_true] at hwf
  obtain ⟨⟨⟨hbase, -⟩, -⟩, -⟩ := hwf
  exact wfVrBase_ty hbase

theorem wfVrShift_ty {h : Hdr} {o : VrOp} (hwf : wfVrShift h o = true) : o.ty.isIntB = true := by
  simp only [wfVrShift, Bool.and_eq_true] at hwf
  obtain ⟨⟨hbase, -⟩, -⟩ := hwf
  exact wfVrBase_ty hbase

theorem vectorIntegers_types (h : Hdr) (o : VrOp) :
    let small := [Ty.s8, .n8, .s16, .n16]
    let word := [Ty.s32, .n32, .s64, .n64]
    (∀ w ∈ [Instr.vadd h o, .vsub h o, .vmul h o, .vmad h o, .vmin h o, .vmax h o], w.wf = true → o.ty ∈ small ++ word) ∧
    ((Instr.vmulh h o).wf = true → o.ty ∈ word) ∧ ((Instr.vabs h o).wf = true → o.ty ∈ [.s8, .s16, .s32, .s64]) ∧
    (∀ w ∈ [Instr.vand h o, .vor h o, .vxor h o, .vnot h o, .vshl h o, .vshr h o, .vsra h o, .vclz h o, .vpop h o],
      w.wf = true → o.ty ∈ small ++ word ++ [.b32, .b64]) := by
  have hint2 (hwf : wfVr2 Ty.isInt h o = true) := (isInt_iff o.ty).mp (wfVr2_ty hwf)
  have hint3 (hwf : wfVr3 Ty.isInt h o = true) := (isInt_iff o.ty).mp (wfVr3_ty hwf)
  have hbits1 (hwf : wfVr1 Ty.isIntB h o = true) := (isIntB_iff o.ty).mp (wfVr1_ty hwf)
  have hbits2 (hwf : wfVr2 Ty.isIntB h o = true) := (isIntB_iff o.ty).mp (wfVr2_ty hwf)
  have hshift (hwf : wfVrShift h o = true) := (isIntB_iff o.ty).mp (wfVrShift_ty hwf)
  have hsigned {t : Ty} : (t.isInt && t.signed) = true → t ∈ [Ty.s8, .s16, .s32, .s64] := by cases t <;> decide
  have hmulh (hwf : wfVr2 Ty.isScalarInt h o = true) := (isScalarInt_iff o.ty).mp (wfVr2_ty hwf)
  have habs (hwf : wfVr1 (fun t => t.isInt && t.signed) h o = true) := hsigned (wfVr1_ty hwf)
  simp only [List.forall_mem_cons, List.not_mem_nil, false_implies, implies_true, and_true]
  exact ⟨⟨hint2, hint2, hint2, hint3, hint2, hint2⟩, hmulh, habs,
    hbits2, hbits2, hbits2, hbits1, hshift, hshift, hshift, hbits1, hbits1⟩

theorem vectorGives_vmad {s : State} {i : Iss} {h : Hdr} {o : VrOp} (hi : s.issuer = some i) :
    VectorGives i (.vmad h o) h o.ty o.dst fun l => operand i o.ty o.sa l * operand i o.ty o.sb l + operand i o.ty o.sc l :=
  .of_vector (g := fun j l => madOf o.ty (j.opnd o.ty o.sa l) (j.opnd o.ty o.sb l) (j.opnd o.ty o.sc l)) hi rfl fun l => by
    rw [← ofNat_madOf, toNat_operand, toNat_operand, toNat_operand]

/-- Settles O5: each row of Table 8.3 computes on numbers what its operation on bit vectors is. -/
theorem vectorIntegers : Obligations.VectorIntegers := by
  unfold Obligations.VectorIntegers
  refine ⟨fun s i h o hi _ => ⟨?vadd, ?vsub, ?vmul, ?vmulh, vectorGives_vmad hi, ?vmin, ?vmax, ?vabs, ?vand, ?vor, ?vxor, ?vnot,
    vectorIntegers_types h o⟩, fun s i h o hi _ => ⟨?vshl, ?vshr, ?vsra, ?vclz, ?vpop⟩⟩
  case vadd => exact .of_vec2 (· + ·) hi rfl (ofNat_addOf o.ty)
  case vsub => exact .of_vec2 (· - ·) hi rfl (ofNat_subOf o.ty)
  case vmul => exact .of_vec2 (· * ·) hi rfl (ofNat_mulOf o.ty)
  case vmulh => exact .of_vec2 (highProduct o.ty) hi rfl (ofNat_highProduct o.ty)
  case vmin => exact .of_vec2 (fun a b => if lessThan o.ty b a then b else a) hi rfl (ofNat_minOf o.ty)
  case vmax => exact .of_vec2 (fun a b => if lessThan o.ty a b then b else a) hi rfl (ofNat_maxOf o.ty)
  case vabs => exact .of_vec1 (·.abs) hi rfl (ofNat_absOf o.ty)
  case vand => exact .of_vec2 (· &&& ·) hi rfl fun a b => by simp
  case vor => exact .of_vec2 (· ||| ·) hi rfl fun a b => by simp
  case vxor => exact .of_vec2 (· ^^^ ·) hi rfl fun a b => by simp
  case vnot => exact .of_vec1 (~~~ ·) hi rfl (ofNat_notOf o.ty)
  case vshl => exact .of_vecShift (· <<< ·) hi rfl (ofNat_shlOf o.ty)
  case vshr => exact .of_vecShift (· >>> ·) hi rfl ofNat_shiftRight
  case vsra => exact .of_vecShift (·.sshiftRight ·) hi rfl ofNat_sshiftRight
  case vclz => exact .of_vec1 (·.clz) hi rfl ofNat_clz
  case vpop => exact .of_vec1 (·.cpop) hi rfl ofNat_popc

end Sys2Proof
end

section
/-! Vector comparison, selection, moves and lane numbers (R211 to R215). -/

namespace Sys2Proof

open Sys2Proof.Machine

/-! ### Lanes of a mask -/

theorem mem_lanes {m : Mask} {l : Nat} : l ∈ lanes m ↔ l < 64 ∧ m.getLsbD l = true := by
  rw [lanes, List.mem_filter, List.mem_range]

theorem lanes_eq_nil_iff (m : Mask) : lanes m = [] ↔ m = 0 := by
  refine ⟨fun h => BitVec.eq_of_getLsbD_eq fun l hl => ?_, fun h => by rw [h]; decide⟩
  have : l ∉ lanes m := by simp [h]
  simpa [mem_lanes, hl] using this

theorem getLsbD_bitMask {l n : Nat} (hl : l < 64) : (bitMask n).getLsbD l = decide (n = l) := by
  rw [bitMask, BitVec.getLsbD_ofNat, Nat.testBit_two_pow]
  simp [hl]

theorem getLsbD_lowMask {l n : Nat} (hl : l < 64) : (lowMask n).getLsbD l = decide (l < n) := by
  rw [lowMask, BitVec.getLsbD_ofNat, Nat.testBit_two_pow_sub_one]
  simp [hl]

/-- The bits of the lanes of `ls` where `p` holds, gathered one after the other. -/
theorem getLsbD_gather (p : Nat → Bool) (ls : List Nat) (m : Mask) {l : Nat} (hl : l < 64) :
    (ls.foldl (fun m n => if p n then m ||| bitMask n else m) m).getLsbD l = (m.getLsbD l || decide (l ∈ ls) && p l) := by
  induction ls generalizing m with
  | nil => simp
  | cons n ls ih =>
    rw [List.foldl_cons, ih]
    by_cases hn : n = l
    · subst hn
      cases hp : p n <;> simp [getLsbD_bitMask hl]
    · have hn' : l ≠ n := fun h => hn h.symm
      cases hp : p n <;> simp [getLsbD_bitMask hl, hn, hn']

/-- A mask whose bits are the outcomes of the lanes of `a`, and 0 elsewhere, is the one gathered from them. -/
theorem gather_eq {p : Nat → Bool} {a m : Mask} (hm : ∀ l < 64, m.getLsbD l = (a.getLsbD l && p l)) :
    (lanes a).foldl (fun m l => if p l then m ||| bitMask l else m) (0 : Mask) = m := by
  refine BitVec.eq_of_getLsbD_eq fun l hl => ?_
  rw [getLsbD_gather p _ _ hl, hm l hl]
  simp [mem_lanes, hl]

theorem popc_eq_length (n x : Nat) : popc n x = ((List.range n).filter x.testBit).length := by
  induction n with
  | zero => rfl
  | succ n ih =>
    have hbit : ([n].filter x.testBit).length = x / 2 ^ n % 2 := by
      rw [List.filter_cons, Nat.testBit_eq_decide_div_mod_eq]
      rcases Nat.mod_two_eq_zero_or_one (x / 2 ^ n) with h | h <;> simp [h]
    rw [popc_succ, ih, List.range_succ, List.filter_append, List.length_append, hbit]

theorem lanes_and_lowMask (m : Mask) (n : Nat) : lanes (m &&& lowMask n) = (lanes m).filter (· < n) := by
  rw [lanes, lanes, List.filter_filter]
  refine List.filter_congr fun l hl => ?_
  rw [BitVec.getLsbD_and, getLsbD_lowMask (List.mem_range.mp hl), Bool.and_comm]

/-- The compact number of a lane: the members of the mask below it (R212). -/
theorem popc_and_lowMask (m : Mask) (n : Nat) : popc 64 (m &&& lowMask n).toNat = ((lanes m).filter (· < n)).length := by
  rw [popc_eq_length, ← lanes_and_lowMask]
  rfl

/-! ### Results that are masks (R172, R213) -/

section

variable {s : State} {i : Iss} {h : Hdr} {w : Instr}

theorem modFrag_modFrag (k : Flock) (r : Nat) {f : Frag → Frag} (move : Frag → Frag) (hf : ∀ g, (f g).fid = g.fid) :
    (k.modFrag r f).modFrag r move = k.modFrag r fun g => move (f g) := by
  have hmove (g : Frag) : (fun g => if g.fid = r then move g else g) (if g.fid = r then f g else g) =
      if g.fid = r then move (f g) else g := by
    by_cases hg : g.fid = r <;> simp [hg, hf]
  simp only [Flock.modFrag, List.map_map]
  exact congrArg (fun fs => { k with frags := fs }) (List.map_congr_left fun g _ => hmove g)

/-- An instruction that changes its fold and then its fragment. -/
theorem Done.of_next_fold_frag (hi : s.issuer = some i) (fx : Fold → Fold) (hu : ∀ x, (fx x).uid = x.uid)
    (hx : (fx i.x).flocks = i.x.flocks) (f : Frag → Frag) (hf : ∀ g, (f g).fid = g.fid) :
    Done i (i.next (i.modFrag (i.modFold i.s fx) f)) { fold := fx, frag := f } := by
  obtain ⟨hs, hfold, ⟨was, hl, -⟩, -⟩ := State.issuer_spec hi
  refine Ends.intro hl i.s _ _ _ fx (·.modFrag i.g.fid fun g => toNext i (f g)) (hs ▸ hfold) ?_ hu ?_ hx rfl rfl rfl
  · simp only [← modFrag_modFrag _ _ (toNext i) hf]
    exact congrArg (State.settle · i.x.uid i.fl) (modFlock_modFlock _ _ _ (·.modFrag i.g.fid f) (·.modFrag i.g.fid (toNext i)))
  · rw [← hx]

/-- An instruction that raises flags and writes a mask. -/
theorem Done.of_raise_setMask (hi : s.issuer = some i) (r : List (Nat × W32)) (n : Nat) (v : Mask) :
    Done i (i.next (i.setMask (i.modFold i.s (raiseFlags i r)) n v)) { maskWrite i n v with fold := raiseFlags i r } := by
  unfold Iss.setMask maskWrite
  by_cases hn : n = 15
  · simp only [if_pos hn]
    exact .of_next_fold_frag hi _ (raiseFlags_uid i r) (raiseFlags_flocks i r _) _ fun _ => rfl
  · simp only [if_neg hn]
    exact .of_next hi _ _ (raiseFlags_uid i r) (raiseFlags_flocks i r _) (fun _ => rfl) fun _ => rfl

/-- With an empty active set a comparison only goes on (R42). -/
theorem Does.of_vectorMask_empty {d : BitVec 8} {f : Iss → Nat → Bool × W32} (hi : s.issuer = some i) (ha : i.active h = 0)
    (hw : exec w s = onFrag s fun j => j.vectorMask h d (f j)) : Does i w {} := by
  have hnext : i.vectorMask h d (f i) = i.next i.s := by
    rw [Iss.vectorMask, (lanes_eq_nil_iff _).mpr ha]
    rfl
  exact ⟨_, exec_issuer hi hw, hnext ▸ .of_next_same hi⟩

/-- A comparison writes the outcomes of the active lanes and raises their flags, where none of these takes a trap. -/
theorem Does.of_vectorMask {d : BitVec 8} {f : Iss → Nat → Bool × W32} {m : Mask} (hi : s.issuer = some i) (ha : i.active h ≠ 0)
    (hw : exec w s = onFrag s fun j => j.vectorMask h d (f j))
    (hm : ∀ l < 64, m.getLsbD l = ((i.active h).getLsbD l && (f i l).1))
    (htrap : NoTrap i ((lanes (i.active h)).map fun l => (l, (f i l).2))) :
    Does i w { maskWrite i d.toNat m with fold := raiseFlags i ((lanes (i.active h)).map fun l => (l, (f i l).2)) } := by
  have hlanes : (lanes (i.active h)).isEmpty = false := by
    rw [List.isEmpty_eq_false_iff, ne_eq, lanes_eq_nil_iff]
    exact ha
  have hraise : raiseFlags i ((lanes (i.active h)).map fun l => (l, (f i l).2)) =
      fun x => (lanes (i.active h)).foldl (fun y l => y.orFlags (i.thread l) (f i l).2) x :=
    funext fun x => by rw [raiseFlags, List.foldl_map]
  have hend := Done.of_raise_setMask hi ((lanes (i.active h)).map fun l => (l, (f i l).2)) d.toNat m
  rw [← Iss.finish_quiet i _ _ htrap] at hend
  refine ⟨_, exec_issuer hi hw, ?_⟩
  simpa only [Iss.vectorMask, hlanes, Bool.false_eq_true, if_false, gather_eq hm, ← hraise] using hend

/-- The same where no flag is raised. -/
theorem Does.of_vectorMask_quiet {d : BitVec 8} {p : Iss → Nat → Bool} {m : Mask} (hi : s.issuer = some i) (ha : i.active h ≠ 0)
    (hw : exec w s = onFrag s fun j => j.vectorMask h d fun l => (p j l, 0))
    (hm : ∀ l < 64, m.getLsbD l = ((i.active h).getLsbD l && p i l)) : Does i w (maskWrite i d.toNat m) := by
  have hzero : ∀ q ∈ (lanes (i.active h)).map fun l => (l, (0 : W32)), q.2 = 0 := by simp
  have hid : raiseFlags i ((lanes (i.active h)).map fun l => (l, (0 : W32))) = id := funext fun x => raiseFlags_zero i _ x hzero
  have hquiet : NoTrap i ((lanes (i.active h)).map fun l => (l, (0 : W32))) := fun q hq b _ hb => by simp [hzero q hq] at hb
  have hdoes := Does.of_vectorMask hi ha hw hm hquiet
  rw [hid] at hdoes
  have heffect : { maskWrite i d.toNat m with fold := id } = maskWrite i d.toNat m := by
    unfold maskWrite
    split <;> rfl
  exact heffect ▸ hdoes

end

/-! ### Comparison (R213) -/

/-- The outcome of a condition of Table 8.4 under a type. -/
def outcome (t : Ty) {w : Nat} (cc : Nat) (a b : BitVec w) : Bool :=
  match cc with
  | 0 => a == b
  | 1 => a != b
  | 2 => lessThan t a b
  | 3 => !lessThan t b a
  | 4 => lessThan t b a
  | _ => !lessThan t a b

theorem intCmp_eq_outcome (t : Ty) {w : Nat} (cc : Nat) (a b : BitVec w) :
    intCmp cc (ival t.signed w a.toNat) (ival t.signed w b.toNat) = outcome t cc a b := by
  match cc with
  | 0 | 1 =>
    rw [Bool.eq_iff_iff]
    simp only [intCmp, outcome, ival_eq_iff, decide_eq_true_eq, beq_iff_eq, bne_iff_ne, ne_eq]
  | 2 | 3 | 4 | _ + 5 => simp only [intCmp, outcome, ← Int.not_lt, ival_lt_iff, decide_not, Bool.decide_eq_true]

section

variable {s : State} {i : Iss} {h : Hdr}

theorem does_vcmp {o : VrOp} {m : Mask} (hi : s.issuer = some i) (hmd : o.md.toNat < 16) (ha : i.active h ≠ 0)
    (hm : ∀ l < 64, m.getLsbD l =
      ((i.active h).getLsbD l && outcome o.ty o.md.toNat (operand i o.ty o.sa l) (operand i o.ty o.sb l))) :
    Does i (.vcmp h o) (maskWrite i o.dst.toNat m) := by
  refine .of_vectorMask_quiet (p := fun j l => intCmp (o.md.toNat % 16) (ival o.ty.signed o.ty.bits (j.opnd o.ty o.sa l))
    (ival o.ty.signed o.ty.bits (j.opnd o.ty o.sb l))) hi ha rfl fun l hl => ?_
  rw [hm l hl, ← intCmp_eq_outcome, toNat_operand, toNat_operand, Nat.mod_eq_of_lt hmd]

theorem does_vfcmp {o : VrOp} {m : Mask} (hi : s.issuer = some i) (hmd : o.md.toNat < 16) (ha : i.active h ≠ 0) :
    let r (l : Nat) := fpCmp (fmtOf o.ty) o.md.toNat (i.opnd o.ty o.sa l) (i.opnd o.ty o.sb l)
    let raised := (lanes (i.active h)).map fun l => (l, (r l).2)
    (∀ l < 64, m.getLsbD l = ((i.active h).getLsbD l && (r l).1)) → NoTrap i raised →
      Does i (.vfcmp h o) { maskWrite i o.dst.toNat m with fold := raiseFlags i raised } :=
  Does.of_vectorMask (f := fun j l => fpCmp (fmtOf o.ty) o.md.toNat (j.opnd o.ty o.sa l) (j.opnd o.ty o.sb l)) hi ha
    (by rw [← Nat.mod_eq_of_lt hmd]; rfl)

/-! ### Selection, moves and lane numbers (R211, R212, R214, R215) -/

theorem vectorGives_vmov {o : VrOp} (hi : s.issuer = some i) : VectorGives i (.vmov h o) h o.ty o.dst (operand i o.ty o.sa) :=
  .of_vec1 (fun a => a) hi rfl fun a => by simp

theorem vectorGives_vsel {o : VrOp} (hi : s.issuer = some i) (hmd : o.md.toNat < 16) :
    VectorGives i (.vsel h o) h o.ty o.dst fun l =>
      if (if o.md = 15 then operand i o.ty o.sc l != 0 else (i.mask o.md.toNat).getLsbD l) then operand i o.ty o.sa l
      else operand i o.ty o.sb l := by
  refine .of_vector (g := fun j l => if (if o.md.toNat % 16 = 15 then j.opnd o.ty o.sc l != 0
    else (j.mask (o.md.toNat % 16)).getLsbD l) then j.opnd o.ty o.sa l else j.opnd o.ty o.sb l) hi rfl fun l => ?_
  have hform : o.md = 15 ↔ o.md.toNat = 15 := BitVec.toNat_inj.symm
  have hnonzero : (operand i o.ty o.sc l != 0) = (i.opnd o.ty o.sc l != 0) := by
    rw [← toNat_operand, Bool.eq_iff_iff, bne_iff_ne, bne_iff_ne, ne_eq, ne_eq, ← BitVec.toNat_inj]
    rfl
  simp only [Nat.mod_eq_of_lt hmd, hform, hnonzero]
  exact apply_ite (BitVec.ofNat o.ty.bits) _ _ _

/-- An immediate extended or cut to a type (R211). -/
theorem ofNat_movi {t : Ty} (ht : t.isMovi = true) (imm : W32) :
    BitVec.ofNat t.bits (if t = .s64 then (imm.signExtend 64).toNat else imm.toNat % 2 ^ t.bits) =
      if t.signed then imm.signExtend t.bits else imm.setWidth t.bits := by
  by_cases h64 : t = .s64
  · subst h64
    simp [Ty.bits, Ty.signed]
  · have hnarrow : t.signed = true → t.bits ≤ 32 := by
      revert h64
      cases t <;> decide
    rw [if_neg h64, ofNat_mod_two_pow, BitVec.ofNat_toNat]
    split
    · rw [BitVec.signExtend_eq_setWidth_of_le _ (hnarrow ‹_›)]
    · rfl

theorem vectorGives_vmovi {o : ViOp} (hi : s.issuer = some i) (ht : o.ty.isMovi = true) :
    VectorGives i (.vmovi h o) h o.ty o.dst fun _ =>
      if o.ty.signed then o.imm.signExtend o.ty.bits else o.imm.setWidth o.ty.bits :=
  .of_vector (g := fun _ _ => if o.ty = .s64 then (o.imm.signExtend 64).toNat else o.imm.toNat % 2 ^ o.ty.bits) hi rfl
    fun _ => ofNat_movi ht o.imm

/-- The number that `VIOTA` adds in a lane (R212). -/
theorem viota_place (md : BitVec 8) (m : Mask) (l : Nat) :
    (if md.toNat % 2 = 0 then l else popc 64 (m &&& lowMask l).toNat) =
      if md.getLsbD 0 then ((lanes m).filter (· < l)).length else l := by
  rw [popc_and_lowMask, BitVec.getLsbD, Nat.testBit_zero]
  rcases Nat.mod_two_eq_zero_or_one md.toNat with h | h <;> simp [h]

theorem does_viota {o : ViOp} (hi : s.issuer = some i) :
    Does i (.viota h o) (laneEffect i (wbOf h o.ty o.dst) (laneResults i h fun l =>
      ((o.imm + BitVec.ofNat 32 (if o.md.getLsbD 0 then ((lanes (i.active h)).filter (· < l)).length else l)).toNat, 0))) := by
  simp only [← viota_place, BitVec.toNat_add, BitVec.toNat_ofNat, Nat.add_mod_mod]
  exact VectorDoes.of_vector (f := fun j l =>
    ((o.imm.toNat + if o.md.toNat % 2 = 0 then l else popc 64 (j.active h &&& lowMask l).toNat) % 2 ^ 32, 0)) hi rfl
    (noTrap_quiet i h _)

theorem wfVi_spec {tys : Ty → Bool} {n : Nat} {o : ViOp} (hwf : wfVi tys n h o = true) : tys o.ty = true ∧ o.md.toNat < n := by
  simp only [wfVi, Bool.and_eq_true, decide_eq_true_eq] at hwf
  obtain ⟨⟨⟨⟨⟨-, hty⟩, -⟩, -⟩, -⟩, hmd⟩ := hwf
  exact ⟨hty, hmd⟩

theorem vmovi_fields {o : ViOp} (hwf : (Instr.vmovi h o).wf = true) : o.ty.isMovi = true ∧ o.md = 0 := by
  obtain ⟨hty, hmd⟩ : o.ty.isMovi = true ∧ o.md.toNat < 1 := wfVi_spec hwf
  exact ⟨hty, BitVec.eq_of_toNat_eq (Nat.lt_one_iff.mp hmd)⟩

theorem viota_fields {o : ViOp} (hwf : (Instr.viota h o).wf = true) : o.ty ∈ [.s32, .n32] ∧ o.md.toNat < 2 := by
  have hvi : wfVi (fun t => t == .s32 || t == .n32) 2 h o = true := hwf
  obtain ⟨hty, hmd⟩ := wfVi_spec hvi
  exact ⟨by simpa using hty, hmd⟩

end

/-- The clause on `VCMP` supposes of its mask that it is the active set and that the condition holds in every lane: its `=`
binds tighter than its `&&`. `does_vcmp` has the mask of outcomes. -/
theorem mask_of_outcomes {a m : Mask} {p : Nat → Bool} (hm : ∀ l < 64, (decide (m.getLsbD l = a.getLsbD l) && p l) = true) :
    ∀ l < 64, m.getLsbD l = (a.getLsbD l && p l) := fun l hl => by
  obtain ⟨hbit, hp⟩ : m.getLsbD l = a.getLsbD l ∧ p l = true := by simpa using hm l hl
  rw [hbit, hp, Bool.and_true]

/-- Settles O7: the masks and results that the families of R211 to R215 compute on numbers are those of their operands as bits. -/
theorem comparesAndMoves : Obligations.ComparesAndMoves := by
  unfold Obligations.ComparesAndMoves
  refine ⟨fun s i h o hi hmd => ⟨fun ha => ⟨.of_vectorMask_empty hi ha rfl, .of_vectorMask_empty hi ha rfl⟩, ?vcmp,
      fun ha m => does_vfcmp hi (by omega) ha⟩,
    fun s i h hi => ⟨fun o _ => ⟨vectorGives_vmov hi, vectorGives_vsel hi⟩, fun o ht => vectorGives_vmovi hi ht,
      fun o _ => does_viota hi, fun o => wfVr1_ty, fun o => ⟨vmovi_fields, viota_fields⟩⟩⟩
  case vcmp => exact fun ha _ _ m hm => does_vcmp hi (by omega) ha (mask_of_outcomes hm)

end Sys2Proof
end
